-- ==== Sys2Proof/Word.lean ====
section
/-! DEFINITION. The word types of the iSL core (spec/00_scope.md R7, R9; spec/30_encoding.md R120, R127): patterns that
the spec treats as bits. A handle names an address space or a data blob; the spec gives it no width, so it is a Nat. -/

namespace Sys2Proof

/-- A byte (R72). -/
abbrev Byte := BitVec 8

/-- A wide integer: a 128-bit pattern, read as unsigned or as two's complement by the operation (R151). -/
abbrev Wide := BitVec 128

/-- An 80-bit extended-precision pattern: sign 79, exponent 78:64, significand 63:0 (R120). -/
abbrev F80 := BitVec 80

/-- The exception flags an FE operation returns, in the bit order of `SW[5:0]` (R127). -/
abbrev Flags6 := BitVec 6

/-- A handle of an address space or of a data blob (R40, R42): a name without a width. -/
abbrev Handle := Nat

end Sys2Proof
end

