-- ==== Sys2Proof/Syntax.lean ====
section
/-! DEFINITION. The commands of the iSL core: one constructor per row of spec/opcode_table.json (spec/30_encoding.md R133),
with the operand fields of the command's rule in their stated widths. A command that acts on a context names it first
(`c`, R110); WI and ASM commands take no context, and the FE commands that do not read or write `RM` ignore it (R110), so
their constructors have none. `TLB.WRITE`'s operand `n` is the length of `data` (R363). -/

namespace Sys2Proof

/-- The access kind of `ASM.TRANSLATE` (R126): 0 READ, 1 WRITE. -/
inductive Access where
  | read
  | write
  deriving DecidableEq, Repr

/-- The host memory handed to `ASM.MAP` (R324): an invalid handle, or a region's bytes. -/
inductive HostMem where
  | invalid
  | region (bytes : List Byte)
  deriving DecidableEq, Repr

/-- The addressing descriptor (R48, R119): a register operand, or a memory operand whose `base` and `index` are 0…7 for a
general register and 8 for none. -/
inductive Desc where
  | reg (regop : BitVec 3)
  | mem (base index : BitVec 4) (shift : BitVec 2) (disp : BitVec 32)
  deriving DecidableEq, Repr

/-- A command with its operands (R110, R133). -/
inductive Instr where
  /-- `WI.FROMU64` (R152). -/
  | wiFromU64 (x : BitVec 64)
  /-- `WI.FROMS64` (R153). -/
  | wiFromS64 (x : BitVec 64)
  /-- `WI.TOU64` (R154). -/
  | wiToU64 (a : BitVec 128)
  /-- `WI.TOS64` (R155). -/
  | wiToS64 (a : BitVec 128)
  /-- `WI.UCMP` (R156). -/
  | wiUcmp (a b : BitVec 128)
  /-- `WI.SCMP` (R157). -/
  | wiScmp (a b : BitVec 128)
  /-- `WI.CLZ` (R158). -/
  | wiClz (a : BitVec 128)
  /-- `WI.NOT` (R159). -/
  | wiNot (a : BitVec 128)
  /-- `WI.AND` (R160). -/
  | wiAnd (a b : BitVec 128)
  /-- `WI.OR` (R161). -/
  | wiOr (a b : BitVec 128)
  /-- `WI.SHL` (R162). -/
  | wiShl (a : BitVec 128) (n : BitVec 32)
  /-- `WI.SHR` (R163). -/
  | wiShr (a : BitVec 128) (n : BitVec 32)
  /-- `WI.UADD` (R164). -/
  | wiUadd (a b : BitVec 128)
  /-- `WI.SADD` (R165). -/
  | wiSadd (a b : BitVec 128)
  /-- `WI.USUB` (R166). -/
  | wiUsub (a b : BitVec 128)
  /-- `WI.SSUB` (R167). -/
  | wiSsub (a b : BitVec 128)
  /-- `WI.UMUL` (R168). -/
  | wiUmul (a b : BitVec 128)
  /-- `WI.SMUL` (R169). -/
  | wiSmul (a b : BitVec 128)
  /-- `WI.UDIV` (R170). -/
  | wiUdiv (a b : BitVec 128)
  /-- `WI.SDIV` (R171). -/
  | wiSdiv (a b : BitVec 128)
  /-- `WI.NEG` (R172). -/
  | wiNeg (a : BitVec 128)
  /-- `FE.SETRM` (R210). -/
  | feSetRm (c : BitVec 32) (m : BitVec 2)
  /-- `FE.GETRM` (R211). -/
  | feGetRm (c : BitVec 32)
  /-- `FE.FROMI64` (R212). -/
  | feFromI64 (x : BitVec 64)
  /-- `FE.TOI64` (R213). -/
  | feToI64 (c : BitVec 32) (a : F80)
  /-- `FE.FROMF64` (R214). -/
  | feFromF64 (w : BitVec 64)
  /-- `FE.TOF64` (R215). -/
  | feToF64 (c : BitVec 32) (a : F80)
  /-- `FE.ADD` (R216). -/
  | feAdd (c : BitVec 32) (a b : F80)
  /-- `FE.SUB` (R217). -/
  | feSub (c : BitVec 32) (a b : F80)
  /-- `FE.MUL` (R218). -/
  | feMul (c : BitVec 32) (a b : F80)
  /-- `FE.DIV` (R219). -/
  | feDiv (c : BitVec 32) (a b : F80)
  /-- `FE.MOD` (R220). -/
  | feMod (a b : F80)
  /-- `FE.REM` (R221). -/
  | feRem (a b : F80)
  /-- `FE.ISNAN` (R222). -/
  | feIsNan (a : F80)
  /-- `FE.ISINF` (R223). -/
  | feIsInf (a : F80)
  /-- `FE.ISZERO` (R224). -/
  | feIsZero (a : F80)
  /-- `FE.ISDENORMAL` (R225). -/
  | feIsDenormal (a : F80)
  /-- `FE.ISSUPPORTED` (R226). -/
  | feIsSupported (a : F80)
  /-- `FE.CMP` (R227). -/
  | feCmp (a b : F80)
  /-- `FE.LT` (R228). -/
  | feLt (a b : F80)
  /-- `FE.EQ` (R229). -/
  | feEq (a b : F80)
  /-- `FE.NEG` (R230). -/
  | feNeg (a : F80)
  /-- `FE.ABS` (R231). -/
  | feAbs (a : F80)
  /-- `FE.LOG2` (R232). -/
  | feLog2 (c : BitVec 32) (a : F80)
  /-- `FE.SQRT` (R233). -/
  | feSqrt (c : BitVec 32) (a : F80)
  /-- `FE.SCALE` (R234). -/
  | feScale (c : BitVec 32) (a : F80) (n : BitVec 32)
  /-- `FPU.INIT` (R264). -/
  | fpuInit (c : BitVec 32)
  /-- `FPU.LD` (R265). -/
  | fpuLd (c : BitVec 32) (i : BitVec 3)
  /-- `FPU.ST` (R266). -/
  | fpuSt (c : BitVec 32) (i : BitVec 3)
  /-- `FPU.POP` (R267). -/
  | fpuPop (c : BitVec 32)
  /-- `FPU.GETST` (R268). -/
  | fpuGetSt (c : BitVec 32) (i : BitVec 3)
  /-- `FPU.SETST` (R269). -/
  | fpuSetSt (c : BitVec 32) (i : BitVec 3) (v : F80) (valid : Bool)
  /-- `FPU.LDI16` (R271). -/
  | fpuLdI16 (c : BitVec 32) (x : BitVec 16)
  /-- `FPU.LDI32` (R272). -/
  | fpuLdI32 (c x : BitVec 32)
  /-- `FPU.LDI64` (R273). -/
  | fpuLdI64 (c : BitVec 32) (x : BitVec 64)
  /-- `FPU.LDF32` (R274). -/
  | fpuLdF32 (c w : BitVec 32)
  /-- `FPU.LDF64` (R275). -/
  | fpuLdF64 (c : BitVec 32) (w : BitVec 64)
  /-- `FPU.LDF80` (R276). -/
  | fpuLdF80 (c : BitVec 32) (v : F80)
  /-- `FPU.STI16` (R277). -/
  | fpuStI16 (c : BitVec 32)
  /-- `FPU.STI32` (R278). -/
  | fpuStI32 (c : BitVec 32)
  /-- `FPU.STI64` (R279). -/
  | fpuStI64 (c : BitVec 32)
  /-- `FPU.STF32` (R280). -/
  | fpuStF32 (c : BitVec 32)
  /-- `FPU.STF64` (R281). -/
  | fpuStF64 (c : BitVec 32)
  /-- `FPU.STF80` (R282). -/
  | fpuStF80 (c : BitVec 32)
  /-- `FPU.ADD` (R284). -/
  | fpuAdd (c : BitVec 32) (dst src : BitVec 3)
  /-- `FPU.SUB` (R285). -/
  | fpuSub (c : BitVec 32) (dst src : BitVec 3)
  /-- `FPU.MUL` (R286). -/
  | fpuMul (c : BitVec 32) (dst src : BitVec 3)
  /-- `FPU.DIV` (R287). -/
  | fpuDiv (c : BitVec 32) (dst src : BitVec 3)
  /-- `FPU.MOD` (R288). -/
  | fpuMod (c : BitVec 32) (dst src : BitVec 3)
  /-- `FPU.REM` (R289). -/
  | fpuRem (c : BitVec 32) (dst src : BitVec 3)
  /-- `FPU.NEG` (R290). -/
  | fpuNeg (c : BitVec 32) (dst : BitVec 3)
  /-- `FPU.ABS` (R291). -/
  | fpuAbs (c : BitVec 32) (dst : BitVec 3)
  /-- `FPU.SQRT` (R292). -/
  | fpuSqrt (c : BitVec 32) (dst : BitVec 3)
  /-- `FPU.LOG2` (R293). -/
  | fpuLog2 (c : BitVec 32) (dst : BitVec 3)
  /-- `FPU.SCALE` (R294). -/
  | fpuScale (c : BitVec 32) (dst src : BitVec 3)
  /-- `FPU.COM` (R295). -/
  | fpuCom (c : BitVec 32) (x y : BitVec 3)
  /-- `FPU.LDCW` (R297). -/
  | fpuLdCw (c : BitVec 32) (v : BitVec 16)
  /-- `FPU.STCW` (R298). -/
  | fpuStCw (c : BitVec 32)
  /-- `FPU.STSW` (R299). -/
  | fpuStSw (c : BitVec 32)
  /-- `FPU.CONST1` (R300). -/
  | fpuConst1 (c : BitVec 32)
  /-- `FPU.CONSTL2T` (R301). -/
  | fpuConstL2T (c : BitVec 32)
  /-- `FPU.CONSTL2E` (R302). -/
  | fpuConstL2E (c : BitVec 32)
  /-- `FPU.CONSTPI` (R303). -/
  | fpuConstPi (c : BitVec 32)
  /-- `FPU.CONSTLG2` (R304). -/
  | fpuConstLg2 (c : BitVec 32)
  /-- `FPU.CONSTLN2` (R305). -/
  | fpuConstLn2 (c : BitVec 32)
  /-- `FPU.CONSTZ` (R306). -/
  | fpuConstZ (c : BitVec 32)
  /-- `ASM.CREATE` (R321). -/
  | asmCreate
  /-- `ASM.RETAIN` (R322). -/
  | asmRetain (m : BitVec 64)
  /-- `ASM.RELEASE` (R323). -/
  | asmRelease (m : BitVec 64)
  /-- `ASM.MAP` (R324). -/
  | asmMap (m : BitVec 64) (page : BitVec 20) (count : BitVec 32) (host : HostMem) (flags : BitVec 7)
  /-- `ASM.MAPANON` (R325). -/
  | asmMapAnon (m : BitVec 64) (page : BitVec 20) (count : BitVec 32) (flags : BitVec 7)
  /-- `ASM.UNMAP` (R326). -/
  | asmUnmap (m : BitVec 64) (page : BitVec 20) (count : BitVec 32) (force : Bool)
  /-- `ASM.SETPROT` (R327). -/
  | asmSetProt (m : BitVec 64) (page : BitVec 20) (count : BitVec 32) (flags : BitVec 7)
  /-- `ASM.COW` (R329). -/
  | asmCow (m : BitVec 64) (page : BitVec 20) (count : BitVec 32) (m2 : BitVec 64) (page2 : BitVec 20)
  /-- `ASM.FINDHOLE` (R330). -/
  | asmFindHole (m : BitVec 64) (n : BitVec 32)
  /-- `ASM.TRANSLATE` (R331). -/
  | asmTranslate (m : BitVec 64) (addr : BitVec 32) (kind : Access)
  /-- `TLB.READ` (R362). -/
  | tlbRead (c addr n : BitVec 32)
  /-- `TLB.WRITE` (R363). -/
  | tlbWrite (c addr : BitVec 32) (data : List Byte)
  /-- `TLB.FLUSH` (R368). -/
  | tlbFlush (c : BitVec 32)
  /-- `TLB.REVALIDATE` (R369). -/
  | tlbRevalidate (c : BitVec 32)
  /-- `TLB.ATTACH` (R370). -/
  | tlbAttach (c : BitVec 32) (m : BitVec 64)
  /-- `CPU.GETREG32` (R391). -/
  | cpuGetReg32 (c : BitVec 32) (i : BitVec 3)
  /-- `CPU.SETREG32` (R392). -/
  | cpuSetReg32 (c : BitVec 32) (i : BitVec 3) (v : BitVec 32)
  /-- `CPU.GETREG16` (R393). -/
  | cpuGetReg16 (c : BitVec 32) (i : BitVec 3)
  /-- `CPU.SETREG16` (R394). -/
  | cpuSetReg16 (c : BitVec 32) (i : BitVec 3) (v : BitVec 16)
  /-- `CPU.GETREG8` (R395). -/
  | cpuGetReg8 (c : BitVec 32) (j : BitVec 3)
  /-- `CPU.SETREG8` (R396). -/
  | cpuSetReg8 (c : BitVec 32) (j : BitVec 3) (v : BitVec 8)
  /-- `CPU.GETEIP` (R397). -/
  | cpuGetEip (c : BitVec 32)
  /-- `CPU.SETEIP` (R398). -/
  | cpuSetEip (c v : BitVec 32)
  /-- `CPU.GETXMM` (R399). -/
  | cpuGetXmm (c : BitVec 32) (i : BitVec 3)
  /-- `CPU.SETXMM` (R400). -/
  | cpuSetXmm (c : BitVec 32) (i : BitVec 3) (v : BitVec 128)
  /-- `CPU.GETSEG` (R409). -/
  | cpuGetSeg (c : BitVec 32) (i : BitVec 3)
  /-- `CPU.SETSEG` (R410). -/
  | cpuSetSeg (c : BitVec 32) (i : BitVec 3) (v : BitVec 16)
  /-- `CPU.RECORD` (R401). -/
  | cpuRecord (c res op1 op2 : BitVec 32)
  /-- `CPU.GETFLAG` (R402). -/
  | cpuGetFlag (c : BitVec 32) (sel : BitVec 3)
  /-- `CPU.SETFLAG` (R403). -/
  | cpuSetFlag (c : BitVec 32) (sel : BitVec 3) (v : Bool)
  /-- `CPU.MATERIALIZE` (R404). -/
  | cpuMaterialize (c : BitVec 32)
  /-- `CPU.EXPAND` (R405). -/
  | cpuExpand (c : BitVec 32)
  /-- `CPU.GETEFLAGS` (R406). -/
  | cpuGetEflags (c : BitVec 32)
  /-- `CPU.SETEFLAGS` (R407). -/
  | cpuSetEflags (c v : BitVec 32)
  /-- `CPU.GETFAULTADDR` (R408). -/
  | cpuGetFaultAddr (c : BitVec 32)
  /-- `DEC.MODRM` (R431). -/
  | decModRm (c cursor : BitVec 32)
  /-- `DEC.EA` (R440). -/
  | decEa (c : BitVec 32) (desc : Desc)
  deriving DecidableEq, Repr

end Sys2Proof
end

