-- ==== Sys2Proof/WellFormed.lean ====
section
/-! DEFINITION. Well-formed commands: the operand fields that the constructors' types do not bound already. Every other
field has its stated width as its type (R110, R114), and a value outside a rule's legal range is not ill-formed: the
command is issued and answers `ILLEGAL_OPERAND`. -/

namespace Sys2Proof

/-- A region's length fits the 64-bit length field of the command packet (log 1). -/
def HostMem.wf : HostMem → Bool
  | .invalid => true
  | .region bytes => decide (bytes.length < 2 ^ 64)

/-- `TLB.WRITE`'s byte count is a `u32` (R363). -/
def dataWf (data : List Byte) : Bool := decide (data.length < 2 ^ 32)

/-- Which commands can be laid on the command port. -/
def Instr.wf : Instr → Bool
  | .asmMap _ _ _ host _ => host.wf
  | .tlbWrite _ _ data => dataWf data
  | _ => true

end Sys2Proof
end

