-- ==== Sys2Proof/Decode.lean ====
section
/-! DEFINITION. The command packet: decoding, total on any bytes and rejecting by name, and after it the encoder. The
command codes are the spec's (spec/30_encoding.md R110, R111, R133). The spec gives no byte layout of a command (N4), so
the packet's layout is the model's own (log 1): `cmd` as two bytes, low byte first; the context name as four bytes, in every
packet; then the operand fields in the order of spec/opcode_table.json, each in whole bytes, low byte first (R73). Bytes
after the last operand are not read. -/

namespace Sys2Proof

/-- Why a packet is not a command of the block. -/
inductive Reject where
  /-- The code is not in R133 (R114): the block answers `ILLEGAL_COMMAND`. -/
  | illegalCommand
  /-- A field holds a value that its stated width cannot (R114): the block answers `ILLEGAL_OPERAND`. -/
  | illegalOperand
  /-- The packet ends before its operands do: no command of the spec (log 3). -/
  | truncated
  deriving DecidableEq, Repr

/-- `n` bytes of `v`, the least significant first (R73, `bytes_le`). -/
def leBytes : Nat → Nat → List Byte
  | 0, _ => []
  | n + 1, v => BitVec.ofNat 8 v :: leBytes n (v / 256)

/-- The number whose bytes, least significant first, are given (R73, `le`). -/
def leNat : List Byte → Nat
  | [] => 0
  | b :: rest => b.toNat + 256 * leNat rest

/-- A reader of packet bytes: a value and the bytes after it, or a reason. -/
def Parse (α : Type) : Type := List Byte → Except Reject (α × List Byte)

/-- Read nothing. -/
def Parse.ret {α : Type} (a : α) : Parse α := fun bs => .ok (a, bs)

/-- Read one thing after another. -/
def Parse.andThen {α β : Type} (p : Parse α) (f : α → Parse β) : Parse β := fun bs =>
  match p bs with
  | .ok (a, rest) => f a rest
  | .error e => .error e

/-- The bytes a field of `w` bits takes. -/
def fieldBytes (w : Nat) : Nat := (w + 7) / 8

/-- One operand field of `w` bits; a value its width cannot hold is refused (R114; log 4). -/
def Parse.field (w : Nat) : Parse (BitVec w) := fun bs =>
  if bs.length < fieldBytes w then .error .truncated
  else if leNat (bs.take (fieldBytes w)) < 2 ^ w then
    .ok (BitVec.ofNat w (leNat (bs.take (fieldBytes w))), bs.drop (fieldBytes w))
  else .error .illegalOperand

/-- A `u1` field as a truth value. -/
def Parse.bit : Parse Bool := (Parse.field 1).andThen fun b => Parse.ret (b == 1#1)

/-- The access kind (R126). -/
def Parse.access : Parse Access := (Parse.field 1).andThen fun b => Parse.ret (if b == 1#1 then .write else .read)

/-- A run of bytes after its own length, which takes `k` bytes. -/
def Parse.counted (k : Nat) : Parse (List Byte) := fun bs =>
  if bs.length < k then .error .truncated
  else if (bs.drop k).length < leNat (bs.take k) then .error .truncated
  else .ok ((bs.drop k).take (leNat (bs.take k)), (bs.drop k).drop (leNat (bs.take k)))

/-- The host memory of `ASM.MAP` (R324): 0 for an invalid handle or 1 for a region, then the region's length and bytes, which
have no meaning for an invalid handle (DESIGN CHOICE; log 1). -/
def Parse.hostMem : Parse HostMem := Parse.bit.andThen fun valid =>
  (Parse.counted 8).andThen fun bytes => Parse.ret (if valid then .region bytes else .invalid)

/-- A descriptor (R119): all six of its fields, whatever its kind, so that `DEC.EA` has one length and one format (R110). The
fields without a meaning for the kind are read as fields and then ignored (DESIGN CHOICE; log 1). -/
def Parse.desc : Parse Desc := Parse.bit.andThen fun isMem =>
  (Parse.field 3).andThen fun regop => (Parse.field 4).andThen fun base => (Parse.field 4).andThen fun index =>
    (Parse.field 2).andThen fun shift => (Parse.field 32).andThen fun disp =>
      Parse.ret (if isMem then .mem base index shift disp else .reg regop)

/-- A command of one operand field. -/
def Parse.args1 {w : Nat} (f : BitVec w → Instr) : Parse Instr := (Parse.field w).andThen fun x => Parse.ret (f x)

/-- A command of two operand fields. -/
def Parse.args2 {v w : Nat} (f : BitVec v → BitVec w → Instr) : Parse Instr :=
  (Parse.field v).andThen fun x => Parse.args1 (f x)

/-- A command of three operand fields. -/
def Parse.args3 {u v w : Nat} (f : BitVec u → BitVec v → BitVec w → Instr) : Parse Instr :=
  (Parse.field u).andThen fun x => Parse.args2 (f x)

/-- The operation map (R133): the operands of the command with this code, given its context; none where the code is not
listed (R114). -/
def operandForm (cmd : Nat) : Option (BitVec 32 → Parse Instr) :=
  match cmd with
  | 0x0100 => some fun _ => Parse.args1 .wiFromU64
  | 0x0101 => some fun _ => Parse.args1 .wiFromS64
  | 0x0102 => some fun _ => Parse.args1 .wiToU64
  | 0x0103 => some fun _ => Parse.args1 .wiToS64
  | 0x0104 => some fun _ => Parse.args2 .wiUcmp
  | 0x0105 => some fun _ => Parse.args2 .wiScmp
  | 0x0106 => some fun _ => Parse.args1 .wiClz
  | 0x0107 => some fun _ => Parse.args1 .wiNot
  | 0x0108 => some fun _ => Parse.args2 .wiAnd
  | 0x0109 => some fun _ => Parse.args2 .wiOr
  | 0x010A => some fun _ => Parse.args2 .wiShl
  | 0x010B => some fun _ => Parse.args2 .wiShr
  | 0x010C => some fun _ => Parse.args2 .wiUadd
  | 0x010D => some fun _ => Parse.args2 .wiSadd
  | 0x010E => some fun _ => Parse.args2 .wiUsub
  | 0x010F => some fun _ => Parse.args2 .wiSsub
  | 0x0110 => some fun _ => Parse.args2 .wiUmul
  | 0x0111 => some fun _ => Parse.args2 .wiSmul
  | 0x0112 => some fun _ => Parse.args2 .wiUdiv
  | 0x0113 => some fun _ => Parse.args2 .wiSdiv
  | 0x0114 => some fun _ => Parse.args1 .wiNeg
  | 0x0200 => some fun c => Parse.args1 (.feSetRm c)
  | 0x0201 => some fun c => Parse.ret (.feGetRm c)
  | 0x0202 => some fun _ => Parse.args1 .feFromI64
  | 0x0203 => some fun c => Parse.args1 (.feToI64 c)
  | 0x0204 => some fun _ => Parse.args1 .feFromF64
  | 0x0205 => some fun c => Parse.args1 (.feToF64 c)
  | 0x0206 => some fun c => Parse.args2 (.feAdd c)
  | 0x0207 => some fun c => Parse.args2 (.feSub c)
  | 0x0208 => some fun c => Parse.args2 (.feMul c)
  | 0x0209 => some fun c => Parse.args2 (.feDiv c)
  | 0x020A => some fun _ => Parse.args2 .feMod
  | 0x020B => some fun _ => Parse.args2 .feRem
  | 0x020C => some fun _ => Parse.args1 .feIsNan
  | 0x020D => some fun _ => Parse.args1 .feIsInf
  | 0x020E => some fun _ => Parse.args1 .feIsZero
  | 0x020F => some fun _ => Parse.args1 .feIsDenormal
  | 0x0210 => some fun _ => Parse.args1 .feIsSupported
  | 0x0211 => some fun _ => Parse.args2 .feCmp
  | 0x0212 => some fun _ => Parse.args2 .feLt
  | 0x0213 => some fun _ => Parse.args2 .feEq
  | 0x0214 => some fun _ => Parse.args1 .feNeg
  | 0x0215 => some fun _ => Parse.args1 .feAbs
  | 0x0216 => some fun c => Parse.args1 (.feLog2 c)
  | 0x0217 => some fun c => Parse.args1 (.feSqrt c)
  | 0x0218 => some fun c => Parse.args2 (.feScale c)
  | 0x0300 => some fun c => Parse.ret (.fpuInit c)
  | 0x0301 => some fun c => Parse.args1 (.fpuLd c)
  | 0x0302 => some fun c => Parse.args1 (.fpuSt c)
  | 0x0303 => some fun c => Parse.ret (.fpuPop c)
  | 0x0304 => some fun c => Parse.args1 (.fpuGetSt c)
  | 0x0305 => some fun c =>
      (Parse.field 3).andThen fun i => (Parse.field 80).andThen fun v => Parse.bit.andThen fun valid =>
        Parse.ret (.fpuSetSt c i v valid)
  | 0x0306 => some fun c => Parse.args1 (.fpuLdI16 c)
  | 0x0307 => some fun c => Parse.args1 (.fpuLdI32 c)
  | 0x0308 => some fun c => Parse.args1 (.fpuLdI64 c)
  | 0x0309 => some fun c => Parse.args1 (.fpuLdF32 c)
  | 0x030A => some fun c => Parse.args1 (.fpuLdF64 c)
  | 0x030B => some fun c => Parse.args1 (.fpuLdF80 c)
  | 0x030C => some fun c => Parse.ret (.fpuStI16 c)
  | 0x030D => some fun c => Parse.ret (.fpuStI32 c)
  | 0x030E => some fun c => Parse.ret (.fpuStI64 c)
  | 0x030F => some fun c => Parse.ret (.fpuStF32 c)
  | 0x0310 => some fun c => Parse.ret (.fpuStF64 c)
  | 0x0311 => some fun c => Parse.ret (.fpuStF80 c)
  | 0x0312 => some fun c => Parse.args2 (.fpuAdd c)
  | 0x0313 => some fun c => Parse.args2 (.fpuSub c)
  | 0x0314 => some fun c => Parse.args2 (.fpuMul c)
  | 0x0315 => some fun c => Parse.args2 (.fpuDiv c)
  | 0x0316 => some fun c => Parse.args2 (.fpuMod c)
  | 0x0317 => some fun c => Parse.args2 (.fpuRem c)
  | 0x0318 => some fun c => Parse.args1 (.fpuNeg c)
  | 0x0319 => some fun c => Parse.args1 (.fpuAbs c)
  | 0x031A => some fun c => Parse.args1 (.fpuSqrt c)
  | 0x031B => some fun c => Parse.args1 (.fpuLog2 c)
  | 0x031C => some fun c => Parse.args2 (.fpuScale c)
  | 0x031D => some fun c => Parse.args2 (.fpuCom c)
  | 0x031E => some fun c => Parse.args1 (.fpuLdCw c)
  | 0x031F => some fun c => Parse.ret (.fpuStCw c)
  | 0x0320 => some fun c => Parse.ret (.fpuStSw c)
  | 0x0321 => some fun c => Parse.ret (.fpuConst1 c)
  | 0x0322 => some fun c => Parse.ret (.fpuConstL2T c)
  | 0x0323 => some fun c => Parse.ret (.fpuConstL2E c)
  | 0x0324 => some fun c => Parse.ret (.fpuConstPi c)
  | 0x0325 => some fun c => Parse.ret (.fpuConstLg2 c)
  | 0x0326 => some fun c => Parse.ret (.fpuConstLn2 c)
  | 0x0327 => some fun c => Parse.ret (.fpuConstZ c)
  | 0x0400 => some fun _ => Parse.ret .asmCreate
  | 0x0401 => some fun _ => Parse.args1 .asmRetain
  | 0x0402 => some fun _ => Parse.args1 .asmRelease
  | 0x0403 => some fun _ =>
      (Parse.field 64).andThen fun m => (Parse.field 20).andThen fun page =>
        (Parse.field 32).andThen fun count => Parse.hostMem.andThen fun host =>
        (Parse.field 7).andThen fun flags => Parse.ret (.asmMap m page count host flags)
  | 0x0404 => some fun _ =>
      (Parse.field 64).andThen fun m => (Parse.field 20).andThen fun page =>
        (Parse.field 32).andThen fun count => (Parse.field 7).andThen fun flags =>
        Parse.ret (.asmMapAnon m page count flags)
  | 0x0405 => some fun _ =>
      (Parse.field 64).andThen fun m => (Parse.field 20).andThen fun page =>
        (Parse.field 32).andThen fun count => Parse.bit.andThen fun force =>
        Parse.ret (.asmUnmap m page count force)
  | 0x0406 => some fun _ =>
      (Parse.field 64).andThen fun m => (Parse.field 20).andThen fun page =>
        (Parse.field 32).andThen fun count => (Parse.field 7).andThen fun flags =>
        Parse.ret (.asmSetProt m page count flags)
  | 0x0407 => some fun _ =>
      (Parse.field 64).andThen fun m => (Parse.field 20).andThen fun page =>
        (Parse.field 32).andThen fun count => (Parse.field 64).andThen fun m2 =>
        (Parse.field 20).andThen fun page2 => Parse.ret (.asmCow m page count m2 page2)
  | 0x0408 => some fun _ => Parse.args2 .asmFindHole
  | 0x0409 => some fun _ =>
      (Parse.field 64).andThen fun m => (Parse.field 32).andThen fun addr => Parse.access.andThen fun kind =>
        Parse.ret (.asmTranslate m addr kind)
  | 0x0500 => some fun c => Parse.args2 (.tlbRead c)
  | 0x0501 => some fun c =>
      (Parse.field 32).andThen fun addr => (Parse.counted 4).andThen fun data =>
        Parse.ret (.tlbWrite c addr data)
  | 0x0502 => some fun c => Parse.ret (.tlbFlush c)
  | 0x0503 => some fun c => Parse.ret (.tlbRevalidate c)
  | 0x0504 => some fun c => Parse.args1 (.tlbAttach c)
  | 0x0600 => some fun c => Parse.args1 (.cpuGetReg32 c)
  | 0x0601 => some fun c => Parse.args2 (.cpuSetReg32 c)
  | 0x0602 => some fun c => Parse.args1 (.cpuGetReg16 c)
  | 0x0603 => some fun c => Parse.args2 (.cpuSetReg16 c)
  | 0x0604 => some fun c => Parse.args1 (.cpuGetReg8 c)
  | 0x0605 => some fun c => Parse.args2 (.cpuSetReg8 c)
  | 0x0606 => some fun c => Parse.ret (.cpuGetEip c)
  | 0x0607 => some fun c => Parse.args1 (.cpuSetEip c)
  | 0x0608 => some fun c => Parse.args1 (.cpuGetXmm c)
  | 0x0609 => some fun c => Parse.args2 (.cpuSetXmm c)
  | 0x060A => some fun c => Parse.args1 (.cpuGetSeg c)
  | 0x060B => some fun c => Parse.args2 (.cpuSetSeg c)
  | 0x060C => some fun c => Parse.args3 (.cpuRecord c)
  | 0x060D => some fun c => Parse.args1 (.cpuGetFlag c)
  | 0x060E => some fun c =>
      (Parse.field 3).andThen fun sel => Parse.bit.andThen fun v => Parse.ret (.cpuSetFlag c sel v)
  | 0x060F => some fun c => Parse.ret (.cpuMaterialize c)
  | 0x0610 => some fun c => Parse.ret (.cpuExpand c)
  | 0x0611 => some fun c => Parse.ret (.cpuGetEflags c)
  | 0x0612 => some fun c => Parse.args1 (.cpuSetEflags c)
  | 0x0613 => some fun c => Parse.ret (.cpuGetFaultAddr c)
  | 0x0700 => some fun c => Parse.args1 (.decModRm c)
  | 0x0701 => some fun c => Parse.desc.andThen fun desc => Parse.ret (.decEa c desc)
  | _ => none

/-- The command a packet holds, or why it holds none. The code is looked at first (R471 (1)), then the operands. -/
def decode : List Byte → Except Reject Instr
  | b0 :: b1 :: rest =>
    match operandForm (leNat [b0, b1]) with
    | none => .error .illegalCommand
    | some form =>
      match (Parse.field 32).andThen form rest with
      | .ok (i, _) => .ok i
      | .error e => .error e
  | _ => .error .truncated

/-- `cmd` of a command (R133): the unit code in bits 15:8, the function code in bits 7:0 (R110). -/
def opcode : Instr → Nat
  | .wiFromU64 _ => 0x0100
  | .wiFromS64 _ => 0x0101
  | .wiToU64 _ => 0x0102
  | .wiToS64 _ => 0x0103
  | .wiUcmp _ _ => 0x0104
  | .wiScmp _ _ => 0x0105
  | .wiClz _ => 0x0106
  | .wiNot _ => 0x0107
  | .wiAnd _ _ => 0x0108
  | .wiOr _ _ => 0x0109
  | .wiShl _ _ => 0x010A
  | .wiShr _ _ => 0x010B
  | .wiUadd _ _ => 0x010C
  | .wiSadd _ _ => 0x010D
  | .wiUsub _ _ => 0x010E
  | .wiSsub _ _ => 0x010F
  | .wiUmul _ _ => 0x0110
  | .wiSmul _ _ => 0x0111
  | .wiUdiv _ _ => 0x0112
  | .wiSdiv _ _ => 0x0113
  | .wiNeg _ => 0x0114
  | .feSetRm _ _ => 0x0200
  | .feGetRm _ => 0x0201
  | .feFromI64 _ => 0x0202
  | .feToI64 _ _ => 0x0203
  | .feFromF64 _ => 0x0204
  | .feToF64 _ _ => 0x0205
  | .feAdd _ _ _ => 0x0206
  | .feSub _ _ _ => 0x0207
  | .feMul _ _ _ => 0x0208
  | .feDiv _ _ _ => 0x0209
  | .feMod _ _ => 0x020A
  | .feRem _ _ => 0x020B
  | .feIsNan _ => 0x020C
  | .feIsInf _ => 0x020D
  | .feIsZero _ => 0x020E
  | .feIsDenormal _ => 0x020F
  | .feIsSupported _ => 0x0210
  | .feCmp _ _ => 0x0211
  | .feLt _ _ => 0x0212
  | .feEq _ _ => 0x0213
  | .feNeg _ => 0x0214
  | .feAbs _ => 0x0215
  | .feLog2 _ _ => 0x0216
  | .feSqrt _ _ => 0x0217
  | .feScale _ _ _ => 0x0218
  | .fpuInit _ => 0x0300
  | .fpuLd _ _ => 0x0301
  | .fpuSt _ _ => 0x0302
  | .fpuPop _ => 0x0303
  | .fpuGetSt _ _ => 0x0304
  | .fpuSetSt _ _ _ _ => 0x0305
  | .fpuLdI16 _ _ => 0x0306
  | .fpuLdI32 _ _ => 0x0307
  | .fpuLdI64 _ _ => 0x0308
  | .fpuLdF32 _ _ => 0x0309
  | .fpuLdF64 _ _ => 0x030A
  | .fpuLdF80 _ _ => 0x030B
  | .fpuStI16 _ => 0x030C
  | .fpuStI32 _ => 0x030D
  | .fpuStI64 _ => 0x030E
  | .fpuStF32 _ => 0x030F
  | .fpuStF64 _ => 0x0310
  | .fpuStF80 _ => 0x0311
  | .fpuAdd _ _ _ => 0x0312
  | .fpuSub _ _ _ => 0x0313
  | .fpuMul _ _ _ => 0x0314
  | .fpuDiv _ _ _ => 0x0315
  | .fpuMod _ _ _ => 0x0316
  | .fpuRem _ _ _ => 0x0317
  | .fpuNeg _ _ => 0x0318
  | .fpuAbs _ _ => 0x0319
  | .fpuSqrt _ _ => 0x031A
  | .fpuLog2 _ _ => 0x031B
  | .fpuScale _ _ _ => 0x031C
  | .fpuCom _ _ _ => 0x031D
  | .fpuLdCw _ _ => 0x031E
  | .fpuStCw _ => 0x031F
  | .fpuStSw _ => 0x0320
  | .fpuConst1 _ => 0x0321
  | .fpuConstL2T _ => 0x0322
  | .fpuConstL2E _ => 0x0323
  | .fpuConstPi _ => 0x0324
  | .fpuConstLg2 _ => 0x0325
  | .fpuConstLn2 _ => 0x0326
  | .fpuConstZ _ => 0x0327
  | .asmCreate => 0x0400
  | .asmRetain _ => 0x0401
  | .asmRelease _ => 0x0402
  | .asmMap _ _ _ _ _ => 0x0403
  | .asmMapAnon _ _ _ _ => 0x0404
  | .asmUnmap _ _ _ _ => 0x0405
  | .asmSetProt _ _ _ _ => 0x0406
  | .asmCow _ _ _ _ _ => 0x0407
  | .asmFindHole _ _ => 0x0408
  | .asmTranslate _ _ _ => 0x0409
  | .tlbRead _ _ _ => 0x0500
  | .tlbWrite _ _ _ => 0x0501
  | .tlbFlush _ => 0x0502
  | .tlbRevalidate _ => 0x0503
  | .tlbAttach _ _ => 0x0504
  | .cpuGetReg32 _ _ => 0x0600
  | .cpuSetReg32 _ _ _ => 0x0601
  | .cpuGetReg16 _ _ => 0x0602
  | .cpuSetReg16 _ _ _ => 0x0603
  | .cpuGetReg8 _ _ => 0x0604
  | .cpuSetReg8 _ _ _ => 0x0605
  | .cpuGetEip _ => 0x0606
  | .cpuSetEip _ _ => 0x0607
  | .cpuGetXmm _ _ => 0x0608
  | .cpuSetXmm _ _ _ => 0x0609
  | .cpuGetSeg _ _ => 0x060A
  | .cpuSetSeg _ _ _ => 0x060B
  | .cpuRecord _ _ _ _ => 0x060C
  | .cpuGetFlag _ _ => 0x060D
  | .cpuSetFlag _ _ _ => 0x060E
  | .cpuMaterialize _ => 0x060F
  | .cpuExpand _ => 0x0610
  | .cpuGetEflags _ => 0x0611
  | .cpuSetEflags _ _ => 0x0612
  | .cpuGetFaultAddr _ => 0x0613
  | .decModRm _ _ => 0x0700
  | .decEa _ _ => 0x0701

/-- The context a command names; 0 in the packet of a command that takes none (R110). -/
def contextOf : Instr → BitVec 32
  | .wiFromU64 _ => 0
  | .wiFromS64 _ => 0
  | .wiToU64 _ => 0
  | .wiToS64 _ => 0
  | .wiUcmp _ _ => 0
  | .wiScmp _ _ => 0
  | .wiClz _ => 0
  | .wiNot _ => 0
  | .wiAnd _ _ => 0
  | .wiOr _ _ => 0
  | .wiShl _ _ => 0
  | .wiShr _ _ => 0
  | .wiUadd _ _ => 0
  | .wiSadd _ _ => 0
  | .wiUsub _ _ => 0
  | .wiSsub _ _ => 0
  | .wiUmul _ _ => 0
  | .wiSmul _ _ => 0
  | .wiUdiv _ _ => 0
  | .wiSdiv _ _ => 0
  | .wiNeg _ => 0
  | .feSetRm c _ => c
  | .feGetRm c => c
  | .feFromI64 _ => 0
  | .feToI64 c _ => c
  | .feFromF64 _ => 0
  | .feToF64 c _ => c
  | .feAdd c _ _ => c
  | .feSub c _ _ => c
  | .feMul c _ _ => c
  | .feDiv c _ _ => c
  | .feMod _ _ => 0
  | .feRem _ _ => 0
  | .feIsNan _ => 0
  | .feIsInf _ => 0
  | .feIsZero _ => 0
  | .feIsDenormal _ => 0
  | .feIsSupported _ => 0
  | .feCmp _ _ => 0
  | .feLt _ _ => 0
  | .feEq _ _ => 0
  | .feNeg _ => 0
  | .feAbs _ => 0
  | .feLog2 c _ => c
  | .feSqrt c _ => c
  | .feScale c _ _ => c
  | .fpuInit c => c
  | .fpuLd c _ => c
  | .fpuSt c _ => c
  | .fpuPop c => c
  | .fpuGetSt c _ => c
  | .fpuSetSt c _ _ _ => c
  | .fpuLdI16 c _ => c
  | .fpuLdI32 c _ => c
  | .fpuLdI64 c _ => c
  | .fpuLdF32 c _ => c
  | .fpuLdF64 c _ => c
  | .fpuLdF80 c _ => c
  | .fpuStI16 c => c
  | .fpuStI32 c => c
  | .fpuStI64 c => c
  | .fpuStF32 c => c
  | .fpuStF64 c => c
  | .fpuStF80 c => c
  | .fpuAdd c _ _ => c
  | .fpuSub c _ _ => c
  | .fpuMul c _ _ => c
  | .fpuDiv c _ _ => c
  | .fpuMod c _ _ => c
  | .fpuRem c _ _ => c
  | .fpuNeg c _ => c
  | .fpuAbs c _ => c
  | .fpuSqrt c _ => c
  | .fpuLog2 c _ => c
  | .fpuScale c _ _ => c
  | .fpuCom c _ _ => c
  | .fpuLdCw c _ => c
  | .fpuStCw c => c
  | .fpuStSw c => c
  | .fpuConst1 c => c
  | .fpuConstL2T c => c
  | .fpuConstL2E c => c
  | .fpuConstPi c => c
  | .fpuConstLg2 c => c
  | .fpuConstLn2 c => c
  | .fpuConstZ c => c
  | .asmCreate => 0
  | .asmRetain _ => 0
  | .asmRelease _ => 0
  | .asmMap _ _ _ _ _ => 0
  | .asmMapAnon _ _ _ _ => 0
  | .asmUnmap _ _ _ _ => 0
  | .asmSetProt _ _ _ _ => 0
  | .asmCow _ _ _ _ _ => 0
  | .asmFindHole _ _ => 0
  | .asmTranslate _ _ _ => 0
  | .tlbRead c _ _ => c
  | .tlbWrite c _ _ => c
  | .tlbFlush c => c
  | .tlbRevalidate c => c
  | .tlbAttach c _ => c
  | .cpuGetReg32 c _ => c
  | .cpuSetReg32 c _ _ => c
  | .cpuGetReg16 c _ => c
  | .cpuSetReg16 c _ _ => c
  | .cpuGetReg8 c _ => c
  | .cpuSetReg8 c _ _ => c
  | .cpuGetEip c => c
  | .cpuSetEip c _ => c
  | .cpuGetXmm c _ => c
  | .cpuSetXmm c _ _ => c
  | .cpuGetSeg c _ => c
  | .cpuSetSeg c _ _ => c
  | .cpuRecord c _ _ _ => c
  | .cpuGetFlag c _ => c
  | .cpuSetFlag c _ _ => c
  | .cpuMaterialize c => c
  | .cpuExpand c => c
  | .cpuGetEflags c => c
  | .cpuSetEflags c _ => c
  | .cpuGetFaultAddr c => c
  | .decModRm c _ => c
  | .decEa c _ => c

/-- The bytes of one field. -/
def fieldOf {w : Nat} (x : BitVec w) : List Byte := leBytes (fieldBytes w) x.toNat

/-- The byte of a `u1` field. -/
def bitOf (b : Bool) : List Byte := fieldOf (BitVec.ofBool b)

/-- The byte of an access kind (R126). -/
def accessOf : Access → List Byte
  | .read => bitOf false
  | .write => bitOf true

/-- A length in `k` bytes and the bytes. -/
def countedOf (k : Nat) (data : List Byte) : List Byte := leBytes k data.length ++ data

/-- The bytes of a host memory operand (R324); an invalid handle has a length of 0 (log 1). -/
def hostMemOf : HostMem → List Byte
  | .invalid => bitOf false ++ countedOf 8 []
  | .region bytes => bitOf true ++ countedOf 8 bytes

/-- The six fields of a descriptor (R119), in its order. -/
def descFields (isMem : Bool) (regop : BitVec 3) (base index : BitVec 4) (shift : BitVec 2) (disp : BitVec 32) : List Byte :=
  bitOf isMem ++ (fieldOf regop ++ (fieldOf base ++ (fieldOf index ++ (fieldOf shift ++ fieldOf disp))))

/-- The bytes of a descriptor (R119); fields without a meaning for its kind are 0 (log 1). -/
def descOf : Desc → List Byte
  | .reg regop => descFields false regop 0 0 0 0
  | .mem base index shift disp => descFields true 0 base index shift disp

/-- The operand fields of a command, in the table's order. -/
def operandBytes : Instr → List Byte
  | .wiFromU64 x => fieldOf x
  | .wiFromS64 x => fieldOf x
  | .wiToU64 a => fieldOf a
  | .wiToS64 a => fieldOf a
  | .wiUcmp a b => fieldOf a ++ fieldOf b
  | .wiScmp a b => fieldOf a ++ fieldOf b
  | .wiClz a => fieldOf a
  | .wiNot a => fieldOf a
  | .wiAnd a b => fieldOf a ++ fieldOf b
  | .wiOr a b => fieldOf a ++ fieldOf b
  | .wiShl a n => fieldOf a ++ fieldOf n
  | .wiShr a n => fieldOf a ++ fieldOf n
  | .wiUadd a b => fieldOf a ++ fieldOf b
  | .wiSadd a b => fieldOf a ++ fieldOf b
  | .wiUsub a b => fieldOf a ++ fieldOf b
  | .wiSsub a b => fieldOf a ++ fieldOf b
  | .wiUmul a b => fieldOf a ++ fieldOf b
  | .wiSmul a b => fieldOf a ++ fieldOf b
  | .wiUdiv a b => fieldOf a ++ fieldOf b
  | .wiSdiv a b => fieldOf a ++ fieldOf b
  | .wiNeg a => fieldOf a
  | .feSetRm _ m => fieldOf m
  | .feGetRm _ => []
  | .feFromI64 x => fieldOf x
  | .feToI64 _ a => fieldOf a
  | .feFromF64 w => fieldOf w
  | .feToF64 _ a => fieldOf a
  | .feAdd _ a b => fieldOf a ++ fieldOf b
  | .feSub _ a b => fieldOf a ++ fieldOf b
  | .feMul _ a b => fieldOf a ++ fieldOf b
  | .feDiv _ a b => fieldOf a ++ fieldOf b
  | .feMod a b => fieldOf a ++ fieldOf b
  | .feRem a b => fieldOf a ++ fieldOf b
  | .feIsNan a => fieldOf a
  | .feIsInf a => fieldOf a
  | .feIsZero a => fieldOf a
  | .feIsDenormal a => fieldOf a
  | .feIsSupported a => fieldOf a
  | .feCmp a b => fieldOf a ++ fieldOf b
  | .feLt a b => fieldOf a ++ fieldOf b
  | .feEq a b => fieldOf a ++ fieldOf b
  | .feNeg a => fieldOf a
  | .feAbs a => fieldOf a
  | .feLog2 _ a => fieldOf a
  | .feSqrt _ a => fieldOf a
  | .feScale _ a n => fieldOf a ++ fieldOf n
  | .fpuInit _ => []
  | .fpuLd _ i => fieldOf i
  | .fpuSt _ i => fieldOf i
  | .fpuPop _ => []
  | .fpuGetSt _ i => fieldOf i
  | .fpuSetSt _ i v valid => fieldOf i ++ fieldOf v ++ bitOf valid
  | .fpuLdI16 _ x => fieldOf x
  | .fpuLdI32 _ x => fieldOf x
  | .fpuLdI64 _ x => fieldOf x
  | .fpuLdF32 _ w => fieldOf w
  | .fpuLdF64 _ w => fieldOf w
  | .fpuLdF80 _ v => fieldOf v
  | .fpuStI16 _ => []
  | .fpuStI32 _ => []
  | .fpuStI64 _ => []
  | .fpuStF32 _ => []
  | .fpuStF64 _ => []
  | .fpuStF80 _ => []
  | .fpuAdd _ dst src => fieldOf dst ++ fieldOf src
  | .fpuSub _ dst src => fieldOf dst ++ fieldOf src
  | .fpuMul _ dst src => fieldOf dst ++ fieldOf src
  | .fpuDiv _ dst src => fieldOf dst ++ fieldOf src
  | .fpuMod _ dst src => fieldOf dst ++ fieldOf src
  | .fpuRem _ dst src => fieldOf dst ++ fieldOf src
  | .fpuNeg _ dst => fieldOf dst
  | .fpuAbs _ dst => fieldOf dst
  | .fpuSqrt _ dst => fieldOf dst
  | .fpuLog2 _ dst => fieldOf dst
  | .fpuScale _ dst src => fieldOf dst ++ fieldOf src
  | .fpuCom _ x y => fieldOf x ++ fieldOf y
  | .fpuLdCw _ v => fieldOf v
  | .fpuStCw _ => []
  | .fpuStSw _ => []
  | .fpuConst1 _ => []
  | .fpuConstL2T _ => []
  | .fpuConstL2E _ => []
  | .fpuConstPi _ => []
  | .fpuConstLg2 _ => []
  | .fpuConstLn2 _ => []
  | .fpuConstZ _ => []
  | .asmCreate => []
  | .asmRetain m => fieldOf m
  | .asmRelease m => fieldOf m
  | .asmMap m page count host flags => fieldOf m ++ fieldOf page ++ fieldOf count ++ hostMemOf host ++ fieldOf flags
  | .asmMapAnon m page count flags => fieldOf m ++ fieldOf page ++ fieldOf count ++ fieldOf flags
  | .asmUnmap m page count force => fieldOf m ++ fieldOf page ++ fieldOf count ++ bitOf force
  | .asmSetProt m page count flags => fieldOf m ++ fieldOf page ++ fieldOf count ++ fieldOf flags
  | .asmCow m page count m2 page2 => fieldOf m ++ fieldOf page ++ fieldOf count ++ fieldOf m2 ++ fieldOf page2
  | .asmFindHole m n => fieldOf m ++ fieldOf n
  | .asmTranslate m addr kind => fieldOf m ++ fieldOf addr ++ accessOf kind
  | .tlbRead _ addr n => fieldOf addr ++ fieldOf n
  | .tlbWrite _ addr data => fieldOf addr ++ countedOf 4 data
  | .tlbFlush _ => []
  | .tlbRevalidate _ => []
  | .tlbAttach _ m => fieldOf m
  | .cpuGetReg32 _ i => fieldOf i
  | .cpuSetReg32 _ i v => fieldOf i ++ fieldOf v
  | .cpuGetReg16 _ i => fieldOf i
  | .cpuSetReg16 _ i v => fieldOf i ++ fieldOf v
  | .cpuGetReg8 _ j => fieldOf j
  | .cpuSetReg8 _ j v => fieldOf j ++ fieldOf v
  | .cpuGetEip _ => []
  | .cpuSetEip _ v => fieldOf v
  | .cpuGetXmm _ i => fieldOf i
  | .cpuSetXmm _ i v => fieldOf i ++ fieldOf v
  | .cpuGetSeg _ i => fieldOf i
  | .cpuSetSeg _ i v => fieldOf i ++ fieldOf v
  | .cpuRecord _ res op1 op2 => fieldOf res ++ fieldOf op1 ++ fieldOf op2
  | .cpuGetFlag _ sel => fieldOf sel
  | .cpuSetFlag _ sel v => fieldOf sel ++ bitOf v
  | .cpuMaterialize _ => []
  | .cpuExpand _ => []
  | .cpuGetEflags _ => []
  | .cpuSetEflags _ v => fieldOf v
  | .cpuGetFaultAddr _ => []
  | .decModRm _ cursor => fieldOf cursor
  | .decEa _ desc => descOf desc

/-- The packet of a command. -/
def encode (i : Instr) : List Byte := leBytes 2 (opcode i) ++ (fieldOf (contextOf i) ++ operandBytes i)

/-- More zero bytes than any command's context and operand fields take, a length field of 0 included. -/
def zeroOperands : List Byte := List.replicate 48 0

/-- The packet whose first `nbits` bits are those of `w`, bit 0 the least significant of the first byte, and whose further
bytes are zero (the table gives the 16 bits of `cmd` only, so the operands are zero). -/
def tablePacket (nbits w : Nat) : List Byte := leBytes (nbits / 8) w ++ zeroOperands

/-- The command the decoder reads from an opcode-table word. -/
def decodeTableWord (nbits w : Nat) : Option Instr :=
  match decode (tablePacket nbits w) with
  | .ok i => some i
  | .error _ => none

end Sys2Proof
end

