-- ==== Sys2Proof/Config.lean ====
section
/-! DEFINITION. What an implementation fixes and the spec leaves open (spec/00_scope.md R8): the parameters that are
plain data, held in State so that a claim about every state is a claim about every choice of them (log 11), and, as opaque
constants, the one parameter that is a function of its operands (log 10), the oracle's draws (log 7, log 9) and the scheduler's
choices (log 15). -/

namespace Sys2Proof

/-- The open parameters of R8 that are plain data. No step changes them (log 11). -/
structure Params where
  /-- `TLB_SIZE` is `2 ^ tlbLog2`: a power of two (R8, D32). -/
  tlbLog2 : Nat
  /-- Where `TLB_HASH` departs from the default formula of R8: (page, index) pairs, taken modulo `TLB_SIZE`. Any function
  from pages to indexes can be written this way. -/
  tlbHash : List (Nat × Nat)
  /-- `TLB_GEN_CHECK = every_access` (R8, R361; D34). -/
  genCheck : Bool
  /-- `HOLE_LOW_PAGE`, exclusive (R330; D35). -/
  holeLow : Nat
  /-- `HOLE_HIGH_PAGE`, inclusive (R330; D35). -/
  holeHigh : Nat
  /-- `BAD_PAGE`, `find_hole`'s sentinel (R8, R330): a value that is not a page index. -/
  badPage : { v : BitVec 32 // 2 ^ 20 ≤ v.toNat }
  /-- `NSEG`, the number of segment registers (R8, R25, R409, R410; log 12). -/
  nseg : Nat
  deriving DecidableEq, Repr

/-- The defaults of R8, the spec's own choice (log 11). -/
def Params.default : Params :=
  { tlbLog2 := 10, tlbHash := [], genCheck := false, holeLow := 0x40000, holeHigh := 0xF7FFD,
    badPage := ⟨0x10000000#32, by decide⟩, nseg := 6 }

/-- `FE_LOG2` (R8, R232; U5): the base-2 logarithm of a finite positive operand that is not a power of two, as a function
of the operand and the rounding mode. It has no body: the model assumes nothing about it (log 10). -/
opaque Config.feLog2 : F80 → BitVec 2 → F80 × Flags6

/-- `OOM` (R8, R337; U4) where no answer is pending in the state: the `k`-th such answer, of which the model assumes nothing
(log 7). -/
opaque Config.oom : Nat → Bool

/-- The scheduler (R49, R90; U17) where no choice is pending in the state: the `k`-th such choice, of which the model assumes
nothing (log 15). -/
opaque Config.sched : Nat → Nat

/-- `NAN_RESULT` (R8, R205; U5) where no draw is pending in the state: the `k`-th such draw, of which the model assumes
nothing (log 9). -/
opaque Config.nan : Nat → F80

end Sys2Proof
end

