-- ==== Sys2Proof/Machine/State.lean ====
section
/-! DEFINITION. The state of the iSL core as plain data (spec/10_state.md R20–R50), with the command port, the response and
the oracle draws through which the outside world reaches it. INVENTORY.md lists every element with its rule and its reset
value. Reset values the spec calls unspecified are the model's choice (log 6). -/

namespace Sys2Proof.Machine

/-- The CPU registers and flags of a context (R21–R31). -/
structure Cpu where
  /-- General registers (R21). -/
  r32 : Vector (BitVec 32) 8
  /-- Instruction pointer (R24): storage only. -/
  eip : BitVec 32
  /-- Segment registers es cs ss ds fs gs … (R25): storage only. A place for each number that a register operand can name; the
  first `NSEG` of them are registers, and no command reaches the others (R409, R410; log 12). -/
  seg : Vector (BitVec 16) 8
  /-- XMM registers (R26): storage only. -/
  xmm : Vector (BitVec 128) 8
  /-- The explicit flags word (R27). -/
  flags : BitVec 32
  /-- Carry (R28). -/
  cf : Bool
  /-- Overflow (R28). -/
  ovf : Bool
  /-- The recorded result and operands (R29). -/
  res : BitVec 32
  op1 : BitVec 32
  op2 : BitVec 32
  /-- The deferred tags of zero, sign, parity and auxiliary carry (R29). -/
  defZ : Bool
  defS : Bool
  defP : Bool
  defA : Bool
  /-- `FAULT_ADDR` (R31). -/
  faultAddr : BitVec 32
  deriving DecidableEq, Repr

/-- The FPU of a context (R32–R36). -/
structure Fpu where
  /-- Physical registers (R32). -/
  fpr : Vector F80 8
  /-- `TAG`: true = valid, false = empty (R34). -/
  tag : Vector Bool 8
  /-- Status word, `TOP` in bits 13:11 (R33, R35). -/
  sw : BitVec 16
  /-- Control word (R36). -/
  cw : BitVec 16
  deriving DecidableEq, Repr

/-- A `Valid` slot of the translation cache (R47): the delta of page `page` is the pair `(blob, off)`, and the host pointer
of an address `a` of the page is byte `off + a` of the blob (R42). -/
structure Slot where
  page : BitVec 20
  pageW : Option (BitVec 20)
  blob : Handle
  off : Int
  deriving DecidableEq, Repr

/-- The translation cache of a context (R46). `slots` lists the `Valid` slots by index; every other slot is `Empty`. -/
structure Tlb where
  mem : Option Handle
  gen : Nat
  slots : List (Nat × Slot)
  deriving DecidableEq, Repr

/-- Where an access of several bytes stands (R75, R366): the address of its next byte and, where that byte is not the first of
its piece, the host pointer that the piece's translation gave it. -/
structure Place where
  addr : Nat
  host : Option (Handle × Int)
  deriving DecidableEq, Repr

/-- What an access still has to do, and what it has read (R362, R363, R439). -/
inductive Job where
  /-- `TLB.READ`: `left` bytes to read after those got. -/
  | read (left : Nat) (got : List Byte)
  /-- `TLB.WRITE`: the bytes still to write. -/
  | write (rest : List Byte)
  /-- `DEC.MODRM`, at the 32-bit displacement of the operand with these fields. -/
  | disp (base index : BitVec 4) (shift : BitVec 2) (reg : BitVec 3) (left : Nat) (got : List Byte)
  deriving DecidableEq, Repr

/-- An access of several bytes under way (R75, R92; log 15). -/
structure Transfer where
  place : Place
  job : Job
  deriving DecidableEq, Repr

/-- A context: the private state of one emulated thread (R20). `rm` is `RM`, shared by FE and FPU (R37). `transfer` is the
access of several bytes that the context has under way while other contexts run (R75, R92; log 15). -/
structure Context where
  cpu : Cpu
  fpu : Fpu
  rm : BitVec 2
  tlb : Tlb
  transfer : Option Transfer
  deriving DecidableEq, Repr

/-- A page-table entry (R41); the flag bits are those of R125. -/
structure Pte where
  blob : Handle
  offset : Nat
  flags : BitVec 7
  deriving DecidableEq, Repr

/-- The reader/writer lock of an address space (R40, R45). Every command leaves it free: the block realises it by running
each command as one transition (R45, R92; log 17). -/
inductive Lock where
  | free
  | readers (n : Nat)
  | writer
  deriving DecidableEq, Repr

/-- An address space (R40). `pages` is the sparse directory normalised: the entry of page index `p` is under key `p`, whose
bits 19:10 select the top-level slot and 9:0 the entry (R40, R336; log 16). -/
structure Space where
  pages : List (Nat × Pte)
  gen : Nat
  refcount : Nat
  lock : Lock
  deriving DecidableEq, Repr

/-- A data blob (R42): `len` bytes, of which `cells` lists those that are not zero, by offset (log 20). -/
structure Blob where
  cells : List Host.Cell
  len : Nat
  refcount : Nat
  deriving DecidableEq, Repr

/-- Status codes 2…7 (R113). -/
inductive Failure where
  | illegalCommand
  | illegalOperand
  | notMapped
  | outOfMemory
  | mapFailed
  | noTranslation
  deriving DecidableEq, Repr

/-- The named interrupt conditions (R461). -/
inductive Cond where
  | divideError
  | debug
  | breakpoint
  | overflow
  | bounds
  | undefinedOpcode
  | generalProtection
  | pageFault
  | floatError
  deriving DecidableEq, Repr

/-- The result fields of a command (R112), one constructor per shape of spec/opcode_table.json's results. -/
inductive Results where
  | none
  /-- `r: u128` -/
  | wide (r : Wide)
  /-- `r: u128, ovf: u1` -/
  | wideOvf (r : Wide) (ovf : Bool)
  /-- `r: u64` (or `s64`), `ovf: u1` -/
  | narrow (r : BitVec 64) (ovf : Bool)
  /-- `q: u128, rem: u128` -/
  | quotRem (q rem : Wide)
  /-- `q: u128, rem: u128, ovf: u1` -/
  | quotRemOvf (q rem : Wide) (ovf : Bool)
  /-- a 1-bit result -/
  | u1 (v : Bool)
  /-- `m: u2` -/
  | u2 (v : BitVec 2)
  /-- an 8-bit result -/
  | u8 (v : BitVec 8)
  /-- a 16-bit result -/
  | u16 (v : BitVec 16)
  /-- a 32-bit result -/
  | u32 (v : BitVec 32)
  /-- a 64-bit result -/
  | u64 (v : BitVec 64)
  /-- `r: F80` (or `v: F80`) -/
  | f80 (v : F80)
  /-- `r: F80, fl: Flags6` -/
  | f80Fl (r : F80) (fl : Flags6)
  /-- a 64-bit result and `fl: Flags6` -/
  | u64Fl (r : BitVec 64) (fl : Flags6)
  /-- a 2-bit code and `fl: Flags6` -/
  | u2Fl (t : BitVec 2) (fl : Flags6)
  /-- `v: F80, valid: u1` -/
  | stackReg (v : F80) (valid : Bool)
  /-- a handle -/
  | handle (h : Handle)
  /-- `ptr: (blob handle, byte offset), flags: u7` -/
  | pointer (blob : Handle) (offset : Nat) (flags : BitVec 7)
  /-- `data: n bytes` -/
  | bytes (data : List Byte)
  /-- `desc, reg: u3, next: u32` -/
  | modRm (desc : Desc) (reg : BitVec 3) (next : BitVec 32)
  deriving DecidableEq, Repr

/-- A response (R112): `OK` with its results, `FAULT` with a condition and its information, or one of the statuses 2…7. The
fields that R112 calls meaningless for a status are left out. -/
inductive Response where
  | ok (results : Results)
  | fault (cond : Cond) (info : BitVec 32)
  | fail (status : Failure)
  deriving DecidableEq, Repr

/-- The oracle draws not yet taken, oldest first: the outside world's part in a command (log 7, log 8, log 9, log 15). Where
`oom`, `nans` or `sched` has run out, the answer is an opaque one of Config, the next in order. -/
structure Draws where
  /-- `OOM` (R337): whether the allocation fails. -/
  oom : List Bool
  /-- Handles proposed for new address spaces (R321), of the width an operand field names them in (log 1). -/
  mems : List (BitVec 64)
  /-- Handles proposed for new blobs (R336). -/
  blobs : List Handle
  /-- `NAN_RESULT` (R205). -/
  nans : List F80
  /-- How many draws have been taken past the ends of `oom` and `nans`. -/
  past : Nat
  /-- The scheduler's choices (R49, R90; log 15): after how many bytes an access is interrupted, and who runs next. -/
  sched : List Nat
  /-- How many choices have been taken past the end of `sched`. -/
  turns : Nat
  deriving DecidableEq, Repr

/-- The state of the block. -/
structure State where
  /-- The open parameters (R8; log 11). -/
  params : Params
  /-- `Mems` (R20, R40), by handle. -/
  mems : List (Nat × Space)
  /-- `Blobs` (R20, R42), by handle. -/
  blobs : List (Nat × Blob)
  /-- Blobs deleted from `Blobs`, kept for stale hits (U6; log 13). -/
  graves : List (Nat × Blob)
  /-- The contexts that have been named (R20, R484; log 18), by name. -/
  ctxs : List (Nat × Context)
  /-- The oracle and the scheduler (log 7, log 8, log 9, log 15). -/
  draws : Draws
  /-- The commands on the command port, oldest first (log 1, log 2). -/
  port : List (List Byte)
  /-- The response of the latest command (R112; log 5); none while the latest step left its access under way (log 15). -/
  resp : Option Response
  deriving DecidableEq, Repr

/-- What stops the machine with a fault. -/
inductive Fault where
  /-- Raised by `TLB.READ`, `TLB.WRITE`, `DEC.MODRM` and `ASM.TRANSLATE` where a page-table entry, a cache slot or an access
  under way names bytes that no blob has. No run from reset reaches such a state (R41: `offset + 4096 ≤ len`). Safe: nothing is claimed of
  what the hardware would do there (log 14). -/
  | noSuchByte
  deriving DecidableEq, Repr

/-- What the model gives no meaning to. -/
inductive Refusal where
  /-- Raised by `exec` for a command that has no meaning yet. Safe. -/
  | notModelled (mnemonic : String)
  /-- Raised by `step` for a packet that ends before its operand fields do, which is no command of the spec. Safe
  (log 3). -/
  | truncatedCommand
  deriving DecidableEq, Repr

/-- The CPU state of a fresh context (R50, R500): tags 0; the rest unspecified by the spec, zero here (log 6). -/
def Cpu.reset : Cpu :=
  { r32 := Vector.replicate 8 0, eip := 0, seg := Vector.replicate 8 0, xmm := Vector.replicate 8 0, flags := 0,
    cf := false, ovf := false, res := 0, op1 := 0, op2 := 0, defZ := false, defS := false, defP := false, defA := false,
    faultAddr := 0 }

/-- The FPU of a fresh context (R50): all registers empty, `SW = 0`, `CW = 0x037F`; register contents zero (log 6). -/
def Fpu.reset : Fpu :=
  { fpr := Vector.replicate 8 0, tag := Vector.replicate 8 false, sw := 0x0000#16, cw := 0x037F#16 }

/-- The translation cache of a fresh context (R50): detached, every slot empty; `gen` zero (log 6). -/
def Tlb.reset : Tlb := { mem := none, gen := 0, slots := [] }

/-- A fresh context (R50, R500). -/
def Context.reset : Context := { cpu := .reset, fpu := .reset, rm := 0, tlb := .reset, transfer := none }

/-- The draws at reset: none pending (log 7, log 8, log 9, log 15). -/
def Draws.reset : Draws := { oom := [], mems := [], blobs := [], nans := [], past := 0, sched := [], turns := 0 }

/-- The block after block reset (R500): `Mems` and `Blobs` empty, no context, no command pending, no response given. -/
def State.reset : State :=
  { params := .default, mems := [], blobs := [], graves := [], ctxs := [], draws := .reset, port := [], resp := none }

end Sys2Proof.Machine
end

