-- ==== Sys2Proof/Machine/Ops.lean ====
section
/-! DEFINITION. The named operations over the state: sorted maps, blob memory, contexts, responses and raising, oracle
draws, page-table entries and reference counts (spec/10_state.md R40–R47; spec/30_encoding.md R112, R113, R125;
spec/43_address_space.md R336, R337; spec/60_exceptions.md R461, R462). -/

namespace Sys2Proof.Machine

/-- The three outcomes of a step, at the model's own types. -/
abbrev Out := Host.Outcome State Fault Refusal

/-! ### Maps: lists of (key, value) with rising keys -/

/-- The value under a key. -/
def mapFind {α : Type} : List (Nat × α) → Nat → Option α
  | [], _ => none
  | (j, v) :: rest, k => if k = j then some v else mapFind rest k

/-- Put a value under a key, keeping the keys rising. -/
def mapPut {α : Type} : List (Nat × α) → Nat → α → List (Nat × α)
  | [], k, v => [(k, v)]
  | (j, w) :: rest, k, v =>
    if k < j then (k, v) :: (j, w) :: rest
    else if k = j then (k, v) :: rest
    else (j, w) :: mapPut rest k v

/-- Take a key out. -/
def mapDel {α : Type} : List (Nat × α) → Nat → List (Nat × α)
  | [], _ => []
  | (j, w) :: rest, k => if k = j then mapDel rest k else (j, w) :: mapDel rest k

/-- The keys are strictly rising. -/
def keysRising {α : Type} : List (Nat × α) → Bool
  | [] => true
  | (j, _) :: rest => rest.all (fun e => decide (j < e.1)) && keysRising rest

/-- The keys of a map. -/
def mapKeys {α : Type} (m : List (Nat × α)) : List Nat := m.map Prod.fst

/-! ### Blob memory (R42): bytes by offset, 0 unlisted -/

/-- The bytes of a blob that are not zero, by offset. -/
abbrev Memory := List Host.Cell

/-- What an unlisted offset reads as: `ASM.MAPANON` and growth give zero bytes (R325, R332), and the bytes of a region
that are zero are left unlisted (R324; log 20). -/
def unlistedByte : Byte := 0

/-- One byte. -/
def Memory.read (m : Memory) (a : Nat) : Byte := (mapFind m a).getD unlistedByte

/-- Store one byte, keeping the canonical form. -/
def Memory.write (m : Memory) (a : Nat) (b : Byte) : Memory :=
  if b = unlistedByte then mapDel m a else mapPut m a b

/-- The canonical form: offsets strictly rising, no entry equal to what an unlisted offset reads as. -/
def Memory.wf (m : Memory) : Bool := keysRising m && m.all fun cell => decide (cell.2 ≠ unlistedByte)

/-- `n` bytes from `a` on, in ascending order (R73). -/
def readBytes (m : Memory) (a : Nat) : Nat → List Byte
  | 0 => []
  | n + 1 => m.read a :: readBytes m (a + 1) n

/-! ### Bits -/

/-- Set one bit of a word to a truth value. -/
def setBit {w : Nat} (x : BitVec w) (i : Nat) (v : Bool) : BitVec w :=
  if v then x ||| (BitVec.twoPow w i) else x &&& ~~~(BitVec.twoPow w i)

/-! ### Codes (R113, R126, R461) -/

/-- The code of a failure status (R113). -/
def Failure.code : Failure → BitVec 8
  | .illegalCommand => 2
  | .illegalOperand => 3
  | .notMapped => 4
  | .outOfMemory => 5
  | .mapFailed => 6
  | .noTranslation => 7

/-- The code of a condition (R461). -/
def Cond.code : Cond → BitVec 8
  | .divideError => 0
  | .debug => 1
  | .breakpoint => 3
  | .overflow => 4
  | .bounds => 5
  | .undefinedOpcode => 6
  | .generalProtection => 13
  | .pageFault => 14
  | .floatError => 16

/-- The status code of a response (R113): 0 `OK`, 1 `FAULT`, 2…7 the failures. -/
def Response.status : Response → BitVec 8
  | .ok _ => 0
  | .fault _ _ => 1
  | .fail f => f.code

/-! ### Responses and raising (R112, R462) -/

/-- Give a response. -/
def State.respond (s : State) (r : Response) : State := { s with resp := some r }

/-- Answer `OK` with results. -/
def State.ok (s : State) (r : Results) : State := s.respond (.ok r)

/-- Answer a status 2…7 (R11 `fail`, R474). The state given is the one before the command. -/
def State.fail (s : State) (f : Failure) : State := s.respond (.fail f)

/-- Taking an exception (R11 `raise`, R462, R472): the response names the condition and its information. Nothing is saved, no
mode, mask, stack or program counter changes, and `eip` stays; a rule that writes state before raising writes it into the
state given here. There is no return operation: the next command is accepted at once (R470). -/
def State.raise (s : State) (cond : Cond) (info : BitVec 32) : State := s.respond (.fault cond info)

/-! ### Contexts (R20, R484) -/

/-- The context of a name. One that no command has written yet is in the reset state (R484, R500; log 18). -/
def State.ctx (s : State) (c : BitVec 32) : Context := (mapFind s.ctxs c.toNat).getD Context.reset

/-- Replace a context. -/
def State.setCtx (s : State) (c : BitVec 32) (k : Context) : State := { s with ctxs := mapPut s.ctxs c.toNat k }

/-- The CPU registers and flags of a context. -/
def State.cpu (s : State) (c : BitVec 32) : Cpu := (s.ctx c).cpu

/-- Replace the CPU registers and flags of a context. -/
def State.setCpu (s : State) (c : BitVec 32) (u : Cpu) : State := s.setCtx c { s.ctx c with cpu := u }

/-- The FPU of a context. -/
def State.fpu (s : State) (c : BitVec 32) : Fpu := (s.ctx c).fpu

/-- Replace the FPU of a context. -/
def State.setFpu (s : State) (c : BitVec 32) (f : Fpu) : State := s.setCtx c { s.ctx c with fpu := f }

/-- `RM` of a context (R37). -/
def State.rm (s : State) (c : BitVec 32) : BitVec 2 := (s.ctx c).rm

/-- Write `RM` of a context. -/
def State.setRm (s : State) (c : BitVec 32) (m : BitVec 2) : State := s.setCtx c { s.ctx c with rm := m }

/-- The translation cache of a context. -/
def State.tlb (s : State) (c : BitVec 32) : Tlb := (s.ctx c).tlb

/-- Replace the translation cache of a context. -/
def State.setTlb (s : State) (c : BitVec 32) (t : Tlb) : State := s.setCtx c { s.ctx c with tlb := t }

/-- The access that a context has under way (R75; log 15). -/
def State.transfer (s : State) (c : BitVec 32) : Option Transfer := (s.ctx c).transfer

/-- Begin, or end, having an access under way. -/
def State.setTransfer (s : State) (c : BitVec 32) (x : Option Transfer) : State :=
  s.setCtx c { s.ctx c with transfer := x }

/-! ### Oracle draws (R8, R11 `draw`) -/

/-- The scheduler's choice (R49, R90): the oldest pending one, or an unknown one where none is pending (log 15). -/
def State.drawSched (s : State) : Nat × State :=
  match s.draws.sched with
  | [] => (Config.sched s.draws.turns, { s with draws := { s.draws with turns := s.draws.turns + 1 } })
  | k :: rest => (k, { s with draws := { s.draws with sched := rest } })

/-- Of the `n` bytes that an access still has to do, how many the scheduler lets it do before another context comes between
(R75; log 15): at least one, and at most all. An access of one byte asks for no choice. -/
def State.slice (s : State) (n : Nat) : Nat × State :=
  if n ≤ 1 then (n, s) else (min n (s.drawSched.1 + 1), s.drawSched.2)

/-- `OOM` (R337): the oldest pending answer, or an unknown one where none is pending (log 7). -/
def State.drawOom (s : State) : Bool × State :=
  match s.draws.oom with
  | [] => (Config.oom s.draws.past, { s with draws := { s.draws with past := s.draws.past + 1 } })
  | b :: rest => (b, { s with draws := { s.draws with oom := rest } })

/-- The least handle from `k` on that is not in use, looking at most `fuel` handles further. -/
def leastFree (used : List Nat) : Nat → Nat → Nat
  | 0, k => k
  | fuel + 1, k => if used.contains k then leastFree used fuel (k + 1) else k

/-- A handle not in use: the proposed one where it is not, else the least from 1 on (log 8). -/
def freshHandle (used : List Nat) (proposed : Option Nat) : Handle :=
  match proposed with
  | some h => if used.contains h then leastFree used used.length 1 else h
  | none => leastFree used used.length 1

/-- The address-space handles that the contexts' caches name, of spaces that live or are gone (R46, R323). -/
def State.attachedMems (s : State) : List Nat := s.ctxs.filterMap fun e => e.2.tlb.mem

/-- A handle not in `Mems` (R321), nor one that a context is still attached to: no context is attached to a new space
(log 8). -/
def State.freshMem (s : State) : Handle × State :=
  (freshHandle (mapKeys s.mems ++ s.attachedMems) (s.draws.mems.head?.map BitVec.toNat),
    { s with draws := { s.draws with mems := s.draws.mems.tail } })

/-- A handle not in `Blobs` (R336), nor of a blob kept for stale hits (log 8, log 13). -/
def State.freshBlob (s : State) : Handle × State :=
  (freshHandle (mapKeys s.blobs ++ mapKeys s.graves) s.draws.blobs.head?,
    { s with draws := { s.draws with blobs := s.draws.blobs.tail } })

/-! ### Page-table flags (R125) -/

/-- The bit numbers of R125. -/
def pReadBit : Nat := 0
def pWriteBit : Nat := 1
def pExecBit : Nat := 2
def pGrowsDownBit : Nat := 3
def pCowBit : Nat := 4
def pCompiledBit : Nat := 5
def pAnonBit : Nat := 6

/-- WRITABLE. -/
def writable (flags : BitVec 7) : Bool := flags.getLsbD pWriteBit

/-- GROWS-DOWN. -/
def growsDown (flags : BitVec 7) : Bool := flags.getLsbD pGrowsDownBit

/-- COPY-ON-WRITE. -/
def copyOnWrite (flags : BitVec 7) : Bool := flags.getLsbD pCowBit

/-- The flags of a page made by stack growth: READABLE, WRITABLE, GROWS-DOWN, ANONYMOUS (R332). -/
def grownFlags : BitVec 7 := 0x4B#7

/-! ### Pages, entries, reference counts (R40–R44, R336) -/

/-- `PAGE_SIZE` (R7). -/
def pageSize : Nat := 4096

/-- `NPAGES` (R7). -/
def numPages : Nat := 2 ^ 20

/-- An address space. -/
def State.space (s : State) (m : Handle) : Option Space := mapFind s.mems m

/-- Replace an address space. -/
def State.setSpace (s : State) (m : Handle) (sp : Space) : State := { s with mems := mapPut s.mems m sp }

/-- `PT(m, p)` (R336): none where the space or the entry is absent. -/
def State.pte (s : State) (m : Handle) (p : Nat) : Option Pte := (s.space m).bind fun sp => mapFind sp.pages p

/-- The bytes a host pointer may reach (R42): a blob of `Blobs`, or a deleted one that a stale slot still names (U6). -/
def State.hostBlob (s : State) (b : Handle) : Option Blob :=
  match mapFind s.blobs b with
  | some blob => some blob
  | none => mapFind s.graves b

/-- `Blobs[b].refcount += 1` (R44). -/
def State.incRef (s : State) (b : Handle) : State :=
  match mapFind s.blobs b with
  | none => s
  | some blob => { s with blobs := mapPut s.blobs b { blob with refcount := blob.refcount + 1 } }

/-- `Blobs[b].refcount −= 1`, deleting the blob when it is then 0 (R44, R336); its contents are kept for stale hits
(U6; log 13). -/
def State.decRef (s : State) (b : Handle) : State :=
  match mapFind s.blobs b with
  | none => s
  | some blob =>
    if blob.refcount ≤ 1 then
      { s with blobs := mapDel s.blobs b, graves := mapPut s.graves b { blob with refcount := 0 } }
    else { s with blobs := mapPut s.blobs b { blob with refcount := blob.refcount - 1 } }

/-- Write an entry without counting it (for a change of an entry's flags). -/
def State.putPte (s : State) (m : Handle) (p : Nat) (e : Pte) : State :=
  match s.space m with
  | none => s
  | some sp => s.setSpace m { sp with pages := mapPut sp.pages p e }

/-- `install(m, p, e)` (R336). -/
def State.install (s : State) (m : Handle) (p : Nat) (e : Pte) : State := (s.putPte m p e).incRef e.blob

/-- `remove(m, p)` (R336); nothing where there is no entry. -/
def State.remove (s : State) (m : Handle) (p : Nat) : State :=
  match s.space m with
  | none => s
  | some sp =>
    match mapFind sp.pages p with
    | none => s
    | some e => (s.setSpace m { sp with pages := mapDel sp.pages p }).decRef e.blob

/-- `newblob(bytes)` (R336): a fresh blob with reference count 0, which the same command then installs. -/
def State.newBlob (s : State) (cells : Memory) (len : Nat) : Handle × State :=
  (s.freshBlob.1,
    { s.freshBlob.2 with blobs := mapPut s.freshBlob.2.blobs s.freshBlob.1 { cells := cells, len := len, refcount := 0 } })

/-- `bump(m)` (R43, R336). -/
def State.bump (s : State) (m : Handle) : State :=
  match s.space m with
  | none => s
  | some sp => s.setSpace m { sp with gen := sp.gen + 1 }

/-- Do something for each `k` in 0 … n−1, in ascending order. -/
def forPages (f : Nat → State → State) : Nat → State → State
  | 0, s => s
  | n + 1, s => f n (forPages f n s)

/-- A byte through a host pointer (R42, R364): none where the blob does not have it. -/
def State.hostByte (s : State) (b : Handle) (off : Int) : Option Byte :=
  match s.hostBlob b with
  | none => none
  | some blob => if 0 ≤ off ∧ off.toNat < blob.len then some (Memory.read blob.cells off.toNat) else none

/-- Store a byte through a host pointer (R42, R364): none where the blob does not have it. A store to a deleted blob is lost
(U6; log 13). -/
def State.storeHost (s : State) (b : Handle) (off : Int) (v : Byte) : Option State :=
  match s.hostBlob b with
  | none => none
  | some blob =>
    if 0 ≤ off ∧ off.toNat < blob.len then
      match mapFind s.blobs b with
      | some live => some { s with blobs := mapPut s.blobs b { live with cells := Memory.write live.cells off.toNat v } }
      | none => some s
    else none

end Sys2Proof.Machine
end

