-- ==== Sys2Proof/Machine/Operands.lean ====
section
/-! DEFINITION. Operand forms: register views (spec/10_state.md R21–R26), stack slots (R33, R34), rounding modes and flag
selectors (spec/30_encoding.md R124, R126), page ranges (spec/43_address_space.md R320) and
effective addresses (spec/46_modrm_decoder.md R440). -/

namespace Sys2Proof.Machine

/-! ### Registers -/

/-- `r32[i]` (R21). -/
def Cpu.reg32 (u : Cpu) (i : BitVec 3) : BitVec 32 := u.r32[i.toNat]'(i.isLt)

/-- `r32[i] <- v` (R21). -/
def Cpu.setReg32 (u : Cpu) (i : BitVec 3) (v : BitVec 32) : Cpu := { u with r32 := u.r32.set i.toNat v i.isLt }

/-- The 16-bit view (R23). -/
def Cpu.reg16 (u : Cpu) (i : BitVec 3) : BitVec 16 := (u.reg32 i).extractLsb' 0 16

/-- A 16-bit write keeps bits 31:16 (R23). -/
def Cpu.setReg16 (u : Cpu) (i : BitVec 3) (v : BitVec 16) : Cpu :=
  u.setReg32 i ((u.reg32 i).extractLsb' 16 16 ++ v)

/-- The register that 8-bit register number `j` is part of: `j` for 0…3, `j − 4` for 4…7 (R23). -/
def byteReg (j : BitVec 3) : BitVec 3 := if j < 4#3 then j else j - 4#3

/-- The 8-bit view (R23): bits 7:0 for `j` in 0…3, bits 15:8 for `j` in 4…7. -/
def Cpu.reg8 (u : Cpu) (j : BitVec 3) : BitVec 8 :=
  (u.reg32 (byteReg j)).extractLsb' (if j < 4#3 then 0 else 8) 8

/-- An 8-bit write replaces only those 8 bits (R23). -/
def Cpu.setReg8 (u : Cpu) (j : BitVec 3) (v : BitVec 8) : Cpu :=
  let old := u.reg32 (byteReg j)
  u.setReg32 (byteReg j)
    (if j < 4#3 then old.extractLsb' 8 24 ++ v else old.extractLsb' 16 16 ++ (v ++ old.extractLsb' 0 8))

/-- `xmm[i]` (R26). -/
def Cpu.getXmm (u : Cpu) (i : BitVec 3) : BitVec 128 := u.xmm[i.toNat]'(i.isLt)

/-- `xmm[i] <- v` (R26). -/
def Cpu.setXmm (u : Cpu) (i : BitVec 3) (v : BitVec 128) : Cpu := { u with xmm := u.xmm.set i.toNat v i.isLt }

/-- `seg[i]`, for `i < NSEG` (R25, R409). -/
def Cpu.getSeg (u : Cpu) (nseg : Nat) (i : BitVec 3) : Option (BitVec 16) :=
  if i.toNat < nseg then some (u.seg[i.toNat]'(i.isLt)) else none

/-- `seg[i] <- v`, for `i < NSEG` (R25, R410). -/
def Cpu.setSeg (u : Cpu) (nseg : Nat) (i : BitVec 3) (v : BitVec 16) : Option Cpu :=
  if i.toNat < nseg then some { u with seg := u.seg.set i.toNat v i.isLt } else none

/-! ### Stack slots -/

/-- `TOP`: `SW[13:11]` (R33, R35). -/
def Fpu.top (f : Fpu) : BitVec 3 := f.sw.extractLsb' 11 3

/-- `TOP <- t`. -/
def Fpu.setTop (f : Fpu) (t : BitVec 3) : Fpu :=
  { f with sw := f.sw.extractLsb' 14 2 ++ (t ++ f.sw.extractLsb' 0 11) }

/-- The physical register of `ST(i)`: `(TOP + i) mod 8` (R33). -/
def Fpu.phys (f : Fpu) (i : BitVec 3) : BitVec 3 := f.top + i

/-- The contents of `ST(i)`, valid or not. -/
def Fpu.st (f : Fpu) (i : BitVec 3) : F80 := f.fpr[(f.phys i).toNat]'((f.phys i).isLt)

/-- The tag of `ST(i)` (R34). -/
def Fpu.valid (f : Fpu) (i : BitVec 3) : Bool := f.tag[(f.phys i).toNat]'((f.phys i).isLt)

/-- `ST(i) <- v`, with a tag. -/
def Fpu.setSt (f : Fpu) (i : BitVec 3) (v : F80) (valid : Bool) : Fpu :=
  { f with fpr := f.fpr.set (f.phys i).toNat v (f.phys i).isLt,
           tag := f.tag.set (f.phys i).toNat valid (f.phys i).isLt }

/-- Mark `ST(i)` empty, keeping its contents. -/
def Fpu.free (f : Fpu) (i : BitVec 3) : Fpu :=
  { f with tag := f.tag.set (f.phys i).toNat false (f.phys i).isLt }

/-! ### Rounding modes -/

/-- The four rounding modes. -/
inductive RMode where
  | nearest
  | down
  | up
  | zero
  deriving DecidableEq, Repr

/-- The mode of a code (R124): 0 nearest, 1 toward −∞, 2 toward +∞, 3 toward zero. -/
def roundMode (m : BitVec 2) : RMode :=
  if m = 0#2 then .nearest else if m = 1#2 then .down else if m = 2#2 then .up else .zero

/-! ### Page ranges and addresses -/

/-- A valid page range (R320): `count ≥ 1` and `page + count ≤ 2^20`. -/
def rangeValid (page count : Nat) : Bool := decide (1 ≤ count ∧ page + count ≤ numPages)

/-- Two ranges of `count` pages share a page (R329). -/
def rangesOverlap (page page2 count : Nat) : Bool := decide (page < page2 + count ∧ page2 < page + count)

/-- The page index of an address: `addr[31:12]` (R70). -/
def pageOf (addr : Nat) : Nat := addr / pageSize

/-- The access leaves the address space (R72). -/
def pastTop (addr n : Nat) : Bool := decide (2 ^ 32 < addr + n)

/-! ### Effective addresses -/

/-- A descriptor's base or index field: the register's value, 0 for none (code 8), nothing for a code above 8 (R440). -/
def Cpu.addrPart (u : Cpu) (code : BitVec 4) : Option (BitVec 32) :=
  if code < 8#4 then some (u.reg32 (code.extractLsb' 0 3)) else if code = 8#4 then some 0 else none

/-- `DEC.EA`'s sum (R440): base + (index shifted) + displacement modulo 2^32; none for a register operand or a code
above 8. -/
def Cpu.effectiveAddress (u : Cpu) : Desc → Option (BitVec 32)
  | .reg _ => none
  | .mem base index shift disp =>
    match u.addrPart base, u.addrPart index with
    | some b, some x => some (b + (if index = 8#4 then 0 else x <<< shift.toNat) + disp)
    | _, _ => none

end Sys2Proof.Machine
end

