-- ==== Sys2Proof/Machine/Flags.lean ====
section
/-! DEFINITION. Flag computations: the lazy CPU flags (spec/10_state.md R27–R30; spec/45_cpu_flags.md R401–R407) and the FPU
status word (R35; spec/42_fpu_stack.md R261–R263). -/

namespace Sys2Proof.Machine

/-! ### CPU flags -/

/-- The number of 1 bits of a byte. -/
def popcount8 (b : BitVec 8) : Nat := ((List.range 8).filter fun i => b.getLsbD i).length

/-- ZF (R30). -/
def Cpu.zf (u : Cpu) : Bool := if u.defZ then u.res == 0#32 else u.flags.getLsbD 6

/-- SF (R30). -/
def Cpu.sf (u : Cpu) : Bool := if u.defS then u.res.getLsbD 31 else u.flags.getLsbD 7

/-- PF (R30): even number of 1 bits in the low byte. -/
def Cpu.pf (u : Cpu) : Bool := if u.defP then popcount8 (u.res.extractLsb' 0 8) % 2 == 0 else u.flags.getLsbD 2

/-- AF (R30): bit 4 of the XOR of both operands and the result. -/
def Cpu.af (u : Cpu) : Bool := if u.defA then (u.op1 ^^^ u.op2 ^^^ u.res).getLsbD 4 else u.flags.getLsbD 4

/-- The flag a selector names (R126): 0 CF, 1 PF, 2 AF, 3 ZF, 4 SF, 5 OF; none above 5 (R402). -/
def Cpu.flag (u : Cpu) (sel : BitVec 3) : Option Bool :=
  match sel.toNat with
  | 0 => some u.cf
  | 1 => some u.pf
  | 2 => some u.af
  | 3 => some u.zf
  | 4 => some u.sf
  | 5 => some u.ovf
  | _ => none

/-- The position of a selector's flag in the flags word (R27). -/
def flagBit (sel : BitVec 3) : Nat :=
  match sel.toNat with
  | 0 => 0
  | 1 => 2
  | 2 => 4
  | 3 => 6
  | 4 => 7
  | _ => 11

/-- Make one flag explicit (R403); none for a selector above 5. -/
def Cpu.setFlag (u : Cpu) (sel : BitVec 3) (v : Bool) : Option Cpu :=
  match sel.toNat with
  | 0 => some { u with cf := v }
  | 1 => some { u with flags := setBit u.flags 2 v, defP := false }
  | 2 => some { u with flags := setBit u.flags 4 v, defA := false }
  | 3 => some { u with flags := setBit u.flags 6 v, defZ := false }
  | 4 => some { u with flags := setBit u.flags 7 v, defS := false }
  | 5 => some { u with ovf := v }
  | _ => none

/-- Record a result and its operands, deferring the four flags (R401). -/
def Cpu.record (u : Cpu) (res op1 op2 : BitVec 32) : Cpu :=
  { u with res := res, op1 := op1, op2 := op2, defZ := true, defS := true, defP := true, defA := true }

/-- The flags word with the six flags' values in their places (R404). -/
def Cpu.flagWord (u : Cpu) : BitVec 32 :=
  setBit (setBit (setBit (setBit (setBit (setBit u.flags 6 u.zf) 7 u.sf) 2 u.pf) 4 u.af) 0 u.cf) 11 u.ovf

/-- `materialize_flags` (R404). -/
def Cpu.materialize (u : Cpu) : Cpu :=
  { u with flags := u.flagWord, defZ := false, defS := false, defP := false, defA := false }

/-- `expand_flags` (R405). -/
def Cpu.expand (u : Cpu) : Cpu :=
  { u with cf := u.flags.getLsbD 0, ovf := u.flags.getLsbD 11, defZ := false, defS := false, defP := false, defA := false }

/-! ### FPU flags -/

/-- The exception flags of R127. -/
def flagI : Flags6 := 0x01#6
def flagD : Flags6 := 0x02#6
def flagZ : Flags6 := 0x04#6
def flagO : Flags6 := 0x08#6
def flagU : Flags6 := 0x10#6
def flagP : Flags6 := 0x20#6

/-- `SW[5:0]` (R35). -/
def Fpu.excFlags (f : Fpu) : Flags6 := f.sw.extractLsb' 0 6

/-- `CW[5:0]`: 1 = masked (R36). -/
def Fpu.masks (f : Fpu) : Flags6 := f.cw.extractLsb' 0 6

/-- Some flag of a set is unmasked (R261). -/
def Fpu.anyUnmasked (f : Fpu) (fl : Flags6) : Bool := (fl &&& ~~~f.masks) != 0#6

/-- Recompute `ES`, `SW[7]` (R35, R261, R297). -/
def Fpu.withSummary (f : Fpu) : Fpu := { f with sw := setBit f.sw 7 (f.anyUnmasked f.excFlags) }

/-- Add flags to the sticky ones and recompute `ES` (R261). -/
def Fpu.addFlags (f : Fpu) (fl : Flags6) : Fpu := ({ f with sw := f.sw ||| fl.setWidth 16 } : Fpu).withSummary

/-- Mark a stack fault: `SF` set, `C1` 1 for overflow and 0 for underflow (R262, R263). -/
def Fpu.stackFault (f : Fpu) (overflow : Bool) : Fpu :=
  { f with sw := setBit (setBit f.sw 6 true) 9 overflow }

/-- `finish(fl, writeback)` (R261): the flags are added; an unmasked one of this operation raises (the second component)
and nothing is written back. -/
def Fpu.finish (f : Fpu) (fl : Flags6) (writeback : Fpu → Fpu) : Fpu × Bool :=
  if f.anyUnmasked fl then (f.addFlags fl, true) else (writeback (f.addFlags fl), false)

end Sys2Proof.Machine
end

