-- ==== Sys2Proof/Machine/CpuRegs.lean ====
section
/-! DEFINITION. Unit CPU (spec/45_cpu_flags.md): register storage and the lazy flag model. No command of the unit reaches
memory and none can fault. Registers nothing has written hold their reset values (log 6). -/

namespace Sys2Proof.Machine

/-- Replace a context's CPU state and answer, or refuse the operand. -/
def State.cpuDone (s : State) (c : BitVec 32) (u : Option Cpu) : State :=
  match u with
  | some v => (s.setCpu c v).ok .none
  | none => s.fail .illegalOperand

/-- `CPU.GETREG32` (R391). -/
def execCpuGetReg32 (c : BitVec 32) (i : BitVec 3) (s : State) : Out := .next (s.ok (.u32 ((s.cpu c).reg32 i)))

/-- `CPU.SETREG32` (R392). -/
def execCpuSetReg32 (c : BitVec 32) (i : BitVec 3) (v : BitVec 32) (s : State) : Out :=
  .next ((s.setCpu c ((s.cpu c).setReg32 i v)).ok .none)

/-- `CPU.GETREG16` (R393). -/
def execCpuGetReg16 (c : BitVec 32) (i : BitVec 3) (s : State) : Out := .next (s.ok (.u16 ((s.cpu c).reg16 i)))

/-- `CPU.SETREG16` (R394). -/
def execCpuSetReg16 (c : BitVec 32) (i : BitVec 3) (v : BitVec 16) (s : State) : Out :=
  .next ((s.setCpu c ((s.cpu c).setReg16 i v)).ok .none)

/-- `CPU.GETREG8` (R395). -/
def execCpuGetReg8 (c : BitVec 32) (j : BitVec 3) (s : State) : Out := .next (s.ok (.u8 ((s.cpu c).reg8 j)))

/-- `CPU.SETREG8` (R396). -/
def execCpuSetReg8 (c : BitVec 32) (j : BitVec 3) (v : BitVec 8) (s : State) : Out :=
  .next ((s.setCpu c ((s.cpu c).setReg8 j v)).ok .none)

/-- `CPU.GETEIP` (R397). -/
def execCpuGetEip (c : BitVec 32) (s : State) : Out := .next (s.ok (.u32 (s.cpu c).eip))

/-- `CPU.SETEIP` (R398). -/
def execCpuSetEip (c v : BitVec 32) (s : State) : Out := .next ((s.setCpu c { s.cpu c with eip := v }).ok .none)

/-- `CPU.GETXMM` (R399). -/
def execCpuGetXmm (c : BitVec 32) (i : BitVec 3) (s : State) : Out := .next (s.ok (.wide ((s.cpu c).getXmm i)))

/-- `CPU.SETXMM` (R400). -/
def execCpuSetXmm (c : BitVec 32) (i : BitVec 3) (v : BitVec 128) (s : State) : Out :=
  .next ((s.setCpu c ((s.cpu c).setXmm i v)).ok .none)

/-- `CPU.GETSEG` (R409). -/
def execCpuGetSeg (c : BitVec 32) (i : BitVec 3) (s : State) : Out :=
  match (s.cpu c).getSeg s.params.nseg i with
  | some v => .next (s.ok (.u16 v))
  | none => .next (s.fail .illegalOperand)

/-- `CPU.SETSEG` (R410). -/
def execCpuSetSeg (c : BitVec 32) (i : BitVec 3) (v : BitVec 16) (s : State) : Out :=
  .next (s.cpuDone c ((s.cpu c).setSeg s.params.nseg i v))

/-- `CPU.RECORD` (R401). -/
def execCpuRecord (c res op1 op2 : BitVec 32) (s : State) : Out :=
  .next ((s.setCpu c ((s.cpu c).record res op1 op2)).ok .none)

/-- `CPU.GETFLAG` (R402). -/
def execCpuGetFlag (c : BitVec 32) (sel : BitVec 3) (s : State) : Out :=
  match (s.cpu c).flag sel with
  | some v => .next (s.ok (.u1 v))
  | none => .next (s.fail .illegalOperand)

/-- `CPU.SETFLAG` (R403). -/
def execCpuSetFlag (c : BitVec 32) (sel : BitVec 3) (v : Bool) (s : State) : Out :=
  .next (s.cpuDone c ((s.cpu c).setFlag sel v))

/-- `CPU.MATERIALIZE` (R404). -/
def execCpuMaterialize (c : BitVec 32) (s : State) : Out := .next ((s.setCpu c (s.cpu c).materialize).ok .none)

/-- `CPU.EXPAND` (R405). -/
def execCpuExpand (c : BitVec 32) (s : State) : Out := .next ((s.setCpu c (s.cpu c).expand).ok .none)

/-- `CPU.GETEFLAGS` (R406): the stored word, not materialised. -/
def execCpuGetEflags (c : BitVec 32) (s : State) : Out := .next (s.ok (.u32 (s.cpu c).flags))

/-- `CPU.SETEFLAGS` (R407): nothing but the word changes. -/
def execCpuSetEflags (c v : BitVec 32) (s : State) : Out := .next ((s.setCpu c { s.cpu c with flags := v }).ok .none)

/-- `CPU.GETFAULTADDR` (R408). -/
def execCpuGetFaultAddr (c : BitVec 32) (s : State) : Out := .next (s.ok (.u32 (s.cpu c).faultAddr))

end Sys2Proof.Machine
end

