-- ==== Sys2Proof/Machine/Float.lean ====
section
/-! DEFINITION. The arithmetic of the float engine (spec/30_encoding.md R120–R124; spec/41_float_engine.md R201–R234):
classes, exact values, the rounding function, encodings, conversions and operations, as pure functions. Exact magnitudes
are `num / den · 2^exp`, so that no intermediate result is rounded. -/

namespace Sys2Proof

open Sys2Proof.Machine

/-! ### Fields and classes (R120, R121) -/

/-- The sign (R201 `sgn`). -/
def F80.sgn (v : F80) : Bool := v.getLsbD 79

/-- The exponent field. -/
def F80.expo (v : F80) : Nat := (v.extractLsb' 64 15).toNat

/-- The significand field. -/
def F80.sig (v : F80) : Nat := (v.extractLsb' 0 64).toNat

/-- The integer bit `J`. -/
def F80.intBit (v : F80) : Bool := v.getLsbD 63

/-- Class zero. -/
def F80.isZero (v : F80) : Bool := v.expo == 0 && v.sig == 0

/-- Class denormal, pseudo-denormals included. -/
def F80.isDenormal (v : F80) : Bool := v.expo == 0 && v.sig != 0

/-- Class infinity. -/
def F80.isInf (v : F80) : Bool := v.expo == 32767 && v.sig == 0x8000000000000000

/-- Class NaN. -/
def F80.isNan (v : F80) : Bool := v.expo == 32767 && v.intBit && v.extractLsb' 0 63 != 0#63

/-- A signalling NaN: `sig[62] = 0`. -/
def F80.isSignalling (v : F80) : Bool := v.isNan && !v.getLsbD 62

/-- A quiet NaN: `sig[62] = 1`. -/
def F80.isQuiet (v : F80) : Bool := v.isNan && v.getLsbD 62

/-- Class unsupported. -/
def F80.isUnsupported (v : F80) : Bool := v.expo != 0 && !v.intBit

/-- Class normal. -/
def F80.isNormal (v : F80) : Bool := v.expo != 0 && v.expo != 32767 && v.intBit

/-- Put the three fields together. -/
def F80.make (s : Bool) (e : BitVec 15) (sig : BitVec 64) : F80 := BitVec.ofBool s ++ (e ++ sig)

/-- `INF(s)` (R201). -/
def F80.inf (s : Bool) : F80 := F80.make s 0x7FFF#15 0x8000000000000000#64

/-- `ZERO(s)` (R201). -/
def F80.zero (s : Bool) : F80 := F80.make s 0#15 0#64

/-- `DNAN`, the default NaN (R121, R201). -/
def F80.dnan : F80 := 0xFFFFC000000000000000#80

/-- The exponent of the unit of `val`: `max(exp, 1) − 16383 − 63` (R201). -/
def F80.unitExp (v : F80) : Int := (max v.expo 1 : Nat) - 16446

/-! ### Exact magnitudes and rounding (R202) -/

/-- A magnitude `num / den · 2^exp`. -/
structure Mag where
  num : Nat
  den : Nat
  exp : Int
  deriving DecidableEq, Repr

/-- `|val(v)|` (R201). -/
def F80.mag (v : F80) : Mag := { num := v.sig, den := 1, exp := v.unitExp }

/-- `floor(log2 m)` of a positive magnitude. -/
def Mag.log2 (m : Mag) : Int :=
  let d : Int := (Nat.log2 m.num : Int) - (Nat.log2 m.den : Int)
  let reaches : Bool :=
    if 0 ≤ d then decide (m.den <<< d.toNat ≤ m.num) else decide (m.den ≤ m.num <<< (-d).toNat)
  if reaches then d + m.exp else d - 1 + m.exp

/-- A fraction of a unit, against one half. -/
inductive Frac where
  | exact
  | below
  | half
  | above
  deriving DecidableEq, Repr

/-- The fraction `r / d`, for `r < d`. -/
def fracOf (r d : Nat) : Frac :=
  if r = 0 then .exact else if 2 * r < d then .below else if 2 * r = d then .half else .above

/-- `m / 2^q` as its floor and its fraction. A quotient that is smaller than one half by its lengths alone is not divided
out. -/
def Mag.split (m : Mag) (q : Int) : Nat × Frac :=
  let shift : Int := m.exp - q
  if 0 ≤ shift then
    let n := m.num <<< shift.toNat
    (n / m.den, fracOf (n % m.den) m.den)
  else
    let k := (-shift).toNat
    if m.num = 0 then (0, .exact)
    else if Nat.log2 m.num + 2 ≤ k then (0, .below)
    else
      let d := m.den <<< k
      (m.num / d, fracOf (m.num % d) d)

/-- `rint` (R202): the integer a floor and a fraction round to. -/
def rint (lo : Nat) (f : Frac) (s : Bool) (rm : RMode) : Nat :=
  match f with
  | .exact => lo
  | .below => if (rm == .up && !s) || (rm == .down && s) then lo + 1 else lo
  | .half => if (rm == .nearest && lo % 2 == 1) || (rm == .up && !s) || (rm == .down && s) then lo + 1 else lo
  | .above => if rm == .nearest || (rm == .up && !s) || (rm == .down && s) then lo + 1 else lo

/-- `m` rounded to a multiple of `2^q`, as the number of units, and whether that was inexact. -/
def Mag.roundTo (m : Mag) (q : Int) (s : Bool) (rm : RMode) : Nat × Bool :=
  let parts := m.split q
  (rint parts.1 parts.2 s rm, parts.2 != .exact)

/-- A rounded magnitude: infinity, or `n · 2^q`. -/
inductive Rounded where
  | inf
  | fin (n : Nat) (q : Int)
  deriving DecidableEq, Repr

/-- `n · 2^q < 2^k`. -/
def belowPow (n : Nat) (q k : Int) : Bool := n == 0 || decide (q + Nat.log2 n < k)

/-- `round_fmt(p, emin, emax, rm, s, m)` (R202). -/
def roundFmt (p : Nat) (emin emax : Int) (rm : RMode) (s : Bool) (m : Mag) : Rounded × Flags6 :=
  let e := m.log2
  let qu := e - p + 1
  let tiny := belowPow (m.roundTo qu s rm).1 qu emin
  let q := max e emin - p + 1
  let r := m.roundTo q s rm
  if !belowPow r.1 q (emax + 1) then
    let toInf := rm == .nearest || (rm == .up && !s) || (rm == .down && s)
    (if toInf then .inf else .fin (2 ^ p - 1) (emax - p + 1), flagO ||| flagP)
  else
    (.fin r.1 q, (if r.2 then flagP else 0) ||| (if tiny && r.2 then flagU else 0))

/-- `n` scaled by a power of two to exactly `p` significant bits (exact where `n` has at most `p` of them). -/
def toBits (n p : Nat) : Nat :=
  if Nat.log2 n < p then n <<< (p - 1 - Nat.log2 n) else n >>> (Nat.log2 n - (p - 1))

/-- `enc(s, m)` (R203) for the magnitude `n · 2^q`. -/
def F80.encFin (s : Bool) (n : Nat) (q : Int) : F80 :=
  if n = 0 then F80.zero s
  else
    let e := q + Nat.log2 n
    if e < -16382 then F80.make s 0#15 (BitVec.ofNat 64 (n <<< (q + 16445).toNat))
    else F80.make s (BitVec.ofNat 15 (e + 16383).toNat) (BitVec.ofNat 64 (toBits n 64))

/-- `enc(s, m)` (R203). -/
def F80.enc (s : Bool) : Rounded → F80
  | .inf => F80.inf s
  | .fin n q => F80.encFin s n q

/-- `fin(s, x, fl)` (R203). -/
def F80.fin (rm : RMode) (s : Bool) (m : Mag) (fl : Flags6) : F80 × Flags6 :=
  let r := roundFmt 64 (-16382) 16383 rm s m
  (F80.enc s r.1, fl ||| r.2)

/-! ### Screening (R205) -/

/-- Operand screening (R205): an early answer, or the flags the operation starts from. `nan` is the draw of
`NAN_RESULT`. -/
def screen (nan : F80) (ops : List F80) : Except (F80 × Flags6) Flags6 :=
  if ops.any F80.isUnsupported then .error (F80.dnan, flagI)
  else if ops.any F80.isNan then .error (nan, if ops.any F80.isSignalling then flagI else 0)
  else .ok (if ops.any F80.isDenormal then flagD else 0)

/-! ### Conversions (R208, R212–R215) -/

/-- `FE.FROMI64` (R212), for any signed integer of at most 64 bits (R208 `from_int`). -/
def f80OfInt (x : Int) : F80 := if x = 0 then F80.zero false else F80.encFin (decide (x < 0)) x.natAbs 0

/-- `to_int(N, a)` (R208, R213): the clamped integer and the flags. -/
def f80ToInt (n : Nat) (rm : RMode) (a : F80) : Int × Flags6 :=
  if a.isUnsupported || a.isNan then (-(2 ^ (n - 1) : Nat), flagI)
  else if a.isInf then (if a.sgn then -(2 ^ (n - 1) : Nat) else (2 ^ (n - 1) : Nat) - 1, flagI)
  else
    let r := a.mag.roundTo 0 a.sgn rm
    let v : Int := if a.sgn then -(r.1 : Int) else r.1
    if (2 ^ (n - 1) : Nat) - 1 < v then ((2 ^ (n - 1) : Nat) - 1, flagI)
    else if v < -(2 ^ (n - 1) : Nat) then (-(2 ^ (n - 1) : Nat), flagI)
    else (v, if r.2 then flagP else 0)

/-- `FE.FROMF64` (R214). -/
def f80OfF64 (w : BitVec 64) : F80 × Flags6 :=
  let s := w.getLsbD 63
  let e := w.extractLsb' 52 11
  let f := w.extractLsb' 0 52
  if e = 0x7FF#11 then
    if f = 0#52 then (F80.inf s, 0)
    else (F80.make s 0x7FFF#15 (1#1 ++ (1#1 ++ (f.extractLsb' 0 51 ++ 0#11))), if f.getLsbD 51 then 0 else flagI)
  else if e = 0#11 then
    if f = 0#52 then (F80.zero s, 0) else (F80.encFin s f.toNat (-1074), flagD)
  else (F80.make s (BitVec.ofNat 15 (e.toNat + 15360)) (1#1 ++ (f ++ 0#11)), 0)

/-- `from_f32` (R208). -/
def f80OfF32 (w : BitVec 32) : F80 × Flags6 :=
  let s := w.getLsbD 31
  let e := w.extractLsb' 23 8
  let f := w.extractLsb' 0 23
  if e = 0xFF#8 then
    if f = 0#23 then (F80.inf s, 0)
    else (F80.make s 0x7FFF#15 (1#1 ++ (1#1 ++ (f.extractLsb' 0 22 ++ 0#40))), if f.getLsbD 22 then 0 else flagI)
  else if e = 0#8 then
    if f = 0#23 then (F80.zero s, 0) else (F80.encFin s f.toNat (-149), flagD)
  else (F80.make s (BitVec.ofNat 15 (e.toNat + 16256)) (1#1 ++ (f ++ 0#40)), 0)

/-- The exponent and fraction fields of a rounded magnitude in a host format of `eb` exponent and `fb` fraction bits
(R215). -/
def hostFields (eb fb : Nat) : Rounded → BitVec eb × BitVec fb
  | .inf => (BitVec.allOnes eb, 0)
  | .fin n q =>
    let bias : Int := (2 ^ (eb - 1) : Nat) - 1
    let e := q + Nat.log2 n
    if n = 0 then (0, 0)
    else if e < 1 - bias then (0, BitVec.ofNat fb (n <<< (q - (1 - bias - fb)).toNat))
    else (BitVec.ofNat eb (e + bias).toNat, BitVec.ofNat fb (toBits n (fb + 1)))

/-- `FE.TOF64` (R215). -/
def f80ToF64 (rm : RMode) (a : F80) : BitVec 64 × Flags6 :=
  if a.isUnsupported then (0xFFF8000000000000#64, flagI)
  else if a.isNan then
    (BitVec.ofBool a.sgn ++ (0x7FF#11 ++ (1#1 ++ a.extractLsb' 11 51)), if a.getLsbD 62 then 0 else flagI)
  else if a.isInf then (BitVec.ofBool a.sgn ++ (0x7FF#11 ++ 0#52), 0)
  else if a.isZero then (BitVec.ofBool a.sgn ++ 0#63, 0)
  else
    let r := roundFmt 53 (-1022) 1023 rm a.sgn a.mag
    let p := hostFields 11 52 r.1
    (BitVec.ofBool a.sgn ++ (p.1 ++ p.2), r.2)

/-- `to_f32` (R208). -/
def f80ToF32 (rm : RMode) (a : F80) : BitVec 32 × Flags6 :=
  if a.isUnsupported then (0xFFC00000#32, flagI)
  else if a.isNan then
    (BitVec.ofBool a.sgn ++ (0xFF#8 ++ (1#1 ++ a.extractLsb' 40 22)), if a.getLsbD 62 then 0 else flagI)
  else if a.isInf then (BitVec.ofBool a.sgn ++ (0xFF#8 ++ 0#23), 0)
  else if a.isZero then (BitVec.ofBool a.sgn ++ 0#31, 0)
  else
    let r := roundFmt 24 (-126) 127 rm a.sgn a.mag
    let p := hostFields 8 23 r.1
    (BitVec.ofBool a.sgn ++ (p.1 ++ p.2), r.2)

/-! ### Sign operations and comparison (R227–R231) -/

/-- `FE.NEG` (R230). -/
def f80Neg (a : F80) : F80 := a ^^^ BitVec.twoPow 80 79

/-- `FE.ABS` (R231). -/
def f80Abs (a : F80) : F80 := a &&& ~~~(BitVec.twoPow 80 79)

/-- `val(v)` of a finite pattern in units of `2^u`, for a `u` not above its own unit (R201). -/
def F80.inUnits (v : F80) (u : Int) : Int :=
  let n : Int := (v.sig <<< (v.unitExp - u).toNat : Nat)
  if v.sgn then -n else n

/-- The common unit of two finite patterns. -/
def commonUnit (a b : F80) : Int := min a.unitExp b.unitExp

/-- The four outcomes of a comparison. -/
inductive Order where
  | gt
  | lt
  | eq
  | unordered
  deriving DecidableEq, Repr

/-- The code of an outcome (R126): 0 GT, 1 LT, 2 EQ, 3 UNORDERED. -/
def Order.code : Order → BitVec 2
  | .gt => 0
  | .lt => 1
  | .eq => 2
  | .unordered => 3

/-- The order of two integers. -/
def orderOf (x y : Int) : Order := if x < y then .lt else if x = y then .eq else .gt

/-- The rank of a pattern for ordering by value with an infinity: −1, 0 or +1. -/
def F80.infRank (v : F80) : Int := if v.isInf then (if v.sgn then -1 else 1) else 0

/-- `FE.CMP` (R227). -/
def f80Cmp (a b : F80) : Order × Flags6 :=
  if a.isUnsupported || b.isUnsupported || a.isNan || b.isNan then
    (.unordered, if a.isUnsupported || b.isUnsupported || a.isSignalling || b.isSignalling then flagI else 0)
  else
    (if a.isInf || b.isInf then orderOf a.infRank b.infRank
      else orderOf (a.inUnits (commonUnit a b)) (b.inUnits (commonUnit a b)),
      if a.isDenormal || b.isDenormal then flagD else 0)

/-! ### Arithmetic (R216–R221) -/

/-- The sign of an exact zero sum (R207). -/
def zeroSumSign (rm : RMode) (a b : F80) : Bool :=
  if a.isZero && b.isZero && a.sgn == b.sgn then a.sgn else rm == .down

/-- `FE.ADD` (R216). -/
def f80Add (nan : F80) (rm : RMode) (a b : F80) : F80 × Flags6 :=
  match screen nan [a, b] with
  | .error early => early
  | .ok fl0 =>
    if a.isInf && b.isInf then (if a.sgn == b.sgn then (a, fl0) else (F80.dnan, flagI))
    else if a.isInf then (a, fl0)
    else if b.isInf then (b, fl0)
    else
      let u := commonUnit a b
      let x := a.inUnits u + b.inUnits u
      if x = 0 then (F80.zero (zeroSumSign rm a b), fl0)
      else F80.fin rm (decide (x < 0)) { num := x.natAbs, den := 1, exp := u } fl0

/-- `FE.SUB` (R217): `a + (−b)`, screened on `a` and `b`. -/
def f80Sub (nan : F80) (rm : RMode) (a b : F80) : F80 × Flags6 :=
  match screen nan [a, b] with
  | .error early => early
  | .ok _ => f80Add nan rm a (f80Neg b)

/-- `FE.MUL` (R218). -/
def f80Mul (nan : F80) (rm : RMode) (a b : F80) : F80 × Flags6 :=
  let s := a.sgn != b.sgn
  match screen nan [a, b] with
  | .error early => early
  | .ok fl0 =>
    if (a.isInf && b.isZero) || (a.isZero && b.isInf) then (F80.dnan, flagI)
    else if a.isInf || b.isInf then (F80.inf s, fl0)
    else if a.isZero || b.isZero then (F80.zero s, fl0)
    else F80.fin rm s { num := a.sig * b.sig, den := 1, exp := a.unitExp + b.unitExp } fl0

/-- `FE.DIV` (R219). -/
def f80Div (nan : F80) (rm : RMode) (a b : F80) : F80 × Flags6 :=
  let s := a.sgn != b.sgn
  match screen nan [a, b] with
  | .error early => early
  | .ok fl0 =>
    if (a.isInf && b.isInf) || (a.isZero && b.isZero) then (F80.dnan, flagI)
    else if a.isInf then (F80.inf s, fl0)
    else if b.isInf then (F80.zero s, fl0)
    else if b.isZero then (F80.inf s, fl0 ||| flagZ)
    else if a.isZero then (F80.zero s, fl0)
    else F80.fin rm s { num := a.sig, den := b.sig, exp := a.unitExp - b.unitExp } fl0

/-- The quotient a remainder operation uses, of magnitudes `x` and `y`: truncated (R220), or rounded to nearest with ties
to even (R221). -/
def quotient (nearest : Bool) (x y : Nat) : Nat :=
  if nearest then rint (x / y) (fracOf (x % y) y) false .nearest else x / y

/-- `FE.MOD` (R220) and `FE.REM` (R221). -/
def f80Remainder (nearest : Bool) (nan : F80) (a b : F80) : F80 × Flags6 :=
  match screen nan [a, b] with
  | .error early => early
  | .ok fl0 =>
    if a.isInf || b.isZero then (F80.dnan, flagI)
    else if b.isInf || a.isZero then (a, fl0)
    else
      let u := commonUnit a b
      let x := a.sig <<< (a.unitExp - u).toNat
      let y := b.sig <<< (b.unitExp - u).toNat
      -- the remainder's magnitude and sign as |val(a)| − n·|val(b)|, then given the sign of `a`
      let d : Int := (x : Int) - (quotient nearest x y * y : Nat)
      if d = 0 then (F80.zero a.sgn, fl0)
      else (F80.encFin (a.sgn != decide (d < 0)) d.natAbs u, fl0)

/-- `FE.MOD` (R220). -/
def f80Mod (nan a b : F80) : F80 × Flags6 := f80Remainder false nan a b

/-- `FE.REM` (R221). -/
def f80Rem (nan a b : F80) : F80 × Flags6 := f80Remainder true nan a b

/-! ### Logarithm, square root, scaling (R232–R234) -/

/-- The integer square root by bits: from `r`, add `2^(k−1)`, …, `2^0` where the square stays at most `n`. -/
def isqrtFrom (n : Nat) : Nat → Nat → Nat
  | 0, r => r
  | k + 1, r => if (r + (1 <<< k)) * (r + (1 <<< k)) ≤ n then isqrtFrom n k (r + (1 <<< k)) else isqrtFrom n k r

/-- `floor(√n)` for `n < 2^208`. -/
def isqrt (n : Nat) : Nat := isqrtFrom n 104 0

/-- A magnitude that rounds as `√(n · 2^e)` does, for an even `e` and `n ≥ 2^134`: the floor of the root, with a sticky bit
below it when the root is not exact (R233). -/
def sqrtMag (n : Nat) (e : Int) : Mag :=
  let r := isqrt n
  if r * r = n then { num := r, den := 1, exp := e / 2 } else { num := 2 * r + 1, den := 1, exp := e / 2 - 1 }

/-- `FE.SQRT` (R233). -/
def f80Sqrt (nan : F80) (rm : RMode) (a : F80) : F80 × Flags6 :=
  match screen nan [a] with
  | .error early => early
  | .ok fl0 =>
    if a.isZero then (a, fl0)
    else if a.sgn then (F80.dnan, flagI)
    else if a.isInf then (a, fl0)
    else
      let odd := (a.unitExp % 2).toNat
      F80.fin rm false (sqrtMag (a.sig <<< (134 + odd)) (a.unitExp - odd - 134)) fl0

/-- `FE.LOG2` (R232). -/
def f80Log2 (nan : F80) (rm : BitVec 2) (a : F80) : F80 × Flags6 :=
  match screen nan [a] with
  | .error early => early
  | .ok fl0 =>
    if a.isZero then (F80.inf true, fl0 ||| flagZ)
    else if a.sgn then (F80.dnan, flagI)
    else if a.isInf then (F80.inf false, fl0)
    else if a.sig = 1 <<< Nat.log2 a.sig then (f80OfInt (a.unitExp + Nat.log2 a.sig), fl0)
    else ((Config.feLog2 a rm).1, fl0 ||| (Config.feLog2 a rm).2)

/-- `FE.SCALE` (R234). -/
def f80Scale (nan : F80) (rm : RMode) (a : F80) (n : Int) : F80 × Flags6 :=
  match screen nan [a] with
  | .error early => early
  | .ok fl0 =>
    if a.isZero || a.isInf then (a, fl0)
    else F80.fin rm a.sgn { num := a.sig, den := 1, exp := a.unitExp + n } fl0

/-- `val(b)` of a finite pattern, truncated toward zero and clamped to −2^31 … 2^31 − 1 (R294). -/
def scaleOperand (b : F80) : Int :=
  let n := (b.mag.split 0).1
  let v : Int := if b.sgn then -(n : Int) else n
  max (-(2 ^ 31 : Nat)) (min v ((2 ^ 31 : Nat) - 1))

/-- The result of `FPU.SCALE` (R294). -/
def f80ScaleBy (nan : F80) (rm : RMode) (a b : F80) : F80 × Flags6 :=
  match screen nan [a, b] with
  | .error early => early
  | .ok _ =>
    if b.isInf && !b.sgn then (if a.isZero then (F80.dnan, flagI) else (F80.inf a.sgn, 0))
    else if b.isInf then (if a.isInf then (F80.dnan, flagI) else (F80.zero a.sgn, 0))
    else
      let r := f80Scale nan rm a (scaleOperand b)
      (r.1, if b.isDenormal then r.2 ||| flagD else r.2)

end Sys2Proof
end

