-- ==== Sys2Proof/Machine/FloatEngine.lean ====
section
/-! DEFINITION. Unit FE (spec/41_float_engine.md): the commands over the arithmetic of Float.lean. They return the masked
response and the flags, and never raise (R206). The screened operations take one draw of `NAN_RESULT` (R205; log 9). -/

namespace Sys2Proof.Machine

/-- A draw of `NAN_RESULT` as a quiet NaN: the default NaN where it is none (R205). -/
def quietNan (v : F80) : F80 := if v.isQuiet then v else F80.dnan

/-- `NAN_RESULT` (R8, R205): the oldest pending draw, or an unknown one where none is pending (log 9). -/
def State.drawNan (s : State) : F80 × State :=
  match s.draws.nans with
  | [] => (quietNan (Config.nan s.draws.past), { s with draws := { s.draws with past := s.draws.past + 1 } })
  | v :: rest => (quietNan v, { s with draws := { s.draws with nans := rest } })

/-- The rounding mode of a context (R37, R124). -/
def State.roundMode (s : State) (c : BitVec 32) : RMode := Sys2Proof.Machine.roundMode (s.rm c)

/-- Answer a screened operation: draw, compute, respond. -/
def State.screened (s : State) (op : F80 → F80 × Flags6) : State :=
  s.drawNan.2.ok (.f80Fl (op s.drawNan.1).1 (op s.drawNan.1).2)

/-- Three-valued truth of a comparison (R126, R228, R229): 0 false, 1 true, 3 unordered. -/
def truth3 (c want : Order) : BitVec 2 := if c = .unordered then 3#2 else if c = want then 1#2 else 0#2

/-- `FE.SETRM` (R210). -/
def execFeSetRm (c : BitVec 32) (m : BitVec 2) (s : State) : Out := .next ((s.setRm c m).ok .none)

/-- `FE.GETRM` (R211). -/
def execFeGetRm (c : BitVec 32) (s : State) : Out := .next (s.ok (.u2 (s.rm c)))

/-- `FE.FROMI64` (R212). -/
def execFeFromI64 (x : BitVec 64) (s : State) : Out := .next (s.ok (.f80Fl (f80OfInt x.toInt) 0))

/-- `FE.TOI64` (R213). -/
def execFeToI64 (c : BitVec 32) (a : F80) (s : State) : Out :=
  let r := f80ToInt 64 (s.roundMode c) a
  .next (s.ok (.u64Fl (BitVec.ofInt 64 r.1) r.2))

/-- `FE.FROMF64` (R214). -/
def execFeFromF64 (w : BitVec 64) (s : State) : Out := .next (s.ok (.f80Fl (f80OfF64 w).1 (f80OfF64 w).2))

/-- `FE.TOF64` (R215). -/
def execFeToF64 (c : BitVec 32) (a : F80) (s : State) : Out :=
  let r := f80ToF64 (s.roundMode c) a
  .next (s.ok (.u64Fl r.1 r.2))

/-- `FE.ADD` (R216). -/
def execFeAdd (c : BitVec 32) (a b : F80) (s : State) : Out :=
  .next (s.screened fun nan => f80Add nan (s.roundMode c) a b)

/-- `FE.SUB` (R217). -/
def execFeSub (c : BitVec 32) (a b : F80) (s : State) : Out :=
  .next (s.screened fun nan => f80Sub nan (s.roundMode c) a b)

/-- `FE.MUL` (R218). -/
def execFeMul (c : BitVec 32) (a b : F80) (s : State) : Out :=
  .next (s.screened fun nan => f80Mul nan (s.roundMode c) a b)

/-- `FE.DIV` (R219). -/
def execFeDiv (c : BitVec 32) (a b : F80) (s : State) : Out :=
  .next (s.screened fun nan => f80Div nan (s.roundMode c) a b)

/-- `FE.MOD` (R220). -/
def execFeMod (a b : F80) (s : State) : Out := .next (s.screened fun nan => f80Mod nan a b)

/-- `FE.REM` (R221). -/
def execFeRem (a b : F80) (s : State) : Out := .next (s.screened fun nan => f80Rem nan a b)

/-- `FE.ISNAN` (R222). -/
def execFeIsNan (a : F80) (s : State) : Out := .next (s.ok (.u1 a.isNan))

/-- `FE.ISINF` (R223). -/
def execFeIsInf (a : F80) (s : State) : Out := .next (s.ok (.u1 a.isInf))

/-- `FE.ISZERO` (R224). -/
def execFeIsZero (a : F80) (s : State) : Out := .next (s.ok (.u1 a.isZero))

/-- `FE.ISDENORMAL` (R225). -/
def execFeIsDenormal (a : F80) (s : State) : Out := .next (s.ok (.u1 a.isDenormal))

/-- `FE.ISSUPPORTED` (R226). -/
def execFeIsSupported (a : F80) (s : State) : Out := .next (s.ok (.u1 (!a.isUnsupported)))

/-- `FE.CMP` (R227). -/
def execFeCmp (a b : F80) (s : State) : Out := .next (s.ok (.u2Fl (f80Cmp a b).1.code (f80Cmp a b).2))

/-- `FE.LT` (R228). -/
def execFeLt (a b : F80) (s : State) : Out := .next (s.ok (.u2Fl (truth3 (f80Cmp a b).1 .lt) (f80Cmp a b).2))

/-- `FE.EQ` (R229). -/
def execFeEq (a b : F80) (s : State) : Out := .next (s.ok (.u2Fl (truth3 (f80Cmp a b).1 .eq) (f80Cmp a b).2))

/-- `FE.NEG` (R230). -/
def execFeNeg (a : F80) (s : State) : Out := .next (s.ok (.f80 (f80Neg a)))

/-- `FE.ABS` (R231). -/
def execFeAbs (a : F80) (s : State) : Out := .next (s.ok (.f80 (f80Abs a)))

/-- `FE.LOG2` (R232). -/
def execFeLog2 (c : BitVec 32) (a : F80) (s : State) : Out := .next (s.screened fun nan => f80Log2 nan (s.rm c) a)

/-- `FE.SQRT` (R233). -/
def execFeSqrt (c : BitVec 32) (a : F80) (s : State) : Out :=
  .next (s.screened fun nan => f80Sqrt nan (s.roundMode c) a)

/-- `FE.SCALE` (R234). -/
def execFeScale (c : BitVec 32) (a : F80) (n : BitVec 32) (s : State) : Out :=
  .next (s.screened fun nan => f80Scale nan (s.roundMode c) a n.toInt)

end Sys2Proof.Machine
end

