-- ==== Sys2Proof/Machine/FpuStack.lean ====
section
/-! DEFINITION. Unit FPU (spec/42_fpu_stack.md): the register stack, its faults and its completion, and the commands. The
numeric work is Float.lean's; flags reach `SW` through `Fpu.finish` (R261). -/

namespace Sys2Proof.Machine

/-- What `rd(i)` gives (R262, R283): the value, the stack flags, and the FPU with a stack fault marked. -/
structure StackRead where
  value : F80
  flags : Flags6
  fpu : Fpu
  deriving DecidableEq, Repr

/-- `rd(i)` (R262, R283): `ST(i)`, or the default NaN with a stack underflow. -/
def Fpu.rd (f : Fpu) (i : BitVec 3) : StackRead :=
  if f.valid i then { value := f.st i, flags := 0, fpu := f }
  else { value := F80.dnan, flags := flagI, fpu := f.stackFault false }

/-- `TOP <- (TOP − 1) mod 8; ST(0) <- v; TAG <- 1` (R33, R283). -/
def Fpu.pushed (f : Fpu) (v : F80) : Fpu := (f.setTop (f.top - 1#3)).setSt 0#3 v true

/-- `push(v, fl)` (R263, R283): the register below the top, `ST(7)`, is the target. -/
def Fpu.push (f : Fpu) (v : F80) (fl : Flags6) : Fpu × Bool :=
  if f.valid 7#3 then (f.stackFault true).finish (fl ||| flagI) fun g => g.pushed F80.dnan
  else f.finish fl fun g => g.pushed v

/-- A binary operation on stack slots (R283). -/
def Fpu.binary (f : Fpu) (dst src : BitVec 3) (op : F80 → F80 → F80 × Flags6) : Fpu × Bool :=
  let a := f.rd dst
  let b := a.fpu.rd src
  let r := op a.value b.value
  b.fpu.finish (r.2 ||| a.flags ||| b.flags) fun g => g.setSt dst r.1 true

/-- A unary operation on a stack slot (R283). -/
def Fpu.unary (f : Fpu) (dst : BitVec 3) (op : F80 → F80 × Flags6) : Fpu × Bool :=
  let a := f.rd dst
  let r := op a.value
  a.fpu.finish (r.2 ||| a.flags) fun g => g.setSt dst r.1 true

/-- A store conversion's flags (R277–R282): nothing is written back. -/
def Fpu.store (f : Fpu) (fl : F80 → Flags6) : Fpu × Bool :=
  let a := f.rd 0#3
  a.fpu.finish (fl a.value ||| a.flags) id

/-- `FPU.ST`'s register write (R266). -/
def Fpu.move (f : Fpu) (i : BitVec 3) : Fpu × Bool :=
  let a := f.rd 0#3
  a.fpu.finish a.flags fun g => g.setSt i a.value true

/-- `FPU.POP` (R267). -/
def Fpu.pop (f : Fpu) : Fpu × Bool :=
  let a := f.rd 0#3
  a.fpu.finish a.flags fun g => (g.free 0#3).setTop (g.top + 1#3)

/-- The condition codes of a comparison (R295): `C3` bit 14, `C2` bit 10, `C0` bit 8; `C1`, bit 9, is cleared. -/
def Fpu.setCodes (f : Fpu) (c : Order) : Fpu :=
  { f with sw := setBit (setBit (setBit (setBit f.sw
      14 (c == .eq || c == .unordered)) 10 (c == .unordered)) 8 (c == .lt || c == .unordered)) 9 false }

/-- `FPU.COM` (R295). -/
def Fpu.compare (f : Fpu) (x y : BitVec 3) : Fpu × Bool :=
  let a := f.rd x
  let b := a.fpu.rd y
  let r := f80Cmp a.value b.value
  b.fpu.finish (r.2 ||| (if r.1 = .unordered then flagI else 0) ||| a.flags ||| b.flags) fun g => g.setCodes r.1

/-- End an FPU command (R261): with the condition `FLOAT_ERROR` where an unmasked flag was produced, else with results. -/
def State.fpuDone (s : State) (c : BitVec 32) (r : Fpu × Bool) (results : Results) : State :=
  if r.2 then (s.setFpu c r.1).raise .floatError 0#32 else (s.setFpu c r.1).ok results

/-- The constant table (R38, R296). -/
def fpuConstant : Nat → F80
  | 0 => 0x3FFF8000000000000000#80
  | 1 => 0x4000D49A784BCD1B8AFE#80
  | 2 => 0x3FFFB8AA3B295C17F0BC#80
  | 3 => 0x4000C90FDAA22168C235#80
  | 4 => 0x3FFD9A209A84FBCFF799#80
  | 5 => 0x3FFEB17217F7D1CF79AC#80
  | _ => 0x00000000000000000000#80

/-- Push a value and end the command. -/
def State.fpuPush (s : State) (c : BitVec 32) (v : F80 × Flags6) : State :=
  s.fpuDone c ((s.fpu c).push v.1 v.2) .none

/-- A screened binary operation on stack slots, with its draw of `NAN_RESULT`. -/
def State.fpuBinary (s : State) (c : BitVec 32) (dst src : BitVec 3) (op : F80 → F80 → F80 → F80 × Flags6) : State :=
  s.drawNan.2.fpuDone c ((s.fpu c).binary dst src (op s.drawNan.1)) .none

/-- A screened unary operation on a stack slot, with its draw of `NAN_RESULT`. -/
def State.fpuUnary (s : State) (c : BitVec 32) (dst : BitVec 3) (op : F80 → F80 → F80 × Flags6) : State :=
  s.drawNan.2.fpuDone c ((s.fpu c).unary dst (op s.drawNan.1)) .none

/-- `FPU.INIT` (R264): `FPR` unchanged. -/
def execFpuInit (c : BitVec 32) (s : State) : Out :=
  .next (((s.setFpu c
    { s.fpu c with tag := Vector.replicate 8 false, sw := 0x0000#16, cw := 0x037F#16 }).setRm c 0#2).ok .none)

/-- `FPU.LD` (R265). -/
def execFpuLd (c : BitVec 32) (i : BitVec 3) (s : State) : Out :=
  let a := (s.fpu c).rd i
  .next (s.fpuDone c (a.fpu.push a.value a.flags) .none)

/-- `FPU.ST` (R266). -/
def execFpuSt (c : BitVec 32) (i : BitVec 3) (s : State) : Out := .next (s.fpuDone c ((s.fpu c).move i) .none)

/-- `FPU.POP` (R267). -/
def execFpuPop (c : BitVec 32) (s : State) : Out := .next (s.fpuDone c (s.fpu c).pop .none)

/-- `FPU.GETST` (R268). -/
def execFpuGetSt (c : BitVec 32) (i : BitVec 3) (s : State) : Out :=
  .next (s.ok (.stackReg ((s.fpu c).st i) ((s.fpu c).valid i)))

/-- `FPU.SETST` (R269). -/
def execFpuSetSt (c : BitVec 32) (i : BitVec 3) (v : F80) (valid : Bool) (s : State) : Out :=
  .next ((s.setFpu c ((s.fpu c).setSt i v valid)).ok .none)

/-- `FPU.LDI16` (R271). -/
def execFpuLdI16 (c : BitVec 32) (x : BitVec 16) (s : State) : Out := .next (s.fpuPush c (f80OfInt x.toInt, 0))

/-- `FPU.LDI32` (R272). -/
def execFpuLdI32 (c x : BitVec 32) (s : State) : Out := .next (s.fpuPush c (f80OfInt x.toInt, 0))

/-- `FPU.LDI64` (R273). -/
def execFpuLdI64 (c : BitVec 32) (x : BitVec 64) (s : State) : Out := .next (s.fpuPush c (f80OfInt x.toInt, 0))

/-- `FPU.LDF32` (R274). -/
def execFpuLdF32 (c w : BitVec 32) (s : State) : Out := .next (s.fpuPush c (f80OfF32 w))

/-- `FPU.LDF64` (R275). -/
def execFpuLdF64 (c : BitVec 32) (w : BitVec 64) (s : State) : Out := .next (s.fpuPush c (f80OfF64 w))

/-- `FPU.LDF80` (R276): unchanged, whatever its class. -/
def execFpuLdF80 (c : BitVec 32) (v : F80) (s : State) : Out := .next (s.fpuPush c (v, 0))

/-- `FPU.STI16` (R277). -/
def execFpuStI16 (c : BitVec 32) (s : State) : Out :=
  let conv := f80ToInt 16 (s.roundMode c)
  .next (s.fpuDone c ((s.fpu c).store fun a => (conv a).2) (.u16 (BitVec.ofInt 16 (conv ((s.fpu c).rd 0#3).value).1)))

/-- `FPU.STI32` (R278). -/
def execFpuStI32 (c : BitVec 32) (s : State) : Out :=
  let conv := f80ToInt 32 (s.roundMode c)
  .next (s.fpuDone c ((s.fpu c).store fun a => (conv a).2) (.u32 (BitVec.ofInt 32 (conv ((s.fpu c).rd 0#3).value).1)))

/-- `FPU.STI64` (R279). -/
def execFpuStI64 (c : BitVec 32) (s : State) : Out :=
  let conv := f80ToInt 64 (s.roundMode c)
  .next (s.fpuDone c ((s.fpu c).store fun a => (conv a).2) (.u64 (BitVec.ofInt 64 (conv ((s.fpu c).rd 0#3).value).1)))

/-- `FPU.STF32` (R280). -/
def execFpuStF32 (c : BitVec 32) (s : State) : Out :=
  let conv := f80ToF32 (s.roundMode c)
  .next (s.fpuDone c ((s.fpu c).store fun a => (conv a).2) (.u32 (conv ((s.fpu c).rd 0#3).value).1))

/-- `FPU.STF64` (R281). -/
def execFpuStF64 (c : BitVec 32) (s : State) : Out :=
  let conv := f80ToF64 (s.roundMode c)
  .next (s.fpuDone c ((s.fpu c).store fun a => (conv a).2) (.u64 (conv ((s.fpu c).rd 0#3).value).1))

/-- `FPU.STF80` (R282): unchanged. -/
def execFpuStF80 (c : BitVec 32) (s : State) : Out :=
  .next (s.fpuDone c ((s.fpu c).store fun _ => 0) (.f80 ((s.fpu c).rd 0#3).value))

/-- `FPU.ADD` (R284). -/
def execFpuAdd (c : BitVec 32) (dst src : BitVec 3) (s : State) : Out :=
  .next (s.fpuBinary c dst src fun nan => f80Add nan (s.roundMode c))

/-- `FPU.SUB` (R285). -/
def execFpuSub (c : BitVec 32) (dst src : BitVec 3) (s : State) : Out :=
  .next (s.fpuBinary c dst src fun nan => f80Sub nan (s.roundMode c))

/-- `FPU.MUL` (R286). -/
def execFpuMul (c : BitVec 32) (dst src : BitVec 3) (s : State) : Out :=
  .next (s.fpuBinary c dst src fun nan => f80Mul nan (s.roundMode c))

/-- `FPU.DIV` (R287): `ST(dst)` is the dividend. -/
def execFpuDiv (c : BitVec 32) (dst src : BitVec 3) (s : State) : Out :=
  .next (s.fpuBinary c dst src fun nan => f80Div nan (s.roundMode c))

/-- `FPU.MOD` (R288). -/
def execFpuMod (c : BitVec 32) (dst src : BitVec 3) (s : State) : Out := .next (s.fpuBinary c dst src f80Mod)

/-- `FPU.REM` (R289). -/
def execFpuRem (c : BitVec 32) (dst src : BitVec 3) (s : State) : Out := .next (s.fpuBinary c dst src f80Rem)

/-- `FPU.NEG` (R290). -/
def execFpuNeg (c : BitVec 32) (dst : BitVec 3) (s : State) : Out :=
  .next (s.fpuDone c ((s.fpu c).unary dst fun a => (f80Neg a, 0)) .none)

/-- `FPU.ABS` (R291). -/
def execFpuAbs (c : BitVec 32) (dst : BitVec 3) (s : State) : Out :=
  .next (s.fpuDone c ((s.fpu c).unary dst fun a => (f80Abs a, 0)) .none)

/-- `FPU.SQRT` (R292). -/
def execFpuSqrt (c : BitVec 32) (dst : BitVec 3) (s : State) : Out :=
  .next (s.fpuUnary c dst fun nan => f80Sqrt nan (s.roundMode c))

/-- `FPU.LOG2` (R293). -/
def execFpuLog2 (c : BitVec 32) (dst : BitVec 3) (s : State) : Out :=
  .next (s.fpuUnary c dst fun nan => f80Log2 nan (s.rm c))

/-- `FPU.SCALE` (R294). -/
def execFpuScale (c : BitVec 32) (dst src : BitVec 3) (s : State) : Out :=
  .next (s.fpuBinary c dst src fun nan => f80ScaleBy nan (s.roundMode c))

/-- `FPU.COM` (R295). -/
def execFpuCom (c : BitVec 32) (x y : BitVec 3) (s : State) : Out :=
  .next (s.fpuDone c ((s.fpu c).compare x y) .none)

/-- `FPU.LDCW` (R297): `RM` follows `RC`, and `ES` is recomputed; nothing is raised. -/
def execFpuLdCw (c : BitVec 32) (v : BitVec 16) (s : State) : Out :=
  .next (((s.setFpu c ({ s.fpu c with cw := v } : Fpu).withSummary).setRm c (v.extractLsb' 10 2)).ok .none)

/-- `FPU.STCW` (R298). -/
def execFpuStCw (c : BitVec 32) (s : State) : Out := .next (s.ok (.u16 (s.fpu c).cw))

/-- `FPU.STSW` (R299). -/
def execFpuStSw (c : BitVec 32) (s : State) : Out := .next (s.ok (.u16 (s.fpu c).sw))

/-- `FPU.CONST1` (R300). -/
def execFpuConst1 (c : BitVec 32) (s : State) : Out := .next (s.fpuPush c (fpuConstant 0, 0))

/-- `FPU.CONSTL2T` (R301). -/
def execFpuConstL2T (c : BitVec 32) (s : State) : Out := .next (s.fpuPush c (fpuConstant 1, 0))

/-- `FPU.CONSTL2E` (R302). -/
def execFpuConstL2E (c : BitVec 32) (s : State) : Out := .next (s.fpuPush c (fpuConstant 2, 0))

/-- `FPU.CONSTPI` (R303). -/
def execFpuConstPi (c : BitVec 32) (s : State) : Out := .next (s.fpuPush c (fpuConstant 3, 0))

/-- `FPU.CONSTLG2` (R304). -/
def execFpuConstLg2 (c : BitVec 32) (s : State) : Out := .next (s.fpuPush c (fpuConstant 4, 0))

/-- `FPU.CONSTLN2` (R305). -/
def execFpuConstLn2 (c : BitVec 32) (s : State) : Out := .next (s.fpuPush c (fpuConstant 5, 0))

/-- `FPU.CONSTZ` (R306). -/
def execFpuConstZ (c : BitVec 32) (s : State) : Out := .next (s.fpuPush c (fpuConstant 6, 0))

end Sys2Proof.Machine
end

