-- ==== Sys2Proof/Machine/AddressSpace.lean ====
section
/-! DEFINITION. Unit ASM (spec/43_address_space.md): address spaces, mappings, copy-on-write, hole search, translation. Every
failure leaves the state as it was, apart from the response and the oracle draw it took (R320, R337). -/

namespace Sys2Proof.Machine

/-! ### Mapping -/

/-- Every page of a range is mapped (R326, R327). -/
def State.allMapped (s : State) (m : Handle) (page count : Nat) : Bool :=
  (List.range count).all fun k => (s.pte m (page + k)).isSome

/-- The non-zero bytes of a region, by offset from `k` on (R324). -/
def cellsFrom : Nat → List Byte → Memory
  | _, [] => []
  | k, b :: rest => if b = unlistedByte then cellsFrom (k + 1) rest else (k, b) :: cellsFrom (k + 1) rest

/-- Force-unmap a page and install an entry in its place (R324). -/
def State.replace (s : State) (m : Handle) (p : Nat) (e : Pte) : State := (s.remove m p).install m p e

/-- Map a fresh blob over a range (R324): the blob's handle and the state. -/
def State.mapBlob (s : State) (m : Handle) (page count : Nat) (cells : Memory) (len : Nat) (flags : BitVec 7) :
    Handle × State :=
  let nb := s.newBlob cells len
  (nb.1, (forPages (fun k t => t.replace m (page + k) { blob := nb.1, offset := k * pageSize, flags := flags })
    count nb.2).bump m)

/-- The end of `ASM.MAP` and `ASM.MAPANON` (R324, R325, R337): the draw of `OOM`, then the mapping. -/
def State.mapChecked (s : State) (m : Handle) (page count : Nat) (cells : Memory) (len : Nat) (flags : BitVec 7) : State :=
  if s.drawOom.1 then s.drawOom.2.fail .outOfMemory
  else
    let r := s.drawOom.2.mapBlob m page count cells len flags
    r.2.ok (.handle r.1)

/-- Replace the three protection bits, keeping the others (R327). -/
def protect (old new : BitVec 7) : BitVec 7 := (old &&& 0x78#7) ||| (new &&& 0x07#7)

/-- Change one entry's protection (R327). -/
def State.protectPage (s : State) (m : Handle) (flags : BitVec 7) (p : Nat) : State :=
  match s.pte m p with
  | none => s
  | some e => s.putPte m p { e with flags := protect e.flags flags }

/-! ### Copy-on-write (R329) -/

/-- The flags of a shared page: COPY-ON-WRITE set, COMPILED cleared (R329). -/
def sharedFlags (flags : BitVec 7) : BitVec 7 := setBit (setBit flags pCowBit true) pCompiledBit false

/-- Share one page (R329); nothing where the source page is unmapped. -/
def State.sharePage (s : State) (m : Handle) (p : Nat) (m2 : Handle) (p2 : Nat) : State :=
  match s.pte m p with
  | none => s
  | some e =>
    let shared : Pte := { e with flags := sharedFlags e.flags }
    ((s.remove m2 p2).putPte m p shared).install m2 p2 shared

/-- The number of mapped pages of a range: `copied` of R329, since sharing unmaps no page of the source range. -/
def State.mappedCount (s : State) (m : Handle) (page count : Nat) : Nat :=
  ((List.range count).filter fun k => (s.pte m (page + k)).isSome).length

/-- Share a range and bump the counters, once where the spaces are the same (R329, R340). -/
def State.shareRange (s : State) (m : Handle) (page count : Nat) (m2 : Handle) (page2 : Nat) : State :=
  let t := (forPages (fun k u => u.sharePage m (page + k) m2 (page2 + k)) count s).bump m
  if m2 = m then t else t.bump m2

/-! ### Hole search (R330) -/

/-- `n` pages from `q` on lie within the bounds and are all unmapped (R330). -/
def holeAt (pages : List (Nat × Pte)) (low high n q : Nat) : Bool :=
  decide (low < q ∧ q + n ≤ high + 1) && pages.all fun e => decide (e.1 < q ∨ q + n ≤ e.1)

/-- The highest hole. A highest hole ends at the upper bound or just below a mapped page, so those are the places tried. -/
def findHole (pages : List (Nat × Pte)) (low high n : Nat) : Option Nat :=
  (((high + 1) :: mapKeys pages).filterMap fun e =>
    if n ≤ e ∧ holeAt pages low high n (e - n) then some (e - n) else none).max?

/-! ### Translation (R331–R335) -/

/-- What a translation answers: the host pointer and the entry's flags, a failure, or an entry that names bytes no blob has
(log 14). -/
inductive Translation where
  | ok (blob : Handle) (offset : Nat) (flags : BitVec 7)
  | fail (f : Failure)
  | noSuchByte
  deriving DecidableEq, Repr

/-- The first entry above page `p` (R332). -/
def nextAbove (pages : List (Nat × Pte)) (p : Nat) : Option Pte :=
  (pages.find? fun e => decide (p < e.1)).map Prod.snd

/-- The pointer into an entry's page (R335). -/
def Pte.pointer (e : Pte) (addr : Nat) : Translation := .ok e.blob (e.offset + addr % pageSize) e.flags

/-- Stack growth (R332): the new entry, or a failure. -/
def State.grow (s : State) (m : Handle) (p : Nat) : Except Failure Pte × State :=
  match (s.space m).bind fun sp => nextAbove sp.pages p with
  | none => (.error .noTranslation, s)
  | some above =>
    if growsDown above.flags then
      if s.drawOom.1 then (.error .outOfMemory, s.drawOom.2)
      else
        let nb := s.drawOom.2.newBlob [] pageSize
        let e : Pte := { blob := nb.1, offset := 0, flags := grownFlags }
        (.ok e, (nb.2.install m p e).bump m)
    else (.error .noTranslation, s)

/-- The bytes of a page of a blob, at offsets from 0 on (R334). -/
def pageCells (cells : Memory) (offset : Nat) : Memory :=
  (cells.filter fun cell => decide (offset ≤ cell.1 ∧ cell.1 < offset + pageSize)).map fun cell =>
    (cell.1 - offset, cell.2)

/-- Copy-on-write duplication (R334): the new entry, a failure, or nothing where the old entry names bytes no blob has. -/
def State.duplicate (s : State) (m : Handle) (p : Nat) (e : Pte) : Option (Except Failure Pte) × State :=
  if s.drawOom.1 then (some (.error .outOfMemory), s.drawOom.2)
  else
    match mapFind s.blobs e.blob with
    | none => (none, s)
    | some old =>
      if e.offset + pageSize ≤ old.len then
        let nb := s.drawOom.2.newBlob (pageCells old.cells e.offset) pageSize
        let e2 : Pte := { blob := nb.1, offset := 0, flags := setBit e.flags pCowBit false }
        (some (.ok e2), (nb.2.replace m p e2).bump m)
      else (none, s)

/-- The write check (R333) and the pointer. -/
def State.translateMapped (s : State) (m : Handle) (addr : Nat) (kind : Access) (e : Pte) : Translation × State :=
  match kind with
  | .read => (e.pointer addr, s)
  | .write =>
    if writable e.flags then
      if copyOnWrite e.flags then
        match s.duplicate m (pageOf addr) e with
        | (some (.ok e2), t) => (e2.pointer addr, t)
        | (some (.error f), t) => (.fail f, t)
        | (none, t) => (.noSuchByte, t)
      else (e.pointer addr, s)
    else (.fail .noTranslation, s)

/-- `ASM.TRANSLATE` (R331), as the translation cache also uses it (R365). -/
def State.translate (s : State) (m : Handle) (addr : Nat) (kind : Access) : Translation × State :=
  if (s.space m).isNone then (.fail .illegalOperand, s)
  else
    match s.pte m (pageOf addr) with
    | some e => s.translateMapped m addr kind e
    | none =>
      match s.grow m (pageOf addr) with
      | (.error f, t) => (.fail f, t)
      | (.ok e, t) => t.translateMapped m addr kind e

/-! ### Commands -/

/-- `ASM.CREATE` (R321). -/
def execAsmCreate (s : State) : Out :=
  if s.drawOom.1 then .next (s.drawOom.2.fail .outOfMemory)
  else
    let fresh := s.drawOom.2.freshMem
    .next ((fresh.2.setSpace fresh.1 { pages := [], gen := 0, refcount := 1, lock := .free }).ok (.handle fresh.1))

/-- `ASM.RETAIN` (R322). -/
def execAsmRetain (m : BitVec 64) (s : State) : Out :=
  match s.space m.toNat with
  | none => .next (s.fail .illegalOperand)
  | some sp => .next ((s.setSpace m.toNat { sp with refcount := sp.refcount + 1 }).ok .none)

/-- Unmap every page and free the directory (R323). -/
def State.destroy (s : State) (m : Handle) : State :=
  match s.space m with
  | none => s
  | some sp =>
    let t := (mapKeys sp.pages).foldl (fun u p => u.remove m p) s
    { t with mems := mapDel t.mems m }

/-- `ASM.RELEASE` (R323). -/
def execAsmRelease (m : BitVec 64) (s : State) : Out :=
  match s.space m.toNat with
  | none => .next (s.fail .illegalOperand)
  | some sp =>
    if sp.refcount ≤ 1 then .next ((s.destroy m.toNat).ok (.u1 true))
    else .next ((s.setSpace m.toNat { sp with refcount := sp.refcount - 1 }).ok (.u1 false))

/-- `ASM.MAP` (R324). -/
def execAsmMap (m : BitVec 64) (page : BitVec 20) (count : BitVec 32) (host : HostMem) (flags : BitVec 7) (s : State) :
    Out :=
  if !rangeValid page.toNat count.toNat || (s.space m.toNat).isNone then .next (s.fail .illegalOperand)
  else
    match host with
    | .invalid => .next (s.fail .mapFailed)
    | .region bytes =>
      if bytes.length < count.toNat * pageSize then .next (s.fail .mapFailed)
      else .next (s.mapChecked m.toNat page.toNat count.toNat (cellsFrom 0 bytes) bytes.length flags)

/-- `ASM.MAPANON` (R325): a region of zero bytes, ANONYMOUS set. -/
def execAsmMapAnon (m : BitVec 64) (page : BitVec 20) (count : BitVec 32) (flags : BitVec 7) (s : State) : Out :=
  if !rangeValid page.toNat count.toNat || (s.space m.toNat).isNone then .next (s.fail .illegalOperand)
  else .next (s.mapChecked m.toNat page.toNat count.toNat [] (count.toNat * pageSize) (setBit flags pAnonBit true))

/-- `ASM.UNMAP` (R326). -/
def execAsmUnmap (m : BitVec 64) (page : BitVec 20) (count : BitVec 32) (force : Bool) (s : State) : Out :=
  if !rangeValid page.toNat count.toNat || (s.space m.toNat).isNone then .next (s.fail .illegalOperand)
  else if !force && !s.allMapped m.toNat page.toNat count.toNat then .next (s.fail .notMapped)
  else .next (((forPages (fun k t => t.remove m.toNat (page.toNat + k)) count.toNat s).bump m.toNat).ok .none)

/-- `ASM.SETPROT` (R327). -/
def execAsmSetProt (m : BitVec 64) (page : BitVec 20) (count : BitVec 32) (flags : BitVec 7) (s : State) : Out :=
  if !rangeValid page.toNat count.toNat || (s.space m.toNat).isNone then .next (s.fail .illegalOperand)
  else if !s.allMapped m.toNat page.toNat count.toNat then .next (s.fail .notMapped)
  else .next
    (((forPages (fun k t => t.protectPage m.toNat flags (page.toNat + k)) count.toNat s).bump m.toNat).ok .none)

/-- `ASM.COW` (R329). -/
def execAsmCow (m : BitVec 64) (page : BitVec 20) (count : BitVec 32) (m2 : BitVec 64) (page2 : BitVec 20) (s : State) :
    Out :=
  if !rangeValid page.toNat count.toNat || !rangeValid page2.toNat count.toNat
      || (s.space m.toNat).isNone || (s.space m2.toNat).isNone then .next (s.fail .illegalOperand)
  else if m = m2 ∧ rangesOverlap page.toNat page2.toNat count.toNat then .next (s.fail .illegalOperand)
  else if s.drawOom.1 then .next (s.drawOom.2.fail .outOfMemory)
  else .next
    ((s.drawOom.2.shareRange m.toNat page.toNat count.toNat m2.toNat page2.toNat).ok
      (.u32 (BitVec.ofNat 32 (s.mappedCount m.toNat page.toNat count.toNat))))

/-- `ASM.FINDHOLE` (R330). -/
def execAsmFindHole (m : BitVec 64) (n : BitVec 32) (s : State) : Out :=
  match s.space m.toNat with
  | none => .next (s.fail .illegalOperand)
  | some sp =>
    if n = 0#32 then .next (s.fail .illegalOperand)
    else .next (s.ok (.u32
      (match findHole sp.pages s.params.holeLow s.params.holeHigh n.toNat with
        | some q => BitVec.ofNat 32 q
        | none => s.params.badPage.val)))

/-- `ASM.TRANSLATE` (R331). -/
def execAsmTranslate (m : BitVec 64) (addr : BitVec 32) (kind : Access) (s : State) : Out :=
  match s.translate m.toNat addr.toNat kind with
  | (.ok blob offset flags, t) => .next (t.ok (.pointer blob offset flags))
  | (.fail f, t) => .next (t.fail f)
  | (.noSuchByte, _) => .fault .noSuchByte

end Sys2Proof.Machine
end

