-- ==== Sys2Proof/Machine/TransCache.lean ====
section
/-! DEFINITION. Unit TLB (spec/44_tlb.md): the direct-mapped translation cache of a context and the byte read and write
path over it. -/

namespace Sys2Proof.Machine

/-- `TLB_SIZE` (R8). -/
def tlbSize (params : Params) : Nat := 2 ^ params.tlbLog2

/-- `TLB_HASH` (R8): the default formula, or the index the parameters give the page. -/
def tlbIndex (params : Params) (p : Nat) : Nat :=
  ((mapFind params.tlbHash p).getD ((p % tlbSize params) ^^^ (p / tlbSize params))) % tlbSize params

/-- The address space a context's cache is attached to; none where it is detached or the space is gone (R360). -/
def State.attached (s : State) (c : BitVec 32) : Option (Handle × Space) :=
  (s.tlb c).mem.bind fun m => (s.space m).map fun sp => (m, sp)

/-- Empty every slot and stamp the cache with a generation (R368). -/
def State.emptyTlb (s : State) (c : BitVec 32) (gen : Nat) : State :=
  s.setTlb c { s.tlb c with gen := gen, slots := [] }

/-- The generation has changed since the cache was validated (R369). -/
def State.stale (s : State) (c : BitVec 32) : Bool :=
  match s.attached c with
  | none => false
  | some (_, sp) => sp.gen != (s.tlb c).gen

/-- `TLB.REVALIDATE`'s effect on the cache (R369). -/
def State.revalidate (s : State) (c : BitVec 32) : State :=
  match s.attached c with
  | none => s
  | some (_, sp) => if sp.gen = (s.tlb c).gen then s else s.emptyTlb c sp.gen

/-- The generation test before a lookup, where the parameter asks for it (R361). -/
def State.genTest (s : State) (c : BitVec 32) : State := if s.params.genCheck then s.revalidate c else s

/-- A slot is a hit for a page and an access kind (R361). -/
def Slot.hits (slot : Slot) (p : Nat) : Access → Bool
  | .read => slot.page == BitVec.ofNat 20 p
  | .write => slot.pageW == some (BitVec.ofNat 20 p)

/-- Lookup (R361): the slot of the page's index, where it is a hit. -/
def State.lookup (s : State) (c : BitVec 32) (p : Nat) (kind : Access) : Option Slot :=
  (mapFind (s.tlb c).slots (tlbIndex s.params p)).bind fun slot => if slot.hits p kind then some slot else none

/-- The slot a miss fills (R365): writable in place only with WRITABLE and without COPY-ON-WRITE. -/
def filledSlot (p addr : Nat) (blob : Handle) (offset : Nat) (flags : BitVec 7) : Slot :=
  { page := BitVec.ofNat 20 p,
    pageW := if writable flags && !copyOnWrite flags then some (BitVec.ofNat 20 p) else none,
    blob := blob, off := (offset : Int) - addr }

/-- Fill a slot (R365); `tlb.gen` is not changed. -/
def State.fill (s : State) (c : BitVec 32) (p : Nat) (slot : Slot) : State :=
  s.setTlb c { s.tlb c with slots := mapPut (s.tlb c).slots (tlbIndex s.params p) slot }

/-- Where an address lies in host memory (R364): a pointer, a fault (R367), or an entry that names bytes no blob has
(log 14). -/
inductive Reach where
  | pointer (blob : Handle) (offset : Int)
  | fault
  | noSuchByte
  deriving DecidableEq, Repr

/-- The host pointer of an address, by hit (R364) or by miss and fill (R365). -/
def State.reach (s : State) (c : BitVec 32) (addr : Nat) (kind : Access) : Reach × State :=
  let t := s.genTest c
  match t.lookup c (pageOf addr) kind with
  | some slot => (.pointer slot.blob (slot.off + addr), t)
  | none =>
    match (t.tlb c).mem with
    | none => (.fault, t)
    | some m =>
      match t.translate m addr kind with
      | (.ok blob offset flags, u) =>
        (.pointer blob offset, u.fill c (pageOf addr) (filledSlot (pageOf addr) addr blob offset flags))
      | (.fail _, u) => (.fault, u)
      | (.noSuchByte, u) => (.noSuchByte, u)

/-- How an access ends: served, with a value; at the first address of a piece that faults (R366, R367); or at bytes that no
blob has (log 14). -/
inductive Served (α : Type) where
  | done (value : α) (state : State)
  | fault (addr : Nat) (state : State)
  | noSuchByte

/-- Go on after an access that was served. -/
def Served.andThen {α β : Type} (x : Served α) (f : α → State → Served β) : Served β :=
  match x with
  | .done v t => f v t
  | .fault a t => .fault a t
  | .noSuchByte => .noSuchByte

/-! ### Accesses as single bytes in ascending order (R75, R366) -/

/-- The host pointer of an access's next byte: the one its piece already has, or, at the first byte of a piece, that of a lookup
of its own (R366). -/
def State.locate (s : State) (c : BitVec 32) (place : Place) (kind : Access) : Reach × State :=
  match place.host with
  | some (blob, offset) => (.pointer blob offset, s)
  | none => s.reach c place.addr kind

/-- The place after the byte at `addr`, whose host pointer was `(blob, offset)`: a piece ends at a multiple of 4096 (R366). Only
the decoder's fetches run over the top of the address space (R432). -/
def placeAfter (addr : Nat) (blob : Handle) (offset : Int) : Place :=
  { addr := (addr + 1) % 2 ^ 32, host := if (addr + 1) % pageSize = 0 then none else some (blob, offset + 1) }

/-- Read one byte (R364, R365), and the place after it. -/
def State.readOne (s : State) (c : BitVec 32) (place : Place) : Served (Byte × Place) :=
  match s.locate c place .read with
  | (.pointer blob offset, t) =>
    match t.hostByte blob offset with
    | some v => .done (v, placeAfter place.addr blob offset) t
    | none => .noSuchByte
  | (.fault, t) => .fault place.addr t
  | (.noSuchByte, _) => .noSuchByte

/-- Read `n` bytes, in ascending order. -/
def State.readRun (s : State) (c : BitVec 32) : Nat → Place → Served (List Byte × Place)
  | 0, place => .done ([], place) s
  | n + 1, place =>
    (s.readOne c place).andThen fun one t =>
      (t.readRun c n one.2).andThen fun more u => .done (one.1 :: more.1, more.2) u

/-- Write one byte (R364, R365), and the place after it. -/
def State.writeOne (s : State) (c : BitVec 32) (place : Place) (v : Byte) : Served Place :=
  match s.locate c place .write with
  | (.pointer blob offset, t) =>
    match t.storeHost blob offset v with
    | some u => .done (placeAfter place.addr blob offset) u
    | none => .noSuchByte
  | (.fault, t) => .fault place.addr t
  | (.noSuchByte, _) => .noSuchByte

/-- Write bytes, in ascending order. -/
def State.writeRun (s : State) (c : BitVec 32) : List Byte → Place → Served Place
  | [], place => .done place s
  | v :: rest, place => (s.writeOne c place v).andThen fun next t => t.writeRun c rest next

/-! ### Accesses of several bytes (R75, R92; log 15) -/

/-- The bytes still to do. -/
def Transfer.left (x : Transfer) : Nat :=
  match x.job with
  | .read left _ => left
  | .write rest => rest.length
  | .disp _ _ _ _ left _ => left

/-- What the command answers when nothing is left (R362, R363, R431). -/
def Transfer.results (x : Transfer) : Results :=
  match x.job with
  | .read _ got => .bytes got
  | .write _ => .none
  | .disp base index shift reg _ got =>
    .modRm (.mem base index shift (BitVec.ofNat 32 (leNat got))) reg (BitVec.ofNat 32 x.place.addr)

/-- Do the next `k` bytes of an access. -/
def State.move (s : State) (c : BitVec 32) (k : Nat) (x : Transfer) : Served Transfer :=
  match x.job with
  | .read left got =>
    (s.readRun c k x.place).andThen fun r t => .done { place := r.2, job := .read (left - k) (got ++ r.1) } t
  | .write rest =>
    (s.writeRun c (rest.take k) x.place).andThen fun place t => .done { place := place, job := .write (rest.drop k) } t
  | .disp base index shift reg left got =>
    (s.readRun c k x.place).andThen fun r t =>
      .done { place := r.2, job := .disp base index shift reg (left - k) (got ++ r.1) } t

/-- `fault(a)` (R367): `FAULT_ADDR` is written, then `PAGE_FAULT` is raised. -/
def State.pageFault (s : State) (c : BitVec 32) (addr : Nat) : State :=
  (s.setCpu c { s.cpu c with faultAddr := BitVec.ofNat 32 addr }).raise .pageFault (BitVec.ofNat 32 addr)

/-- Leave an access under way: no response yet (log 15). -/
def State.park (s : State) (c : BitVec 32) (x : Transfer) : State := { s.setTransfer c (some x) with resp := none }

/-- Do an access up to where another context comes between (R75), or to its end. -/
def State.advance (s : State) (c : BitVec 32) (x : Transfer) : Out :=
  match (s.slice x.left).2.move c (s.slice x.left).1 x with
  | .done y t => if y.left = 0 then .next (t.ok y.results) else .next (t.park c y)
  | .fault a t => .next (t.pageFault c a)
  | .noSuchByte => .fault .noSuchByte

/-- Go on with the access that a context has under way; nothing where it has none. -/
def State.resume (s : State) (c : BitVec 32) : Out :=
  match s.transfer c with
  | none => .next s
  | some x => (s.setTransfer c none).advance c x

/-! ### Commands -/

/-- `TLB.READ` (R362). -/
def execTlbRead (c addr n : BitVec 32) (s : State) : Out :=
  if (s.attached c).isNone || pastTop addr.toNat n.toNat then .next (s.fail .illegalOperand)
  else s.advance c { place := { addr := addr.toNat, host := none }, job := .read n.toNat [] }

/-- `TLB.WRITE` (R363). -/
def execTlbWrite (c addr : BitVec 32) (data : List Byte) (s : State) : Out :=
  if (s.attached c).isNone || pastTop addr.toNat data.length then .next (s.fail .illegalOperand)
  else s.advance c { place := { addr := addr.toNat, host := none }, job := .write data }

/-- `TLB.FLUSH` (R368). -/
def execTlbFlush (c : BitVec 32) (s : State) : Out :=
  match s.attached c with
  | none => .next (s.fail .illegalOperand)
  | some (_, sp) => .next ((s.emptyTlb c sp.gen).ok .none)

/-- `TLB.REVALIDATE` (R369). -/
def execTlbRevalidate (c : BitVec 32) (s : State) : Out :=
  if (s.attached c).isNone then .next (s.fail .illegalOperand)
  else .next ((s.revalidate c).ok (.u1 (s.stale c)))

/-- `TLB.ATTACH` (R370). -/
def execTlbAttach (c : BitVec 32) (m : BitVec 64) (s : State) : Out :=
  match s.space m.toNat with
  | none => .next (s.fail .illegalOperand)
  | some sp => .next ((s.setTlb c { mem := some m.toNat, gen := sp.gen, slots := [] }).ok .none)

end Sys2Proof.Machine
end

