-- ==== Sys2Proof/Machine/ModRm.lean ====
section
/-! DEFINITION. Unit DEC (spec/46_modrm_decoder.md): the ModRM/SIB decoder, which reads instruction bytes through the
translation cache, and the effective address. -/

namespace Sys2Proof.Machine

/-! ### Byte fields (R115, R116) -/

/-- `mod`, or a SIB byte's `scale`: bits 7:6. -/
def topField (b : Byte) : BitVec 2 := b.extractLsb' 6 2

/-- `reg`, or a SIB byte's `index`: bits 5:3. -/
def midField (b : Byte) : BitVec 3 := b.extractLsb' 3 3

/-- `rm`, or a SIB byte's `base`: bits 2:0. -/
def lowField (b : Byte) : BitVec 3 := b.extractLsb' 0 3

/-! ### Fetches (R432, R439) -/

/-- `fetch8(a)` (R439): a `TLB.READ` of one byte. -/
def State.fetch8 (s : State) (c : BitVec 32) (a : BitVec 32) : Served Byte :=
  (s.readOne c { addr := a.toNat, host := none }).andThen fun one t => .done one.1 t

/-- `fetch32(a)` (R439): a `TLB.READ` of four bytes, which goes on at address 0 after the top of the address space (R432), and
between whose bytes other contexts may come (R75; log 15). -/
def fetch32 (base index : BitVec 4) (shift : BitVec 2) (reg : BitVec 3) (a : BitVec 32) : Transfer :=
  { place := { addr := a.toNat, host := none }, job := .disp base index shift reg 4 [] }

/-! ### The decoder (R431) -/

/-- The base, index and shift a ModRM byte and its SIB byte give a memory operand, and whether a 32-bit displacement
replaces the base (R434–R438). -/
structure Addressing where
  base : BitVec 4
  index : BitVec 4
  shift : BitVec 2
  disp32 : Bool
  deriving DecidableEq, Repr

/-- Without a SIB byte (R434, R435). -/
def addressingPlain (mod : BitVec 2) (rm : BitVec 3) : Addressing :=
  if rm = 5#3 ∧ mod = 0#2 then { base := 8#4, index := 8#4, shift := 0#2, disp32 := true }
  else { base := rm.setWidth 4, index := 8#4, shift := 0#2, disp32 := false }

/-- With a SIB byte (R436–R438). -/
def addressingSib (mod : BitVec 2) (sib : Byte) : Addressing :=
  let none5 : Bool := lowField sib = 5#3 ∧ mod = 0#2
  { base := if none5 then 8#4 else (lowField sib).setWidth 4,
    index := if midField sib = 4#3 then 8#4 else (midField sib).setWidth 4,
    shift := if midField sib = 4#3 then 0#2 else topField sib,
    disp32 := none5 }

/-- What the bytes up to a 32-bit displacement give: the results, or that displacement still to be fetched. -/
inductive Decoded where
  | whole (results : Results)
  | fetching (x : Transfer)
  deriving DecidableEq, Repr

/-- The end of a memory operand whose displacement starts at `a` (R117, R431). -/
def State.decodeMem (s : State) (c a : BitVec 32) (mod : BitVec 2) (reg : BitVec 3) (adr : Addressing) : Served Decoded :=
  if mod = 1#2 then
    (s.fetch8 c a).andThen fun d t =>
      .done (.whole (.modRm (.mem adr.base adr.index adr.shift (d.signExtend 32)) reg (a + 1#32))) t
  else if mod = 2#2 ∨ adr.disp32 then .done (.fetching (fetch32 adr.base adr.index adr.shift reg a)) s
  else .done (.whole (.modRm (.mem adr.base adr.index adr.shift 0#32) reg a)) s

/-- `DEC.MODRM`'s decoding up to a 32-bit displacement (R431); every addition to the cursor wraps (R432). -/
def State.decodeModRm (s : State) (c cursor : BitVec 32) : Served Decoded :=
  (s.fetch8 c cursor).andThen fun b t =>
    if topField b = 3#2 then .done (.whole (.modRm (.reg (lowField b)) (midField b) (cursor + 1#32))) t
    else if lowField b = 4#3 then
      (t.fetch8 c (cursor + 1#32)).andThen fun sib u =>
        u.decodeMem c (cursor + 2#32) (topField b) (midField b) (addressingSib (topField b) sib)
    else t.decodeMem c (cursor + 1#32) (topField b) (midField b) (addressingPlain (topField b) (lowField b))

/-- `DEC.MODRM` (R431, R441). -/
def execDecModRm (c cursor : BitVec 32) (s : State) : Out :=
  if (s.attached c).isNone then .next (s.fail .illegalOperand)
  else
    match s.decodeModRm c cursor with
    | .done (.whole results) t => .next (t.ok results)
    | .done (.fetching x) t => t.advance c x
    | .fault a t => .next (t.pageFault c a)
    | .noSuchByte => .fault .noSuchByte

/-- `DEC.EA` (R440), refused like every DEC command before the context is attached (R503; log 25). -/
def execDecEa (c : BitVec 32) (desc : Desc) (s : State) : Out :=
  if (s.attached c).isNone then .next (s.fail .illegalOperand)
  else
    match (s.cpu c).effectiveAddress desc with
    | some ea => .next (s.ok (.u32 ea))
    | none => .next (s.fail .illegalOperand)

end Sys2Proof.Machine
end

