-- ==== Sys2Proof/Machine/WideInt.lean ====
section
/-! DEFINITION. Unit WI (spec/40_wide_integer.md): the 128-bit integer commands. Each is a pure function of its operands
(R151): apart from the response no state changes. `U(a)` is `a.toNat`, `S(a)` is `a.toInt` (R9). -/

namespace Sys2Proof.Machine

/-- The true result of a signed operation is representable in 128 bits. -/
def fitsWide (x : Int) : Bool := decide (-(2 : Int) ^ 127 ≤ x ∧ x ≤ 2 ^ 127 - 1)

/-- The three-way compare result (R126): −1, 0 or +1 as an `s8`. -/
def threeWay (x y : Int) : BitVec 8 := if x < y then 0xFF#8 else if x = y then 0#8 else 1#8

/-- The leading-zero count (R158). -/
def leadingZeros (a : Wide) : Nat := if a = 0#128 then 128 else 127 - Nat.log2 a.toNat

/-- A legal shift count (R162, R163): 0 … 127. -/
def shiftCount (n : BitVec 32) : Option Nat :=
  if n.toInt < 0 ∨ 127 < n.toInt then none else some n.toNat

/-- One step of restoring long division (R174) on the registers `q` (128 bits), `R` (129 bits) and `D` (128 bits). -/
def restoringStep (b : Wide) (regs : Wide × BitVec 129 × Wide) : Wide × BitVec 129 × Wide :=
  let shifted : BitVec 129 := (regs.2.1 <<< 1) ||| (regs.2.2 >>> 127).setWidth 129
  if b.setWidth 129 ≤ shifted then
    ((regs.1 <<< 1) ||| 1#128, shifted - b.setWidth 129, regs.2.2 <<< 1)
  else (regs.1 <<< 1, shifted, regs.2.2 <<< 1)

/-- `n` steps of restoring long division. -/
def restoringSteps (b : Wide) : Nat → Wide × BitVec 129 × Wide → Wide × BitVec 129 × Wide
  | 0, regs => regs
  | n + 1, regs => restoringSteps b n (restoringStep b regs)

/-- The division algorithm of R174: quotient and remainder after 128 steps. -/
def restoringDivide (a b : Wide) : Wide × Wide :=
  let regs := restoringSteps b 128 (0, 0, a)
  (regs.1, regs.2.1.setWidth 128)

/-- `WI.FROMU64` (R152). -/
def execWiFromU64 (x : BitVec 64) (s : State) : Out := .next (s.ok (.wide (x.setWidth 128)))

/-- `WI.FROMS64` (R153). -/
def execWiFromS64 (x : BitVec 64) (s : State) : Out := .next (s.ok (.wide (x.signExtend 128)))

/-- `WI.TOU64` (R154). -/
def execWiToU64 (a : Wide) (s : State) : Out :=
  .next (s.ok (.narrow (a.setWidth 64) (a.extractLsb' 64 64 != 0#64)))

/-- `WI.TOS64` (R155). -/
def execWiToS64 (a : Wide) (s : State) : Out :=
  .next (s.ok (.narrow (a.setWidth 64) (!decide (-(2 : Int) ^ 63 ≤ a.toInt ∧ a.toInt ≤ 2 ^ 63 - 1))))

/-- `WI.UCMP` (R156). -/
def execWiUcmp (a b : Wide) (s : State) : Out := .next (s.ok (.u8 (threeWay a.toNat b.toNat)))

/-- `WI.SCMP` (R157). -/
def execWiScmp (a b : Wide) (s : State) : Out := .next (s.ok (.u8 (threeWay a.toInt b.toInt)))

/-- `WI.CLZ` (R158). -/
def execWiClz (a : Wide) (s : State) : Out := .next (s.ok (.u8 (BitVec.ofNat 8 (leadingZeros a))))

/-- `WI.NOT` (R159). -/
def execWiNot (a : Wide) (s : State) : Out := .next (s.ok (.wide (~~~a)))

/-- `WI.AND` (R160). -/
def execWiAnd (a b : Wide) (s : State) : Out := .next (s.ok (.wide (a &&& b)))

/-- `WI.OR` (R161). -/
def execWiOr (a b : Wide) (s : State) : Out := .next (s.ok (.wide (a ||| b)))

/-- `WI.SHL` (R162). -/
def execWiShl (a : Wide) (n : BitVec 32) (s : State) : Out :=
  match shiftCount n with
  | some k => .next (s.ok (.wide (a <<< k)))
  | none => .next (s.fail .illegalOperand)

/-- `WI.SHR` (R163). -/
def execWiShr (a : Wide) (n : BitVec 32) (s : State) : Out :=
  match shiftCount n with
  | some k => .next (s.ok (.wide (a >>> k)))
  | none => .next (s.fail .illegalOperand)

/-- `WI.UADD` (R164). -/
def execWiUadd (a b : Wide) (s : State) : Out :=
  .next (s.ok (.wideOvf (a + b) (decide (2 ^ 128 ≤ a.toNat + b.toNat))))

/-- `WI.SADD` (R165). -/
def execWiSadd (a b : Wide) (s : State) : Out :=
  .next (s.ok (.wideOvf (a + b) (!fitsWide (a.toInt + b.toInt))))

/-- `WI.USUB` (R166). -/
def execWiUsub (a b : Wide) (s : State) : Out :=
  .next (s.ok (.wideOvf (a - b) (decide ((a.toNat : Int) - b.toNat < 0))))

/-- `WI.SSUB` (R167). -/
def execWiSsub (a b : Wide) (s : State) : Out :=
  .next (s.ok (.wideOvf (a - b) (!fitsWide (a.toInt - b.toInt))))

/-- `WI.UMUL` (R168). -/
def execWiUmul (a b : Wide) (s : State) : Out :=
  .next (s.ok (.wideOvf (a * b) (decide (2 ^ 128 ≤ a.toNat * b.toNat))))

/-- `WI.SMUL` (R169). -/
def execWiSmul (a b : Wide) (s : State) : Out :=
  .next (s.ok (.wideOvf (a * b) (!fitsWide (a.toInt * b.toInt))))

/-- `WI.UDIV` (R170); R174's algorithm is `restoringDivide`. -/
def execWiUdiv (a b : Wide) (s : State) : Out :=
  if b = 0#128 then .next (s.raise .divideError 0#32)
  else .next (s.ok (.quotRem (BitVec.ofNat 128 (a.toNat / b.toNat)) (BitVec.ofNat 128 (a.toNat % b.toNat))))

/-- `WI.SDIV` (R171): `tdiv` rounds toward zero. -/
def execWiSdiv (a b : Wide) (s : State) : Out :=
  if b = 0#128 then .next (s.raise .divideError 0#32)
  else
    let qq := a.toInt.tdiv b.toInt
    .next (s.ok (.quotRemOvf (BitVec.ofInt 128 qq) (BitVec.ofInt 128 (a.toInt - qq * b.toInt)) (qq == 2 ^ 127)))

/-- `WI.NEG` (R172): the ones' complement plus one, checked as a signed addition. -/
def execWiNeg (a : Wide) (s : State) : Out :=
  .next (s.ok (.wideOvf (~~~a + 1#128) (!fitsWide ((~~~a).toInt + 1))))

end Sys2Proof.Machine
end

