-- ==== Sys2Proof/Machine/Fetch.lean ====
section
/-! DEFINITION. Taking the next command from the command port, and the answers to packets that hold none
(spec/00_scope.md R3; spec/30_encoding.md R110, R114; spec/60_exceptions.md R471, R474; log 1, log 2, log 3), and whose turn
it is (spec/20_memory.md R90–R92; log 15). -/

namespace Sys2Proof.Machine

/-- What the port gives. -/
inductive Fetched where
  /-- No command is pending (R502; log 2). -/
  | idle
  /-- A command, and the state with its packet taken off the port. -/
  | command (i : Instr) (s : State)
  /-- A packet that holds none, and the state with it taken off. -/
  | reject (r : Reject) (s : State)
  deriving DecidableEq, Repr

/-- Take the oldest packet off the port and decode it. -/
def State.fetch (s : State) : Fetched :=
  match s.port with
  | [] => .idle
  | packet :: rest =>
    match decode packet with
    | .ok i => .command i { s with port := rest }
    | .error r => .reject r { s with port := rest }

/-- The block's answer to a packet that holds no command (R114): a status that changes nothing else. -/
def answerReject (r : Reject) (s : State) : Out :=
  match r with
  | .illegalCommand => .next (s.fail .illegalCommand)
  | .illegalOperand => .next (s.fail .illegalOperand)
  | .truncated => .refused .truncatedCommand

/-- Present a packet on the port, before those already there. -/
def State.present (s : State) (packet : List Byte) : State := { s with port := packet :: s.port }

/-! ### Whose turn it is (R49, R90, R92; log 15, log 19) -/

/-- The contexts with an access under way. -/
def State.underWay (s : State) : List (BitVec 32) :=
  s.ctxs.filterMap fun e => e.2.transfer.map fun _ => BitVec.ofNat 32 e.1

/-- The context of a packet: the four bytes after the code (log 1). -/
def packetContext (packet : List Byte) : BitVec 32 := BitVec.ofNat 32 (leNat ((packet.drop 2).take 4))

/-- The codes whose commands act on the context they name (R110): not those of WI and ASM, nor of the FE commands that neither
read nor write `RM`. -/
def actsOnContext (cmd : Nat) : Bool :=
  decide (0x0300 ≤ cmd ∧ cmd < 0x0400) || decide (0x0500 ≤ cmd ∧ cmd < 0x0800)
    || [0x0200, 0x0201, 0x0203, 0x0205, 0x0206, 0x0207, 0x0208, 0x0209, 0x0216, 0x0217, 0x0218].contains cmd

/-- A packet has to wait: its command acts on a context that has an access under way, whose command comes first (R91). -/
def State.waits (s : State) (packet : List Byte) : Bool :=
  actsOnContext (leNat (packet.take 2)) && (s.transfer (packetContext packet)).isSome

/-- The oldest packet on the port can be taken. -/
def State.portReady (s : State) : Bool :=
  match s.port with
  | [] => false
  | packet :: _ => !s.waits packet

/-- Whose turn it is: a context that goes on with its access, or none, for the oldest packet on the port. The scheduler chooses
where some access is under way; past their number its choice means the packet, or the first of them where that has to wait. -/
def State.turn (s : State) : Option (BitVec 32) × State :=
  match s.underWay with
  | [] => (none, s)
  | first :: others =>
    match (first :: others)[s.drawSched.1]? with
    | some c => (some c, s.drawSched.2)
    | none => (if s.portReady then none else some first, s.drawSched.2)

/-- Make it the turn of the oldest packet on the port. -/
def State.giveTurn (s : State) : State :=
  match s.underWay with
  | [] => s
  | first :: others => { s with draws := { s.draws with sched := (first :: others).length :: s.draws.sched } }

end Sys2Proof.Machine
end

