-- ==== Sys2Proof/Machine/Dispatch.lean ====
section
/-! DEFINITION. Dispatch: one arm per command, each one direct call of its meaning (spec/30_encoding.md R133). -/

namespace Sys2Proof.Machine

def exec (i : Instr) (s : State) : Host.Outcome State Fault Refusal :=
  match i with
  -- unit WI
  | .wiFromU64 x => Sys2Proof.Machine.execWiFromU64 x s
  | .wiFromS64 x => Sys2Proof.Machine.execWiFromS64 x s
  | .wiToU64 a => Sys2Proof.Machine.execWiToU64 a s
  | .wiToS64 a => Sys2Proof.Machine.execWiToS64 a s
  | .wiUcmp a b => Sys2Proof.Machine.execWiUcmp a b s
  | .wiScmp a b => Sys2Proof.Machine.execWiScmp a b s
  | .wiClz a => Sys2Proof.Machine.execWiClz a s
  | .wiNot a => Sys2Proof.Machine.execWiNot a s
  | .wiAnd a b => Sys2Proof.Machine.execWiAnd a b s
  | .wiOr a b => Sys2Proof.Machine.execWiOr a b s
  | .wiShl a n => Sys2Proof.Machine.execWiShl a n s
  | .wiShr a n => Sys2Proof.Machine.execWiShr a n s
  | .wiUadd a b => Sys2Proof.Machine.execWiUadd a b s
  | .wiSadd a b => Sys2Proof.Machine.execWiSadd a b s
  | .wiUsub a b => Sys2Proof.Machine.execWiUsub a b s
  | .wiSsub a b => Sys2Proof.Machine.execWiSsub a b s
  | .wiUmul a b => Sys2Proof.Machine.execWiUmul a b s
  | .wiSmul a b => Sys2Proof.Machine.execWiSmul a b s
  | .wiUdiv a b => Sys2Proof.Machine.execWiUdiv a b s
  | .wiSdiv a b => Sys2Proof.Machine.execWiSdiv a b s
  | .wiNeg a => Sys2Proof.Machine.execWiNeg a s
  -- unit FE
  | .feSetRm c m => Sys2Proof.Machine.execFeSetRm c m s
  | .feGetRm c => Sys2Proof.Machine.execFeGetRm c s
  | .feFromI64 x => Sys2Proof.Machine.execFeFromI64 x s
  | .feToI64 c a => Sys2Proof.Machine.execFeToI64 c a s
  | .feFromF64 w => Sys2Proof.Machine.execFeFromF64 w s
  | .feToF64 c a => Sys2Proof.Machine.execFeToF64 c a s
  | .feAdd c a b => Sys2Proof.Machine.execFeAdd c a b s
  | .feSub c a b => Sys2Proof.Machine.execFeSub c a b s
  | .feMul c a b => Sys2Proof.Machine.execFeMul c a b s
  | .feDiv c a b => Sys2Proof.Machine.execFeDiv c a b s
  | .feMod a b => Sys2Proof.Machine.execFeMod a b s
  | .feRem a b => Sys2Proof.Machine.execFeRem a b s
  | .feIsNan a => Sys2Proof.Machine.execFeIsNan a s
  | .feIsInf a => Sys2Proof.Machine.execFeIsInf a s
  | .feIsZero a => Sys2Proof.Machine.execFeIsZero a s
  | .feIsDenormal a => Sys2Proof.Machine.execFeIsDenormal a s
  | .feIsSupported a => Sys2Proof.Machine.execFeIsSupported a s
  | .feCmp a b => Sys2Proof.Machine.execFeCmp a b s
  | .feLt a b => Sys2Proof.Machine.execFeLt a b s
  | .feEq a b => Sys2Proof.Machine.execFeEq a b s
  | .feNeg a => Sys2Proof.Machine.execFeNeg a s
  | .feAbs a => Sys2Proof.Machine.execFeAbs a s
  | .feLog2 c a => Sys2Proof.Machine.execFeLog2 c a s
  | .feSqrt c a => Sys2Proof.Machine.execFeSqrt c a s
  | .feScale c a n => Sys2Proof.Machine.execFeScale c a n s
  -- unit FPU
  | .fpuInit c => Sys2Proof.Machine.execFpuInit c s
  | .fpuLd c n1 => Sys2Proof.Machine.execFpuLd c n1 s
  | .fpuSt c n1 => Sys2Proof.Machine.execFpuSt c n1 s
  | .fpuPop c => Sys2Proof.Machine.execFpuPop c s
  | .fpuGetSt c n1 => Sys2Proof.Machine.execFpuGetSt c n1 s
  | .fpuSetSt c n1 v valid => Sys2Proof.Machine.execFpuSetSt c n1 v valid s
  | .fpuLdI16 c x => Sys2Proof.Machine.execFpuLdI16 c x s
  | .fpuLdI32 c x => Sys2Proof.Machine.execFpuLdI32 c x s
  | .fpuLdI64 c x => Sys2Proof.Machine.execFpuLdI64 c x s
  | .fpuLdF32 c w => Sys2Proof.Machine.execFpuLdF32 c w s
  | .fpuLdF64 c w => Sys2Proof.Machine.execFpuLdF64 c w s
  | .fpuLdF80 c v => Sys2Proof.Machine.execFpuLdF80 c v s
  | .fpuStI16 c => Sys2Proof.Machine.execFpuStI16 c s
  | .fpuStI32 c => Sys2Proof.Machine.execFpuStI32 c s
  | .fpuStI64 c => Sys2Proof.Machine.execFpuStI64 c s
  | .fpuStF32 c => Sys2Proof.Machine.execFpuStF32 c s
  | .fpuStF64 c => Sys2Proof.Machine.execFpuStF64 c s
  | .fpuStF80 c => Sys2Proof.Machine.execFpuStF80 c s
  | .fpuAdd c dst src => Sys2Proof.Machine.execFpuAdd c dst src s
  | .fpuSub c dst src => Sys2Proof.Machine.execFpuSub c dst src s
  | .fpuMul c dst src => Sys2Proof.Machine.execFpuMul c dst src s
  | .fpuDiv c dst src => Sys2Proof.Machine.execFpuDiv c dst src s
  | .fpuMod c dst src => Sys2Proof.Machine.execFpuMod c dst src s
  | .fpuRem c dst src => Sys2Proof.Machine.execFpuRem c dst src s
  | .fpuNeg c dst => Sys2Proof.Machine.execFpuNeg c dst s
  | .fpuAbs c dst => Sys2Proof.Machine.execFpuAbs c dst s
  | .fpuSqrt c dst => Sys2Proof.Machine.execFpuSqrt c dst s
  | .fpuLog2 c dst => Sys2Proof.Machine.execFpuLog2 c dst s
  | .fpuScale c dst src => Sys2Proof.Machine.execFpuScale c dst src s
  | .fpuCom c x y => Sys2Proof.Machine.execFpuCom c x y s
  | .fpuLdCw c v => Sys2Proof.Machine.execFpuLdCw c v s
  | .fpuStCw c => Sys2Proof.Machine.execFpuStCw c s
  | .fpuStSw c => Sys2Proof.Machine.execFpuStSw c s
  | .fpuConst1 c => Sys2Proof.Machine.execFpuConst1 c s
  | .fpuConstL2T c => Sys2Proof.Machine.execFpuConstL2T c s
  | .fpuConstL2E c => Sys2Proof.Machine.execFpuConstL2E c s
  | .fpuConstPi c => Sys2Proof.Machine.execFpuConstPi c s
  | .fpuConstLg2 c => Sys2Proof.Machine.execFpuConstLg2 c s
  | .fpuConstLn2 c => Sys2Proof.Machine.execFpuConstLn2 c s
  | .fpuConstZ c => Sys2Proof.Machine.execFpuConstZ c s
  -- unit ASM
  | .asmCreate => Sys2Proof.Machine.execAsmCreate s
  | .asmRetain m => Sys2Proof.Machine.execAsmRetain m s
  | .asmRelease m => Sys2Proof.Machine.execAsmRelease m s
  | .asmMap m page count host flags => Sys2Proof.Machine.execAsmMap m page count host flags s
  | .asmMapAnon m page count flags => Sys2Proof.Machine.execAsmMapAnon m page count flags s
  | .asmUnmap m page count force => Sys2Proof.Machine.execAsmUnmap m page count force s
  | .asmSetProt m page count flags => Sys2Proof.Machine.execAsmSetProt m page count flags s
  | .asmCow m page count m2 page2 => Sys2Proof.Machine.execAsmCow m page count m2 page2 s
  | .asmFindHole m n => Sys2Proof.Machine.execAsmFindHole m n s
  | .asmTranslate m addr kind => Sys2Proof.Machine.execAsmTranslate m addr kind s
  -- unit TLB
  | .tlbRead c addr n => Sys2Proof.Machine.execTlbRead c addr n s
  | .tlbWrite c addr data => Sys2Proof.Machine.execTlbWrite c addr data s
  | .tlbFlush c => Sys2Proof.Machine.execTlbFlush c s
  | .tlbRevalidate c => Sys2Proof.Machine.execTlbRevalidate c s
  | .tlbAttach c m => Sys2Proof.Machine.execTlbAttach c m s
  -- unit CPU
  | .cpuGetReg32 c n1 => Sys2Proof.Machine.execCpuGetReg32 c n1 s
  | .cpuSetReg32 c n1 v => Sys2Proof.Machine.execCpuSetReg32 c n1 v s
  | .cpuGetReg16 c n1 => Sys2Proof.Machine.execCpuGetReg16 c n1 s
  | .cpuSetReg16 c n1 v => Sys2Proof.Machine.execCpuSetReg16 c n1 v s
  | .cpuGetReg8 c j => Sys2Proof.Machine.execCpuGetReg8 c j s
  | .cpuSetReg8 c j v => Sys2Proof.Machine.execCpuSetReg8 c j v s
  | .cpuGetEip c => Sys2Proof.Machine.execCpuGetEip c s
  | .cpuSetEip c v => Sys2Proof.Machine.execCpuSetEip c v s
  | .cpuGetXmm c n1 => Sys2Proof.Machine.execCpuGetXmm c n1 s
  | .cpuSetXmm c n1 v => Sys2Proof.Machine.execCpuSetXmm c n1 v s
  | .cpuGetSeg c n1 => Sys2Proof.Machine.execCpuGetSeg c n1 s
  | .cpuSetSeg c n1 v => Sys2Proof.Machine.execCpuSetSeg c n1 v s
  | .cpuRecord c res op1 op2 => Sys2Proof.Machine.execCpuRecord c res op1 op2 s
  | .cpuGetFlag c sel => Sys2Proof.Machine.execCpuGetFlag c sel s
  | .cpuSetFlag c sel v => Sys2Proof.Machine.execCpuSetFlag c sel v s
  | .cpuMaterialize c => Sys2Proof.Machine.execCpuMaterialize c s
  | .cpuExpand c => Sys2Proof.Machine.execCpuExpand c s
  | .cpuGetEflags c => Sys2Proof.Machine.execCpuGetEflags c s
  | .cpuSetEflags c v => Sys2Proof.Machine.execCpuSetEflags c v s
  | .cpuGetFaultAddr c => Sys2Proof.Machine.execCpuGetFaultAddr c s
  -- unit DEC
  | .decModRm c cursor => Sys2Proof.Machine.execDecModRm c cursor s
  | .decEa c desc => Sys2Proof.Machine.execDecEa c desc s

end Sys2Proof.Machine
end

