-- ==== Sys2Proof/Machine/Step.lean ====
section
/-! DEFINITION. One step: the oldest pending command is executed as one indivisible transition (spec/00_scope.md R3;
spec/20_memory.md R90), or a context goes on with its access of several bytes (R75, R92; log 15). With nothing pending nothing
happens (spec/70_reset_and_hazards.md R502; log 2). -/

namespace Sys2Proof.Machine

/-- One step of the block. -/
def step (s : State) : Out :=
  match s.turn with
  | (some c, t) => t.resume c
  | (none, t) =>
    match t.fetch with
    | .idle => .next t
    | .command i u => exec i u
    | .reject r u => answerReject r u

/-- The state whose next step runs the command of a table word (log 2): its packet is put on the port first, and it is the
port's turn. -/
def State.withFetchWord (s : State) (nbits w : Nat) : State := (s.giveTurn).present (tablePacket nbits w)

end Sys2Proof.Machine
end

