-- ==== Sys2Proof/Safety.lean ====
section
/-! DEFINITION. What claims speak of: the spec's float rules over the rational numbers (spec/41_float_engine.md R201–R203),
the invariants of the block (spec/10_state.md R35, R40–R47; spec/43_address_space.md R336), agreement of a cache with the
page table (spec/44_tlb.md R371), bytes of memory, and frames. -/

namespace Sys2Proof

open Sys2Proof.Machine

/-! ### The float rules over the rationals -/

/-- Finite: zero, denormal or normal (R121). -/
def F80.isFinite (v : F80) : Bool := v.isZero || v.isDenormal || v.isNormal

/-- `val(v)` (R201). -/
def F80.val (v : F80) : ℚ := (if v.sgn then -1 else 1) * (v.sig : ℚ) * (2 : ℚ) ^ v.unitExp

/-- The rational number a magnitude stands for. -/
def Mag.value (m : Mag) : ℚ := (m.num : ℚ) / (m.den : ℚ) * (2 : ℚ) ^ m.exp

/-- `rint(x, s, rm)` (R202). -/
def rintQ (x : ℚ) (s : Bool) (rm : RMode) : ℕ :=
  let lo := ⌊x⌋₊
  let f : ℚ := x - lo
  if f = 0 then lo
  else if (rm = .nearest ∧ (1 / 2 < f ∨ (f = 1 / 2 ∧ lo % 2 = 1))) ∨ (rm = .up ∧ s = false) ∨ (rm = .down ∧ s = true)
    then lo + 1
  else lo

/-- `round_fmt(p, emin, emax, rm, s, m)` (R202); none is infinity. -/
def roundQ (p : ℕ) (emin emax : ℤ) (rm : RMode) (s : Bool) (m : ℚ) : Option ℚ × Flags6 :=
  let e := Int.log 2 m
  let qu : ℚ := 2 ^ (e - p + 1)
  let mu := rintQ (m / qu) s rm * qu
  let q : ℚ := 2 ^ (max e emin - p + 1)
  let n := rintQ (m / q) s rm
  let mr := n * q
  if 2 ^ (emax + 1) ≤ mr then
    (if rm = .nearest ∨ (rm = .up ∧ s = false) ∨ (rm = .down ∧ s = true) then none
      else some ((2 ^ p - 1) * 2 ^ (emax - p + 1)), flagO ||| flagP)
  else
    (some mr, (if (n : ℚ) ≠ m / q then flagP else 0) ||| (if mu < 2 ^ emin ∧ (n : ℚ) ≠ m / q then flagU else 0))

/-- `enc(s, m)` (R203). -/
def encQ (s : Bool) : Option ℚ → F80
  | none => F80.inf s
  | some m =>
    if m = 0 then F80.zero s
    else if m < 2 ^ (-16382 : ℤ) then F80.make s 0#15 (BitVec.ofNat 64 ⌊m / 2 ^ (-16445 : ℤ)⌋₊)
    else F80.make s (BitVec.ofInt 15 (Int.log 2 m + 16383)) (BitVec.ofNat 64 ⌊m / 2 ^ (Int.log 2 m - 63)⌋₊)

/-- `fin(s, x, fl)` (R203). -/
def finQ (rm : RMode) (s : Bool) (x : ℚ) (fl : Flags6) : F80 × Flags6 :=
  let r := roundQ 64 (-16382) 16383 rm s |x|
  (encQ s r.1, fl ||| r.2)

/-- `x tdiv y` (R10) for rationals. -/
def truncQ (x : ℚ) : ℤ := if 0 ≤ x then ⌊x⌋ else ⌈x⌉

/-- The integer nearest to `x`, ties to even (R221). -/
def nearestQ (x : ℚ) : ℤ := if 0 ≤ x then rintQ x false .nearest else -(rintQ (-x) false .nearest : ℤ)

/-- The flag that denormal operands add (R205). -/
def denormalFlag (ops : List F80) : Flags6 := if ops.any F80.isDenormal then flagD else 0

/-- Order by value, with −∞ below and +∞ above every finite value (R227). -/
def F80.lessThan (a b : F80) : Prop :=
  if a.isInf || b.isInf then a.infRank < b.infRank else a.val < b.val

/-- Equality by value, −0 and +0 alike (R227). -/
def F80.sameValue (a b : F80) : Prop :=
  if a.isInf || b.isInf then a.infRank = b.infRank else a.val = b.val

/-- An operand of an arithmetic operation that R205 screens out. -/
def F80.isSpecial (v : F80) : Bool := v.isUnsupported || v.isNan

/-- `to_int(N, a)` (R208, R213) over the rationals. -/
def toIntQ (n : ℕ) (rm : RMode) (a : F80) : ℤ × Flags6 :=
  let top : ℤ := 2 ^ (n - 1)
  if a.isSpecial then (-top, flagI)
  else if a.isInf then (if a.sgn then -top else top - 1, flagI)
  else
    let v : ℤ := (if a.sgn then -1 else 1) * (rintQ |a.val| a.sgn rm : ℤ)
    if top - 1 < v then (top - 1, flagI)
    else if v < -top then (-top, flagI)
    else (v, if (v : ℚ) ≠ a.val then flagP else 0)

/-! ### Host float formats of `eb` exponent bits and `fb` fraction bits (R122) -/

/-- The exponent field. -/
def hostExp (eb fb w : ℕ) : ℕ := w / 2 ^ fb % 2 ^ eb

/-- The fraction field. -/
def hostFrac (fb w : ℕ) : ℕ := w % 2 ^ fb

/-- The sign. -/
def hostSign (eb fb w : ℕ) : Bool := decide (w / 2 ^ (eb + fb) % 2 = 1)

/-- The value of a finite pattern. -/
def hostVal (eb fb w : ℕ) : ℚ :=
  (if hostSign eb fb w then -1 else 1)
    * (if hostExp eb fb w = 0 then (hostFrac fb w : ℚ) else 2 ^ fb + hostFrac fb w)
    * 2 ^ ((max (hostExp eb fb w) 1 : ℕ) - (2 ^ (eb - 1) - 1) - fb : ℤ)

/-- `r` and `fl` are the conversion of the host pattern `w` to `F80` (R214, R208). -/
def loadsHost (eb fb w : ℕ) (r : F80) (fl : Flags6) : Prop :=
  r.sgn = hostSign eb fb w ∧
  (hostExp eb fb w = 2 ^ eb - 1 → hostFrac fb w = 0 → r = F80.inf (hostSign eb fb w) ∧ fl = 0) ∧
  (hostExp eb fb w = 2 ^ eb - 1 → hostFrac fb w ≠ 0 →
    r.isQuiet = true ∧ (r.extractLsb' 0 62).toNat = hostFrac fb w % 2 ^ (fb - 1) * 2 ^ (63 - fb) ∧
    fl = if hostFrac fb w < 2 ^ (fb - 1) then flagI else 0) ∧
  (hostExp eb fb w ≠ 2 ^ eb - 1 →
    r.isFinite = true ∧ r.isDenormal = false ∧ r.val = hostVal eb fb w ∧
    fl = if hostExp eb fb w = 0 ∧ hostFrac fb w ≠ 0 then flagD else 0)

/-- `w` and `fl` are the conversion of `a` to the host format (R215, R208). -/
def storesHost (eb fb : ℕ) (rm : RMode) (a : F80) (w : ℕ) (fl : Flags6) : Prop :=
  (a.isUnsupported = true → w = 2 ^ (eb + fb + 1) - 2 ^ (fb - 1) ∧ fl = flagI) ∧
  (a.isUnsupported = false → hostSign eb fb w = a.sgn) ∧
  (a.isNan = true →
    hostExp eb fb w = 2 ^ eb - 1 ∧ hostFrac fb w = 2 ^ (fb - 1) + (a.extractLsb' (63 - fb) (fb - 1)).toNat ∧
    fl = if a.isQuiet then 0 else flagI) ∧
  (a.isInf = true → hostExp eb fb w = 2 ^ eb - 1 ∧ hostFrac fb w = 0 ∧ fl = 0) ∧
  (a.isZero = true → hostExp eb fb w = 0 ∧ hostFrac fb w = 0 ∧ fl = 0) ∧
  (a.isFinite = true → a.isZero = false →
    let r := roundQ (fb + 1) (2 - 2 ^ (eb - 1)) (2 ^ (eb - 1) - 1) rm a.sgn |a.val|
    fl = r.2 ∧
    match r.1 with
    | none => hostExp eb fb w = 2 ^ eb - 1 ∧ hostFrac fb w = 0
    | some m => hostExp eb fb w ≠ 2 ^ eb - 1 ∧ |hostVal eb fb w| = m)

end Sys2Proof

namespace Sys2Proof.Machine

/-! ### Maps as collections -/

/-- Every entry of a map meets a check. -/
def mapAll {α : Type} (m : List (Nat × α)) (p : Nat → α → Bool) : Bool := m.all fun e => p e.1 e.2

/-- The sum of a measure over a map's values. -/
def mapSum {α : Type} (g : α → Nat) : List (Nat × α) → Nat
  | [] => 0
  | (_, v) :: rest => g v + mapSum g rest

/-! ### Invariants -/

/-- The memory invariant: every blob, live or deleted, lists its bytes in the canonical form, within its length (R42;
log 20). -/
def Blob.cellsOk (b : Blob) : Bool := Memory.wf b.cells && b.cells.all fun cell => decide (cell.1 < b.len)

/-- Every blob's memory is canonical. -/
def State.memoryOk (s : State) : Bool :=
  mapAll s.blobs (fun _ b => b.cellsOk) && mapAll s.graves fun _ b => b.cellsOk

/-- The maps of the state have rising keys, so that equal maps are equal data. -/
def State.mapsOk (s : State) : Bool :=
  keysRising s.mems && keysRising s.blobs && keysRising s.graves && keysRising s.ctxs
    && mapAll s.mems (fun _ sp => keysRising sp.pages) && mapAll s.ctxs fun _ k => keysRising k.tlb.slots

/-- An FPU's status word is consistent (R35): bit 15 reads 0, and `ES` is set exactly when some flag of bits 5:0 is set
whose mask is 0. -/
def Fpu.statusOk (f : Fpu) : Bool := !f.sw.getLsbD 15 && (f.sw.getLsbD 7 == f.anyUnmasked f.excFlags)

/-- Every context's FPU is consistent. -/
def State.fpuOk (s : State) : Bool := mapAll s.ctxs fun _ k => k.fpu.statusOk

/-- An address space between commands (R40, R44, R45): page indexes below 2^20, at least one owner, the lock free. -/
def Space.ok (sp : Space) : Bool :=
  mapAll sp.pages (fun p _ => decide (p < numPages)) && decide (1 ≤ sp.refcount) && sp.lock == .free

/-- The number of page-table entries, in all address spaces, that reference a blob (R42, R44). -/
def State.pteCount (s : State) (b : Handle) : Nat :=
  mapSum (fun sp => mapSum (fun e => if e.blob = b then 1 else 0) sp.pages) s.mems

/-- A page's bytes lie within its blob (R41): `offset + 4096 ≤ len`. -/
def State.backed (s : State) (e : Pte) : Bool :=
  match mapFind s.blobs e.blob with
  | none => false
  | some b => decide (e.offset + pageSize ≤ b.len)

/-- The page-table invariant (R40–R42, R44): spaces are well-formed, entries are backed, and a blob's reference count is the
number of entries that reference it, at least 1. -/
def State.pagesOk (s : State) : Bool :=
  mapAll s.mems (fun _ sp => sp.ok && mapAll sp.pages fun _ e => s.backed e)
    && mapAll s.blobs fun b blob => blob.refcount == s.pteCount b && decide (1 ≤ blob.refcount)

/-- No handle names both a live and a deleted blob (log 13). -/
def State.gravesOk (s : State) : Bool := mapAll s.graves fun b _ => (mapFind s.blobs b).isNone

/-- A slot of the translation cache is well-formed (R47, R365): it stands under its page's index, `page_w` is that page or
none, and the page's bytes lie within a blob, live or deleted. -/
def State.slotOk (s : State) (idx : Nat) (slot : Slot) : Bool :=
  idx == tlbIndex s.params slot.page.toNat && (slot.pageW == none || slot.pageW == some slot.page) &&
    match s.hostBlob slot.blob with
    | none => false
    | some b => decide (0 ≤ slot.off + slot.page.toNat * pageSize ∧
        slot.off + slot.page.toNat * pageSize + pageSize ≤ b.len)

/-- Every context's cache is well-formed. -/
def State.slotsOk (s : State) : Bool := mapAll s.ctxs fun _ k => mapAll k.tlb.slots s.slotOk

/-- An access under way is well-formed (R72, R75, R366; log 15): it has bytes left; its next address lies in the address space,
and the last one of a `TLB.READ` or `TLB.WRITE` too; and the rest of the page from a host pointer on lies within a blob, live or
deleted. -/
def State.transferOk (s : State) (x : Transfer) : Bool :=
  decide (0 < x.left ∧ x.left < 2 ^ 32 ∧ x.place.addr < 2 ^ 32) &&
    (match x.job with
      | .disp _ _ _ _ left got => decide (left + got.length = 4)
      | _ => decide (x.place.addr + x.left ≤ 2 ^ 32)) &&
    match x.place.host with
    | none => true
    | some (b, o) =>
      match s.hostBlob b with
      | none => false
      | some blob => decide (0 ≤ o ∧ o + (pageSize - x.place.addr % pageSize : Nat) ≤ blob.len)

/-- Every access under way is well-formed. -/
def State.transfersOk (s : State) : Bool := mapAll s.ctxs fun _ k => k.transfer.all s.transferOk

/-- The invariant of the block. -/
def State.Inv (s : State) : Prop :=
  s.mapsOk = true ∧ s.memoryOk = true ∧ s.fpuOk = true ∧ s.pagesOk = true ∧ s.gravesOk = true ∧ s.slotsOk = true ∧
    s.transfersOk = true

/-! ### Agreement of a cache with the page table (R371) -/

/-- A slot is what R365 would fill now for its page. -/
def State.slotCurrent (s : State) (m : Handle) (slot : Slot) : Bool :=
  match s.pte m slot.page.toNat with
  | none => false
  | some e =>
    slot.blob == e.blob && slot.off == (e.offset : Int) - slot.page.toNat * pageSize &&
      slot.pageW == (if writable e.flags && !copyOnWrite e.flags then some slot.page else none)

/-- A context is attached to `m`, and its cache agrees with the page table. -/
def State.coherent (s : State) (c : BitVec 32) (m : Handle) : Bool :=
  (s.tlb c).mem == some m && mapAll (s.tlb c).slots fun _ slot => s.slotCurrent m slot

/-! ### Bytes -/

/-- One byte of a live blob (R42). -/
def State.byteAt (s : State) (b : Handle) (offset : Nat) : Option Byte :=
  (mapFind s.blobs b).map fun blob => Memory.read blob.cells offset

/-- The byte at an emulated address of an address space, through its page table (R70, R79). -/
def State.byteOf (s : State) (m : Handle) (addr : Nat) : Option Byte :=
  (s.pte m (pageOf addr)).bind fun e => s.byteAt e.blob (e.offset + addr % pageSize)

/-! ### Frames -/

/-- Nothing but the response differs. -/
def sameButResponse (s t : State) : Prop := { t with resp := s.resp } = s

/-- Nothing but the response and the oracle's draws differs. -/
def sameButDraws (s t : State) : Prop := { t with resp := s.resp, draws := s.draws } = s

/-- The stores, the parameters, the port and every other context are as before. -/
def sameOutside (c : BitVec 32) (s t : State) : Prop :=
  t.params = s.params ∧ t.mems = s.mems ∧ t.blobs = s.blobs ∧ t.graves = s.graves ∧ t.port = s.port ∧
    ∀ d, d ≠ c → t.ctx d = s.ctx d

/-- Only the CPU state of a context, and the response, may differ. -/
def sameButCpu (c : BitVec 32) (s t : State) : Prop :=
  sameOutside c s t ∧ t.draws = s.draws ∧ t.fpu c = s.fpu c ∧ t.rm c = s.rm c ∧ t.tlb c = s.tlb c ∧
    t.transfer c = s.transfer c

/-- Only the FPU of a context, the oracle's draws and the response may differ. -/
def sameButFpu (c : BitVec 32) (s t : State) : Prop :=
  sameOutside c s t ∧ t.cpu c = s.cpu c ∧ t.rm c = s.rm c ∧ t.tlb c = s.tlb c ∧ t.transfer c = s.transfer c

/-- Only the translation cache of a context, and the response, may differ. -/
def sameButTlb (c : BitVec 32) (s t : State) : Prop :=
  sameOutside c s t ∧ t.draws = s.draws ∧ t.cpu c = s.cpu c ∧ t.fpu c = s.fpu c ∧ t.rm c = s.rm c ∧
    t.transfer c = s.transfer c

/-- What an access may change: the cache of a context (but not what it is attached to), `FAULT_ADDR`, the access it has under
way, the stores, the draws and the response. -/
def sameButAccess (c : BitVec 32) (s t : State) : Prop :=
  t.params = s.params ∧ t.port = s.port ∧ (∀ d, d ≠ c → t.ctx d = s.ctx d) ∧
    ({ t.cpu c with faultAddr := (s.cpu c).faultAddr } : Cpu) = s.cpu c ∧ t.fpu c = s.fpu c ∧ t.rm c = s.rm c ∧
    (t.tlb c).mem = (s.tlb c).mem

/-- The scheduler lets the next access run to its end: no access has more than 2^32 bytes. -/
def State.alone (s : State) : State := { s with draws := { s.draws with sched := [2 ^ 32] } }

/-- No context differs, nor the parameters or the port. -/
def sameContexts (s t : State) : Prop := t.params = s.params ∧ t.port = s.port ∧ ∀ c, t.ctx c = s.ctx c

/-! ### Float commands -/

/-- The operands that R205 screens, for the commands it names. -/
def screenedOperands : Instr → List F80
  | .feAdd _ a b => [a, b]
  | .feSub _ a b => [a, b]
  | .feMul _ a b => [a, b]
  | .feDiv _ a b => [a, b]
  | .feMod a b => [a, b]
  | .feRem a b => [a, b]
  | .feSqrt _ a => [a]
  | .feLog2 _ a => [a]
  | .feScale _ a _ => [a]
  | _ => []

/-- The value and the flags of a float result. -/
def floatResult : Results → Option (F80 × Flags6)
  | .f80Fl r fl => some (r, fl)
  | .f80 r => some (r, 0)
  | _ => none

/-! ### The FPU stack -/

/-- What reading a stack slot gives (R262): its value, or the default NaN where it is empty. -/
def Fpu.slotValue (f : Fpu) (i : BitVec 3) : F80 := if f.valid i then f.st i else F80.dnan

/-- The flag that reading empty slots adds (R262). -/
def Fpu.emptyFlag (f : Fpu) (slots : List (BitVec 3)) : Flags6 := if slots.all f.valid then 0 else flagI

/-- What happens to the status and control words (R261–R263): the flags are added and the summary recomputed; a stack
fault (`some true` overflow, `some false` underflow) sets `SF` and writes `C1`. -/
def Fpu.marked (f g : Fpu) (fl : Flags6) (fault : Option Bool) : Prop :=
  g.excFlags = f.excFlags ||| fl ∧ g.sw.getLsbD 6 = (f.sw.getLsbD 6 || fault.isSome) ∧
    g.sw.getLsbD 7 = f.anyUnmasked (f.excFlags ||| fl) ∧ g.sw.getLsbD 9 = fault.getD (f.sw.getLsbD 9) ∧
    g.sw.getLsbD 15 = f.sw.getLsbD 15 ∧ g.cw = f.cw

/-- The stack fault of reading slots (R262). -/
def Fpu.underflow (f : Fpu) (slots : List (BitVec 3)) : Option Bool := if slots.all f.valid then none else some false

/-- The condition codes `C0`, `C2`, `C3` are kept. -/
def Fpu.codesKept (f g : Fpu) : Prop :=
  g.sw.getLsbD 8 = f.sw.getLsbD 8 ∧ g.sw.getLsbD 10 = f.sw.getLsbD 10 ∧ g.sw.getLsbD 14 = f.sw.getLsbD 14

/-- The registers, the tags and `TOP` are kept. -/
def Fpu.regsKept (f g : Fpu) : Prop := g.fpr = f.fpr ∧ g.tag = f.tag ∧ g.top = f.top

/-- Only the slot `i` changes, to a valid value. -/
def Fpu.slotWritten (f g : Fpu) (i : BitVec 3) (v : F80) : Prop :=
  g.top = f.top ∧ g.st i = v ∧ g.valid i = true ∧ ∀ j, j ≠ i → g.st j = f.st j ∧ g.valid j = f.valid j

/-- A value is pushed (R33): the old slots move one further from the top. -/
def Fpu.wasPushed (f g : Fpu) (v : F80) : Prop :=
  g.top = f.top - 1#3 ∧ g.st 0#3 = v ∧ g.valid 0#3 = true ∧
    ∀ j : BitVec 3, j ≠ 7#3 → g.st (j + 1#3) = f.st j ∧ g.valid (j + 1#3) = f.valid j

/-- How an FPU command on context `c` ends (R261): with the flags `fl` and a stack fault or none, either raising with
the registers kept, or with `results` and the writeback. -/
def fpuEnds (c : BitVec 32) (s t : State) (fl : Flags6) (fault : Option Bool) (results : Results)
    (writeback : Fpu → Fpu → Prop) : Prop :=
  sameButFpu c s t ∧ (s.fpu c).marked (t.fpu c) fl fault ∧
    if (s.fpu c).anyUnmasked fl then
      t.resp = some (.fault .floatError 0#32) ∧ (s.fpu c).regsKept (t.fpu c) ∧ (s.fpu c).codesKept (t.fpu c)
    else t.resp = some (.ok results) ∧ writeback (s.fpu c) (t.fpu c)

/-- What a pushing command pushes: its context, the value, the flags and the slots it reads (R265, R271–R276,
R300–R306). -/
def State.pushOf (s : State) : Instr → Option (BitVec 32 × F80 × Flags6 × List (BitVec 3))
  | .fpuLd c i => some (c, (s.fpu c).slotValue i, 0, [i])
  | .fpuLdI16 c x => some (c, f80OfInt x.toInt, 0, [])
  | .fpuLdI32 c x => some (c, f80OfInt x.toInt, 0, [])
  | .fpuLdI64 c x => some (c, f80OfInt x.toInt, 0, [])
  | .fpuLdF32 c w => some (c, (f80OfF32 w).1, (f80OfF32 w).2, [])
  | .fpuLdF64 c w => some (c, (f80OfF64 w).1, (f80OfF64 w).2, [])
  | .fpuLdF80 c v => some (c, v, 0, [])
  | .fpuConst1 c => some (c, 0x3FFF8000000000000000#80, 0, [])
  | .fpuConstL2T c => some (c, 0x4000D49A784BCD1B8AFE#80, 0, [])
  | .fpuConstL2E c => some (c, 0x3FFFB8AA3B295C17F0BC#80, 0, [])
  | .fpuConstPi c => some (c, 0x4000C90FDAA22168C235#80, 0, [])
  | .fpuConstLg2 c => some (c, 0x3FFD9A209A84FBCFF799#80, 0, [])
  | .fpuConstLn2 c => some (c, 0x3FFEB17217F7D1CF79AC#80, 0, [])
  | .fpuConstZ c => some (c, 0#80, 0, [])
  | _ => none

/-- The float-engine command an arithmetic FPU command performs on its slots' values (R283–R293): its context, its
destination, the slots it reads, and the command. -/
def State.feTwin (s : State) : Instr → Option (BitVec 32 × BitVec 3 × List (BitVec 3) × Instr)
  | .fpuAdd c d x => some (c, d, [d, x], .feAdd c ((s.fpu c).slotValue d) ((s.fpu c).slotValue x))
  | .fpuSub c d x => some (c, d, [d, x], .feSub c ((s.fpu c).slotValue d) ((s.fpu c).slotValue x))
  | .fpuMul c d x => some (c, d, [d, x], .feMul c ((s.fpu c).slotValue d) ((s.fpu c).slotValue x))
  | .fpuDiv c d x => some (c, d, [d, x], .feDiv c ((s.fpu c).slotValue d) ((s.fpu c).slotValue x))
  | .fpuMod c d x => some (c, d, [d, x], .feMod ((s.fpu c).slotValue d) ((s.fpu c).slotValue x))
  | .fpuRem c d x => some (c, d, [d, x], .feRem ((s.fpu c).slotValue d) ((s.fpu c).slotValue x))
  | .fpuNeg c d => some (c, d, [d], .feNeg ((s.fpu c).slotValue d))
  | .fpuAbs c d => some (c, d, [d], .feAbs ((s.fpu c).slotValue d))
  | .fpuSqrt c d => some (c, d, [d], .feSqrt c ((s.fpu c).slotValue d))
  | .fpuLog2 c d => some (c, d, [d], .feLog2 c ((s.fpu c).slotValue d))
  | _ => none

/-! ### Address spaces -/

/-- The blob byte an emulated address names (R70, R335). -/
def State.location (s : State) (m : Handle) (addr : Nat) : Option (Handle × Nat) :=
  (s.pte m (pageOf addr)).map fun e => (e.blob, e.offset + addr % pageSize)

/-- Every page of the access `(addr, n)` is mapped. -/
def State.covered (s : State) (m : Handle) (addr n : Nat) : Prop :=
  ∀ i, i < n → (s.pte m (pageOf (addr + i))).isSome = true

/-- A page of a range. -/
def inRange (page count p : Nat) : Bool := decide (page ≤ p ∧ p < page + count)

/-- Entries outside a set of pages are as before. -/
def State.entriesKept (s t : State) (changed : Handle → Nat → Bool) : Prop :=
  ∀ x p, changed x p = false → t.pte x p = s.pte x p

/-- The bytes of every page outside a set are as before. -/
def State.bytesKept (s t : State) (changed : Handle → Nat → Bool) : Prop :=
  ∀ x addr, changed x (pageOf addr) = false → t.byteOf x addr = s.byteOf x addr

/-- Generation, owners and lock of every address space: `m`'s generation grows by one where `grows`, the rest is as before. -/
def State.spacesKept (s t : State) (grows : Handle → Bool) : Prop :=
  ∀ x, (t.space x).map (fun sp => (sp.gen, sp.refcount, sp.lock)) =
    (s.space x).map fun sp => (if grows x then sp.gen + 1 else sp.gen, sp.refcount, sp.lock)

/-- The address space a command changes the entries of when it succeeds (R340); translation apart. -/
def bumps : Instr → Handle → Bool
  | .asmMap m _ _ _ _, x => x == m.toNat
  | .asmMapAnon m _ _ _, x => x == m.toNat
  | .asmUnmap m _ _ _, x => x == m.toNat
  | .asmSetProt m _ _ _, x => x == m.toNat
  | .asmCow m _ _ m2 _, x => x == m.toNat || x == m2.toNat
  | _, _ => false

/-! ### Addressing bytes (R442) -/

/-- The addressing form of the bytes `b 0`, `b 1`, … (R442): the descriptor, the `reg` field, and how many bytes it takes
(R118). -/
def addressingForm (b : Nat → Byte) : Desc × BitVec 3 × Nat :=
  let mod := (b 0).toNat / 64
  let rm := (b 0).toNat % 8
  let scale := (b 1).toNat / 64
  let idx := (b 1).toNat / 8 % 8
  let base := (b 1).toNat % 8
  let head := if rm = 4 then 2 else 1
  let r : Nat := if rm = 4 then base else rm
  let none5 : Bool := decide (mod = 0 ∧ r = 5)
  let le32 : BitVec 32 := BitVec.ofNat 32 (leNat [b head, b (head + 1), b (head + 2), b (head + 3)])
  if mod = 3 then (.reg (BitVec.ofNat 3 rm), BitVec.ofNat 3 ((b 0).toNat / 8 % 8), 1)
  else
    (.mem (if none5 then 8#4 else BitVec.ofNat 4 r)
      (if rm = 4 ∧ idx ≠ 4 then BitVec.ofNat 4 idx else 8#4)
      (if rm = 4 ∧ idx ≠ 4 then BitVec.ofNat 2 scale else 0#2)
      (if mod = 1 then (b head).signExtend 32 else if mod = 2 ∨ none5 then le32 else 0#32),
      BitVec.ofNat 3 ((b 0).toNat / 8 % 8),
      head + if mod = 1 then 1 else if mod = 2 ∨ none5 then 4 else 0)

/-! ### Command codes -/

/-- A code that R133 lists. -/
def listedCode (cmd : Nat) : Bool :=
  decide (0x0100 ≤ cmd ∧ cmd ≤ 0x0114) || decide (0x0200 ≤ cmd ∧ cmd ≤ 0x0218)
    || decide (0x0300 ≤ cmd ∧ cmd ≤ 0x0327) || decide (0x0400 ≤ cmd ∧ cmd ≤ 0x0409)
    || decide (0x0500 ≤ cmd ∧ cmd ≤ 0x0504) || decide (0x0600 ≤ cmd ∧ cmd ≤ 0x0613)
    || decide (0x0700 ≤ cmd ∧ cmd ≤ 0x0701)

/-- The bytes of operand fields, each given as its width and its value (log 1). -/
def rawFields : List (Nat × Nat) → List Byte
  | [] => []
  | (w, v) :: rest => leBytes (fieldBytes w) v ++ rawFields rest

/-- The widths of the operand fields (R133), for every code that has a field narrower than its bytes, but for `ASM.MAP`, whose
host memory stands between its fields (log 1). -/
def narrowFields (cmd : Nat) : List Nat :=
  if cmd = 0x0200 then [2]
  else if cmd ∈ [0x0301, 0x0302, 0x0304, 0x0318, 0x0319, 0x031A, 0x031B, 0x0600, 0x0602, 0x0604, 0x0608, 0x060A, 0x060D] then
    [3]
  else if cmd ∈ [0x0312, 0x0313, 0x0314, 0x0315, 0x0316, 0x0317, 0x031C, 0x031D] then [3, 3]
  else if cmd = 0x0305 then [3, 80, 1]
  else if cmd = 0x0404 ∨ cmd = 0x0406 then [64, 20, 32, 7]
  else if cmd = 0x0405 then [64, 20, 32, 1]
  else if cmd = 0x0407 then [64, 20, 32, 64, 20]
  else if cmd = 0x0409 then [64, 32, 1]
  else if cmd = 0x0601 then [3, 32]
  else if cmd = 0x0603 ∨ cmd = 0x060B then [3, 16]
  else if cmd = 0x0605 then [3, 8]
  else if cmd = 0x0609 then [3, 128]
  else if cmd = 0x060E then [3, 1]
  else if cmd = 0x0701 then [1, 3, 4, 4, 2, 32]
  else []

/-- The unit of a command (R111): bits 15:8 of its code. -/
def unitOf (i : Instr) : Nat := opcode i / 256

end Sys2Proof.Machine
end

