-- ==== Sys2Proof/Certificates/Slice0/Obligations.lean ====
section
/-! DEFINITION. The statements about the model. A command's completion is an equation on `exec`; `s.ok r` is `s` with the
response `OK` and the results `r`, and nothing else changed. Where a value is a free one of the model (a draw of the oracle,
log 7 to log 9; the scheduler's choices, log 15; the parameter `FE_LOG2`, log 10; the open parameters, log 11) the statement holds
for every value of it. -/

open Sys2Proof Sys2Proof.Machine

/-! ### Encoding and the step -/

/-- Packets written out from the spec's encoding (R110, R133) in the model's layout (log 1): the code's low byte, its high
byte, the context, the operands. -/
def Obligations.WrittenPacketsDecode : Prop :=
  decode [0x06#8, 0x01#8, 0#8, 0#8, 0#8, 0#8,
      0x10#8, 0x32#8, 0x54#8, 0x76#8, 0x98#8, 0xBA#8, 0xDC#8, 0xFE#8,
      0xEF#8, 0xCD#8, 0xAB#8, 0x89#8, 0x67#8, 0x45#8, 0x23#8, 0x01#8] =
    .ok (.wiClz 0x0123456789ABCDEFFEDCBA9876543210#128) ∧
  decode [0x14#8, 0x02#8, 0#8, 0#8, 0#8, 0#8,
      0#8, 0#8, 0#8, 0#8, 0#8, 0#8, 0#8, 0x80#8, 0xFF#8, 0x3F#8] = .ok (.feNeg 0x3FFF8000000000000000#80) ∧
  decode [0x12#8, 0x03#8, 7#8, 0#8, 0#8, 0#8, 0#8, 1#8] = .ok (.fpuAdd 7 0 1) ∧
  decode [0x09#8, 0x04#8, 0#8, 0#8, 0#8, 0#8, 1#8, 0#8, 0#8, 0#8, 0#8, 0#8, 0#8, 0#8,
      0x23#8, 0x91#8, 0x04#8, 0x08#8, 0#8] = .ok (.asmTranslate 1 0x08049123 .read) ∧
  decode [0x00#8, 0x05#8, 7#8, 0#8, 0#8, 0#8, 0#8, 0#8, 1#8, 0#8, 4#8, 0#8, 0#8, 0#8] = .ok (.tlbRead 7 0x10000 4) ∧
  decode [0x05#8, 0x06#8, 7#8, 0#8, 0#8, 0#8, 7#8, 0x11#8] = .ok (.cpuSetReg8 7 7 0x11) ∧
  decode [0x00#8, 0x07#8, 7#8, 0#8, 0#8, 0#8, 0xFD#8, 0x1F#8, 0#8, 0#8] = .ok (.decModRm 7 0x1FFD)

/-- Decoding the packet of a command gives the command back, whatever follows it: no operand bit is dropped (R110, R133;
layout: log 1). -/
def Obligations.DecodeOfEncode : Prop :=
  ∀ (i : Instr) (rest : List Byte), i.wf = true → decode (encode i ++ rest) = .ok i

/-- A code that R133 does not list is answered `ILLEGAL_COMMAND`, and an operand field that holds a value its width cannot
is answered `ILLEGAL_OPERAND`, for every field that is narrower than its bytes; nothing but the port and the scheduler's choice
changes (R114). The packet's layout and the wide fields are the model's own (log 1, log 4). -/
def Obligations.RejectedPackets : Prop :=
  ∀ (s u : State) (b0 b1 : Byte) (tail : List Byte) (later : List (List Byte)),
    s.port = (b0 :: b1 :: tail) :: later → s.turn = (none, u) →
    let cmd := b0.toNat + 256 * b1.toNat
    (listedCode cmd = false → step s = .next (({ u with port := later } : State).fail .illegalCommand)) ∧
    (∀ (name : BitVec 32) (fields : List (Nat × Nat)) (more : List Byte),
      tail = leBytes 4 name.toNat ++ (rawFields fields ++ more) → fields.map Prod.fst = narrowFields cmd →
      (∀ f ∈ fields, f.2 < 256 ^ fieldBytes f.1) →
      (∃ f ∈ fields, 2 ^ f.1 ≤ f.2) → step s = .next (({ u with port := later } : State).fail .illegalOperand)) ∧
    (∀ (name : BitVec 32) (m page count region : Nat) (bytes : List Byte) (flags : Byte) (more : List Byte),
      cmd = 0x0403 → page < 2 ^ 24 → region < 256 → bytes.length < 2 ^ 64 →
      (2 ^ 20 ≤ page ∨ 2 ≤ region ∨ 128 ≤ flags.toNat) →
      tail = leBytes 4 name.toNat ++ (rawFields [(64, m), (20, page), (32, count), (1, region)] ++
        (leBytes 8 bytes.length ++ (bytes ++ flags :: more))) →
      step s = .next (({ u with port := later } : State).fail .illegalOperand))

/-- A step runs the command of the oldest packet on the port, with the packet taken off; with no packet nothing happens; a
packet cut short is refused (log 2, log 3); and the command of an opcode-table word is what the next step runs once the word
is put on the port. While accesses of several bytes are under way (R75, R92; log 15) the scheduler's choice decides, and every
choice is there: to go on with any of them, or to take the packet, unless its own context has to finish first. -/
def Obligations.StepRunsDecoded : Prop :=
  (∀ s : State, s.underWay = [] → s.turn = (none, s)) ∧
  (∀ (s u : State) (packet : List Byte) (later : List (List Byte)) (i : Instr),
    s.turn = (none, u) → s.port = packet :: later → decode packet = .ok i → step s = exec i { u with port := later }) ∧
  (∀ s : State, s.underWay = [] → s.port = [] → step s = .next s) ∧
  (∀ (s u : State) (packet : List Byte) (later : List (List Byte)),
    s.turn = (none, u) → s.port = packet :: later → decode packet = .error .truncated →
    step s = .refused .truncatedCommand) ∧
  (∀ (s : State) (nbits w : Nat) (i : Instr), decodeTableWord nbits w = some i → s.waits (tablePacket nbits w) = false →
    step (s.withFetchWord nbits w) = exec i s) ∧
  ∀ (s u : State) (k : Nat), s.drawSched = (k, u) →
    (∀ c, s.underWay[k]? = some c → step s = u.resume c) ∧
    (s.underWay ≠ [] → s.underWay[k]? = none → s.portReady = true → s.turn = (none, u)) ∧
    (s.underWay[k]? = none → s.portReady = false → ∀ c, s.underWay[0]? = some c → step s = u.resume c)

/-! ### Reset -/

/-- What the spec says reset leaves (R50, R500): no address space, no blob; every context's deferred tags 0, FPU empty with
`SW = 0` and `CW = 0x037F`, `RM = 0`, its cache detached and empty; and the invariant of the block holds there. That a context
no command has written reads so is log 18; that no access is under way is log 15. -/
def Obligations.ResetLeaves : Prop :=
  State.reset.Inv ∧
  State.reset.mems = [] ∧ State.reset.blobs = [] ∧ State.reset.underWay = [] ∧
  ∀ c : BitVec 32,
    (State.reset.cpu c).defZ = false ∧ (State.reset.cpu c).defS = false ∧ (State.reset.cpu c).defP = false ∧
    (State.reset.cpu c).defA = false ∧
    (∀ i, (State.reset.fpu c).valid i = false) ∧ (State.reset.fpu c).sw = 0x0000#16 ∧
    (State.reset.fpu c).cw = 0x037F#16 ∧ State.reset.rm c = 0#2 ∧
    (State.reset.tlb c).mem = none ∧ (State.reset.tlb c).slots = []

/-! ### Rules about the whole block -/

/-- Every step keeps every blob's memory canonical and within the blob's length, from any such state (log 20); and every step
keeps every context's status word consistent, from any such state (R35): bit 15 reads 0, and `ES` is 1 exactly when some flag of
bits 5:0 is set whose mask is 0. -/
def Obligations.MemoryAndStatusStayConsistent : Prop :=
  (∀ s t : State, s.memoryOk = true → step s = .next t → t.memoryOk = true) ∧
  ∀ s t : State, s.fpuOk = true → step s = .next t → t.fpuOk = true

/-- Every step keeps the invariant of the block: R35's status words, R40–R47's page tables, counts and caches; the rising keys of
its lists, the blobs kept for stale hits and the accesses under way are the model's (log 13, log 15, log 16, log 20). -/
def Obligations.InvariantKept : Prop := ∀ s t : State, s.Inv → step s = .next t → t.Inv

/-- No command stops (R460: nothing is fatal; log 14): from every state of the invariant it takes a next state, with its response,
or, for a command that reads or writes several bytes, with its access under way (log 15; AccessGoesOn says how that ends). And
from every state of the invariant a step takes a next state, or it is refused and the oldest packet on the port is cut short
(log 3). -/
def Obligations.EveryCommandAnswers : Prop :=
  (∀ (s : State) (i : Instr), s.Inv → ∃ t, exec i s = .next t ∧
    (t.resp.isSome = true ∨
      t.resp = none ∧ (t.transfer (contextOf i)).isSome = true ∧ opcode i ∈ [0x0500, 0x0501, 0x0700])) ∧
  ∀ s : State, s.Inv → (∃ t, step s = .next t) ∨
    step s = .refused .truncatedCommand ∧
      ∃ packet later, s.port = packet :: later ∧ decode packet = .error .truncated

/-- What a command cannot reach (R20, R71, R484): no command changes the open parameters or the commands still waiting; a
command changes no context but the one it names, and a WI or ASM command changes none; no WI, FE, FPU or CPU command, nor
`DEC.EA`, changes an address space or a blob. -/
def Obligations.CommandsStayInTheirUnits : Prop :=
  ∀ (s t : State) (i : Instr), exec i s = .next t →
    t.params = s.params ∧ t.port = s.port ∧
    (∀ d, unitOf i = 1 ∨ unitOf i = 4 ∨ d ≠ contextOf i → t.ctx d = s.ctx d) ∧
    (unitOf i = 1 ∨ unitOf i = 2 ∨ unitOf i = 3 ∨ unitOf i = 6 ∨ opcode i = 0x0701 →
      t.mems = s.mems ∧ t.blobs = s.blobs ∧ t.graves = s.graves)

/-- The generation counter only grows, and grows whenever an entry changes (R43). How far each ASM command moves it (R340): by
1 for the spaces it names and mutates, on success; for a translation by 1 exactly when it changed the table; not at all on a
failure; and a new space's counter is 0. -/
def Obligations.GenerationCounter : Prop :=
  ∀ (s t : State) (i : Instr), exec i s = .next t →
    (∀ (m : Handle) (sp tp : Space), s.space m = some sp → t.space m = some tp →
      sp.gen ≤ tp.gen ∧ (tp.pages ≠ sp.pages → sp.gen < tp.gen) ∧
      (unitOf i = 4 → ∀ f, t.resp = some (.fail f) → tp.gen = sp.gen) ∧
      (unitOf i = 4 → ∀ r, t.resp = some (.ok r) →
        tp.gen = sp.gen +
          if opcode i = 0x0409 then (if tp.pages = sp.pages then 0 else 1) else if bumps i m then 1 else 0)) ∧
    (∀ h, i = .asmCreate → t.resp = some (.ok (.handle h)) → (t.space h).map Space.gen = some 0)

/-- A status 2…7 carries no condition and writes no state (R474, R337): all but the response and the oracle's draws (log 7)
is as before. What a raising command leaves (R462, R472): `DIVIDE_ERROR` writes nothing; `PAGE_FAULT` writes no CPU state but
`FAULT_ADDR`, and no FPU state; `FLOAT_ERROR` writes no CPU state, no cache and no memory, and needs a mask bit that is 0: with
all six set, as after reset, it cannot occur. In particular `eip` stays. -/
def Obligations.FailingAndRaisingArePrecise : Prop :=
  (∀ (s t : State) (i : Instr) (f : Failure), exec i s = .next t → t.resp = some (.fail f) → sameButDraws s t) ∧
  ∀ (s t : State) (i : Instr) (info : BitVec 32), exec i s = .next t →
    (t.resp = some (.fault .divideError info) → sameButResponse s t) ∧
    (t.resp = some (.fault .pageFault info) →
      ({ t.cpu (contextOf i) with faultAddr := (s.cpu (contextOf i)).faultAddr } : Cpu) = s.cpu (contextOf i) ∧
      t.fpu (contextOf i) = s.fpu (contextOf i) ∧ t.rm (contextOf i) = s.rm (contextOf i)) ∧
    (t.resp = some (.fault .floatError info) → sameButFpu (contextOf i) s t ∧ (s.fpu (contextOf i)).masks ≠ 0x3F#6)

/-- Which commands raise which conditions, and with what information (R461): `DIVIDE_ERROR` only the two wide divisions,
`PAGE_FAULT` only `TLB.READ`, `TLB.WRITE` and `DEC.MODRM`, `FLOAT_ERROR` only FPU commands, and no other condition at all; and
their codes. -/
def Obligations.ConditionsRaised : Prop :=
  Cond.code .divideError = 0 ∧ Cond.code .debug = 1 ∧ Cond.code .breakpoint = 3 ∧ Cond.code .overflow = 4 ∧
  Cond.code .bounds = 5 ∧ Cond.code .undefinedOpcode = 6 ∧ Cond.code .generalProtection = 13 ∧ Cond.code .pageFault = 14 ∧
  Cond.code .floatError = 16 ∧
  ∀ (s t : State) (i : Instr) (cond : Cond) (info : BitVec 32), exec i s = .next t → t.resp = some (.fault cond info) →
    (cond = .divideError ∧ info = 0#32 ∧ (opcode i = 0x0112 ∨ opcode i = 0x0113)) ∨
    (cond = .pageFault ∧ info = (t.cpu (contextOf i)).faultAddr ∧
      (opcode i = 0x0500 ∨ opcode i = 0x0501 ∨ opcode i = 0x0700)) ∨
    (cond = .floatError ∧ info = 0#32 ∧ unitOf i = 3)

/-- The registers that one command alone writes (R21, R24, R25, R26, R408): a change of a general register, of `eip`, of a
segment register or of an XMM register comes from its SET command, and a change of `FAULT_ADDR` from a page fault that names
it. The exception flags and the stack-fault bit are sticky (R35): only `FPU.INIT` clears one, and `CW` is written by `FPU.LDCW`
and `FPU.INIT` alone (R36). -/
def Obligations.RegistersHaveOneWriter : Prop :=
  ∀ (s t : State) (i : Instr) (d : BitVec 32), exec i s = .next t →
    ((t.cpu d).r32 ≠ (s.cpu d).r32 →
      (∃ k v, i = .cpuSetReg32 d k v) ∨ (∃ k v, i = .cpuSetReg16 d k v) ∨ ∃ k v, i = .cpuSetReg8 d k v) ∧
    ((t.cpu d).eip ≠ (s.cpu d).eip → ∃ v, i = .cpuSetEip d v) ∧
    ((t.cpu d).seg ≠ (s.cpu d).seg → ∃ k v, i = .cpuSetSeg d k v) ∧
    ((t.cpu d).xmm ≠ (s.cpu d).xmm → ∃ k v, i = .cpuSetXmm d k v) ∧
    ((t.cpu d).faultAddr ≠ (s.cpu d).faultAddr → t.resp = some (.fault .pageFault (t.cpu d).faultAddr)) ∧
    (i ≠ .fpuInit d →
      (∀ k, k ≤ 6 → (s.fpu d).sw.getLsbD k = true → (t.fpu d).sw.getLsbD k = true) ∧
      ((t.fpu d).cw ≠ (s.fpu d).cw → ∃ v, i = .fpuLdCw d v))

/-! ### Wide integers -/

/-- Construction, narrowing, comparison and the leading-zero count (R152–R158): the codes, the results and `ovf`; nothing but
the response changes. -/
def Obligations.WideConvertCompareCount : Prop :=
  ∀ (s : State) (x : BitVec 64) (a b : Wide),
    (opcode (.wiFromU64 x) = 0x0100 ∧
      ∃ r, exec (.wiFromU64 x) s = .next (s.ok (.wide r)) ∧ r.toNat = x.toNat) ∧
    (opcode (.wiFromS64 x) = 0x0101 ∧
      ∃ r, exec (.wiFromS64 x) s = .next (s.ok (.wide r)) ∧ r.toInt = x.toInt) ∧
    (opcode (.wiToU64 a) = 0x0102 ∧
      ∃ r ovf, exec (.wiToU64 a) s = .next (s.ok (.narrow r ovf)) ∧ r.toNat = a.toNat % 2 ^ 64 ∧
        (ovf = true ↔ 2 ^ 64 ≤ a.toNat)) ∧
    (opcode (.wiToS64 a) = 0x0103 ∧
      ∃ r ovf, exec (.wiToS64 a) s = .next (s.ok (.narrow r ovf)) ∧ r.toNat = a.toNat % 2 ^ 64 ∧
        (ovf = false ↔ -2 ^ 63 ≤ a.toInt ∧ a.toInt ≤ 2 ^ 63 - 1)) ∧
    (opcode (.wiUcmp a b) = 0x0104 ∧
      ∃ c : BitVec 8, exec (.wiUcmp a b) s = .next (s.ok (.u8 c)) ∧
        (a.toNat < b.toNat → c.toInt = -1) ∧ (a.toNat = b.toNat → c.toInt = 0) ∧ (b.toNat < a.toNat → c.toInt = 1)) ∧
    (opcode (.wiScmp a b) = 0x0105 ∧
      ∃ c : BitVec 8, exec (.wiScmp a b) s = .next (s.ok (.u8 c)) ∧
        (a.toInt < b.toInt → c.toInt = -1) ∧ (a.toInt = b.toInt → c.toInt = 0) ∧ (b.toInt < a.toInt → c.toInt = 1)) ∧
    (opcode (.wiClz a) = 0x0106 ∧
      ∃ n : BitVec 8, exec (.wiClz a) s = .next (s.ok (.u8 n)) ∧ (a = 0#128 → n.toNat = 128) ∧
        (a ≠ 0#128 → n.toNat ≤ 127 ∧ a.getLsbD (127 - n.toNat) = true ∧
          ∀ j, 127 - n.toNat < j → a.getLsbD j = false))

/-- Bitwise operations and shifts (R159–R163): a count outside 0…127 is refused. -/
def Obligations.WideBitsAndShifts : Prop :=
  ∀ (s : State) (a b : Wide) (n : BitVec 32),
    (opcode (.wiNot a) = 0x0107 ∧
      ∃ r, exec (.wiNot a) s = .next (s.ok (.wide r)) ∧ r.toNat = 2 ^ 128 - 1 - a.toNat ∧ r.toInt = -a.toInt - 1) ∧
    (opcode (.wiAnd a b) = 0x0108 ∧
      ∃ r : Wide, exec (.wiAnd a b) s = .next (s.ok (.wide r)) ∧
        ∀ k, k < 128 → r.getLsbD k = (a.getLsbD k && b.getLsbD k)) ∧
    (opcode (.wiOr a b) = 0x0109 ∧
      ∃ r : Wide, exec (.wiOr a b) s = .next (s.ok (.wide r)) ∧
        ∀ k, k < 128 → r.getLsbD k = (a.getLsbD k || b.getLsbD k)) ∧
    (opcode (.wiShl a n) = 0x010A ∧
      (0 ≤ n.toInt → n.toInt ≤ 127 →
        ∃ r, exec (.wiShl a n) s = .next (s.ok (.wide r)) ∧ r.toNat = a.toNat * 2 ^ n.toNat % 2 ^ 128) ∧
      (n.toInt < 0 ∨ 127 < n.toInt → exec (.wiShl a n) s = .next (s.fail .illegalOperand))) ∧
    (opcode (.wiShr a n) = 0x010B ∧
      (0 ≤ n.toInt → n.toInt ≤ 127 →
        ∃ r, exec (.wiShr a n) s = .next (s.ok (.wide r)) ∧ r.toNat = a.toNat / 2 ^ n.toNat) ∧
      (n.toInt < 0 ∨ 127 < n.toInt → exec (.wiShr a n) s = .next (s.fail .illegalOperand)))

/-- Addition, subtraction, multiplication and negation (R164–R169, R172): the result modulo 2^128, and `ovf` exactly when the
true result does not fit. -/
def Obligations.WideArithmetic : Prop :=
  ∀ (s : State) (a b : Wide),
    (opcode (.wiUadd a b) = 0x010C ∧
      ∃ r ovf, exec (.wiUadd a b) s = .next (s.ok (.wideOvf r ovf)) ∧ r.toNat = (a.toNat + b.toNat) % 2 ^ 128 ∧
        (ovf = true ↔ 2 ^ 128 ≤ a.toNat + b.toNat)) ∧
    (opcode (.wiSadd a b) = 0x010D ∧
      ∃ r ovf, exec (.wiSadd a b) s = .next (s.ok (.wideOvf r ovf)) ∧ (r.toNat : Int) = (a.toInt + b.toInt) % 2 ^ 128 ∧
        (ovf = false ↔ -2 ^ 127 ≤ a.toInt + b.toInt ∧ a.toInt + b.toInt ≤ 2 ^ 127 - 1)) ∧
    (opcode (.wiUsub a b) = 0x010E ∧
      ∃ r ovf, exec (.wiUsub a b) s = .next (s.ok (.wideOvf r ovf)) ∧
        (r.toNat : Int) = ((a.toNat : Int) - b.toNat) % 2 ^ 128 ∧ (ovf = true ↔ a.toNat < b.toNat)) ∧
    (opcode (.wiSsub a b) = 0x010F ∧
      ∃ r ovf, exec (.wiSsub a b) s = .next (s.ok (.wideOvf r ovf)) ∧ (r.toNat : Int) = (a.toInt - b.toInt) % 2 ^ 128 ∧
        (ovf = false ↔ -2 ^ 127 ≤ a.toInt - b.toInt ∧ a.toInt - b.toInt ≤ 2 ^ 127 - 1)) ∧
    (opcode (.wiUmul a b) = 0x0110 ∧
      ∃ r ovf, exec (.wiUmul a b) s = .next (s.ok (.wideOvf r ovf)) ∧ r.toNat = a.toNat * b.toNat % 2 ^ 128 ∧
        (ovf = true ↔ 2 ^ 128 ≤ a.toNat * b.toNat)) ∧
    (opcode (.wiSmul a b) = 0x0111 ∧
      ∃ r ovf, exec (.wiSmul a b) s = .next (s.ok (.wideOvf r ovf)) ∧ (r.toNat : Int) = a.toInt * b.toInt % 2 ^ 128 ∧
        (ovf = false ↔ -2 ^ 127 ≤ a.toInt * b.toInt ∧ a.toInt * b.toInt ≤ 2 ^ 127 - 1)) ∧
    (opcode (.wiNeg a) = 0x0114 ∧
      ∃ r ovf, exec (.wiNeg a) s = .next (s.ok (.wideOvf r ovf)) ∧ r.toNat = (2 ^ 128 - a.toNat) % 2 ^ 128 ∧
        (ovf = false → r.toInt = -a.toInt) ∧ (ovf = true ↔ a.toInt = -2 ^ 127))

/-- Unsigned and signed division (R170, R171): Euclid's identity over the integers with the stated bounds, truncation toward
zero for the signed form, its one overflow, and the condition for a zero divisor. -/
def Obligations.WideDivision : Prop :=
  ∀ (s : State) (a b : Wide),
    opcode (.wiUdiv a b) = 0x0112 ∧ opcode (.wiSdiv a b) = 0x0113 ∧
    (b = 0#128 → exec (.wiUdiv a b) s = .next (s.raise .divideError 0#32) ∧
      exec (.wiSdiv a b) s = .next (s.raise .divideError 0#32)) ∧
    (b ≠ 0#128 →
      (∃ q rem, exec (.wiUdiv a b) s = .next (s.ok (.quotRem q rem)) ∧ q.toNat * b.toNat + rem.toNat = a.toNat ∧
        rem.toNat < b.toNat) ∧
      ∃ q rem ovf, exec (.wiSdiv a b) s = .next (s.ok (.quotRemOvf q rem ovf)) ∧
        (ovf = true ↔ a.toInt = -2 ^ 127 ∧ b.toInt = -1) ∧
        (ovf = false → q.toInt * b.toInt + rem.toInt = a.toInt) ∧
        (ovf = true → q.toInt = -2 ^ 127 ∧ rem.toInt = 0) ∧
        |rem.toInt| < |b.toInt| ∧ (rem.toInt = 0 ∨ (rem.toInt < 0 ↔ a.toInt < 0)))

/-- The restoring division algorithm equals the division (R174), with its invariant: after `k` iterations the remainder
register is below the divisor, and the top `k` bits of the dividend are quotient times divisor plus remainder. -/
def Obligations.RestoringDivisionIsDivision : Prop :=
  ∀ (s : State) (a b : Wide), b ≠ 0#128 →
    exec (.wiUdiv a b) s = .next (s.ok (.quotRem (restoringDivide a b).1 (restoringDivide a b).2)) ∧
    ∀ k, k ≤ 128 →
      (restoringSteps b k (0, 0, a)).2.1.toNat < b.toNat ∧
      a.toNat / 2 ^ (128 - k) =
        (restoringSteps b k (0, 0, a)).1.toNat * b.toNat + (restoringSteps b k (0, 0, a)).2.1.toNat

/-! ### The float engine -/

/-- Conversions from and to a signed 64-bit integer (R212, R213): exact one way; the other way rounded by `RM`, clamped, with
the flags; and the round trip. -/
def Obligations.IntegerConversions : Prop :=
  ∀ (s : State) (c : BitVec 32) (x : BitVec 64) (a : F80),
    opcode (.feFromI64 x) = 0x0202 ∧ opcode (.feToI64 c a) = 0x0203 ∧
    (∃ r, exec (.feFromI64 x) s = .next (s.ok (.f80Fl r 0)) ∧ r.val = x.toInt ∧
      (if x = 0#64 then r = F80.zero false else r.isNormal = true) ∧
      exec (.feToI64 c r) s = .next (s.ok (.u64Fl x 0))) ∧
    ∃ r : BitVec 64, exec (.feToI64 c a) s = .next (s.ok (.u64Fl r (toIntQ 64 (s.roundMode c) a).2)) ∧
      r.toInt = (toIntQ 64 (s.roundMode c) a).1

/-- Conversions from and to host double precision (R214, R215). -/
def Obligations.DoubleConversions : Prop :=
  ∀ (s : State) (c : BitVec 32) (w : BitVec 64) (a : F80),
    opcode (.feFromF64 w) = 0x0204 ∧ opcode (.feToF64 c a) = 0x0205 ∧
    (∃ r fl, exec (.feFromF64 w) s = .next (s.ok (.f80Fl r fl)) ∧ loadsHost 11 52 w.toNat r fl ∧
      (¬ (hostExp 11 52 w.toNat = 2047 ∧ hostFrac 52 w.toNat ≠ 0) →
        exec (.feToF64 c r) s = .next (s.ok (.u64Fl w 0)))) ∧
    ∃ (v : BitVec 64) (fl : Flags6), exec (.feToF64 c a) s = .next (s.ok (.u64Fl v fl)) ∧
      storesHost 11 52 (s.roundMode c) a v.toNat fl

/-- Classification and sign operations (R222–R226, R230, R231) by the bits of the pattern (R121). -/
def Obligations.ClassesAndSigns : Prop :=
  ∀ (s : State) (a : F80),
    (opcode (.feIsNan a) = 0x020C ∧ ∃ v, exec (.feIsNan a) s = .next (s.ok (.u1 v)) ∧
      (v = true ↔ a.extractLsb' 64 15 = 0x7FFF#15 ∧ a.getLsbD 63 = true ∧ a.extractLsb' 0 63 ≠ 0#63)) ∧
    (opcode (.feIsInf a) = 0x020D ∧ ∃ v, exec (.feIsInf a) s = .next (s.ok (.u1 v)) ∧
      (v = true ↔ a.extractLsb' 64 15 = 0x7FFF#15 ∧ a.extractLsb' 0 64 = 0x8000000000000000#64)) ∧
    (opcode (.feIsZero a) = 0x020E ∧ ∃ v, exec (.feIsZero a) s = .next (s.ok (.u1 v)) ∧
      (v = true ↔ a.extractLsb' 0 79 = 0#79)) ∧
    (opcode (.feIsDenormal a) = 0x020F ∧ ∃ v, exec (.feIsDenormal a) s = .next (s.ok (.u1 v)) ∧
      (v = true ↔ a.extractLsb' 64 15 = 0#15 ∧ a.extractLsb' 0 64 ≠ 0#64)) ∧
    (opcode (.feIsSupported a) = 0x0210 ∧ ∃ v, exec (.feIsSupported a) s = .next (s.ok (.u1 v)) ∧
      (v = true ↔ ¬ (a.extractLsb' 64 15 ≠ 0#15 ∧ a.getLsbD 63 = false))) ∧
    (opcode (.feNeg a) = 0x0214 ∧ ∃ r : F80, exec (.feNeg a) s = .next (s.ok (.f80 r)) ∧
      r.getLsbD 79 = !a.getLsbD 79 ∧ ∀ k, k < 79 → r.getLsbD k = a.getLsbD k) ∧
    (opcode (.feAbs a) = 0x0215 ∧ ∃ r : F80, exec (.feAbs a) s = .next (s.ok (.f80 r)) ∧
      r.getLsbD 79 = false ∧ ∀ k, k < 79 → r.getLsbD k = a.getLsbD k)

/-- Comparison (R227–R229): by value, −0 and +0 equal, the infinities at the ends; unordered as soon as an operand has no
value. -/
def Obligations.FloatComparison : Prop :=
  ∀ (s : State) (a b : F80),
    opcode (.feCmp a b) = 0x0211 ∧ opcode (.feLt a b) = 0x0212 ∧ opcode (.feEq a b) = 0x0213 ∧
    ∃ (c lt eq : BitVec 2) (fl : Flags6),
      exec (.feCmp a b) s = .next (s.ok (.u2Fl c fl)) ∧
      exec (.feLt a b) s = .next (s.ok (.u2Fl lt fl)) ∧
      exec (.feEq a b) s = .next (s.ok (.u2Fl eq fl)) ∧
      (a.isSpecial = true ∨ b.isSpecial = true → c = 3#2 ∧ lt = 3#2 ∧ eq = 3#2 ∧
        fl = if a.isUnsupported || b.isUnsupported || a.isSignalling || b.isSignalling then flagI else 0) ∧
      (a.isSpecial = false → b.isSpecial = false →
        fl = denormalFlag [a, b] ∧
        (a.lessThan b → c = 1#2 ∧ lt = 1#2 ∧ eq = 0#2) ∧
        (a.sameValue b → c = 2#2 ∧ lt = 0#2 ∧ eq = 1#2) ∧
        (b.lessThan a → c = 0#2 ∧ lt = 0#2 ∧ eq = 0#2))

/-- Operand screening (R205), for the nine commands it names: an unsupported operand gives the default NaN and `I`; else a NaN
operand gives some quiet NaN, and `I` when one is signalling; else the command answers, and a denormal operand adds `D` to its
flags unless they are the invalid ones. Which NaN is the oracle's draw (log 9). -/
def Obligations.OperandScreening : Prop :=
  ∀ (s : State) (i : Instr), screenedOperands i ≠ [] →
    ∃ (t : State) (r : F80) (fl : Flags6), exec i s = .next t ∧ t.resp = some (.ok (.f80Fl r fl)) ∧ sameButDraws s t ∧
      ((screenedOperands i).any F80.isUnsupported = true → r = F80.dnan ∧ fl = flagI) ∧
      ((screenedOperands i).any F80.isUnsupported = false → (screenedOperands i).any F80.isNan = true →
        r.isQuiet = true ∧ fl = if (screenedOperands i).any F80.isSignalling then flagI else 0) ∧
      ((screenedOperands i).any F80.isSpecial = false → (screenedOperands i).any F80.isDenormal = true →
        fl.getLsbD 1 = true ∨ fl = flagI)

/-- Addition, subtraction, multiplication, division and scaling of finite operands (R216–R219, R234): the exact value of the
result, rounded once by R202 and encoded by R203; the sign of an exact zero by R207. -/
def Obligations.ExactThenRounded : Prop :=
  ∀ (s : State) (c : BitVec 32) (a b : F80) (n : BitVec 32), a.isFinite = true → b.isFinite = true →
    (∃ t, exec (.feAdd c a b) s = .next t ∧ sameButDraws s t ∧
      (a.val + b.val ≠ 0 → t.resp = some (.ok (.f80Fl
        (finQ (s.roundMode c) (decide (a.val + b.val < 0)) (a.val + b.val) (denormalFlag [a, b])).1
        (finQ (s.roundMode c) (decide (a.val + b.val < 0)) (a.val + b.val) (denormalFlag [a, b])).2))) ∧
      (a.val + b.val = 0 → t.resp = some (.ok (.f80Fl
        (F80.zero (if a.isZero && b.isZero && a.sgn == b.sgn then a.sgn else s.rm c == 1#2)) (denormalFlag [a, b]))))) ∧
    (∃ t, exec (.feSub c a b) s = .next t ∧ sameButDraws s t ∧
      (a.val - b.val ≠ 0 → t.resp = some (.ok (.f80Fl
        (finQ (s.roundMode c) (decide (a.val - b.val < 0)) (a.val - b.val) (denormalFlag [a, b])).1
        (finQ (s.roundMode c) (decide (a.val - b.val < 0)) (a.val - b.val) (denormalFlag [a, b])).2))) ∧
      (a.val - b.val = 0 → t.resp = some (.ok (.f80Fl
        (F80.zero (if a.isZero && b.isZero && a.sgn != b.sgn then a.sgn else s.rm c == 1#2)) (denormalFlag [a, b]))))) ∧
    (a.isZero = false → b.isZero = false →
      (∃ t, exec (.feMul c a b) s = .next t ∧ sameButDraws s t ∧ t.resp = some (.ok (.f80Fl
        (finQ (s.roundMode c) (a.sgn != b.sgn) (a.val * b.val) (denormalFlag [a, b])).1
        (finQ (s.roundMode c) (a.sgn != b.sgn) (a.val * b.val) (denormalFlag [a, b])).2))) ∧
      ∃ t, exec (.feDiv c a b) s = .next t ∧ sameButDraws s t ∧ t.resp = some (.ok (.f80Fl
        (finQ (s.roundMode c) (a.sgn != b.sgn) (a.val / b.val) (denormalFlag [a, b])).1
        (finQ (s.roundMode c) (a.sgn != b.sgn) (a.val / b.val) (denormalFlag [a, b])).2))) ∧
    (a.isZero = false →
      ∃ t, exec (.feScale c a n) s = .next t ∧ sameButDraws s t ∧ t.resp = some (.ok (.f80Fl
        (finQ (s.roundMode c) a.sgn (a.val * 2 ^ n.toInt) (denormalFlag [a])).1
        (finQ (s.roundMode c) a.sgn (a.val * 2 ^ n.toInt) (denormalFlag [a])).2)))

/-- The rows of the arithmetic rules with an infinite or zero operand (R216–R219, R234: addition, subtraction, multiplication,
division, scaling), and the substitutes of R206. -/
def Obligations.InfinityAndZeroRows : Prop :=
  ∀ (s : State) (c : BitVec 32) (a b : F80) (n : BitVec 32), a.isSpecial = false → b.isSpecial = false →
    (a.isInf = true ∨ b.isInf = true →
      ∃ (t : State) (r : F80) (fl : Flags6), exec (.feAdd c a b) s = .next t ∧ sameButDraws s t ∧
        t.resp = some (.ok (.f80Fl r fl)) ∧
        (a.isInf = true → b.isInf = true → a.sgn ≠ b.sgn → r = F80.dnan ∧ fl = flagI) ∧
        (a.isInf = true → (b.isInf = false ∨ a.sgn = b.sgn) → r = a ∧ fl = denormalFlag [a, b]) ∧
        (a.isInf = false → r = b ∧ fl = denormalFlag [a, b])) ∧
    (a.isInf = true ∨ b.isInf = true →
      ∃ (t : State) (r : F80) (fl : Flags6), exec (.feSub c a b) s = .next t ∧ sameButDraws s t ∧
        t.resp = some (.ok (.f80Fl r fl)) ∧
        (a.isInf = true → b.isInf = true → a.sgn = b.sgn → r = F80.dnan ∧ fl = flagI) ∧
        (a.isInf = true → (b.isInf = false ∨ a.sgn ≠ b.sgn) → r = a ∧ fl = denormalFlag [a, b]) ∧
        (a.isInf = false → r = F80.inf (!b.sgn) ∧ fl = denormalFlag [a, b])) ∧
    (a.isInf = true ∨ b.isInf = true ∨ a.isZero = true ∨ b.isZero = true →
      (∃ (t : State) (r : F80) (fl : Flags6), exec (.feMul c a b) s = .next t ∧ sameButDraws s t ∧
        t.resp = some (.ok (.f80Fl r fl)) ∧
        if (a.isInf && b.isZero) || (a.isZero && b.isInf) then r = F80.dnan ∧ fl = flagI
        else r = (if a.isInf || b.isInf then F80.inf (a.sgn != b.sgn) else F80.zero (a.sgn != b.sgn)) ∧
          fl = denormalFlag [a, b]) ∧
      ∃ (t : State) (r : F80) (fl : Flags6), exec (.feDiv c a b) s = .next t ∧ sameButDraws s t ∧
        t.resp = some (.ok (.f80Fl r fl)) ∧
        if (a.isInf && b.isInf) || (a.isZero && b.isZero) then r = F80.dnan ∧ fl = flagI
        else if a.isInf || b.isZero then
          r = F80.inf (a.sgn != b.sgn) ∧ fl = denormalFlag [a, b] ||| (if a.isInf then 0 else flagZ)
        else r = F80.zero (a.sgn != b.sgn) ∧ fl = denormalFlag [a, b]) ∧
    (a.isInf = true ∨ a.isZero = true →
      ∃ t, exec (.feScale c a n) s = .next t ∧ sameButDraws s t ∧ t.resp = some (.ok (.f80Fl a 0)))

/-- The two remainders (R220, R221): `a − n·b` with the quotient truncated, or rounded to nearest with ties to even; exact, with
no rounding at all. -/
def Obligations.RemaindersAreExact : Prop :=
  ∀ (s : State) (a b : F80), a.isSpecial = false → b.isSpecial = false →
    ∃ (t u : State) (r q : F80) (fl fm : Flags6),
      exec (.feMod a b) s = .next t ∧ sameButDraws s t ∧ t.resp = some (.ok (.f80Fl r fl)) ∧
      exec (.feRem a b) s = .next u ∧ sameButDraws s u ∧ u.resp = some (.ok (.f80Fl q fm)) ∧
      (a.isInf = true ∨ b.isZero = true → r = F80.dnan ∧ fl = flagI ∧ q = F80.dnan ∧ fm = flagI) ∧
      (a.isInf = false → b.isZero = false → fl = denormalFlag [a, b] ∧ fm = denormalFlag [a, b] ∧
        (b.isInf = true ∨ a.isZero = true → r = a ∧ q = a) ∧
        (b.isInf = false → a.isZero = false →
          let d := a.val - truncQ (a.val / b.val) * b.val
          let e := a.val - nearestQ (a.val / b.val) * b.val
          r.val = d ∧ r = (if d = 0 then F80.zero a.sgn else encQ (decide (d < 0)) (some |d|)) ∧
          q.val = e ∧ q = (if e = 0 then F80.zero a.sgn else encQ (decide (e < 0)) (some |e|)) ∧
          |d| < |b.val| ∧ |e| ≤ |b.val| / 2))

/-- The square root (R233): of a positive finite operand the correctly rounded root, a normal number that no finite pattern
betters under the mode, with `P` exactly when it is not exact; and the other rows. -/
def Obligations.SquareRootIsCorrectlyRounded : Prop :=
  ∀ (s : State) (c : BitVec 32) (a : F80), a.isSpecial = false →
    ∃ (t : State) (r : F80) (fl : Flags6), exec (.feSqrt c a) s = .next t ∧ sameButDraws s t ∧
      t.resp = some (.ok (.f80Fl r fl)) ∧
      (a.isZero = true → r = a ∧ fl = 0) ∧
      (a.isZero = false → a.sgn = true → r = F80.dnan ∧ fl = flagI) ∧
      (a.isInf = true → a.sgn = false → r = a ∧ fl = 0) ∧
      (a.isFinite = true → a.isZero = false → a.sgn = false →
        r.isNormal = true ∧ r.sgn = false ∧ fl = denormalFlag [a] ||| (if r.val * r.val = a.val then 0 else flagP) ∧
        (s.rm c = 0#2 → ∀ v : F80, v.isFinite = true → |(r.val : ℝ) - √(a.val : ℝ)| ≤ |(v.val : ℝ) - √(a.val : ℝ)|) ∧
        (s.rm c = 1#2 ∨ s.rm c = 3#2 → (r.val : ℝ) ≤ √(a.val : ℝ) ∧
          ∀ v : F80, v.isFinite = true → (v.val : ℝ) ≤ √(a.val : ℝ) → v.val ≤ r.val) ∧
        (s.rm c = 2#2 → √(a.val : ℝ) ≤ (r.val : ℝ) ∧
          ∀ v : F80, v.isFinite = true → √(a.val : ℝ) ≤ (v.val : ℝ) → r.val ≤ v.val))

/-- The base-2 logarithm (R232): exact for the powers of two, the stated substitutes, and the open parameter `FE_LOG2`
elsewhere, of which nothing is assumed (log 10). -/
def Obligations.LogarithmRows : Prop :=
  ∀ (s : State) (c : BitVec 32) (a : F80), a.isSpecial = false →
    ∃ (t : State) (r : F80) (fl : Flags6), exec (.feLog2 c a) s = .next t ∧ sameButDraws s t ∧
      t.resp = some (.ok (.f80Fl r fl)) ∧
      (a.isZero = true → r = F80.inf true ∧ fl = flagZ) ∧
      (a.isZero = false → a.sgn = true → r = F80.dnan ∧ fl = flagI) ∧
      (a.isInf = true → a.sgn = false → r = F80.inf false ∧ fl = 0) ∧
      (a.isFinite = true → a.isZero = false → a.sgn = false →
        (∀ k : ℤ, a.val = 2 ^ k → r.val = k ∧ fl = denormalFlag [a] ∧ (k = 0 → r = F80.zero false) ∧
          (k ≠ 0 → r.isNormal = true)) ∧
        ((∀ k : ℤ, a.val ≠ 2 ^ k) →
          r = (Config.feLog2 a (s.rm c)).1 ∧ fl = denormalFlag [a] ||| (Config.feLog2 a (s.rm c)).2))

/-- The model's integer rounding is the rational rounding function of R202, for every format, mode, sign and positive
magnitude. -/
def Obligations.RoundingIsExact : Prop :=
  ∀ (p : ℕ) (emin emax : ℤ) (rm : RMode) (sg : Bool) (m : Mag), 1 ≤ p → emin ≤ emax → 0 < m.num → 0 < m.den →
    (roundFmt p emin emax rm sg m).2 = (roundQ p emin emax rm sg m.value).2 ∧
    (match (roundFmt p emin emax rm sg m).1 with
      | .inf => none
      | .fin n q => some ((n : ℚ) * 2 ^ q)) = (roundQ p emin emax rm sg m.value).1

/-! ### The FPU stack -/

/-- Every pushing command (R33, R263, R265, R271–R276, R283, R300–R306): the value lands in the new `ST(0)` and the old slots
move down; onto a full stack, or from an empty slot, the default NaN with the stack fault; an unmasked flag raises and pushes
nothing. Where a push both reads an empty slot and overflows, `C1` is the overflow's 1: the model's reading (log 23). The loads
push their operand's value (R208): an integer's exactly, a float pattern's by the conversion. -/
def Obligations.PushingCommands : Prop :=
  (∀ (s : State) (c : BitVec 32),
    (∀ x : BitVec 16, (s.pushOf (.fpuLdI16 c x)).map (fun p => p.2.1.val) = some (x.toInt : ℚ)) ∧
    (∀ x : BitVec 32, (s.pushOf (.fpuLdI32 c x)).map (fun p => p.2.1.val) = some (x.toInt : ℚ)) ∧
    (∀ x : BitVec 64, ∃ r, s.pushOf (.fpuLdI64 c x) = some (c, r, 0, []) ∧
      exec (.feFromI64 x) s = .next (s.ok (.f80Fl r 0))) ∧
    (∀ w : BitVec 32, ∃ r fl, s.pushOf (.fpuLdF32 c w) = some (c, r, fl, []) ∧ loadsHost 8 23 w.toNat r fl) ∧
    (∀ w : BitVec 64, ∃ r fl, s.pushOf (.fpuLdF64 c w) = some (c, r, fl, []) ∧
      exec (.feFromF64 w) s = .next (s.ok (.f80Fl r fl)))) ∧
  ∀ (s : State) (i : Instr) (c : BitVec 32) (v : F80) (fl : Flags6) (slots : List (BitVec 3)),
    s.pushOf i = some (c, v, fl, slots) →
    ∃ t, exec i s = .next t ∧ t.draws = s.draws ∧
      fpuEnds c s t (fl ||| (s.fpu c).emptyFlag slots ||| (if (s.fpu c).valid 7#3 then flagI else 0))
        (if (s.fpu c).valid 7#3 then some true else (s.fpu c).underflow slots) .none
        fun f g => f.codesKept g ∧ f.wasPushed g (if f.valid 7#3 then F80.dnan else v)

/-- Stack movement and the raw commands (R264, R266–R269). -/
def Obligations.StackMovement : Prop :=
  ∀ (s : State) (c : BitVec 32) (i : BitVec 3) (v : F80) (valid : Bool),
    (∃ t, exec (.fpuInit c) s = .next t ∧ t.resp = some (.ok .none) ∧ sameOutside c s t ∧ t.draws = s.draws ∧
      t.cpu c = s.cpu c ∧ t.tlb c = s.tlb c ∧ t.transfer c = s.transfer c ∧ t.rm c = 0#2 ∧
      (t.fpu c).cw = 0x037F#16 ∧ (t.fpu c).sw = 0x0000#16 ∧
      (t.fpu c).fpr = (s.fpu c).fpr ∧ ∀ j, (t.fpu c).valid j = false) ∧
    (∃ t, exec (.fpuSt c i) s = .next t ∧ t.draws = s.draws ∧
      fpuEnds c s t ((s.fpu c).emptyFlag [0#3]) ((s.fpu c).underflow [0#3]) .none
        fun f g => f.codesKept g ∧ f.slotWritten g i (f.slotValue 0#3)) ∧
    (∃ t, exec (.fpuPop c) s = .next t ∧ t.draws = s.draws ∧
      fpuEnds c s t ((s.fpu c).emptyFlag [0#3]) ((s.fpu c).underflow [0#3]) .none
        fun f g => f.codesKept g ∧ g.top = f.top + 1#3 ∧ g.valid 7#3 = false ∧ g.fpr = f.fpr ∧
          ∀ j : BitVec 3, j ≠ 0#3 → g.valid (j - 1#3) = f.valid j) ∧
    exec (.fpuGetSt c i) s = .next (s.ok (.stackReg ((s.fpu c).st i) ((s.fpu c).valid i))) ∧
    (∃ t, exec (.fpuSetSt c i v valid) s = .next t ∧ t.resp = some (.ok .none) ∧ sameButFpu c s t ∧ t.draws = s.draws ∧
      (t.fpu c).sw = (s.fpu c).sw ∧ (t.fpu c).cw = (s.fpu c).cw ∧ (t.fpu c).st i = v ∧ (t.fpu c).valid i = valid ∧
      ∀ j, j ≠ i → (t.fpu c).st j = (s.fpu c).st j ∧ (t.fpu c).valid j = (s.fpu c).valid j)

/-- The store conversions (R277–R282): the conversion of `ST(0)`, the default NaN where it is empty, with its flags; the
registers stay. -/
def Obligations.StoreConversions : Prop :=
  ∀ (s : State) (c : BitVec 32),
    let a := (s.fpu c).slotValue 0#3
    let ends := fun (t : State) (fl : Flags6) (r : Results) =>
      t.draws = s.draws ∧ fpuEnds c s t (fl ||| (s.fpu c).emptyFlag [0#3]) ((s.fpu c).underflow [0#3]) r
        fun f g => f.regsKept g ∧ f.codesKept g
    (∃ (t : State) (x : BitVec 16), exec (.fpuStI16 c) s = .next t ∧ x.toInt = (toIntQ 16 (s.roundMode c) a).1 ∧
      ends t (toIntQ 16 (s.roundMode c) a).2 (.u16 x)) ∧
    (∃ (t : State) (x : BitVec 32), exec (.fpuStI32 c) s = .next t ∧ x.toInt = (toIntQ 32 (s.roundMode c) a).1 ∧
      ends t (toIntQ 32 (s.roundMode c) a).2 (.u32 x)) ∧
    (∃ (t : State) (x : BitVec 64), exec (.fpuStI64 c) s = .next t ∧ x.toInt = (toIntQ 64 (s.roundMode c) a).1 ∧
      ends t (toIntQ 64 (s.roundMode c) a).2 (.u64 x)) ∧
    (∃ (t : State) (w : BitVec 32) (fl : Flags6), exec (.fpuStF32 c) s = .next t ∧
      storesHost 8 23 (s.roundMode c) a w.toNat fl ∧ ends t fl (.u32 w)) ∧
    (∃ (t : State) (w : BitVec 64) (fl : Flags6), exec (.fpuStF64 c) s = .next t ∧
      storesHost 11 52 (s.roundMode c) a w.toNat fl ∧ ends t fl (.u64 w)) ∧
    (∃ t, exec (.fpuStF80 c) s = .next t ∧ ends t 0 (.f80 a))

/-- Arithmetic on stack slots (R283–R293): the slot gets what the float engine's command of the same name answers on the
slots' values, its flags go to the status word, no other slot changes, and nothing is pushed or popped. -/
def Obligations.StackArithmetic : Prop :=
  ∀ (s : State) (i twin : Instr) (c : BitVec 32) (dst : BitVec 3) (slots : List (BitVec 3)),
    s.feTwin i = some (c, dst, slots, twin) →
    ∃ (t u : State) (res : Results) (r : F80) (fl : Flags6), exec twin s = .next u ∧ u.resp = some (.ok res) ∧
      floatResult res = some (r, fl) ∧ exec i s = .next t ∧ t.draws = u.draws ∧
      fpuEnds c s t (fl ||| (s.fpu c).emptyFlag slots) ((s.fpu c).underflow slots) .none
        fun f g => f.codesKept g ∧ f.slotWritten g dst r

/-- `FPU.SCALE` (R294). -/
def Obligations.StackScaling : Prop :=
  ∀ (s : State) (c : BitVec 32) (dst src : BitVec 3),
    let a := (s.fpu c).slotValue dst
    let b := (s.fpu c).slotValue src
    opcode (.fpuScale c dst src) = 0x031C ∧
    ∃ (t : State) (r : F80) (fl : Flags6), exec (.fpuScale c dst src) s = .next t ∧
      fpuEnds c s t (fl ||| (s.fpu c).emptyFlag [dst, src]) ((s.fpu c).underflow [dst, src]) .none
        (fun f g => f.codesKept g ∧ f.slotWritten g dst r) ∧
      (a.isUnsupported = true ∨ b.isUnsupported = true → r = F80.dnan ∧ fl = flagI) ∧
      (a.isUnsupported = false → b.isUnsupported = false → a.isNan = true ∨ b.isNan = true →
        r.isQuiet = true ∧ fl = if a.isSignalling || b.isSignalling then flagI else 0) ∧
      (a.isSpecial = false → b.isInf = true → b.sgn = false →
        if a.isZero then r = F80.dnan ∧ fl = flagI else r = F80.inf a.sgn ∧ fl = 0) ∧
      (a.isSpecial = false → b.isInf = true → b.sgn = true →
        if a.isInf then r = F80.dnan ∧ fl = flagI else r = F80.zero a.sgn ∧ fl = 0) ∧
      (a.isSpecial = false → b.isFinite = true →
        ∃ (n : BitVec 32) (u : State) (gl : Flags6), n.toInt = max (-2 ^ 31) (min (truncQ b.val) (2 ^ 31 - 1)) ∧
          exec (.feScale c a n) s = .next u ∧ u.resp = some (.ok (.f80Fl r gl)) ∧ fl = gl ||| denormalFlag [b])

/-- `FPU.COM` (R295): the condition codes of the comparison, `C1` cleared, every unordered outcome invalid; nothing is popped. -/
def Obligations.StackComparison : Prop :=
  ∀ (s : State) (c : BitVec 32) (x y : BitVec 3),
    opcode (.fpuCom c x y) = 0x031D ∧
    ∃ (t : State) (k : BitVec 2) (fl : Flags6),
      exec (.feCmp ((s.fpu c).slotValue x) ((s.fpu c).slotValue y)) s = .next (s.ok (.u2Fl k fl)) ∧
      exec (.fpuCom c x y) s = .next t ∧ t.draws = s.draws ∧ sameButFpu c s t ∧
      let f := s.fpu c
      let g := t.fpu c
      let gl := fl ||| (if k = 3#2 then flagI else 0) ||| f.emptyFlag [x, y]
      f.regsKept g ∧ g.cw = f.cw ∧ g.excFlags = f.excFlags ||| gl ∧
      g.sw.getLsbD 6 = (f.sw.getLsbD 6 || (f.underflow [x, y]).isSome) ∧
      g.sw.getLsbD 7 = f.anyUnmasked (f.excFlags ||| gl) ∧ g.sw.getLsbD 15 = f.sw.getLsbD 15 ∧
      if f.anyUnmasked gl then
        t.resp = some (.fault .floatError 0#32) ∧ f.codesKept g ∧
          g.sw.getLsbD 9 = (f.underflow [x, y]).getD (f.sw.getLsbD 9)
      else t.resp = some (.ok .none) ∧ g.sw.getLsbD 14 = (k == 2#2 || k == 3#2) ∧ g.sw.getLsbD 10 = (k == 3#2) ∧
        g.sw.getLsbD 8 = (k == 1#2 || k == 3#2) ∧ g.sw.getLsbD 9 = false

/-- The rounding mode (R124, R210, R211): set and read, nothing else of the context changed. Control and status words
(R297–R299): all 16 bits of the control word are stored, `RM` follows `RC`, `ES` is recomputed, and nothing is raised. -/
def Obligations.ModeControlAndStatus : Prop :=
  (roundMode 0#2 = .nearest ∧ roundMode 1#2 = .down ∧ roundMode 2#2 = .up ∧ roundMode 3#2 = .zero) ∧
  ∀ (s : State) (c : BitVec 32) (v : BitVec 16) (m : BitVec 2),
    opcode (.feSetRm c m) = 0x0200 ∧ opcode (.feGetRm c) = 0x0201 ∧
    (∃ t, exec (.feSetRm c m) s = .next t ∧ t.resp = some (.ok .none) ∧ t.rm c = m ∧ sameOutside c s t ∧
      t.draws = s.draws ∧ t.cpu c = s.cpu c ∧ t.fpu c = s.fpu c ∧ t.tlb c = s.tlb c ∧ t.transfer c = s.transfer c) ∧
    exec (.feGetRm c) s = .next (s.ok (.u2 (s.rm c))) ∧
    opcode (.fpuLdCw c v) = 0x031E ∧ opcode (.fpuStCw c) = 0x031F ∧ opcode (.fpuStSw c) = 0x0320 ∧
    (∃ t, exec (.fpuLdCw c v) s = .next t ∧ t.resp = some (.ok .none) ∧ sameOutside c s t ∧ t.draws = s.draws ∧
      t.cpu c = s.cpu c ∧ t.tlb c = s.tlb c ∧ t.transfer c = s.transfer c ∧ (t.fpu c).cw = v ∧ t.rm c = v.extractLsb' 10 2 ∧
      (t.fpu c).fpr = (s.fpu c).fpr ∧ (t.fpu c).tag = (s.fpu c).tag ∧
      (t.fpu c).sw.getLsbD 7 = ((s.fpu c).excFlags &&& ~~~(v.extractLsb' 0 6) != 0#6) ∧
      ∀ k, k ≠ 7 → (t.fpu c).sw.getLsbD k = (s.fpu c).sw.getLsbD k) ∧
    exec (.fpuStCw c) s = .next (s.ok (.u16 (s.fpu c).cw)) ∧
    exec (.fpuStSw c) s = .next (s.ok (.u16 (s.fpu c).sw))

/-! ### Address spaces -/

/-- Creating, retaining and releasing an address space (R321–R323): a fresh empty space with one owner, to which no
context is attached (log 8); one owner more; one owner less, and with the last one everything unmapped and the space gone, each
blob surviving exactly where an entry of another space still references it. A creation whose allocation fails (log 7) changes nothing. -/
def Obligations.SpaceLifecycle : Prop :=
  ∀ (s : State) (m : BitVec 64), s.Inv →
    (s.drawOom.1 = false → ∃ t h, exec .asmCreate s = .next t ∧ t.resp = some (.ok (.handle h)) ∧ s.space h = none ∧
      (∀ c, (t.tlb c).mem ≠ some h) ∧ t.space h = some { pages := [], gen := 0, refcount := 1, lock := .free } ∧
      (∀ x, x ≠ h → t.space x = s.space x) ∧ t.blobs = s.blobs ∧ t.graves = s.graves ∧ sameContexts s t) ∧
    (s.drawOom.1 = true → ∃ t, exec .asmCreate s = .next t ∧ t.resp = some (.fail .outOfMemory) ∧ sameButDraws s t) ∧
    (s.space m.toNat = none → exec (.asmRetain m) s = .next (s.fail .illegalOperand) ∧
      exec (.asmRelease m) s = .next (s.fail .illegalOperand)) ∧
    ∀ sp, s.space m.toNat = some sp →
      (∃ t, exec (.asmRetain m) s = .next t ∧ t.resp = some (.ok .none) ∧
        t.space m.toNat = some { sp with refcount := sp.refcount + 1 } ∧ (∀ x, x ≠ m.toNat → t.space x = s.space x) ∧
        t.blobs = s.blobs ∧ t.graves = s.graves ∧ t.draws = s.draws ∧ sameContexts s t) ∧
      (1 < sp.refcount → ∃ t, exec (.asmRelease m) s = .next t ∧ t.resp = some (.ok (.u1 false)) ∧
        t.space m.toNat = some { sp with refcount := sp.refcount - 1 } ∧ (∀ x, x ≠ m.toNat → t.space x = s.space x) ∧
        t.blobs = s.blobs ∧ t.graves = s.graves ∧ t.draws = s.draws ∧ sameContexts s t) ∧
      (sp.refcount = 1 → ∃ t, exec (.asmRelease m) s = .next t ∧ t.resp = some (.ok (.u1 true)) ∧
        t.space m.toNat = none ∧ (∀ x, x ≠ m.toNat → t.space x = s.space x) ∧ t.draws = s.draws ∧ sameContexts s t ∧
        (∀ b, (mapFind t.blobs b).isSome = true ↔ 1 ≤ t.pteCount b) ∧ ∀ x addr, x ≠ m.toNat → t.byteOf x addr = s.byteOf x addr)

/-- Mapping host memory (R324, R325): a fresh blob with one reference a page, its pages in order with the given flags, its
bytes at the range's addresses; anything mapped there before is replaced, every other page keeps its entry and its bytes; the
counter grows by 1. Where no allocation fails (log 7); MappingRefusals says what happens where one does. -/
def Obligations.MappingInstallsRange : Prop :=
  ∀ (s : State) (m : BitVec 64) (page : BitVec 20) (count : BitVec 32) (flags : BitVec 7), s.Inv →
    rangeValid page.toNat count.toNat = true → (s.space m.toNat).isSome = true → s.drawOom.1 = false →
    (∀ bytes : List Byte, count.toNat * 4096 ≤ bytes.length →
      ∃ t b, exec (.asmMap m page count (.region bytes) flags) s = .next t ∧ t.resp = some (.ok (.handle b)) ∧
        mapFind s.blobs b = none ∧ (mapFind t.blobs b).map (fun x => (x.len, x.refcount)) = some (bytes.length, count.toNat) ∧
        (∀ k, k < count.toNat → t.pte m.toNat (page.toNat + k) = some { blob := b, offset := k * 4096, flags := flags }) ∧
        (∀ k, k < count.toNat * 4096 → t.byteOf m.toNat (page.toNat * 4096 + k) = bytes[k]?) ∧
        s.entriesKept t (fun x p => x == m.toNat && inRange page.toNat count.toNat p) ∧
        s.bytesKept t (fun x p => x == m.toNat && inRange page.toNat count.toNat p) ∧
        s.spacesKept t (fun x => x == m.toNat) ∧ sameContexts s t) ∧
    ∃ t b, exec (.asmMapAnon m page count flags) s = .next t ∧ t.resp = some (.ok (.handle b)) ∧
      mapFind s.blobs b = none ∧
      (mapFind t.blobs b).map (fun x => (x.len, x.refcount)) = some (count.toNat * 4096, count.toNat) ∧
      (∀ k, k < count.toNat →
        t.pte m.toNat (page.toNat + k) = some { blob := b, offset := k * 4096, flags := flags ||| 0x40#7 }) ∧
      (∀ k, k < count.toNat * 4096 → t.byteOf m.toNat (page.toNat * 4096 + k) = some 0#8) ∧
      s.entriesKept t (fun x p => x == m.toNat && inRange page.toNat count.toNat p) ∧
      s.bytesKept t (fun x p => x == m.toNat && inRange page.toNat count.toNat p) ∧
      s.spacesKept t (fun x => x == m.toNat) ∧ sameContexts s t

/-- Unmapping (R326): with `force`, or with every page of the range mapped, the range is unmapped and the counter grows by 1,
also where nothing was there; every other page keeps its entry and its bytes. -/
def Obligations.UnmappingRemovesRange : Prop :=
  ∀ (s : State) (m : BitVec 64) (page : BitVec 20) (count : BitVec 32) (force : Bool), s.Inv →
    rangeValid page.toNat count.toNat = true → (s.space m.toNat).isSome = true →
    (force = true ∨ ∀ k, k < count.toNat → (s.pte m.toNat (page.toNat + k)).isSome = true) →
    ∃ t, exec (.asmUnmap m page count force) s = .next t ∧ t.resp = some (.ok .none) ∧
      (∀ k, k < count.toNat → t.pte m.toNat (page.toNat + k) = none) ∧
      s.entriesKept t (fun x p => x == m.toNat && inRange page.toNat count.toNat p) ∧
      s.bytesKept t (fun x p => x == m.toNat && inRange page.toNat count.toNat p) ∧
      s.spacesKept t (fun x => x == m.toNat) ∧ t.draws = s.draws ∧ sameContexts s t ∧
      ∀ b, (mapFind t.blobs b).isSome = true ↔ 1 ≤ t.pteCount b

/-- Changing protection (R327): bits 2:0 of every entry of the range are replaced and its other flags kept; no byte of memory,
no blob and no other entry changes; the counter grows by 1. -/
def Obligations.ProtectionReplacesThreeBits : Prop :=
  ∀ (s : State) (m : BitVec 64) (page : BitVec 20) (count : BitVec 32) (flags : BitVec 7),
    rangeValid page.toNat count.toNat = true → (s.space m.toNat).isSome = true →
    (∀ k, k < count.toNat → (s.pte m.toNat (page.toNat + k)).isSome = true) →
    ∃ t, exec (.asmSetProt m page count flags) s = .next t ∧ t.resp = some (.ok .none) ∧
      (∀ k e, k < count.toNat → s.pte m.toNat (page.toNat + k) = some e →
        ∃ f : BitVec 7, t.pte m.toNat (page.toNat + k) = some { e with flags := f } ∧
          ∀ j, j < 7 → f.getLsbD j = if j ≤ 2 then flags.getLsbD j else e.flags.getLsbD j) ∧
      s.entriesKept t (fun x p => x == m.toNat && inRange page.toNat count.toNat p) ∧
      (∀ x addr, t.byteOf x addr = s.byteOf x addr) ∧ t.blobs = s.blobs ∧ t.graves = s.graves ∧
      s.spacesKept t (fun x => x == m.toNat) ∧ t.draws = s.draws ∧ sameContexts s t

/-- Copy-on-write sharing (R329): every mapped source page is shared with its destination page, both entries with
COPY-ON-WRITE set and COMPILED clear; a destination whose source is unmapped is left alone; the shared bytes read the same
through both, and every other page keeps its entry and its bytes; both counters grow by 1, once where the spaces are one. Where
no allocation fails (log 7); MappingRefusals says what happens where one does. -/
def Obligations.SharingInstallsBoth : Prop :=
  ∀ (s : State) (m m2 : BitVec 64) (page page2 : BitVec 20) (count : BitVec 32), s.Inv →
    rangeValid page.toNat count.toNat = true → rangeValid page2.toNat count.toNat = true →
    (s.space m.toNat).isSome = true → (s.space m2.toNat).isSome = true → s.drawOom.1 = false →
    ¬ (m = m2 ∧ page.toNat < page2.toNat + count.toNat ∧ page2.toNat < page.toNat + count.toNat) →
    ∃ t, exec (.asmCow m page count m2 page2) s = .next t ∧
      t.resp = some (.ok (.u32 (BitVec.ofNat 32
        ((List.range count.toNat).countP fun k => (s.pte m.toNat (page.toNat + k)).isSome)))) ∧
      (∀ k, k < count.toNat →
        (s.pte m.toNat (page.toNat + k) = none → t.pte m.toNat (page.toNat + k) = none ∧
          t.pte m2.toNat (page2.toNat + k) = s.pte m2.toNat (page2.toNat + k)) ∧
        ∀ e, s.pte m.toNat (page.toNat + k) = some e →
          ∃ f : BitVec 7, (∀ j, j < 7 → f.getLsbD j = if j = 4 then true else if j = 5 then false else e.flags.getLsbD j) ∧
            t.pte m.toNat (page.toNat + k) = some { e with flags := f } ∧
            t.pte m2.toNat (page2.toNat + k) = some { e with flags := f } ∧
            ∀ o, o < 4096 →
              t.byteOf m.toNat ((page.toNat + k) * 4096 + o) = s.byteOf m.toNat ((page.toNat + k) * 4096 + o) ∧
              t.byteOf m2.toNat ((page2.toNat + k) * 4096 + o) = s.byteOf m.toNat ((page.toNat + k) * 4096 + o)) ∧
      s.entriesKept t (fun x p => (x == m.toNat && inRange page.toNat count.toNat p)
        || (x == m2.toNat && inRange page2.toNat count.toNat p)) ∧
      s.bytesKept t (fun x p => x == m2.toNat && inRange page2.toNat count.toNat p) ∧
      s.spacesKept t (fun x => x == m.toNat || x == m2.toNat) ∧ sameContexts s t

/-- Hole search (R330): the highest run of `n` unmapped pages strictly above `HOLE_LOW_PAGE` and up to `HOLE_HIGH_PAGE`, or
`BAD_PAGE`, which is no page index, where there is none; it reads only. Bounds and sentinel are the parameters, whatever they
are (log 11). -/
def Obligations.HoleIsHighest : Prop :=
  ∀ (s : State) (m : BitVec 64) (n : BitVec 32),
    opcode (.asmFindHole m n) = 0x0408 ∧
    (s.space m.toNat = none ∨ n = 0#32 → exec (.asmFindHole m n) s = .next (s.fail .illegalOperand)) ∧
    ((s.space m.toNat).isSome = true → n ≠ 0#32 →
      let hole := fun q : Nat => s.params.holeLow < q ∧ q + n.toNat - 1 ≤ s.params.holeHigh ∧
        ∀ j, j < n.toNat → s.pte m.toNat (q + j) = none
      (∀ q, hole q → (∀ r, hole r → r ≤ q) → exec (.asmFindHole m n) s = .next (s.ok (.u32 (BitVec.ofNat 32 q)))) ∧
      ((∀ q, ¬ hole q) → ∃ bad : BitVec 32, exec (.asmFindHole m n) s = .next (s.ok (.u32 bad)) ∧ bad = s.params.badPage.val ∧
        2 ^ 20 ≤ bad.toNat))

/-- Translation of a mapped page that needs no copy (R331, R333, R335): a read whatever the flags, and a write to a page with
WRITABLE and without COPY-ON-WRITE, answer the pointer into the entry's blob at the correct byte offset and change nothing; a
write to a page without WRITABLE is refused, copying nothing. -/
def Obligations.TranslationOfMappedPage : Prop :=
  ∀ (s : State) (m : BitVec 64) (addr : BitVec 32) (e : Pte), s.pte m.toNat (addr.toNat / 4096) = some e →
    exec (.asmTranslate m addr .read) s = .next (s.ok (.pointer e.blob (e.offset + addr.toNat % 4096) e.flags)) ∧
    (e.flags.getLsbD 1 = true → e.flags.getLsbD 4 = false →
      exec (.asmTranslate m addr .write) s = .next (s.ok (.pointer e.blob (e.offset + addr.toNat % 4096) e.flags))) ∧
    (e.flags.getLsbD 1 = false → exec (.asmTranslate m addr .write) s = .next (s.fail .noTranslation))

/-- Copy-on-write duplication (R333, R334, R329's isolation): a write to a page with both WRITABLE and COPY-ON-WRITE gives the
page a fresh private blob with a copy of its 4096 bytes and COPY-ON-WRITE cleared; no other entry refers to it, so that a write
through the pointer alters no other page; every page reads as before; the counter grows by 1. A failing allocation (log 7)
changes nothing. -/
def Obligations.WriteDuplicatesSharedPage : Prop :=
  ∀ (s : State) (m : BitVec 64) (addr : BitVec 32) (e : Pte), s.Inv →
    s.pte m.toNat (addr.toNat / 4096) = some e → e.flags.getLsbD 1 = true → e.flags.getLsbD 4 = true →
    (s.drawOom.1 = true → ∃ t, exec (.asmTranslate m addr .write) s = .next t ∧
      t.resp = some (.fail .outOfMemory) ∧ sameButDraws s t) ∧
    (s.drawOom.1 = false → ∃ (t : State) (b : Handle) (f : BitVec 7), exec (.asmTranslate m addr .write) s = .next t ∧
      t.resp = some (.ok (.pointer b (addr.toNat % 4096) f)) ∧
      (∀ j, j < 7 → f.getLsbD j = if j = 4 then false else e.flags.getLsbD j) ∧
      mapFind s.blobs b = none ∧ (mapFind t.blobs b).map (fun x => (x.len, x.refcount)) = some (4096, 1) ∧
      t.pte m.toNat (addr.toNat / 4096) = some { blob := b, offset := 0, flags := f } ∧
      (∀ x p g, t.pte x p = some g → g.blob = b → x = m.toNat ∧ p = addr.toNat / 4096) ∧
      s.entriesKept t (fun x p => x == m.toNat && p == addr.toNat / 4096) ∧
      (∀ x a, t.byteOf x a = s.byteOf x a) ∧
      s.spacesKept t (fun x => x == m.toNat) ∧ sameContexts s t ∧
      ((mapFind t.blobs e.blob).isSome = true ↔ 1 ≤ t.pteCount e.blob))

/-- Stack growth (R332): where the first mapped page above an unmapped one has GROWS-DOWN, a translation of either kind maps
that one page to a fresh zero page with flags `0x4B` and bumps the counter; where it has not, or there is none, the answer is
`NO_TRANSLATION` and nothing changes, nor where the allocation fails (log 7). -/
def Obligations.StackGrowth : Prop :=
  ∀ (s : State) (m : BitVec 64) (addr : BitVec 32) (kind : Access), s.Inv → (s.space m.toNat).isSome = true →
    s.pte m.toNat (addr.toNat / 4096) = none →
    ((∀ q, addr.toNat / 4096 < q → s.pte m.toNat q = none) →
      exec (.asmTranslate m addr kind) s = .next (s.fail .noTranslation)) ∧
    ∀ q above, addr.toNat / 4096 < q → s.pte m.toNat q = some above →
      (∀ j, addr.toNat / 4096 < j → j < q → s.pte m.toNat j = none) →
      (above.flags.getLsbD 3 = false → exec (.asmTranslate m addr kind) s = .next (s.fail .noTranslation)) ∧
      (above.flags.getLsbD 3 = true → s.drawOom.1 = true → ∃ t, exec (.asmTranslate m addr kind) s = .next t ∧
        t.resp = some (.fail .outOfMemory) ∧ sameButDraws s t) ∧
      (above.flags.getLsbD 3 = true → s.drawOom.1 = false →
        ∃ t b, exec (.asmTranslate m addr kind) s = .next t ∧
          t.resp = some (.ok (.pointer b (addr.toNat % 4096) 0x4B#7)) ∧ mapFind s.blobs b = none ∧
          (mapFind t.blobs b).map (fun x => (x.len, x.refcount)) = some (4096, 1) ∧
          t.pte m.toNat (addr.toNat / 4096) = some { blob := b, offset := 0, flags := 0x4B#7 } ∧
          (∀ o, o < 4096 → t.byteOf m.toNat (addr.toNat / 4096 * 4096 + o) = some 0#8) ∧
          s.entriesKept t (fun x p => x == m.toNat && p == addr.toNat / 4096) ∧
          s.bytesKept t (fun x p => x == m.toNat && p == addr.toNat / 4096) ∧
          s.spacesKept t (fun x => x == m.toNat) ∧ sameContexts s t)

/-- What the mapping commands refuse, and in which order (R320, R324–R329, R337, R339, R471): a bad range or handle, overlapping
ranges of one space; an invalid or short host region; an unmapped page; and last the allocation failure
(log 7). -/
def Obligations.MappingRefusals : Prop :=
  ∀ (s : State) (m m2 : BitVec 64) (page page2 : BitVec 20) (count : BitVec 32) (host : HostMem) (flags : BitVec 7)
    (force : Bool) (addr : BitVec 32) (kind : Access),
    let bad := rangeValid page.toNat count.toNat = false ∨ s.space m.toNat = none
    let oom := fun i : Instr => ∃ t, exec i s = .next t ∧ t.resp = some (.fail .outOfMemory) ∧ sameButDraws s t
    (bad → exec (.asmMap m page count host flags) s = .next (s.fail .illegalOperand) ∧
      exec (.asmMapAnon m page count flags) s = .next (s.fail .illegalOperand) ∧
      exec (.asmUnmap m page count force) s = .next (s.fail .illegalOperand) ∧
      exec (.asmSetProt m page count flags) s = .next (s.fail .illegalOperand) ∧
      exec (.asmCow m page count m2 page2) s = .next (s.fail .illegalOperand)) ∧
    (rangeValid page2.toNat count.toNat = false ∨ s.space m2.toNat = none ∨
      (m = m2 ∧ page.toNat < page2.toNat + count.toNat ∧ page2.toNat < page.toNat + count.toNat) →
      exec (.asmCow m page count m2 page2) s = .next (s.fail .illegalOperand)) ∧
    (s.space m.toNat = none → exec (.asmTranslate m addr kind) s = .next (s.fail .illegalOperand)) ∧
    (¬ bad →
      exec (.asmMap m page count .invalid flags) s = .next (s.fail .mapFailed) ∧
      (∀ bytes : List Byte, bytes.length < count.toNat * 4096 →
        exec (.asmMap m page count (.region bytes) flags) s = .next (s.fail .mapFailed)) ∧
      ((∃ k, k < count.toNat ∧ s.pte m.toNat (page.toNat + k) = none) →
        exec (.asmUnmap m page count false) s = .next (s.fail .notMapped) ∧
        exec (.asmSetProt m page count flags) s = .next (s.fail .notMapped)) ∧
      (s.drawOom.1 = true →
        oom (.asmMapAnon m page count flags) ∧
        (∀ bytes : List Byte, count.toNat * 4096 ≤ bytes.length → oom (.asmMap m page count (.region bytes) flags)) ∧
        (rangeValid page2.toNat count.toNat = true → (s.space m2.toNat).isSome = true →
          ¬ (m = m2 ∧ page.toNat < page2.toNat + count.toNat ∧ page2.toNat < page.toNat + count.toNat) →
          oom (.asmCow m page count m2 page2))))

/-! ### The translation cache -/

/-- A read returns the bytes at the emulated addresses (R362, R364–R366, R73): on a context whose cache agrees with the page
table, an access within the address space to mapped pages answers, in ascending order, the byte that the page table gives each
address; no memory changes, and the cache still agrees. Here nothing comes between the bytes (log 15): InterruptedAccess says
what happens where something does. -/
def Obligations.ReadReturnsMemory : Prop :=
  ∀ (s : State) (c addr n : BitVec 32) (m : Handle), s.Inv → s.coherent c m = true → (s.space m).isSome = true →
    addr.toNat + n.toNat ≤ 2 ^ 32 → s.covered m addr.toNat n.toNat → (s.slice n.toNat).1 = n.toNat →
    ∃ t data, exec (.tlbRead c addr n) s = .next t ∧ t.resp = some (.ok (.bytes data)) ∧ data.length = n.toNat ∧
      (∀ k, k < n.toNat → data[k]? = s.byteOf m (addr.toNat + k)) ∧ sameButTlb c (s.slice n.toNat).2 t ∧
      t.coherent c m = true

/-- A write stores its bytes where the page table places them (R363–R366): on an agreeing cache, an access to pages that are
mapped, WRITABLE and not COPY-ON-WRITE stores each byte at the blob byte of its address, the last one where two addresses name
one byte, and no other byte of any blob changes; page tables and counts stay. Nothing comes between the bytes (log 15;
InterruptedAccess). -/
def Obligations.WriteStoresBytes : Prop :=
  ∀ (s : State) (c addr : BitVec 32) (data : List Byte) (m : Handle), s.Inv → s.coherent c m = true →
    (s.space m).isSome = true → addr.toNat + data.length ≤ 2 ^ 32 →
    (∀ k, k < data.length → ∃ e, s.pte m (pageOf (addr.toNat + k)) = some e ∧ e.flags.getLsbD 1 = true ∧
      e.flags.getLsbD 4 = false) →
    (s.slice data.length).1 = data.length →
    ∃ t, exec (.tlbWrite c addr data) s = .next t ∧ t.resp = some (.ok .none) ∧
      (∀ k, k < data.length →
        (∀ j, k < j → j < data.length → s.location m (addr.toNat + j) ≠ s.location m (addr.toNat + k)) →
        t.byteOf m (addr.toNat + k) = data[k]?) ∧
      (∀ b o, (∀ k, k < data.length → s.location m (addr.toNat + k) ≠ some (b, o)) → t.byteAt b o = s.byteAt b o) ∧
      t.mems = s.mems ∧ t.graves = s.graves ∧ t.params = s.params ∧ t.draws = (s.slice data.length).2.draws ∧
      t.cpu c = s.cpu c ∧ t.fpu c = s.fpu c ∧ t.rm c = s.rm c ∧ t.transfer c = s.transfer c ∧
      (∀ d, d ≠ c → t.ctx d = s.ctx d) ∧ t.coherent c m = true

/-- The cache is invisible but for stale hits (R371): on a cache that agrees with the page table, `TLB.READ` and `TLB.WRITE`
give the same response and the same memory, and stand at the same byte where they are interrupted, as with an empty cache; and
with the default parameters (log 11) pages `0x10` and `0x411` share a slot. -/
def Obligations.CacheIsInvisible : Prop :=
  tlbIndex Params.default 0x10 = 0x10 ∧ tlbIndex Params.default 0x411 = 0x10 ∧
  ∀ (s t u : State) (c addr n : BitVec 32) (data : List Byte) (m : Handle) (i : Instr), s.Inv → s.coherent c m = true →
    (i = .tlbRead c addr n ∨ i = .tlbWrite c addr data) → exec i s = .next t →
    exec i (s.setTlb c { s.tlb c with slots := [] }) = .next u →
    t.resp = u.resp ∧ t.mems = u.mems ∧ t.blobs = u.blobs ∧ t.cpu c = u.cpu c ∧ t.transfer c = u.transfer c

/-- A miss goes to the address-space manager (R365, R367): with an empty cache, an access within one page ends as
`ASM.TRANSLATE` of its first address does: its pointer gives the bytes read or stored, with growth or duplication done, and its
failure becomes the page fault at that address, recorded in `FAULT_ADDR`. Nothing comes between the bytes (log 15;
InterruptedAccess). -/
def Obligations.MissTranslates : Prop :=
  ∀ (s u : State) (c addr n : BitVec 32) (data : List Byte) (m : BitVec 64), s.Inv → (s.tlb c).mem = some m.toNat →
    (s.space m.toNat).isSome = true → (s.tlb c).slots = [] →
    (0 < n.toNat → addr.toNat % 4096 + n.toNat ≤ 4096 → (s.slice n.toNat).1 = n.toNat →
      exec (.asmTranslate m addr .read) s = .next u →
      ∃ t, exec (.tlbRead c addr n) s = .next t ∧ t.mems = u.mems ∧ t.blobs = u.blobs ∧
        (∀ b o f, u.resp = some (.ok (.pointer b o f)) →
          ∃ x, mapFind u.blobs b = some x ∧ t.resp = some (.ok (.bytes (readBytes x.cells o n.toNat)))) ∧
        (∀ f, u.resp = some (.fail f) → t.resp = some (.fault .pageFault addr) ∧ (t.cpu c).faultAddr = addr)) ∧
    (data ≠ [] → addr.toNat % 4096 + data.length ≤ 4096 → (s.slice data.length).1 = data.length →
      exec (.asmTranslate m addr .write) s = .next u →
      ∃ t, exec (.tlbWrite c addr data) s = .next t ∧ t.mems = u.mems ∧
        (∀ b o f, u.resp = some (.ok (.pointer b o f)) →
          t.resp = some (.ok .none) ∧ (∀ k, k < data.length → t.byteAt b (o + k) = data[k]?) ∧
          ∀ x y, (∀ k, k < data.length → (x, y) ≠ (b, o + k)) → t.byteAt x y = u.byteAt x y) ∧
        (∀ f, u.resp = some (.fail f) → t.resp = some (.fault .pageFault addr) ∧ (t.cpu c).faultAddr = addr ∧
          t.blobs = u.blobs))

/-- A write that faults has done the pieces before the faulting one (R77, R366): the fault is at the access's first address or
at a page boundary inside it, and the memory is that of the same write cut short there, which completes. -/
def Obligations.FaultKeepsEarlierPieces : Prop :=
  ∀ (s t : State) (c addr : BitVec 32) (data : List Byte) (a : BitVec 32), exec (.tlbWrite c addr data) s = .next t →
    t.resp = some (.fault .pageFault a) →
    addr.toNat ≤ a.toNat ∧ a.toNat < addr.toNat + data.length ∧ (a = addr ∨ a.toNat % 4096 = 0) ∧
      (t.cpu c).faultAddr = a ∧
      ∃ u, exec (.tlbWrite c addr (data.take (a.toNat - addr.toNat))) s = .next u ∧ u.resp = some (.ok .none) ∧
        t.mems = u.mems ∧ t.blobs = u.blobs

/-- Stale hits (R93, R364). Without the generation test, a hit is served from the blob its slot names, whether or not the page
table still agrees: a read answers that blob's bytes and changes nothing; a write stores there and nowhere else; and on a blob
deleted since, a read answers its last contents and a write is lost (U6; log 13). With the generation test on every access
(R361), a cache whose generation has moved is emptied first, so that no such hit is served. Nothing comes between the bytes of
the hits (log 15; InterruptedAccess). -/
def Obligations.StaleHits : Prop :=
  ∀ (s : State) (c addr n cursor : BitVec 32) (data : List Byte) (m : Handle) (sp : Space), (s.tlb c).mem = some m →
    s.space m = some sp →
    (∀ (slot : Slot) (x : Blob), s.params.genCheck = false →
      mapFind (s.tlb c).slots (tlbIndex s.params (addr.toNat / 4096)) = some slot → s.hostBlob slot.blob = some x →
      0 ≤ slot.off + addr.toNat →
      let o := (slot.off + addr.toNat).toNat
      (slot.page.toNat = addr.toNat / 4096 → 0 < n.toNat → addr.toNat % 4096 + n.toNat ≤ 4096 → o + n.toNat ≤ x.len →
        (s.slice n.toNat).1 = n.toNat →
        exec (.tlbRead c addr n) s = .next ((s.slice n.toNat).2.ok (.bytes (readBytes x.cells o n.toNat)))) ∧
      (slot.pageW = some (BitVec.ofNat 20 (addr.toNat / 4096)) → data ≠ [] → addr.toNat % 4096 + data.length ≤ 4096 →
        o + data.length ≤ x.len → (s.slice data.length).1 = data.length →
        ∃ t, exec (.tlbWrite c addr data) s = .next t ∧ t.resp = some (.ok .none) ∧ t.mems = s.mems ∧
          t.graves = s.graves ∧ t.draws = (s.slice data.length).2.draws ∧ sameContexts s t ∧
          (mapFind s.blobs slot.blob = none → t.blobs = s.blobs) ∧
          ((mapFind s.blobs slot.blob).isSome = true → ∀ k, k < data.length → t.byteAt slot.blob (o + k) = data[k]?) ∧
          ∀ b a, b ≠ slot.blob ∨ a < o ∨ o + data.length ≤ a → t.byteAt b a = s.byteAt b a)) ∧
    (s.params.genCheck = true → sp.gen ≠ (s.tlb c).gen →
      (0 < n.toNat → addr.toNat + n.toNat ≤ 2 ^ 32 →
        exec (.tlbRead c addr n) s = exec (.tlbRead c addr n) (s.emptyTlb c sp.gen)) ∧
      (data ≠ [] → addr.toNat + data.length ≤ 2 ^ 32 →
        exec (.tlbWrite c addr data) s = exec (.tlbWrite c addr data) (s.emptyTlb c sp.gen)) ∧
      exec (.decModRm c cursor) s = exec (.decModRm c cursor) (s.emptyTlb c sp.gen))

/-- Accesses of several bytes are not indivisible (R75, R92, R94; log 15). The scheduler may stop a read or write of mapped pages
after any byte but the last: then no response is given, the bytes before are done, and the rest is under way. And an
access that was stopped and then goes on with nothing between ends exactly as one that was not stopped, whatever the access
meets; only the scheduler's choices taken differ. -/
def Obligations.InterruptedAccess : Prop :=
  (∀ (s : State) (c addr n : BitVec 32) (data : List Byte) (m : Handle) (k : Nat) (rest : List Nat), s.Inv →
    s.coherent c m = true → (s.space m).isSome = true → s.draws.sched = k :: rest →
    (addr.toNat + n.toNat ≤ 2 ^ 32 → s.covered m addr.toNat n.toNat → k + 1 < n.toNat →
      ∃ t host got, exec (.tlbRead c addr n) s = .next t ∧ t.resp = none ∧ got.length = k + 1 ∧
        t.transfer c = some { place := { addr := addr.toNat + (k + 1), host := host }, job := .read (n.toNat - (k + 1)) got } ∧
        (host = none ↔ (addr.toNat + (k + 1)) % 4096 = 0) ∧
        (∀ j, j < k + 1 → got[j]? = s.byteOf m (addr.toNat + j)) ∧ sameButAccess c s t ∧ t.mems = s.mems ∧
        t.blobs = s.blobs ∧ t.graves = s.graves ∧ t.draws = { s.draws with sched := rest } ∧ t.coherent c m = true) ∧
    (addr.toNat + data.length ≤ 2 ^ 32 → k + 1 < data.length →
      (∀ j, j < data.length → ∃ e, s.pte m (pageOf (addr.toNat + j)) = some e ∧ e.flags.getLsbD 1 = true ∧
        e.flags.getLsbD 4 = false) →
      ∃ t u host, exec (.tlbWrite c addr data) s = .next t ∧ t.resp = none ∧
        t.transfer c = some { place := { addr := addr.toNat + (k + 1), host := host }, job := .write (data.drop (k + 1)) } ∧
        (host = none ↔ (addr.toNat + (k + 1)) % 4096 = 0) ∧ sameButAccess c s t ∧
        t.draws = { s.draws with sched := rest } ∧ t.coherent c m = true ∧
        exec (.tlbWrite c addr (data.take (k + 1))) s.alone = .next u ∧ t.mems = u.mems ∧ t.blobs = u.blobs ∧
        t.graves = u.graves)) ∧
  ∀ (s t : State) (i : Instr), s.Inv → s.transfer (contextOf i) = none → exec i s = .next t → t.resp = none →
    ∃ v w, exec i s.alone = .next v ∧ t.alone.resume (contextOf i) = .next w ∧
      ({ v with draws := { v.draws with sched := w.draws.sched, turns := w.draws.turns } } : State) = w

/-- An access under way goes on (R75, R91–R94; log 15), in any state that others may have brought about meanwhile: it answers, or
raises the page fault of a piece, or is stopped again with fewer bytes left; it changes its own context's cache, `FAULT_ADDR`
and the stores at most. Within a piece it uses the host pointer the piece was given, and reads and writes the blob's bytes as
they are now; at the start of a piece it does what a `TLB.READ` or `TLB.WRITE` of the bytes left does. -/
def Obligations.AccessGoesOn : Prop :=
  ∀ (s : State) (c : BitVec 32) (x : Transfer), s.Inv → s.transfer c = some x →
    ∃ t, s.resume c = .next t ∧ sameButAccess c s t ∧
      ((∃ r, t.resp = some (.ok r) ∧ t.transfer c = none ∧ (t.cpu c).faultAddr = (s.cpu c).faultAddr) ∨
        (∃ a, t.resp = some (.fault .pageFault a) ∧ t.transfer c = none ∧ (t.cpu c).faultAddr = a) ∨
        (t.resp = none ∧ (t.cpu c).faultAddr = (s.cpu c).faultAddr ∧
          ∃ y, t.transfer c = some y ∧ 0 < y.left ∧ y.left < x.left)) ∧
      (∀ b o blob, x.place.host = some (b, o) → s.hostBlob b = some blob → x.place.addr % 4096 + x.left ≤ 4096 →
        (s.slice x.left).1 = x.left →
        (∀ left got, x.job = .read left got →
          t.resp = some (.ok (.bytes (got ++ readBytes blob.cells o.toNat left))) ∧ t.blobs = s.blobs) ∧
        (∀ rest, x.job = .write rest → t.resp = some (.ok .none) ∧
          ((mapFind s.blobs b).isSome = true → ∀ k, k < rest.length → t.byteAt b (o.toNat + k) = rest[k]?) ∧
          ∀ a p, a ≠ b ∨ p < o.toNat ∨ o.toNat + rest.length ≤ p → t.byteAt a p = s.byteAt a p) ∧
        (∀ base index shift reg left got, x.job = .disp base index shift reg left got →
          t.resp = some (.ok (.modRm
            (.mem base index shift (BitVec.ofNat 32 (leNat (got ++ readBytes blob.cells o.toNat left)))) reg
            (BitVec.ofNat 32 (x.place.addr + left)))))) ∧
      (x.place.host = none → (s.attached c).isSome = true →
        (∀ left got, x.job = .read left got →
          ∃ u, exec (.tlbRead c (BitVec.ofNat 32 x.place.addr) (BitVec.ofNat 32 left)) (s.setTransfer c none) = .next u ∧
            t.mems = u.mems ∧ t.blobs = u.blobs ∧
            (∀ data, u.resp = some (.ok (.bytes data)) → t.resp = some (.ok (.bytes (got ++ data)))) ∧
            ∀ a, u.resp = some (.fault .pageFault a) → t.resp = some (.fault .pageFault a)) ∧
        (∀ rest, x.job = .write rest →
          exec (.tlbWrite c (BitVec.ofNat 32 x.place.addr) rest) (s.setTransfer c none) = .next t))

/-- Cache maintenance (R360, R368–R370): a flush empties the cache and takes the current generation; a revalidation does so
exactly when the generation has moved, and says so; attaching binds an emptied cache and takes no reference; on a cache that is
not attached to a live space every TLB and DEC command but the attachment is refused (R503; for `DEC.EA` log 25). -/
def Obligations.CacheMaintenance : Prop :=
  ∀ (s : State) (c : BitVec 32) (m : BitVec 64),
    (∀ h sp, (s.tlb c).mem = some h → s.space h = some sp →
      (∃ t, exec (.tlbFlush c) s = .next t ∧ t.resp = some (.ok .none) ∧ sameButTlb c s t ∧
        t.tlb c = { mem := some h, gen := sp.gen, slots := [] }) ∧
      (sp.gen ≠ (s.tlb c).gen → ∃ t, exec (.tlbRevalidate c) s = .next t ∧ t.resp = some (.ok (.u1 true)) ∧
        sameButTlb c s t ∧ t.tlb c = { mem := some h, gen := sp.gen, slots := [] }) ∧
      (sp.gen = (s.tlb c).gen → exec (.tlbRevalidate c) s = .next (s.ok (.u1 false)))) ∧
    ((∀ h, (s.tlb c).mem = some h → s.space h = none) →
      exec (.tlbFlush c) s = .next (s.fail .illegalOperand) ∧ exec (.tlbRevalidate c) s = .next (s.fail .illegalOperand) ∧
      (∀ addr n, exec (.tlbRead c addr n) s = .next (s.fail .illegalOperand)) ∧
      (∀ addr data, exec (.tlbWrite c addr data) s = .next (s.fail .illegalOperand)) ∧
      (∀ cursor, exec (.decModRm c cursor) s = .next (s.fail .illegalOperand)) ∧
      ∀ desc, exec (.decEa c desc) s = .next (s.fail .illegalOperand)) ∧
    (s.space m.toNat = none → exec (.tlbAttach c m) s = .next (s.fail .illegalOperand)) ∧
    (∀ sp, s.space m.toNat = some sp → ∃ t, exec (.tlbAttach c m) s = .next t ∧ t.resp = some (.ok .none) ∧
      sameButTlb c s t ∧ t.tlb c = { mem := some m.toNat, gen := sp.gen, slots := [] })

/-! ### CPU registers and flags -/

/-- Register access (R391–R400, R408–R410, R23, R25): what each SET command writes and each GET command answers, for every
register number, with nothing else of the state changed. There are `NSEG` segment registers, whatever that parameter is (R8; log 11,
log 12). A register that no command has written reads as its reset value (log 6). -/
def Obligations.RegisterAccess : Prop :=
  ∀ (s : State) (c : BitVec 32) (i : BitVec 3) (v : BitVec 32) (h : BitVec 16) (b : BitVec 8) (x : BitVec 128),
    let u := s.cpu c
    (exec (.cpuGetReg32 c i) s = .next (s.ok (.u32 (u.reg32 i))) ∧
      exec (.cpuGetReg16 c i) s = .next (s.ok (.u16 ((u.reg32 i).extractLsb' 0 16))) ∧
      exec (.cpuGetReg8 c i) s = .next (s.ok (.u8 (if i.toNat < 4 then (u.reg32 i).extractLsb' 0 8
        else (u.reg32 (i - 4#3)).extractLsb' 8 8))) ∧
      exec (.cpuGetEip c) s = .next (s.ok (.u32 u.eip)) ∧
      exec (.cpuGetXmm c i) s = .next (s.ok (.wide (u.getXmm i))) ∧
      exec (.cpuGetFaultAddr c) s = .next (s.ok (.u32 u.faultAddr)) ∧
      (i.toNat < s.params.nseg → ∃ w, u.getSeg s.params.nseg i = some w ∧ exec (.cpuGetSeg c i) s = .next (s.ok (.u16 w)))) ∧
    (∃ t, exec (.cpuSetReg32 c i v) s = .next t ∧ t.resp = some (.ok .none) ∧ sameButCpu c s t ∧
      ({ t.cpu c with r32 := u.r32 } : Cpu) = u ∧ (t.cpu c).reg32 i = v ∧ ∀ j, j ≠ i → (t.cpu c).reg32 j = u.reg32 j) ∧
    (∃ t, exec (.cpuSetReg16 c i h) s = .next t ∧ t.resp = some (.ok .none) ∧ sameButCpu c s t ∧
      ({ t.cpu c with r32 := u.r32 } : Cpu) = u ∧
      (∀ k, k < 32 → ((t.cpu c).reg32 i).getLsbD k = if k < 16 then h.getLsbD k else (u.reg32 i).getLsbD k) ∧
      ∀ j, j ≠ i → (t.cpu c).reg32 j = u.reg32 j) ∧
    (∃ t, exec (.cpuSetReg8 c i b) s = .next t ∧ t.resp = some (.ok .none) ∧ sameButCpu c s t ∧
      ({ t.cpu c with r32 := u.r32 } : Cpu) = u ∧
      let r := if i.toNat < 4 then i else i - 4#3
      let low := if i.toNat < 4 then 0 else 8
      (∀ k, k < 32 → ((t.cpu c).reg32 r).getLsbD k =
        if low ≤ k ∧ k < low + 8 then b.getLsbD (k - low) else (u.reg32 r).getLsbD k) ∧
      ∀ j, j ≠ r → (t.cpu c).reg32 j = u.reg32 j) ∧
    (∃ t, exec (.cpuSetEip c v) s = .next t ∧ t.resp = some (.ok .none) ∧ sameButCpu c s t ∧
      t.cpu c = { u with eip := v }) ∧
    (∃ t, exec (.cpuSetXmm c i x) s = .next t ∧ t.resp = some (.ok .none) ∧ sameButCpu c s t ∧
      ({ t.cpu c with xmm := u.xmm } : Cpu) = u ∧ (t.cpu c).getXmm i = x ∧ ∀ j, j ≠ i → (t.cpu c).getXmm j = u.getXmm j) ∧
    (i.toNat < s.params.nseg → ∃ t, exec (.cpuSetSeg c i h) s = .next t ∧ t.resp = some (.ok .none) ∧ sameButCpu c s t ∧
      ({ t.cpu c with seg := u.seg } : Cpu) = u ∧ (t.cpu c).getSeg s.params.nseg i = some h ∧
      ∀ j, j ≠ i → (t.cpu c).getSeg s.params.nseg j = u.getSeg s.params.nseg j) ∧
    (s.params.nseg ≤ i.toNat → exec (.cpuSetSeg c i h) s = .next (s.fail .illegalOperand) ∧
      exec (.cpuGetSeg c i) s = .next (s.fail .illegalOperand))

/-- The lazy flags (R30, R401–R403): recording defers the four flags and leaves the word, carry and overflow; the accessor
computes a deferred flag from the recorded values and reads an explicit one from the word; setting makes one flag explicit. -/
def Obligations.LazyFlags : Prop :=
  ∀ (s : State) (c res op1 op2 : BitVec 32) (sel : BitVec 3) (v : Bool),
    let u := s.cpu c
    (∃ t, exec (.cpuRecord c res op1 op2) s = .next t ∧ t.resp = some (.ok .none) ∧ sameButCpu c s t ∧
      t.cpu c = { u with res := res, op1 := op1, op2 := op2, defZ := true, defS := true, defP := true, defA := true }) ∧
    (∀ w, exec (.cpuGetFlag c 0) s = .next (s.ok (.u1 w)) ↔ w = u.cf) ∧
    (∀ w, exec (.cpuGetFlag c 1) s = .next (s.ok (.u1 w)) ↔
      w = if u.defP then decide ((List.range 8).countP (fun k => u.res.getLsbD k) % 2 = 0) else u.flags.getLsbD 2) ∧
    (∀ w, exec (.cpuGetFlag c 2) s = .next (s.ok (.u1 w)) ↔
      w = if u.defA then (u.op1.getLsbD 4 ^^ u.op2.getLsbD 4 ^^ u.res.getLsbD 4) else u.flags.getLsbD 4) ∧
    (∀ w, exec (.cpuGetFlag c 3) s = .next (s.ok (.u1 w)) ↔
      w = if u.defZ then decide (u.res.toNat = 0) else u.flags.getLsbD 6) ∧
    (∀ w, exec (.cpuGetFlag c 4) s = .next (s.ok (.u1 w)) ↔
      w = if u.defS then decide (u.res.toInt < 0) else u.flags.getLsbD 7) ∧
    (∀ w, exec (.cpuGetFlag c 5) s = .next (s.ok (.u1 w)) ↔ w = u.ovf) ∧
    (5 < sel.toNat → exec (.cpuGetFlag c sel) s = .next (s.fail .illegalOperand) ∧
      exec (.cpuSetFlag c sel v) s = .next (s.fail .illegalOperand)) ∧
    (sel.toNat ≤ 5 → ∃ t, exec (.cpuSetFlag c sel v) s = .next t ∧ t.resp = some (.ok .none) ∧ sameButCpu c s t ∧
      exec (.cpuGetFlag c sel) t = .next (t.ok (.u1 v)) ∧
      (∀ other w, other ≠ sel → exec (.cpuGetFlag c other) s = .next (s.ok (.u1 w)) →
        exec (.cpuGetFlag c other) t = .next (t.ok (.u1 w))) ∧
      ({ t.cpu c with
          cf := u.cf, ovf := u.ovf, flags := u.flags, defZ := u.defZ, defS := u.defS, defP := u.defP,
          defA := u.defA } : Cpu) = u ∧
      ((sel = 0 ∨ sel = 5) → (t.cpu c).flags = u.flags) ∧
      (sel ≠ 0 → (t.cpu c).cf = u.cf) ∧ (sel ≠ 5 → (t.cpu c).ovf = u.ovf) ∧
      (t.cpu c).defP = (u.defP && sel != 1) ∧ (t.cpu c).defA = (u.defA && sel != 2) ∧
      (t.cpu c).defZ = (u.defZ && sel != 3) ∧ (t.cpu c).defS = (u.defS && sel != 4) ∧
      ∀ k, k < 32 → k ≠ flagBit sel → (t.cpu c).flags.getLsbD k = u.flags.getLsbD k)

/-- Materialising, expanding and the raw flags word (R404–R407), and the laws of R411: materialising changes no flag's value
and puts each in its bit; loading a word, expanding and materialising gives the word back. -/
def Obligations.MaterializeAndExpand : Prop :=
  ∀ (s : State) (c w : BitVec 32),
    let u := s.cpu c
    (∃ t, exec (.cpuMaterialize c) s = .next t ∧ t.resp = some (.ok .none) ∧ sameButCpu c s t ∧
      ({ t.cpu c with flags := u.flags, defZ := u.defZ, defS := u.defS, defP := u.defP, defA := u.defA } : Cpu) = u ∧
      (t.cpu c).defZ = false ∧ (t.cpu c).defS = false ∧ (t.cpu c).defP = false ∧ (t.cpu c).defA = false ∧
      (∀ (sel : BitVec 3) (v : Bool), exec (.cpuGetFlag c sel) s = .next (s.ok (.u1 v)) →
        exec (.cpuGetFlag c sel) t = .next (t.ok (.u1 v)) ∧ (t.cpu c).flags.getLsbD (flagBit sel) = v) ∧
      (∀ k, k < 32 → k ∉ [0, 2, 4, 6, 7, 11] → (t.cpu c).flags.getLsbD k = u.flags.getLsbD k) ∧
      exec (.cpuMaterialize c) t = .next t) ∧
    (∃ t, exec (.cpuExpand c) s = .next t ∧ t.resp = some (.ok .none) ∧ sameButCpu c s t ∧
      t.cpu c = { u with
        cf := u.flags.getLsbD 0, ovf := u.flags.getLsbD 11, defZ := false, defS := false, defP := false,
        defA := false } ∧
      exec (.cpuMaterialize c) t = .next t) ∧
    exec (.cpuGetEflags c) s = .next (s.ok (.u32 u.flags)) ∧
    (∃ t, exec (.cpuSetEflags c w) s = .next t ∧ t.resp = some (.ok .none) ∧ sameButCpu c s t ∧
      t.cpu c = { u with flags := w } ∧
      ∃ t2 t3, exec (.cpuExpand c) t = .next t2 ∧ exec (.cpuMaterialize c) t2 = .next t3 ∧
        exec (.cpuGetEflags c) t3 = .next (t3.ok (.u32 w)))

/-! ### The addressing decoder -/

/-- The decoder (R431–R439, R442): on an agreeing cache, where the bytes that the form takes are mapped (modulo 2^32 from the
cursor on), the answer is the descriptor, the `reg` field and the address after those bytes that the complete decode table
gives, and no register, flag or memory changes. Nothing comes between the four bytes of a 32-bit displacement (log 15;
InterruptedAccess). -/
def Obligations.DecoderFollowsTable : Prop :=
  ∀ (s : State) (c cursor : BitVec 32) (m : Handle) (b : Nat → Byte), s.Inv → s.coherent c m = true →
    (s.space m).isSome = true →
    (∀ k, k < (addressingForm b).2.2 → s.byteOf m (cursor + BitVec.ofNat 32 k).toNat = some (b k)) →
    let u := if 5 ≤ (addressingForm b).2.2 then s.slice 4 else (4, s)
    u.1 = 4 →
    ∃ t, exec (.decModRm c cursor) s = .next t ∧
      t.resp = some (.ok (.modRm (addressingForm b).1 (addressingForm b).2.1
        (cursor + BitVec.ofNat 32 (addressingForm b).2.2))) ∧
      sameButTlb c u.2 t ∧ t.coherent c m = true

/-- The effective address (R440): base plus shifted index plus displacement modulo 2^32, with code 8 for none; a register
operand and a code above 8 are refused, and every descriptor before the context is attached (R503; log 25). -/
def Obligations.EffectiveAddress : Prop :=
  ∀ (s : State) (c : BitVec 32) (base index : BitVec 4) (shift : BitVec 2) (disp : BitVec 32) (r : BitVec 3),
    opcode (.decEa c (.reg r)) = 0x0701 ∧
    exec (.decEa c (.reg r)) s = .next (s.fail .illegalOperand) ∧
    (s.attached c = none → exec (.decEa c (.mem base index shift disp)) s = .next (s.fail .illegalOperand)) ∧
    (8 < base.toNat ∨ 8 < index.toNat → exec (.decEa c (.mem base index shift disp)) s = .next (s.fail .illegalOperand)) ∧
    ((s.attached c).isSome = true → base.toNat ≤ 8 → index.toNat ≤ 8 →
      ∃ ea : BitVec 32, exec (.decEa c (.mem base index shift disp)) s = .next (s.ok (.u32 ea)) ∧
        ea.toNat = ((if base.toNat = 8 then 0 else ((s.cpu c).reg32 (base.setWidth 3)).toNat)
          + (if index.toNat = 8 then 0 else ((s.cpu c).reg32 (index.setWidth 3)).toNat * 2 ^ shift.toNat)
          + disp.toNat) % 2 ^ 32)
end

