-- ==== Sys2Proof/Laws/Maps.lean ====
section
/-! SUPPORT. Sorted maps: what a lookup, a put and a delete do, the canonical form, membership and sums. -/

namespace Sys2Proof.Machine

variable {α : Type}

/-! ### Lookup -/

@[simp] theorem mapFind_nil (k : Nat) : mapFind ([] : List (Nat × α)) k = none := rfl

theorem mapFind_put (m : List (Nat × α)) (k : Nat) (v : α) (x : Nat) :
    mapFind (mapPut m k v) x = if x = k then some v else mapFind m x := by
  induction m with
  | nil => simp [mapPut, mapFind]
  | cons e rest ih =>
    obtain ⟨j, w⟩ := e
    simp only [mapPut]
    split
    · simp only [mapFind]
    · split
      · rename_i h; subst h; simp only [mapFind]; split <;> rfl
      · simp only [mapFind, ih]
        split
        · rename_i h1 h2; subst h2; rw [if_neg]; intro h; exact h1 h.symm
        · rfl

@[simp] theorem mapFind_put_same (m : List (Nat × α)) (k : Nat) (v : α) : mapFind (mapPut m k v) k = some v := by
  simp [mapFind_put]

theorem mapFind_put_other (m : List (Nat × α)) {k x : Nat} (v : α) (h : x ≠ k) :
    mapFind (mapPut m k v) x = mapFind m x := by
  simp [mapFind_put, h]

theorem mapFind_del (m : List (Nat × α)) (k x : Nat) :
    mapFind (mapDel m k) x = if x = k then none else mapFind m x := by
  induction m with
  | nil => simp [mapDel]
  | cons e rest ih =>
    obtain ⟨j, w⟩ := e
    simp only [mapDel]
    split
    · rename_i h; subst h; simp only [ih, mapFind]; split <;> rfl
    · rename_i h
      simp only [mapFind, ih]
      split
      · rename_i h2; subst h2; rw [if_neg]; exact fun hh => h hh.symm
      · rfl

@[simp] theorem mapFind_del_same (m : List (Nat × α)) (k : Nat) : mapFind (mapDel m k) k = none := by
  simp [mapFind_del]

theorem mapFind_del_other (m : List (Nat × α)) {k x : Nat} (h : x ≠ k) : mapFind (mapDel m k) x = mapFind m x := by
  simp [mapFind_del, h]

theorem mapFind_mem {m : List (Nat × α)} {k : Nat} {v : α} (h : mapFind m k = some v) : (k, v) ∈ m := by
  induction m with
  | nil => simp at h
  | cons e rest ih =>
    obtain ⟨j, w⟩ := e
    simp only [mapFind] at h
    split at h
    · rename_i hk; subst hk; cases h; exact List.mem_cons_self
    · exact List.mem_cons_of_mem _ (ih h)

theorem mapFind_isSome_iff (m : List (Nat × α)) (k : Nat) : (mapFind m k).isSome = true ↔ k ∈ mapKeys m := by
  induction m with
  | nil => simp [mapKeys]
  | cons e rest ih =>
    obtain ⟨j, w⟩ := e
    simp only [mapFind, mapKeys, List.map_cons, List.mem_cons] at *
    split
    · rename_i h; simp [h]
    · rename_i h; rw [ih]; simp [h]

theorem mapFind_eq_none_iff (m : List (Nat × α)) (k : Nat) : mapFind m k = none ↔ k ∉ mapKeys m := by
  rw [← mapFind_isSome_iff]; cases mapFind m k <;> simp

/-! ### The canonical form -/

@[simp] theorem keysRising_nil : keysRising ([] : List (Nat × α)) = true := rfl

theorem keysRising_cons (j : Nat) (w : α) (rest : List (Nat × α)) :
    keysRising ((j, w) :: rest) = true ↔ (∀ e ∈ rest, j < e.1) ∧ keysRising rest = true := by
  simp [keysRising]

theorem mem_mapPut {m : List (Nat × α)} {k : Nat} {v : α} {e : Nat × α} (h : e ∈ mapPut m k v) :
    e = (k, v) ∨ e ∈ m := by
  induction m with
  | nil => simpa [mapPut] using h
  | cons x rest ih =>
    obtain ⟨j, w⟩ := x
    simp only [mapPut] at h
    split at h
    · rcases List.mem_cons.1 h with h | h
      · exact .inl h
      · exact .inr h
    · split at h
      · rcases List.mem_cons.1 h with h | h
        · exact .inl h
        · exact .inr (List.mem_cons_of_mem _ h)
      · rcases List.mem_cons.1 h with h | h
        · exact .inr (h ▸ List.mem_cons_self)
        · rcases ih h with h | h
          · exact .inl h
          · exact .inr (List.mem_cons_of_mem _ h)

theorem mem_mapDel {m : List (Nat × α)} {k : Nat} {e : Nat × α} (h : e ∈ mapDel m k) : e ∈ m ∧ e.1 ≠ k := by
  induction m with
  | nil => simp [mapDel] at h
  | cons x rest ih =>
    obtain ⟨j, w⟩ := x
    simp only [mapDel] at h
    split at h
    · exact ⟨List.mem_cons_of_mem _ (ih h).1, (ih h).2⟩
    · rename_i hne
      rcases List.mem_cons.1 h with h | h
      · subst h; exact ⟨List.mem_cons_self, fun hh => hne hh.symm⟩
      · exact ⟨List.mem_cons_of_mem _ (ih h).1, (ih h).2⟩

theorem keysRising_put {m : List (Nat × α)} (h : keysRising m = true) (k : Nat) (v : α) :
    keysRising (mapPut m k v) = true := by
  induction m with
  | nil => simp [mapPut, keysRising]
  | cons x rest ih =>
    obtain ⟨j, w⟩ := x
    obtain ⟨h1, h2⟩ := (keysRising_cons j w rest).1 h
    simp only [mapPut]
    split
    · rename_i hk
      refine (keysRising_cons _ _ _).2 ⟨?_, h⟩
      intro e he
      rcases List.mem_cons.1 he with he | he
      · subst he; exact hk
      · exact Nat.lt_trans hk (h1 e he)
    · split
      · rename_i hk; subst hk; exact (keysRising_cons _ _ _).2 ⟨h1, h2⟩
      · rename_i hk1 hk2
        refine (keysRising_cons _ _ _).2 ⟨?_, ih h2⟩
        intro e he
        rcases mem_mapPut he with he | he
        · subst he; show j < k; omega
        · exact h1 e he

theorem keysRising_del {m : List (Nat × α)} (h : keysRising m = true) (k : Nat) : keysRising (mapDel m k) = true := by
  induction m with
  | nil => rfl
  | cons x rest ih =>
    obtain ⟨j, w⟩ := x
    obtain ⟨h1, h2⟩ := (keysRising_cons j w rest).1 h
    simp only [mapDel]
    split
    · exact ih h2
    · exact (keysRising_cons _ _ _).2 ⟨fun e he => h1 e (mem_mapDel he).1, ih h2⟩

theorem mapFind_of_mem {m : List (Nat × α)} (hm : keysRising m = true) {k : Nat} {v : α} (h : (k, v) ∈ m) :
    mapFind m k = some v := by
  induction m with
  | nil => simp at h
  | cons x rest ih =>
    obtain ⟨j, w⟩ := x
    obtain ⟨h1, h2⟩ := (keysRising_cons j w rest).1 hm
    simp only [mapFind]
    rcases List.mem_cons.1 h with h | h
    · cases h; simp
    · have := h1 _ h
      rw [if_neg (by simp only at this; omega)]
      exact ih h2 h

/-- Two canonical maps with the same lookups are the same data. -/
theorem map_ext {m n : List (Nat × α)} (hm : keysRising m = true) (hn : keysRising n = true)
    (h : ∀ k, mapFind m k = mapFind n k) : m = n := by
  induction m generalizing n with
  | nil =>
    cases n with
    | nil => rfl
    | cons e rest => obtain ⟨j, w⟩ := e; have := h j; simp [mapFind] at this
  | cons e rest ih =>
    obtain ⟨j, w⟩ := e
    cases n with
    | nil => have := h j; simp [mapFind] at this
    | cons e' rest' =>
      obtain ⟨j', w'⟩ := e'
      obtain ⟨a1, a2⟩ := (keysRising_cons _ _ _).1 hm
      obtain ⟨b1, b2⟩ := (keysRising_cons _ _ _).1 hn
      have hj : j = j' := by
        have h1 := h j
        have h2 := h j'
        simp only [mapFind, ↓reduceIte] at h1 h2
        by_contra hne
        rw [if_neg hne] at h1
        rw [if_neg (Ne.symm hne)] at h2
        have l1 := b1 _ (mapFind_mem h1.symm)
        have l2 := a1 _ (mapFind_mem h2)
        simp only at l1 l2; omega
      subst hj
      have hw : w = w' := by simpa [mapFind] using h j
      subst hw
      congr 1
      refine ih a2 b2 fun k => ?_
      by_cases hk : k = j
      · subst hk
        have e1 : mapFind rest k = none := by
          rcases hx : mapFind rest k with _ | v
          · rfl
          · have := a1 _ (mapFind_mem hx); simp only at this; omega
        have e2 : mapFind rest' k = none := by
          rcases hx : mapFind rest' k with _ | v
          · rfl
          · have := b1 _ (mapFind_mem hx); simp only at this; omega
        rw [e1, e2]
      · simpa [mapFind, hk] using h k

/-! ### Checks over a map -/

@[simp] theorem mapAll_nil (p : Nat → α → Bool) : mapAll ([] : List (Nat × α)) p = true := rfl

/-- A check over a map in canonical form is a check over its lookups. -/
theorem mapAll_iff {m : List (Nat × α)} (hm : keysRising m = true) (p : Nat → α → Bool) :
    mapAll m p = true ↔ ∀ k v, mapFind m k = some v → p k v = true := by
  rw [mapAll, List.all_eq_true]
  constructor
  · exact fun h k v hf => h (k, v) (mapFind_mem hf)
  · exact fun h e he => h e.1 e.2 (mapFind_of_mem hm he)

theorem mapAll_find {m : List (Nat × α)} {p : Nat → α → Bool} (h : mapAll m p = true) {k : Nat} {v : α}
    (hf : mapFind m k = some v) : p k v = true := by
  rw [mapAll, List.all_eq_true] at h; exact h (k, v) (mapFind_mem hf)

theorem mapAll_put {m : List (Nat × α)} {p : Nat → α → Bool} (h : mapAll m p = true) {k : Nat} {v : α}
    (hv : p k v = true) : mapAll (mapPut m k v) p = true := by
  rw [mapAll, List.all_eq_true] at *
  intro e he
  rcases mem_mapPut he with he | he
  · subst he; exact hv
  · exact h e he

theorem mapAll_del {m : List (Nat × α)} {p : Nat → α → Bool} (h : mapAll m p = true) (k : Nat) :
    mapAll (mapDel m k) p = true := by
  rw [mapAll, List.all_eq_true] at *
  exact fun e he => h e (mem_mapDel he).1

theorem mapAll_mono {m : List (Nat × α)} {p q : Nat → α → Bool} (h : mapAll m p = true)
    (hpq : ∀ k v, p k v = true → q k v = true) : mapAll m q = true := by
  rw [mapAll, List.all_eq_true] at *
  exact fun e he => hpq _ _ (h e he)

/-! ### Sums over a map -/

@[simp] theorem mapSum_nil (g : α → Nat) : mapSum g [] = 0 := rfl

theorem mapFind_none_of_lt {m : List (Nat × α)} {k : Nat} (h : ∀ e ∈ m, k < e.1) : mapFind m k = none := by
  rcases hx : mapFind m k with _ | v
  · rfl
  · have := h _ (mapFind_mem hx); simp only at this; omega

/-- What a key counts for in a sum. -/
def weight (g : α → Nat) (v : Option α) : Nat := (v.map g).getD 0

@[simp] theorem weight_none (g : α → Nat) : weight g none = 0 := rfl
@[simp] theorem weight_some (g : α → Nat) (v : α) : weight g (some v) = g v := rfl

theorem mapSum_put {m : List (Nat × α)} (hm : keysRising m = true) (g : α → Nat) (k : Nat) (v : α) :
    mapSum g (mapPut m k v) + weight g (mapFind m k) = mapSum g m + g v := by
  induction m with
  | nil => simp [mapPut, mapSum]
  | cons x rest ih =>
    obtain ⟨j, w⟩ := x
    obtain ⟨h1, h2⟩ := (keysRising_cons j w rest).1 hm
    simp only [mapPut]
    split
    · rename_i hk
      have : mapFind rest k = none := mapFind_none_of_lt fun e he => Nat.lt_trans hk (h1 e he)
      rw [mapFind, if_neg (by omega), this]
      simp [mapSum]; omega
    · split
      · rename_i hk; subst hk; simp [mapSum, mapFind]; omega
      · rename_i hk
        have := ih h2
        rw [mapFind, if_neg hk]
        simp only [mapSum]; omega

theorem mapSum_del {m : List (Nat × α)} (hm : keysRising m = true) (g : α → Nat) (k : Nat) :
    mapSum g (mapDel m k) + weight g (mapFind m k) = mapSum g m := by
  induction m with
  | nil => simp [mapDel, mapSum]
  | cons x rest ih =>
    obtain ⟨j, w⟩ := x
    obtain ⟨h1, h2⟩ := (keysRising_cons j w rest).1 hm
    simp only [mapDel]
    have := ih h2
    split
    · rename_i hk; subst hk
      have h0 : mapFind rest k = none := mapFind_none_of_lt h1
      rw [h0] at this
      simp only [mapFind, ↓reduceIte, weight_some, mapSum, weight_none] at *; omega
    · rename_i hk
      rw [mapFind, if_neg hk]
      simp only [mapSum]; omega

theorem weight_le_mapSum {m : List (Nat × α)} (g : α → Nat) (k : Nat) : weight g (mapFind m k) ≤ mapSum g m := by
  induction m with
  | nil => simp
  | cons x rest ih =>
    obtain ⟨j, w⟩ := x
    simp only [mapFind, mapSum]
    split
    · simp
    · omega

end Sys2Proof.Machine
end

