-- ==== Sys2Proof/Laws/State.lean ====
section
/-! SUPPORT. What each update of the state does to each of its fields: one lemma per field per update. -/

namespace Sys2Proof.Machine

/-! ### `respond` -/

@[simp] theorem State.respond_params (s : State) (r : Response) : (s.respond r).params = s.params := rfl
@[simp] theorem State.respond_mems (s : State) (r : Response) : (s.respond r).mems = s.mems := rfl
@[simp] theorem State.respond_blobs (s : State) (r : Response) : (s.respond r).blobs = s.blobs := rfl
@[simp] theorem State.respond_graves (s : State) (r : Response) : (s.respond r).graves = s.graves := rfl
@[simp] theorem State.respond_ctxs (s : State) (r : Response) : (s.respond r).ctxs = s.ctxs := rfl
@[simp] theorem State.respond_draws (s : State) (r : Response) : (s.respond r).draws = s.draws := rfl
@[simp] theorem State.respond_port (s : State) (r : Response) : (s.respond r).port = s.port := rfl
@[simp] theorem State.respond_resp (s : State) (r : Response) : (s.respond r).resp = some r := rfl

/-! ### `ok` -/

@[simp] theorem State.ok_params (s : State) (r : Results) : (s.ok r).params = s.params := rfl
@[simp] theorem State.ok_mems (s : State) (r : Results) : (s.ok r).mems = s.mems := rfl
@[simp] theorem State.ok_blobs (s : State) (r : Results) : (s.ok r).blobs = s.blobs := rfl
@[simp] theorem State.ok_graves (s : State) (r : Results) : (s.ok r).graves = s.graves := rfl
@[simp] theorem State.ok_ctxs (s : State) (r : Results) : (s.ok r).ctxs = s.ctxs := rfl
@[simp] theorem State.ok_draws (s : State) (r : Results) : (s.ok r).draws = s.draws := rfl
@[simp] theorem State.ok_port (s : State) (r : Results) : (s.ok r).port = s.port := rfl
@[simp] theorem State.ok_resp (s : State) (r : Results) : (s.ok r).resp = some (.ok r) := rfl

/-! ### `fail` -/

@[simp] theorem State.fail_params (s : State) (f : Failure) : (s.fail f).params = s.params := rfl
@[simp] theorem State.fail_mems (s : State) (f : Failure) : (s.fail f).mems = s.mems := rfl
@[simp] theorem State.fail_blobs (s : State) (f : Failure) : (s.fail f).blobs = s.blobs := rfl
@[simp] theorem State.fail_graves (s : State) (f : Failure) : (s.fail f).graves = s.graves := rfl
@[simp] theorem State.fail_ctxs (s : State) (f : Failure) : (s.fail f).ctxs = s.ctxs := rfl
@[simp] theorem State.fail_draws (s : State) (f : Failure) : (s.fail f).draws = s.draws := rfl
@[simp] theorem State.fail_port (s : State) (f : Failure) : (s.fail f).port = s.port := rfl
@[simp] theorem State.fail_resp (s : State) (f : Failure) : (s.fail f).resp = some (.fail f) := rfl

/-! ### `raise` -/

@[simp] theorem State.raise_params (s : State) (cond : Cond) (info : BitVec 32) : (s.raise cond info).params = s.params := rfl
@[simp] theorem State.raise_mems (s : State) (cond : Cond) (info : BitVec 32) : (s.raise cond info).mems = s.mems := rfl
@[simp] theorem State.raise_blobs (s : State) (cond : Cond) (info : BitVec 32) : (s.raise cond info).blobs = s.blobs := rfl
@[simp] theorem State.raise_graves (s : State) (cond : Cond) (info : BitVec 32) : (s.raise cond info).graves = s.graves := rfl
@[simp] theorem State.raise_ctxs (s : State) (cond : Cond) (info : BitVec 32) : (s.raise cond info).ctxs = s.ctxs := rfl
@[simp] theorem State.raise_draws (s : State) (cond : Cond) (info : BitVec 32) : (s.raise cond info).draws = s.draws := rfl
@[simp] theorem State.raise_port (s : State) (cond : Cond) (info : BitVec 32) : (s.raise cond info).port = s.port := rfl
@[simp] theorem State.raise_resp (s : State) (cond : Cond) (info : BitVec 32) : (s.raise cond info).resp = some (.fault cond info) := rfl

/-! ### `setCtx` -/

@[simp] theorem State.setCtx_params (s : State) (c : BitVec 32) (k : Context) : (s.setCtx c k).params = s.params := rfl
@[simp] theorem State.setCtx_mems (s : State) (c : BitVec 32) (k : Context) : (s.setCtx c k).mems = s.mems := rfl
@[simp] theorem State.setCtx_blobs (s : State) (c : BitVec 32) (k : Context) : (s.setCtx c k).blobs = s.blobs := rfl
@[simp] theorem State.setCtx_graves (s : State) (c : BitVec 32) (k : Context) : (s.setCtx c k).graves = s.graves := rfl
@[simp] theorem State.setCtx_ctxs (s : State) (c : BitVec 32) (k : Context) : (s.setCtx c k).ctxs = mapPut s.ctxs c.toNat k := rfl
@[simp] theorem State.setCtx_draws (s : State) (c : BitVec 32) (k : Context) : (s.setCtx c k).draws = s.draws := rfl
@[simp] theorem State.setCtx_port (s : State) (c : BitVec 32) (k : Context) : (s.setCtx c k).port = s.port := rfl
@[simp] theorem State.setCtx_resp (s : State) (c : BitVec 32) (k : Context) : (s.setCtx c k).resp = s.resp := rfl

/-! ### `setCpu` -/

@[simp] theorem State.setCpu_params (s : State) (c : BitVec 32) (u : Cpu) : (s.setCpu c u).params = s.params := rfl
@[simp] theorem State.setCpu_mems (s : State) (c : BitVec 32) (u : Cpu) : (s.setCpu c u).mems = s.mems := rfl
@[simp] theorem State.setCpu_blobs (s : State) (c : BitVec 32) (u : Cpu) : (s.setCpu c u).blobs = s.blobs := rfl
@[simp] theorem State.setCpu_graves (s : State) (c : BitVec 32) (u : Cpu) : (s.setCpu c u).graves = s.graves := rfl
@[simp] theorem State.setCpu_ctxs (s : State) (c : BitVec 32) (u : Cpu) : (s.setCpu c u).ctxs = mapPut s.ctxs c.toNat { s.ctx c with cpu := u } := rfl
@[simp] theorem State.setCpu_draws (s : State) (c : BitVec 32) (u : Cpu) : (s.setCpu c u).draws = s.draws := rfl
@[simp] theorem State.setCpu_port (s : State) (c : BitVec 32) (u : Cpu) : (s.setCpu c u).port = s.port := rfl
@[simp] theorem State.setCpu_resp (s : State) (c : BitVec 32) (u : Cpu) : (s.setCpu c u).resp = s.resp := rfl

/-! ### `setFpu` -/

@[simp] theorem State.setFpu_params (s : State) (c : BitVec 32) (f : Fpu) : (s.setFpu c f).params = s.params := rfl
@[simp] theorem State.setFpu_mems (s : State) (c : BitVec 32) (f : Fpu) : (s.setFpu c f).mems = s.mems := rfl
@[simp] theorem State.setFpu_blobs (s : State) (c : BitVec 32) (f : Fpu) : (s.setFpu c f).blobs = s.blobs := rfl
@[simp] theorem State.setFpu_graves (s : State) (c : BitVec 32) (f : Fpu) : (s.setFpu c f).graves = s.graves := rfl
@[simp] theorem State.setFpu_ctxs (s : State) (c : BitVec 32) (f : Fpu) : (s.setFpu c f).ctxs = mapPut s.ctxs c.toNat { s.ctx c with fpu := f } := rfl
@[simp] theorem State.setFpu_draws (s : State) (c : BitVec 32) (f : Fpu) : (s.setFpu c f).draws = s.draws := rfl
@[simp] theorem State.setFpu_port (s : State) (c : BitVec 32) (f : Fpu) : (s.setFpu c f).port = s.port := rfl
@[simp] theorem State.setFpu_resp (s : State) (c : BitVec 32) (f : Fpu) : (s.setFpu c f).resp = s.resp := rfl

/-! ### `setRm` -/

@[simp] theorem State.setRm_params (s : State) (c : BitVec 32) (m : BitVec 2) : (s.setRm c m).params = s.params := rfl
@[simp] theorem State.setRm_mems (s : State) (c : BitVec 32) (m : BitVec 2) : (s.setRm c m).mems = s.mems := rfl
@[simp] theorem State.setRm_blobs (s : State) (c : BitVec 32) (m : BitVec 2) : (s.setRm c m).blobs = s.blobs := rfl
@[simp] theorem State.setRm_graves (s : State) (c : BitVec 32) (m : BitVec 2) : (s.setRm c m).graves = s.graves := rfl
@[simp] theorem State.setRm_ctxs (s : State) (c : BitVec 32) (m : BitVec 2) : (s.setRm c m).ctxs = mapPut s.ctxs c.toNat { s.ctx c with rm := m } := rfl
@[simp] theorem State.setRm_draws (s : State) (c : BitVec 32) (m : BitVec 2) : (s.setRm c m).draws = s.draws := rfl
@[simp] theorem State.setRm_port (s : State) (c : BitVec 32) (m : BitVec 2) : (s.setRm c m).port = s.port := rfl
@[simp] theorem State.setRm_resp (s : State) (c : BitVec 32) (m : BitVec 2) : (s.setRm c m).resp = s.resp := rfl

/-! ### `setTlb` -/

@[simp] theorem State.setTlb_params (s : State) (c : BitVec 32) (t : Tlb) : (s.setTlb c t).params = s.params := rfl
@[simp] theorem State.setTlb_mems (s : State) (c : BitVec 32) (t : Tlb) : (s.setTlb c t).mems = s.mems := rfl
@[simp] theorem State.setTlb_blobs (s : State) (c : BitVec 32) (t : Tlb) : (s.setTlb c t).blobs = s.blobs := rfl
@[simp] theorem State.setTlb_graves (s : State) (c : BitVec 32) (t : Tlb) : (s.setTlb c t).graves = s.graves := rfl
@[simp] theorem State.setTlb_ctxs (s : State) (c : BitVec 32) (t : Tlb) : (s.setTlb c t).ctxs = mapPut s.ctxs c.toNat { s.ctx c with tlb := t } := rfl
@[simp] theorem State.setTlb_draws (s : State) (c : BitVec 32) (t : Tlb) : (s.setTlb c t).draws = s.draws := rfl
@[simp] theorem State.setTlb_port (s : State) (c : BitVec 32) (t : Tlb) : (s.setTlb c t).port = s.port := rfl
@[simp] theorem State.setTlb_resp (s : State) (c : BitVec 32) (t : Tlb) : (s.setTlb c t).resp = s.resp := rfl

/-! ### `setTransfer` -/

@[simp] theorem State.setTransfer_params (s : State) (c : BitVec 32) (x : Option Transfer) : (s.setTransfer c x).params = s.params := rfl
@[simp] theorem State.setTransfer_mems (s : State) (c : BitVec 32) (x : Option Transfer) : (s.setTransfer c x).mems = s.mems := rfl
@[simp] theorem State.setTransfer_blobs (s : State) (c : BitVec 32) (x : Option Transfer) : (s.setTransfer c x).blobs = s.blobs := rfl
@[simp] theorem State.setTransfer_graves (s : State) (c : BitVec 32) (x : Option Transfer) : (s.setTransfer c x).graves = s.graves := rfl
@[simp] theorem State.setTransfer_ctxs (s : State) (c : BitVec 32) (x : Option Transfer) : (s.setTransfer c x).ctxs = mapPut s.ctxs c.toNat { s.ctx c with transfer := x } := rfl
@[simp] theorem State.setTransfer_draws (s : State) (c : BitVec 32) (x : Option Transfer) : (s.setTransfer c x).draws = s.draws := rfl
@[simp] theorem State.setTransfer_port (s : State) (c : BitVec 32) (x : Option Transfer) : (s.setTransfer c x).port = s.port := rfl
@[simp] theorem State.setTransfer_resp (s : State) (c : BitVec 32) (x : Option Transfer) : (s.setTransfer c x).resp = s.resp := rfl

/-! ### `setSpace` -/

@[simp] theorem State.setSpace_params (s : State) (m : Handle) (sp : Space) : (s.setSpace m sp).params = s.params := rfl
@[simp] theorem State.setSpace_mems (s : State) (m : Handle) (sp : Space) : (s.setSpace m sp).mems = mapPut s.mems m sp := rfl
@[simp] theorem State.setSpace_blobs (s : State) (m : Handle) (sp : Space) : (s.setSpace m sp).blobs = s.blobs := rfl
@[simp] theorem State.setSpace_graves (s : State) (m : Handle) (sp : Space) : (s.setSpace m sp).graves = s.graves := rfl
@[simp] theorem State.setSpace_ctxs (s : State) (m : Handle) (sp : Space) : (s.setSpace m sp).ctxs = s.ctxs := rfl
@[simp] theorem State.setSpace_draws (s : State) (m : Handle) (sp : Space) : (s.setSpace m sp).draws = s.draws := rfl
@[simp] theorem State.setSpace_port (s : State) (m : Handle) (sp : Space) : (s.setSpace m sp).port = s.port := rfl
@[simp] theorem State.setSpace_resp (s : State) (m : Handle) (sp : Space) : (s.setSpace m sp).resp = s.resp := rfl

/-! ### `present` -/

@[simp] theorem State.present_params (s : State) (packet : List Byte) : (s.present packet).params = s.params := rfl
@[simp] theorem State.present_mems (s : State) (packet : List Byte) : (s.present packet).mems = s.mems := rfl
@[simp] theorem State.present_blobs (s : State) (packet : List Byte) : (s.present packet).blobs = s.blobs := rfl
@[simp] theorem State.present_graves (s : State) (packet : List Byte) : (s.present packet).graves = s.graves := rfl
@[simp] theorem State.present_ctxs (s : State) (packet : List Byte) : (s.present packet).ctxs = s.ctxs := rfl
@[simp] theorem State.present_draws (s : State) (packet : List Byte) : (s.present packet).draws = s.draws := rfl
@[simp] theorem State.present_port (s : State) (packet : List Byte) : (s.present packet).port = packet :: s.port := rfl
@[simp] theorem State.present_resp (s : State) (packet : List Byte) : (s.present packet).resp = s.resp := rfl

/-! ### Reset -/

@[simp] theorem State.reset_mems : State.reset.mems = [] := rfl
@[simp] theorem State.reset_blobs : State.reset.blobs = [] := rfl
@[simp] theorem State.reset_graves : State.reset.graves = [] := rfl
@[simp] theorem State.reset_ctxs : State.reset.ctxs = [] := rfl
@[simp] theorem State.reset_port : State.reset.port = [] := rfl
@[simp] theorem State.reset_resp : State.reset.resp = none := rfl

/-! ### Contexts -/

/-- Updates that leave the contexts' map alone leave every context alone. -/
theorem State.ctx_congr {s t : State} (h : t.ctxs = s.ctxs) (c : BitVec 32) : t.ctx c = s.ctx c := by
  simp [State.ctx, h]

theorem State.setCtx_ctx (s : State) (c : BitVec 32) (k : Context) (d : BitVec 32) :
    (s.setCtx c k).ctx d = if d = c then k else s.ctx d := by
  simp only [State.ctx, State.setCtx_ctxs, mapFind_put, BitVec.toNat_inj]
  split <;> rfl

@[simp] theorem State.setCtx_ctx_same (s : State) (c : BitVec 32) (k : Context) : (s.setCtx c k).ctx c = k := by
  simp [State.setCtx_ctx]

theorem State.setCtx_ctx_other (s : State) {c d : BitVec 32} (k : Context) (h : d ≠ c) :
    (s.setCtx c k).ctx d = s.ctx d := by
  simp [State.setCtx_ctx, h]

/-! ### `setCpu` on contexts -/

@[simp] theorem State.setCpu_ctx_same (s : State) (c : BitVec 32) (u : Cpu) : (s.setCpu c u).ctx c = { s.ctx c with cpu := u } := by
  simp [State.setCpu]
theorem State.setCpu_ctx_other (s : State) {c d : BitVec 32} (u : Cpu) (h : d ≠ c) : (s.setCpu c u).ctx d = s.ctx d := by
  simp [State.setCpu, State.setCtx_ctx_other, h]
@[simp] theorem State.setCpu_cpu_same (s : State) (c : BitVec 32) (u : Cpu) : (s.setCpu c u).cpu c = u := by
  simp [State.cpu]
@[simp] theorem State.setCpu_fpu_same (s : State) (c : BitVec 32) (u : Cpu) : (s.setCpu c u).fpu c = s.fpu c := by
  simp [State.fpu]
@[simp] theorem State.setCpu_rm_same (s : State) (c : BitVec 32) (u : Cpu) : (s.setCpu c u).rm c = s.rm c := by
  simp [State.rm]
@[simp] theorem State.setCpu_tlb_same (s : State) (c : BitVec 32) (u : Cpu) : (s.setCpu c u).tlb c = s.tlb c := by
  simp [State.tlb]
@[simp] theorem State.setCpu_transfer_same (s : State) (c : BitVec 32) (u : Cpu) : (s.setCpu c u).transfer c = s.transfer c := by
  simp [State.transfer]

/-! ### `setFpu` on contexts -/

@[simp] theorem State.setFpu_ctx_same (s : State) (c : BitVec 32) (f : Fpu) : (s.setFpu c f).ctx c = { s.ctx c with fpu := f } := by
  simp [State.setFpu]
theorem State.setFpu_ctx_other (s : State) {c d : BitVec 32} (f : Fpu) (h : d ≠ c) : (s.setFpu c f).ctx d = s.ctx d := by
  simp [State.setFpu, State.setCtx_ctx_other, h]
@[simp] theorem State.setFpu_cpu_same (s : State) (c : BitVec 32) (f : Fpu) : (s.setFpu c f).cpu c = s.cpu c := by
  simp [State.cpu]
@[simp] theorem State.setFpu_fpu_same (s : State) (c : BitVec 32) (f : Fpu) : (s.setFpu c f).fpu c = f := by
  simp [State.fpu]
@[simp] theorem State.setFpu_rm_same (s : State) (c : BitVec 32) (f : Fpu) : (s.setFpu c f).rm c = s.rm c := by
  simp [State.rm]
@[simp] theorem State.setFpu_tlb_same (s : State) (c : BitVec 32) (f : Fpu) : (s.setFpu c f).tlb c = s.tlb c := by
  simp [State.tlb]
@[simp] theorem State.setFpu_transfer_same (s : State) (c : BitVec 32) (f : Fpu) : (s.setFpu c f).transfer c = s.transfer c := by
  simp [State.transfer]

/-! ### `setRm` on contexts -/

@[simp] theorem State.setRm_ctx_same (s : State) (c : BitVec 32) (m : BitVec 2) : (s.setRm c m).ctx c = { s.ctx c with rm := m } := by
  simp [State.setRm]
theorem State.setRm_ctx_other (s : State) {c d : BitVec 32} (m : BitVec 2) (h : d ≠ c) : (s.setRm c m).ctx d = s.ctx d := by
  simp [State.setRm, State.setCtx_ctx_other, h]
@[simp] theorem State.setRm_cpu_same (s : State) (c : BitVec 32) (m : BitVec 2) : (s.setRm c m).cpu c = s.cpu c := by
  simp [State.cpu]
@[simp] theorem State.setRm_fpu_same (s : State) (c : BitVec 32) (m : BitVec 2) : (s.setRm c m).fpu c = s.fpu c := by
  simp [State.fpu]
@[simp] theorem State.setRm_rm_same (s : State) (c : BitVec 32) (m : BitVec 2) : (s.setRm c m).rm c = m := by
  simp [State.rm]
@[simp] theorem State.setRm_tlb_same (s : State) (c : BitVec 32) (m : BitVec 2) : (s.setRm c m).tlb c = s.tlb c := by
  simp [State.tlb]
@[simp] theorem State.setRm_transfer_same (s : State) (c : BitVec 32) (m : BitVec 2) : (s.setRm c m).transfer c = s.transfer c := by
  simp [State.transfer]

/-! ### `setTlb` on contexts -/

@[simp] theorem State.setTlb_ctx_same (s : State) (c : BitVec 32) (t : Tlb) : (s.setTlb c t).ctx c = { s.ctx c with tlb := t } := by
  simp [State.setTlb]
theorem State.setTlb_ctx_other (s : State) {c d : BitVec 32} (t : Tlb) (h : d ≠ c) : (s.setTlb c t).ctx d = s.ctx d := by
  simp [State.setTlb, State.setCtx_ctx_other, h]
@[simp] theorem State.setTlb_cpu_same (s : State) (c : BitVec 32) (t : Tlb) : (s.setTlb c t).cpu c = s.cpu c := by
  simp [State.cpu]
@[simp] theorem State.setTlb_fpu_same (s : State) (c : BitVec 32) (t : Tlb) : (s.setTlb c t).fpu c = s.fpu c := by
  simp [State.fpu]
@[simp] theorem State.setTlb_rm_same (s : State) (c : BitVec 32) (t : Tlb) : (s.setTlb c t).rm c = s.rm c := by
  simp [State.rm]
@[simp] theorem State.setTlb_tlb_same (s : State) (c : BitVec 32) (t : Tlb) : (s.setTlb c t).tlb c = t := by
  simp [State.tlb]
@[simp] theorem State.setTlb_transfer_same (s : State) (c : BitVec 32) (t : Tlb) : (s.setTlb c t).transfer c = s.transfer c := by
  simp [State.transfer]

/-! ### `setTransfer` on contexts -/

@[simp] theorem State.setTransfer_ctx_same (s : State) (c : BitVec 32) (x : Option Transfer) : (s.setTransfer c x).ctx c = { s.ctx c with transfer := x } := by
  simp [State.setTransfer]
theorem State.setTransfer_ctx_other (s : State) {c d : BitVec 32} (x : Option Transfer) (h : d ≠ c) : (s.setTransfer c x).ctx d = s.ctx d := by
  simp [State.setTransfer, State.setCtx_ctx_other, h]
@[simp] theorem State.setTransfer_cpu_same (s : State) (c : BitVec 32) (x : Option Transfer) : (s.setTransfer c x).cpu c = s.cpu c := by
  simp [State.cpu]
@[simp] theorem State.setTransfer_fpu_same (s : State) (c : BitVec 32) (x : Option Transfer) : (s.setTransfer c x).fpu c = s.fpu c := by
  simp [State.fpu]
@[simp] theorem State.setTransfer_rm_same (s : State) (c : BitVec 32) (x : Option Transfer) : (s.setTransfer c x).rm c = s.rm c := by
  simp [State.rm]
@[simp] theorem State.setTransfer_tlb_same (s : State) (c : BitVec 32) (x : Option Transfer) : (s.setTransfer c x).tlb c = s.tlb c := by
  simp [State.tlb]
@[simp] theorem State.setTransfer_transfer_same (s : State) (c : BitVec 32) (x : Option Transfer) : (s.setTransfer c x).transfer c = x := by
  simp [State.transfer]

@[simp] theorem State.respond_ctx (s : State) (r : Response) (c : BitVec 32) : (s.respond r).ctx c = s.ctx c := rfl
@[simp] theorem State.respond_cpu (s : State) (r : Response) (c : BitVec 32) : (s.respond r).cpu c = s.cpu c := rfl
@[simp] theorem State.respond_fpu (s : State) (r : Response) (c : BitVec 32) : (s.respond r).fpu c = s.fpu c := rfl
@[simp] theorem State.respond_rm (s : State) (r : Response) (c : BitVec 32) : (s.respond r).rm c = s.rm c := rfl
@[simp] theorem State.respond_tlb (s : State) (r : Response) (c : BitVec 32) : (s.respond r).tlb c = s.tlb c := rfl
@[simp] theorem State.respond_transfer (s : State) (r : Response) (c : BitVec 32) : (s.respond r).transfer c = s.transfer c := rfl
@[simp] theorem State.ok_ctx (s : State) (r : Results) (c : BitVec 32) : (s.ok r).ctx c = s.ctx c := rfl
@[simp] theorem State.ok_cpu (s : State) (r : Results) (c : BitVec 32) : (s.ok r).cpu c = s.cpu c := rfl
@[simp] theorem State.ok_fpu (s : State) (r : Results) (c : BitVec 32) : (s.ok r).fpu c = s.fpu c := rfl
@[simp] theorem State.ok_rm (s : State) (r : Results) (c : BitVec 32) : (s.ok r).rm c = s.rm c := rfl
@[simp] theorem State.ok_tlb (s : State) (r : Results) (c : BitVec 32) : (s.ok r).tlb c = s.tlb c := rfl
@[simp] theorem State.ok_transfer (s : State) (r : Results) (c : BitVec 32) : (s.ok r).transfer c = s.transfer c := rfl
@[simp] theorem State.fail_ctx (s : State) (f : Failure) (c : BitVec 32) : (s.fail f).ctx c = s.ctx c := rfl
@[simp] theorem State.fail_cpu (s : State) (f : Failure) (c : BitVec 32) : (s.fail f).cpu c = s.cpu c := rfl
@[simp] theorem State.fail_fpu (s : State) (f : Failure) (c : BitVec 32) : (s.fail f).fpu c = s.fpu c := rfl
@[simp] theorem State.fail_rm (s : State) (f : Failure) (c : BitVec 32) : (s.fail f).rm c = s.rm c := rfl
@[simp] theorem State.fail_tlb (s : State) (f : Failure) (c : BitVec 32) : (s.fail f).tlb c = s.tlb c := rfl
@[simp] theorem State.fail_transfer (s : State) (f : Failure) (c : BitVec 32) : (s.fail f).transfer c = s.transfer c := rfl
@[simp] theorem State.raise_ctx (s : State) (cond : Cond) (info : BitVec 32) (c : BitVec 32) : (s.raise cond info).ctx c = s.ctx c := rfl
@[simp] theorem State.raise_cpu (s : State) (cond : Cond) (info : BitVec 32) (c : BitVec 32) : (s.raise cond info).cpu c = s.cpu c := rfl
@[simp] theorem State.raise_fpu (s : State) (cond : Cond) (info : BitVec 32) (c : BitVec 32) : (s.raise cond info).fpu c = s.fpu c := rfl
@[simp] theorem State.raise_rm (s : State) (cond : Cond) (info : BitVec 32) (c : BitVec 32) : (s.raise cond info).rm c = s.rm c := rfl
@[simp] theorem State.raise_tlb (s : State) (cond : Cond) (info : BitVec 32) (c : BitVec 32) : (s.raise cond info).tlb c = s.tlb c := rfl
@[simp] theorem State.raise_transfer (s : State) (cond : Cond) (info : BitVec 32) (c : BitVec 32) : (s.raise cond info).transfer c = s.transfer c := rfl
@[simp] theorem State.setSpace_ctx (s : State) (m : Handle) (sp : Space) (c : BitVec 32) : (s.setSpace m sp).ctx c = s.ctx c := rfl
@[simp] theorem State.setSpace_cpu (s : State) (m : Handle) (sp : Space) (c : BitVec 32) : (s.setSpace m sp).cpu c = s.cpu c := rfl
@[simp] theorem State.setSpace_fpu (s : State) (m : Handle) (sp : Space) (c : BitVec 32) : (s.setSpace m sp).fpu c = s.fpu c := rfl
@[simp] theorem State.setSpace_rm (s : State) (m : Handle) (sp : Space) (c : BitVec 32) : (s.setSpace m sp).rm c = s.rm c := rfl
@[simp] theorem State.setSpace_tlb (s : State) (m : Handle) (sp : Space) (c : BitVec 32) : (s.setSpace m sp).tlb c = s.tlb c := rfl
@[simp] theorem State.setSpace_transfer (s : State) (m : Handle) (sp : Space) (c : BitVec 32) : (s.setSpace m sp).transfer c = s.transfer c := rfl
@[simp] theorem State.present_ctx (s : State) (packet : List Byte) (c : BitVec 32) : (s.present packet).ctx c = s.ctx c := rfl
@[simp] theorem State.present_cpu (s : State) (packet : List Byte) (c : BitVec 32) : (s.present packet).cpu c = s.cpu c := rfl
@[simp] theorem State.present_fpu (s : State) (packet : List Byte) (c : BitVec 32) : (s.present packet).fpu c = s.fpu c := rfl
@[simp] theorem State.present_rm (s : State) (packet : List Byte) (c : BitVec 32) : (s.present packet).rm c = s.rm c := rfl
@[simp] theorem State.present_tlb (s : State) (packet : List Byte) (c : BitVec 32) : (s.present packet).tlb c = s.tlb c := rfl
@[simp] theorem State.present_transfer (s : State) (packet : List Byte) (c : BitVec 32) : (s.present packet).transfer c = s.transfer c := rfl

/-! ### Oracle draws -/

@[simp] theorem State.drawOom_params (s : State) : s.drawOom.2.params = s.params := by
  unfold State.drawOom; split <;> rfl

@[simp] theorem State.drawOom_mems (s : State) : s.drawOom.2.mems = s.mems := by
  unfold State.drawOom; split <;> rfl
@[simp] theorem State.drawOom_blobs (s : State) : s.drawOom.2.blobs = s.blobs := by
  unfold State.drawOom; split <;> rfl
@[simp] theorem State.drawOom_graves (s : State) : s.drawOom.2.graves = s.graves := by
  unfold State.drawOom; split <;> rfl
@[simp] theorem State.drawOom_ctxs (s : State) : s.drawOom.2.ctxs = s.ctxs := by
  unfold State.drawOom; split <;> rfl
@[simp] theorem State.drawOom_port (s : State) : s.drawOom.2.port = s.port := by
  unfold State.drawOom; split <;> rfl
@[simp] theorem State.drawOom_resp (s : State) : s.drawOom.2.resp = s.resp := by
  unfold State.drawOom; split <;> rfl
@[simp] theorem State.drawNan_params (s : State) : s.drawNan.2.params = s.params := by
  unfold State.drawNan; split <;> rfl
@[simp] theorem State.drawNan_mems (s : State) : s.drawNan.2.mems = s.mems := by
  unfold State.drawNan; split <;> rfl
@[simp] theorem State.drawNan_blobs (s : State) : s.drawNan.2.blobs = s.blobs := by
  unfold State.drawNan; split <;> rfl
@[simp] theorem State.drawNan_graves (s : State) : s.drawNan.2.graves = s.graves := by
  unfold State.drawNan; split <;> rfl
@[simp] theorem State.drawNan_ctxs (s : State) : s.drawNan.2.ctxs = s.ctxs := by
  unfold State.drawNan; split <;> rfl
@[simp] theorem State.drawNan_port (s : State) : s.drawNan.2.port = s.port := by
  unfold State.drawNan; split <;> rfl
@[simp] theorem State.drawNan_resp (s : State) : s.drawNan.2.resp = s.resp := by
  unfold State.drawNan; split <;> rfl
@[simp] theorem State.drawSched_params (s : State) : s.drawSched.2.params = s.params := by
  unfold State.drawSched; split <;> rfl
@[simp] theorem State.drawSched_mems (s : State) : s.drawSched.2.mems = s.mems := by
  unfold State.drawSched; split <;> rfl
@[simp] theorem State.drawSched_blobs (s : State) : s.drawSched.2.blobs = s.blobs := by
  unfold State.drawSched; split <;> rfl
@[simp] theorem State.drawSched_graves (s : State) : s.drawSched.2.graves = s.graves := by
  unfold State.drawSched; split <;> rfl
@[simp] theorem State.drawSched_ctxs (s : State) : s.drawSched.2.ctxs = s.ctxs := by
  unfold State.drawSched; split <;> rfl
@[simp] theorem State.drawSched_port (s : State) : s.drawSched.2.port = s.port := by
  unfold State.drawSched; split <;> rfl
@[simp] theorem State.drawSched_resp (s : State) : s.drawSched.2.resp = s.resp := by
  unfold State.drawSched; split <;> rfl
@[simp] theorem State.slice_params (s : State) (n : Nat) : (s.slice n).2.params = s.params := by
  unfold State.slice; split <;> simp
@[simp] theorem State.slice_mems (s : State) (n : Nat) : (s.slice n).2.mems = s.mems := by
  unfold State.slice; split <;> simp
@[simp] theorem State.slice_blobs (s : State) (n : Nat) : (s.slice n).2.blobs = s.blobs := by
  unfold State.slice; split <;> simp
@[simp] theorem State.slice_graves (s : State) (n : Nat) : (s.slice n).2.graves = s.graves := by
  unfold State.slice; split <;> simp
@[simp] theorem State.slice_ctxs (s : State) (n : Nat) : (s.slice n).2.ctxs = s.ctxs := by
  unfold State.slice; split <;> simp
@[simp] theorem State.slice_port (s : State) (n : Nat) : (s.slice n).2.port = s.port := by
  unfold State.slice; split <;> simp
@[simp] theorem State.slice_resp (s : State) (n : Nat) : (s.slice n).2.resp = s.resp := by
  unfold State.slice; split <;> simp
@[simp] theorem State.giveTurn_params (s : State) : s.giveTurn.params = s.params := by
  unfold State.giveTurn; split <;> rfl
@[simp] theorem State.giveTurn_mems (s : State) : s.giveTurn.mems = s.mems := by
  unfold State.giveTurn; split <;> rfl
@[simp] theorem State.giveTurn_blobs (s : State) : s.giveTurn.blobs = s.blobs := by
  unfold State.giveTurn; split <;> rfl
@[simp] theorem State.giveTurn_graves (s : State) : s.giveTurn.graves = s.graves := by
  unfold State.giveTurn; split <;> rfl
@[simp] theorem State.giveTurn_ctxs (s : State) : s.giveTurn.ctxs = s.ctxs := by
  unfold State.giveTurn; split <;> rfl
@[simp] theorem State.giveTurn_port (s : State) : s.giveTurn.port = s.port := by
  unfold State.giveTurn; split <;> rfl
@[simp] theorem State.giveTurn_resp (s : State) : s.giveTurn.resp = s.resp := by
  unfold State.giveTurn; split <;> rfl

theorem State.drawOom_ctx (s : State) (c : BitVec 32) : s.drawOom.2.ctx c = s.ctx c := State.ctx_congr (by simp) c

theorem State.drawNan_ctx (s : State) (c : BitVec 32) : s.drawNan.2.ctx c = s.ctx c := State.ctx_congr (by simp) c

theorem State.slice_ctx (s : State) (n : Nat) (c : BitVec 32) : (s.slice n).2.ctx c = s.ctx c := State.ctx_congr (by simp) c

theorem State.drawSched_ctx (s : State) (c : BitVec 32) : s.drawSched.2.ctx c = s.ctx c := State.ctx_congr (by simp) c

/-- What the scheduler lets an access do: at least one byte of those left, and at most all. -/
theorem State.slice_le (s : State) (n : Nat) : (s.slice n).1 ≤ n := by
  unfold State.slice
  split
  · exact Nat.le_refl n
  · exact Nat.min_le_left _ _

theorem State.slice_pos (s : State) {n : Nat} (h : 0 < n) : 0 < (s.slice n).1 := by
  unfold State.slice
  split
  · exact h
  · simp only; omega

/-! ### The turn -/

/-- Giving the port the turn, and nothing else, is what the next choice undoes. -/
theorem State.giveTurn_turn (s : State) (h : s.portReady = true) : s.giveTurn.turn = (none, s) := by
  unfold State.giveTurn
  split
  · next e => simp [State.turn, e]
  · next first others e =>
    have hu : State.underWay { s with draws := { s.draws with sched := (first :: others).length :: s.draws.sched } } =
        first :: others := e
    have hp : State.portReady { s with draws := s.draws } = true := h
    unfold State.turn
    rw [hu]
    have hn : (first :: others)[(first :: others).length]? = none := List.getElem?_eq_none (Nat.le_refl _)
    simp only [State.drawSched, hn]
    exact Prod.ext (if_pos h) rfl

/-- With no access under way the port has the turn, and no choice is drawn. -/
theorem State.turn_of_none {s : State} (h : s.underWay = []) : s.turn = (none, s) := by simp [State.turn, h]

end Sys2Proof.Machine
end

