-- ==== Sys2Proof/Laws/Memory.lean ====
section
/-! SUPPORT. The memory of a blob: read after write, the canonical form and the bound, for every operation that makes or
changes a blob's bytes. -/

namespace Sys2Proof.Machine

/-! ### One byte -/

theorem Memory.read_write (m : Memory) (a : Nat) (b : Byte) (x : Nat) :
    (Memory.write m a b).read x = if x = a then b else Memory.read m x := by
  unfold Memory.write Memory.read
  split
  · rename_i h; subst h; rw [mapFind_del]; split <;> rfl
  · rw [mapFind_put]; split <;> rfl

theorem Memory.wf_iff (m : Memory) :
    Memory.wf m = true ↔ keysRising m = true ∧ ∀ cell ∈ m, cell.2 ≠ unlistedByte := by
  simp [Memory.wf]

theorem Memory.write_wf {m : Memory} (h : Memory.wf m = true) (a : Nat) (b : Byte) :
    Memory.wf (Memory.write m a b) = true := by
  rw [Memory.wf_iff] at *
  unfold Memory.write
  split
  · exact ⟨keysRising_del h.1 a, fun cell hc => h.2 cell (mem_mapDel hc).1⟩
  · rename_i hb
    refine ⟨keysRising_put h.1 a b, fun cell hc => ?_⟩
    rcases mem_mapPut hc with hc | hc
    · subst hc; exact hb
    · exact h.2 cell hc

theorem mem_memory_write {m : Memory} {a : Nat} {b : Byte} {cell : Host.Cell} (h : cell ∈ Memory.write m a b) :
    cell.1 = a ∨ cell ∈ m := by
  unfold Memory.write at h
  split at h
  · exact .inr (mem_mapDel h).1
  · rcases mem_mapPut h with h | h
    · exact .inl (by rw [h])
    · exact .inr h

/-- In the canonical form, equal bytes everywhere are equal memories. -/
theorem Memory.ext {m n : Memory} (hm : Memory.wf m = true) (hn : Memory.wf n = true)
    (h : ∀ x, Memory.read m x = Memory.read n x) : m = n := by
  rw [Memory.wf_iff] at hm hn
  refine map_ext hm.1 hn.1 fun x => ?_
  have hx := h x
  unfold Memory.read at hx
  rcases h1 : mapFind m x with _ | v <;> rcases h2 : mapFind n x with _ | w
  · rfl
  · rw [h1, h2] at hx; exact absurd hx.symm (hn.2 _ (mapFind_mem h2))
  · rw [h1, h2] at hx; exact absurd hx (hm.2 _ (mapFind_mem h1))
  · rw [h1, h2] at hx; exact congrArg some hx

/-! ### Runs of bytes -/

@[simp] theorem readBytes_length (m : Memory) (a n : Nat) : (readBytes m a n).length = n := by
  induction n generalizing a with
  | zero => rfl
  | succ n ih => simp [readBytes, ih]

theorem readBytes_getElem (m : Memory) (a n i : Nat) (h : i < (readBytes m a n).length) :
    (readBytes m a n)[i] = Memory.read m (a + i) := by
  induction n generalizing a i with
  | zero => simp [readBytes] at h
  | succ n ih =>
    cases i with
    | zero => rfl
    | succ i =>
      simp only [readBytes, List.getElem_cons_succ]
      rw [ih]; congr 1; omega

theorem readBytes_append (m : Memory) (a j n : Nat) :
    readBytes m a (j + n) = readBytes m a j ++ readBytes m (a + j) n := by
  induction j generalizing a with
  | zero => simp [readBytes]
  | succ j ih =>
    rw [Nat.succ_add]; simp only [readBytes, List.cons_append, ih]
    congr 3; omega

theorem readBytes_congr {m n : Memory} {a k : Nat} (h : ∀ x, a ≤ x → x < a + k → Memory.read m x = Memory.read n x) :
    readBytes m a k = readBytes n a k := by
  induction k generalizing a with
  | zero => rfl
  | succ k ih =>
    simp only [readBytes]
    rw [h a (Nat.le_refl a) (by omega), ih fun x h1 h2 => h x (by omega) (by omega)]

theorem Memory.write_bound {m : Memory} {len : Nat} (h : ∀ cell ∈ m, cell.1 < len) {a : Nat} (b : Byte) (ha : a < len) :
    ∀ cell ∈ Memory.write m a b, cell.1 < len := fun cell hc =>
  (mem_memory_write hc).elim (fun e => e ▸ ha) (h cell)

/-! ### The bytes of a region (R324) -/

theorem cellsFrom_ge {k : Nat} {bytes : List Byte} {cell : Host.Cell} (h : cell ∈ cellsFrom k bytes) :
    k ≤ cell.1 ∧ cell.1 < k + bytes.length ∧ cell.2 ≠ unlistedByte := by
  induction bytes generalizing k with
  | nil => simp [cellsFrom] at h
  | cons b rest ih =>
    simp only [cellsFrom] at h
    split at h
    · have := ih h; simp only [List.length_cons]; exact ⟨by omega, by omega, this.2.2⟩
    · rename_i hb
      rcases List.mem_cons.1 h with h | h
      · subst h; simp only [List.length_cons]; exact ⟨Nat.le_refl _, by omega, hb⟩
      · have := ih h; simp only [List.length_cons]; exact ⟨by omega, by omega, this.2.2⟩

theorem cellsFrom_wf (k : Nat) (bytes : List Byte) : Memory.wf (cellsFrom k bytes) = true := by
  rw [Memory.wf_iff]
  refine ⟨?_, fun cell hc => (cellsFrom_ge hc).2.2⟩
  induction bytes generalizing k with
  | nil => rfl
  | cons b rest ih =>
    simp only [cellsFrom]
    split
    · exact ih (k + 1)
    · refine (keysRising_cons _ _ _).2 ⟨fun e he => ?_, ih (k + 1)⟩
      have := (cellsFrom_ge he).1; omega

theorem cellsFrom_read (k : Nat) (bytes : List Byte) (x : Nat) :
    Memory.read (cellsFrom k bytes) x = if h : k ≤ x ∧ x - k < bytes.length then bytes[x - k]'h.2 else unlistedByte := by
  induction bytes generalizing k with
  | nil => simp [cellsFrom, Memory.read]
  | cons b rest ih =>
    have hread : Memory.read (cellsFrom k (b :: rest)) x =
        if x = k then b else Memory.read (cellsFrom (k + 1) rest) x := by
      simp only [cellsFrom]
      split
      · rename_i hb
        split
        · rename_i hx; subst hx
          rw [ih, dif_neg (by omega), hb]
        · rfl
      · simp only [Memory.read, mapFind]
        split <;> rfl
    rw [hread, ih]
    by_cases hx : x = k
    · subst hx; simp
    · by_cases h : k + 1 ≤ x ∧ x - (k + 1) < rest.length
      · rw [if_neg hx, dif_pos h, dif_pos (by simp only [List.length_cons]; omega)]
        have : x - k = x - (k + 1) + 1 := by omega
        simp [this]
      · rw [if_neg hx, dif_neg h, dif_neg (by simp only [List.length_cons]; omega)]

/-! ### The copy of a page (R334) -/

theorem mem_pageCells {cells : Memory} {offset : Nat} {cell : Host.Cell} :
    cell ∈ pageCells cells offset ↔ cell.1 < pageSize ∧ (cell.1 + offset, cell.2) ∈ cells := by
  simp only [pageCells, List.mem_map, List.mem_filter, decide_eq_true_eq]
  constructor
  · rintro ⟨x, ⟨hx, h1, h2⟩, rfl⟩
    refine ⟨by simp only; omega, ?_⟩
    have : x.1 - offset + offset = x.1 := by omega
    simp only [this]; exact hx
  · rintro ⟨h1, h2⟩
    exact ⟨(cell.1 + offset, cell.2), ⟨h2, by simp only; omega, by simp only; omega⟩, by simp⟩

theorem pageCells_wf {cells : Memory} (h : Memory.wf cells = true) (offset : Nat) :
    Memory.wf (pageCells cells offset) = true := by
  rw [Memory.wf_iff] at *
  refine ⟨?_, fun cell hc => h.2 (cell.1 + offset, cell.2) (mem_pageCells.1 hc).2⟩
  have h1 := h.1
  clear h
  unfold pageCells
  induction cells with
  | nil => rfl
  | cons e rest ih =>
    obtain ⟨j, w⟩ := e
    obtain ⟨a, b⟩ := (keysRising_cons _ _ _).1 h1
    rw [List.filter_cons]
    split
    · rename_i hd
      simp only [decide_eq_true_eq] at hd
      rw [List.map_cons]
      refine (keysRising_cons _ _ _).2 ⟨fun e he => ?_, ih b⟩
      simp only [List.mem_map, List.mem_filter, decide_eq_true_eq] at he
      obtain ⟨x, ⟨hx, h1, h2⟩, rfl⟩ := he
      have := a x hx
      simp only; omega
    · exact ih b

theorem mapFind_pageCells {cells : Memory} (h : keysRising cells = true) (offset x : Nat) (hx : x < pageSize) :
    mapFind (pageCells cells offset) x = mapFind cells (x + offset) := by
  unfold pageCells
  induction cells with
  | nil => rfl
  | cons e rest ih =>
    obtain ⟨j, w⟩ := e
    obtain ⟨a, b⟩ := (keysRising_cons _ _ _).1 h
    rw [List.filter_cons]
    split
    · rename_i hd
      simp only [decide_eq_true_eq] at hd
      rw [List.map_cons]
      simp only [mapFind]
      rw [ih b]
      by_cases hk : x + offset = j
      · rw [if_pos (by omega), if_pos hk]
      · rw [if_neg (by omega), if_neg hk]
    · rename_i hd
      simp only [decide_eq_true_eq] at hd
      rw [ih b]
      simp only [mapFind]
      rw [if_neg (by omega)]

theorem pageCells_read {cells : Memory} (h : Memory.wf cells = true) (offset x : Nat) (hx : x < pageSize) :
    Memory.read (pageCells cells offset) x = Memory.read cells (offset + x) := by
  unfold Memory.read
  rw [mapFind_pageCells ((Memory.wf_iff _).1 h).1 offset x hx, Nat.add_comm]

/-! ### Blobs -/

theorem Blob.cellsOk_iff (b : Blob) :
    b.cellsOk = true ↔ Memory.wf b.cells = true ∧ ∀ cell ∈ b.cells, cell.1 < b.len := by
  simp [Blob.cellsOk]

end Sys2Proof.Machine
end

