-- ==== Sys2Proof/Laws/Pages.lean ====
section
/-! SUPPORT. Fresh handles, page-table entries, blobs and reference counts: what each helper of spec/43_address_space.md R336
does, and that the counting invariant (R41, R42, R44) goes through every one of them. -/

namespace Sys2Proof.Machine

/-! ### Fresh handles (R321, R336) -/

theorem leastFree_spec (used : List Nat) (fuel k : Nat) :
    (leastFree used fuel k ∉ used) ∨ (leastFree used fuel k = k + fuel ∧ ∀ j, k ≤ j → j < k + fuel → j ∈ used) := by
  induction fuel generalizing k with
  | zero => exact .inr ⟨rfl, fun j h1 h2 => absurd h2 (by omega)⟩
  | succ fuel ih =>
    simp only [leastFree]
    split
    · rename_i h
      rcases ih (k + 1) with h1 | ⟨h1, h2⟩
      · exact .inl h1
      · refine .inr ⟨by omega, fun j hj1 hj2 => ?_⟩
        by_cases hjk : j = k
        · subst hjk; simpa using h
        · exact h2 j (by omega) (by omega)
    · rename_i h
      exact .inl (by simpa using h)

theorem leastFree_not_mem (used : List Nat) (k : Nat) : leastFree used used.length k ∉ used := by
  rcases leastFree_spec used used.length k with h | ⟨h1, h2⟩
  · exact h
  · rw [h1]; intro hmem
    have hsub : List.range' k (used.length + 1) ⊆ used := by
      intro j hj
      rw [List.mem_range'_1] at hj
      by_cases hjk : j = k + used.length
      · subst hjk; exact hmem
      · exact h2 j hj.1 (by omega)
    have := (List.nodup_range' (s := k) (n := used.length + 1) (step := 1)).subperm hsub |>.length_le
    simp at this

theorem freshHandle_not_mem (used : List Nat) (proposed : Option Nat) : freshHandle used proposed ∉ used := by
  unfold freshHandle
  split
  · split
    · exact leastFree_not_mem used 1
    · rename_i h; simpa using h
  · exact leastFree_not_mem used 1

theorem freshMem_free (s : State) : s.space s.freshMem.1 = none := by
  have h : s.freshMem.1 ∉ mapKeys s.mems ++ s.attachedMems := freshHandle_not_mem _ _
  rw [State.space, mapFind_eq_none_iff]
  exact fun hm => h (List.mem_append_left _ hm)

/-- A fresh address-space handle is none that a context is attached to (R321). -/
theorem freshMem_not_attached (s : State) (c : BitVec 32) : (s.tlb c).mem ≠ some s.freshMem.1 := by
  have h : s.freshMem.1 ∉ mapKeys s.mems ++ s.attachedMems := freshHandle_not_mem _ _
  intro hc
  refine h (List.mem_append_right _ ?_)
  unfold State.tlb State.ctx at hc
  rcases hk : mapFind s.ctxs c.toNat with _ | k
  · rw [hk] at hc; cases hc
  · rw [hk] at hc
    exact List.mem_filterMap.2 ⟨(c.toNat, k), mapFind_mem hk, hc⟩

theorem freshBlob_free (s : State) : mapFind s.blobs s.freshBlob.1 = none ∧ mapFind s.graves s.freshBlob.1 = none := by
  have h : s.freshBlob.1 ∉ mapKeys s.blobs ++ mapKeys s.graves := freshHandle_not_mem _ _
  rw [mapFind_eq_none_iff, mapFind_eq_none_iff]
  simpa using h

@[simp] theorem State.freshBlob_params (s : State) : s.freshBlob.2.params = s.params := rfl
@[simp] theorem State.freshBlob_mems (s : State) : s.freshBlob.2.mems = s.mems := rfl
@[simp] theorem State.freshBlob_blobs (s : State) : s.freshBlob.2.blobs = s.blobs := rfl
@[simp] theorem State.freshBlob_graves (s : State) : s.freshBlob.2.graves = s.graves := rfl
@[simp] theorem State.freshBlob_ctxs (s : State) : s.freshBlob.2.ctxs = s.ctxs := rfl
@[simp] theorem State.freshBlob_port (s : State) : s.freshBlob.2.port = s.port := rfl
@[simp] theorem State.freshMem_params (s : State) : s.freshMem.2.params = s.params := rfl
@[simp] theorem State.freshMem_mems (s : State) : s.freshMem.2.mems = s.mems := rfl
@[simp] theorem State.freshMem_blobs (s : State) : s.freshMem.2.blobs = s.blobs := rfl
@[simp] theorem State.freshMem_graves (s : State) : s.freshMem.2.graves = s.graves := rfl
@[simp] theorem State.freshMem_ctxs (s : State) : s.freshMem.2.ctxs = s.ctxs := rfl
@[simp] theorem State.freshMem_port (s : State) : s.freshMem.2.port = s.port := rfl

/-! ### What the helpers leave alone -/

/-- The parts of the state that no page-table helper touches. -/
def sameRest (s t : State) : Prop := t.params = s.params ∧ t.ctxs = s.ctxs ∧ t.port = s.port

theorem sameRest.refl (s : State) : sameRest s s := ⟨rfl, rfl, rfl⟩

theorem sameRest.trans {s t u : State} (h : sameRest s t) (g : sameRest t u) : sameRest s u :=
  ⟨g.1.trans h.1, g.2.1.trans h.2.1, g.2.2.trans h.2.2⟩

theorem incRef_sameRest (s : State) (b : Handle) : sameRest s (s.incRef b) := by
  unfold State.incRef; split <;> exact ⟨rfl, rfl, rfl⟩

theorem decRef_sameRest (s : State) (b : Handle) : sameRest s (s.decRef b) := by
  unfold State.decRef; split
  · exact ⟨rfl, rfl, rfl⟩
  · split <;> exact ⟨rfl, rfl, rfl⟩

theorem putPte_sameRest (s : State) (m : Handle) (p : Nat) (e : Pte) : sameRest s (s.putPte m p e) := by
  unfold State.putPte; split <;> exact ⟨rfl, rfl, rfl⟩

theorem install_sameRest (s : State) (m : Handle) (p : Nat) (e : Pte) : sameRest s (s.install m p e) :=
  (putPte_sameRest s m p e).trans (incRef_sameRest _ _)

theorem remove_sameRest (s : State) (m : Handle) (p : Nat) : sameRest s (s.remove m p) := by
  unfold State.remove; split
  · exact .refl s
  · split
    · exact .refl s
    · exact sameRest.trans ⟨rfl, rfl, rfl⟩ (decRef_sameRest _ _)

theorem bump_sameRest (s : State) (m : Handle) : sameRest s (s.bump m) := by
  unfold State.bump; split <;> exact ⟨rfl, rfl, rfl⟩

theorem newBlob_sameRest (s : State) (cells : Memory) (len : Nat) : sameRest s (s.newBlob cells len).2 := ⟨rfl, rfl, rfl⟩

theorem drawOom_sameRest (s : State) : sameRest s s.drawOom.2 := ⟨by simp, by simp, by simp⟩

theorem forPages_sameRest {f : Nat → State → State} (h : ∀ k s, sameRest s (f k s)) (n : Nat) (s : State) :
    sameRest s (forPages f n s) := by
  induction n with
  | zero => exact .refl s
  | succ n ih => exact ih.trans (h n _)

/-! ### Address spaces and entries -/

theorem setSpace_space (s : State) (m : Handle) (sp : Space) (x : Handle) :
    (s.setSpace m sp).space x = if x = m then some sp else s.space x := by
  simp [State.space, mapFind_put]

@[simp] theorem incRef_mems (s : State) (b : Handle) : (s.incRef b).mems = s.mems := by
  unfold State.incRef; split <;> rfl

@[simp] theorem decRef_mems (s : State) (b : Handle) : (s.decRef b).mems = s.mems := by
  unfold State.decRef; split
  · rfl
  · split <;> rfl

theorem space_congr {s t : State} (h : t.mems = s.mems) (x : Handle) : t.space x = s.space x := by
  simp [State.space, h]

theorem pte_congr {s t : State} (h : t.mems = s.mems) (x : Handle) (p : Nat) : t.pte x p = s.pte x p := by
  simp [State.pte, space_congr h]

theorem putPte_space (s : State) (m : Handle) (p : Nat) (e : Pte) (x : Handle) :
    (s.putPte m p e).space x =
      if x = m then (s.space m).map fun sp => { sp with pages := mapPut sp.pages p e } else s.space x := by
  unfold State.putPte
  split
  · rename_i h; split
    · rename_i hx; subst hx; simp [h]
    · rfl
  · rename_i sp h; rw [setSpace_space, h]; rfl

theorem putPte_pte (s : State) (m : Handle) (p : Nat) (e : Pte) (x : Handle) (y : Nat) :
    (s.putPte m p e).pte x y = if x = m ∧ y = p then (s.space m).map fun _ => e else s.pte x y := by
  unfold State.pte
  rw [putPte_space]
  by_cases hx : x = m
  · subst hx
    rcases h : s.space x with _ | sp
    · simp
    · simp only [↓reduceIte, Option.map_some, Option.bind_some, mapFind_put, true_and]
  · simp [hx]

theorem install_space (s : State) (m : Handle) (p : Nat) (e : Pte) (x : Handle) :
    (s.install m p e).space x =
      if x = m then (s.space m).map fun sp => { sp with pages := mapPut sp.pages p e } else s.space x := by
  unfold State.install; rw [space_congr (incRef_mems _ _), putPte_space]

theorem install_pte (s : State) (m : Handle) (p : Nat) (e : Pte) (x : Handle) (y : Nat) :
    (s.install m p e).pte x y = if x = m ∧ y = p then (s.space m).map fun _ => e else s.pte x y := by
  unfold State.install; rw [pte_congr (incRef_mems _ _), putPte_pte]

theorem mapDel_of_none {α : Type} {l : List (Nat × α)} {k : Nat} (h : mapFind l k = none) : mapDel l k = l := by
  induction l with
  | nil => rfl
  | cons e rest ih =>
    obtain ⟨j, w⟩ := e
    simp only [mapFind] at h
    split at h
    · cases h
    · rename_i hk; simp only [mapDel]; rw [if_neg hk, ih h]

theorem remove_space (s : State) (m : Handle) (p : Nat) (x : Handle) :
    (s.remove m p).space x =
      if x = m then (s.space m).map fun sp => { sp with pages := mapDel sp.pages p } else s.space x := by
  unfold State.remove
  split
  · rename_i h; split
    · rename_i hx; subst hx; simp [h]
    · rfl
  · rename_i sp h
    split
    · rename_i hp; split
      · rename_i hx; subst hx; rw [h]; simp [mapDel_of_none hp]
      · rfl
    · rw [space_congr (decRef_mems _ _), setSpace_space, h]; rfl

theorem remove_pte (s : State) (m : Handle) (p : Nat) (x : Handle) (y : Nat) :
    (s.remove m p).pte x y = if x = m ∧ y = p then none else s.pte x y := by
  unfold State.pte
  rw [remove_space]
  by_cases hx : x = m
  · subst hx
    rcases h : s.space x with _ | sp
    · simp
    · simp only [↓reduceIte, Option.map_some, Option.bind_some, mapFind_del, true_and]
  · simp [hx]

theorem bump_space (s : State) (m : Handle) (x : Handle) :
    (s.bump m).space x = if x = m then (s.space m).map fun sp => { sp with gen := sp.gen + 1 } else s.space x := by
  unfold State.bump
  split
  · rename_i h; split
    · rename_i hx; subst hx; simp [h]
    · rfl
  · rename_i sp h; rw [setSpace_space, h]; rfl

theorem bump_pte (s : State) (m : Handle) (x : Handle) (y : Nat) : (s.bump m).pte x y = s.pte x y := by
  unfold State.pte
  rw [bump_space]
  split
  · rename_i hx; subst hx; rcases s.space x with _ | sp <;> rfl
  · rfl

@[simp] theorem newBlob_mems (s : State) (cells : Memory) (len : Nat) : (s.newBlob cells len).2.mems = s.mems := rfl

/-- Address spaces come and go only with `ASM.CREATE` and `ASM.RELEASE`: the helpers keep which handles are in use. -/
theorem replace_space_isSome (s : State) (m : Handle) (p : Nat) (e : Pte) (x : Handle) :
    ((s.replace m p e).space x).isSome = (s.space x).isSome := by
  unfold State.replace
  rw [install_space, remove_space, remove_space]
  by_cases hx : x = m
  · subst hx; rcases s.space x with _ | sp <;> simp
  · simp [hx]

theorem replace_pte (s : State) (m : Handle) (p : Nat) (e : Pte) (x : Handle) (y : Nat) :
    (s.replace m p e).pte x y = if x = m ∧ y = p then (s.space m).map fun _ => e else s.pte x y := by
  unfold State.replace
  rw [install_pte, remove_pte, remove_space]
  by_cases h : x = m ∧ y = p
  · rw [if_pos h, if_pos h, if_pos rfl]; rcases s.space m with _ | sp <;> rfl
  · rw [if_neg h, if_neg h, if_neg h]

/-! ### Blobs -/

theorem putPte_blobs (s : State) (m : Handle) (p : Nat) (e : Pte) :
    (s.putPte m p e).blobs = s.blobs ∧ (s.putPte m p e).graves = s.graves := by
  unfold State.putPte; split <;> exact ⟨rfl, rfl⟩

theorem bump_blobs (s : State) (m : Handle) : (s.bump m).blobs = s.blobs ∧ (s.bump m).graves = s.graves := by
  unfold State.bump; split <;> exact ⟨rfl, rfl⟩

@[simp] theorem incRef_graves (s : State) (b : Handle) : (s.incRef b).graves = s.graves := by
  unfold State.incRef; split <;> rfl

theorem incRef_find (s : State) (b x : Handle) :
    mapFind (s.incRef b).blobs x =
      if x = b then (mapFind s.blobs b).map fun blob => { blob with refcount := blob.refcount + 1 }
      else mapFind s.blobs x := by
  unfold State.incRef
  split
  · rename_i h; split
    · rename_i hx; subst hx; simp [h]
    · rfl
  · rename_i blob h; simp only [mapFind_put, h, Option.map_some]

/-- What is left of a blob when an entry that names it goes. -/
def lessOne (blob : Blob) : Option Blob :=
  if blob.refcount ≤ 1 then none else some { blob with refcount := blob.refcount - 1 }

theorem decRef_find (s : State) (b x : Handle) :
    mapFind (s.decRef b).blobs x = if x = b then (mapFind s.blobs b).bind lessOne else mapFind s.blobs x := by
  unfold State.decRef
  split
  · rename_i h; split
    · rename_i hx; subst hx; simp [h]
    · rfl
  · rename_i blob h
    rw [h]
    simp only [Option.bind_some, lessOne]
    split
    · simp only [mapFind_del]
    · simp only [mapFind_put]

theorem decRef_find_graves (s : State) (b x : Handle) :
    mapFind (s.decRef b).graves x =
      if x = b ∧ ((mapFind s.blobs b).map fun blob => decide (blob.refcount ≤ 1)) = some true then
        (mapFind s.blobs b).map fun blob => { blob with refcount := 0 }
      else mapFind s.graves x := by
  unfold State.decRef
  split
  · rename_i h; simp [h]
  · rename_i blob h
    rw [h]
    split
    · rename_i hr; simp only [mapFind_put, Option.map_some, hr, decide_true, and_true]
    · rename_i hr; simp [hr]

theorem newBlob_find (s : State) (cells : Memory) (len : Nat) (x : Handle) :
    mapFind (s.newBlob cells len).2.blobs x =
      if x = (s.newBlob cells len).1 then some { cells := cells, len := len, refcount := 0 } else mapFind s.blobs x := by
  simp only [State.newBlob, mapFind_put, State.freshBlob_blobs]
  rfl

@[simp] theorem newBlob_graves (s : State) (cells : Memory) (len : Nat) : (s.newBlob cells len).2.graves = s.graves := rfl

theorem newBlob_free (s : State) (cells : Memory) (len : Nat) :
    mapFind s.blobs (s.newBlob cells len).1 = none ∧ mapFind s.graves (s.newBlob cells len).1 = none :=
  freshBlob_free s

/-! ### Host pointers stay good (R93, R338; log 13) -/

/-- Every blob a pointer could reach is still there, with its length. -/
def keepsHost (s t : State) : Prop := ∀ b x, s.hostBlob b = some x → ∃ y, t.hostBlob b = some y ∧ y.len = x.len

theorem keepsHost.refl (s : State) : keepsHost s s := fun _ x h => ⟨x, h, rfl⟩

theorem keepsHost.trans {s t u : State} (h : keepsHost s t) (g : keepsHost t u) : keepsHost s u := by
  intro b x hx
  obtain ⟨y, hy, hl⟩ := h b x hx
  obtain ⟨z, hz, hl2⟩ := g b y hy
  exact ⟨z, hz, hl2.trans hl⟩

theorem keepsHost_of_eq {s t : State} (h1 : t.blobs = s.blobs) (h2 : t.graves = s.graves) : keepsHost s t := by
  intro b x h; exact ⟨x, by simpa [State.hostBlob, h1, h2] using h, rfl⟩

theorem incRef_keepsHost (s : State) (b : Handle) : keepsHost s (s.incRef b) := by
  intro c x h
  unfold State.hostBlob at *
  rw [incRef_find, incRef_graves]
  by_cases hc : c = b
  · subst hc
    rcases hb : mapFind s.blobs c with _ | blob
    · rw [hb] at h; exact ⟨x, by simpa using h, rfl⟩
    · rw [hb] at h; cases h; exact ⟨{ x with refcount := x.refcount + 1 }, by simp, rfl⟩
  · rw [if_neg hc]; exact ⟨x, h, rfl⟩

theorem decRef_keepsHost (s : State) (b : Handle) : keepsHost s (s.decRef b) := by
  intro c x h
  unfold State.hostBlob at *
  rw [decRef_find, decRef_find_graves]
  by_cases hc : c = b
  · subst hc
    rcases hb : mapFind s.blobs c with _ | blob
    · rw [hb] at h; exact ⟨x, by simpa using h, rfl⟩
    · rw [hb] at h; cases h
      by_cases hr : x.refcount ≤ 1
      · exact ⟨{ x with refcount := 0 }, by simp [lessOne, hr], rfl⟩
      · exact ⟨{ x with refcount := x.refcount - 1 }, by simp [lessOne, hr], rfl⟩
  · rw [if_neg hc, if_neg (by rintro ⟨h1, _⟩; exact hc h1)]; exact ⟨x, h, rfl⟩

theorem putPte_keepsHost (s : State) (m : Handle) (p : Nat) (e : Pte) : keepsHost s (s.putPte m p e) :=
  keepsHost_of_eq (putPte_blobs s m p e).1 (putPte_blobs s m p e).2

theorem install_keepsHost (s : State) (m : Handle) (p : Nat) (e : Pte) : keepsHost s (s.install m p e) :=
  (putPte_keepsHost s m p e).trans (incRef_keepsHost _ _)

theorem remove_keepsHost (s : State) (m : Handle) (p : Nat) : keepsHost s (s.remove m p) := by
  rcases hs : s.space m with _ | sp
  · simp only [State.remove, hs]; exact .refl s
  · rcases hp : mapFind sp.pages p with _ | e
    · simp only [State.remove, hs, hp]; exact .refl s
    · simp only [State.remove, hs, hp]
      exact (keepsHost_of_eq (s := s) (t := s.setSpace m { sp with pages := mapDel sp.pages p }) rfl rfl).trans
        (decRef_keepsHost _ e.blob)

theorem bump_keepsHost (s : State) (m : Handle) : keepsHost s (s.bump m) :=
  keepsHost_of_eq (bump_blobs s m).1 (bump_blobs s m).2

theorem newBlob_keepsHost (s : State) (cells : Memory) (len : Nat) : keepsHost s (s.newBlob cells len).2 := by
  intro c x h
  have hf := newBlob_free s cells len
  unfold State.hostBlob at *
  rw [newBlob_find, newBlob_graves]
  by_cases hc : c = (s.newBlob cells len).1
  · rw [hc, hf.1, hf.2] at h; cases h
  · rw [if_neg hc]; exact ⟨x, h, rfl⟩

theorem drawOom_keepsHost (s : State) : keepsHost s s.drawOom.2 := keepsHost_of_eq (by simp) (by simp)

theorem forPages_keepsHost {f : Nat → State → State} (h : ∀ k s, keepsHost s (f k s)) (n : Nat) (s : State) :
    keepsHost s (forPages f n s) := by
  induction n with
  | zero => exact .refl s
  | succ n ih => exact ih.trans (h n _)

/-! ### Counting (R42, R44) -/

/-- What one entry counts for a blob. -/
def refersTo (b : Handle) (e : Pte) : Nat := if e.blob = b then 1 else 0

/-- What an address space counts for a blob. -/
def spaceRefs (b : Handle) (sp : Space) : Nat := mapSum (refersTo b) sp.pages

theorem pteCount_eq (s : State) (b : Handle) : s.pteCount b = mapSum (spaceRefs b) s.mems := rfl

theorem pteCount_congr {s t : State} (h : t.mems = s.mems) (b : Handle) : t.pteCount b = s.pteCount b := by
  simp [pteCount_eq, h]

theorem pteCount_setSpace {s : State} (h : keysRising s.mems = true) {m : Handle} (sp : Space) (b : Handle) :
    (s.setSpace m sp).pteCount b + weight (spaceRefs b) (s.space m) = s.pteCount b + spaceRefs b sp :=
  mapSum_put h (spaceRefs b) m sp

theorem refersTo_le_pteCount {s : State} {m : Handle} {p : Nat} {e : Pte} (h : s.pte m p = some e) :
    1 ≤ s.pteCount e.blob := by
  unfold State.pte at h
  rcases hs : s.space m with _ | sp
  · rw [hs] at h; cases h
  · rw [hs] at h
    have h1 := weight_le_mapSum (m := sp.pages) (refersTo e.blob) p
    rw [show mapFind sp.pages p = some e from h] at h1
    have h2 := weight_le_mapSum (m := s.mems) (spaceRefs e.blob) m
    rw [show mapFind s.mems m = some sp from hs] at h2
    simp only [weight_some] at h1 h2
    have : refersTo e.blob e = 1 := by simp [refersTo]
    rw [pteCount_eq]; unfold spaceRefs at h2 ⊢; omega

/-- The counting invariant: the maps are canonical, every entry is backed, a live blob's count is the number of entries
that name it, and no handle is both live and deleted. -/
structure Counted (s : State) : Prop where
  mems : keysRising s.mems = true
  blobs : keysRising s.blobs = true
  graves : keysRising s.graves = true
  pages : ∀ m sp, s.space m = some sp → keysRising sp.pages = true
  bound : ∀ m p e, s.pte m p = some e → p < numPages
  count : ∀ b blob, mapFind s.blobs b = some blob → blob.refcount = s.pteCount b
  backed : ∀ m p e, s.pte m p = some e → ∃ blob, mapFind s.blobs e.blob = some blob ∧ e.offset + pageSize ≤ blob.len
  apart : ∀ b, mapFind s.graves b = none ∨ mapFind s.blobs b = none
  cells : ∀ b blob, s.hostBlob b = some blob → blob.cellsOk = true

theorem Counted.of_eq {s t : State} (h : Counted s) (h1 : t.mems = s.mems) (h2 : t.blobs = s.blobs)
    (h3 : t.graves = s.graves) : Counted t where
  mems := by rw [h1]; exact h.mems
  blobs := by rw [h2]; exact h.blobs
  graves := by rw [h3]; exact h.graves
  pages m sp hs := h.pages m sp (by rwa [space_congr h1] at hs)
  bound m p e he := h.bound m p e (by rwa [pte_congr h1] at he)
  count b blob hb := by rw [pteCount_congr h1]; exact h.count b blob (by rwa [h2] at hb)
  backed m p e he := by rw [h2]; exact h.backed m p e (by rwa [pte_congr h1] at he)
  apart b := by rw [h2, h3]; exact h.apart b
  cells b blob hb := h.cells b blob (by simpa [State.hostBlob, h2, h3] using hb)

theorem Counted.drawOom {s : State} (h : Counted s) : Counted s.drawOom.2 := h.of_eq (by simp) (by simp) (by simp)

/-- The number of entries that name a blob, after one entry is put. -/
theorem pteCount_putPte {s : State} (h : Counted s) {m : Handle} (hm : (s.space m).isSome = true) (p : Nat) (e : Pte)
    (b : Handle) :
    (s.putPte m p e).pteCount b + weight (refersTo b) (s.pte m p) = s.pteCount b + refersTo b e := by
  rcases hs : s.space m with _ | sp
  · rw [hs] at hm; cases hm
  · have h1 := pteCount_setSpace (s := s) h.mems (m := m) { sp with pages := mapPut sp.pages p e } b
    have h2 := mapSum_put (h.pages m sp hs) (refersTo b) p e
    have h3 : s.pte m p = mapFind sp.pages p := by simp [State.pte, hs]
    have h4 : s.putPte m p e = s.setSpace m { sp with pages := mapPut sp.pages p e } := by simp [State.putPte, hs]
    rw [h4, h3]
    rw [hs] at h1
    simp only [weight_some] at h1
    unfold spaceRefs at h1
    simp only at h1
    omega

theorem pteCount_remove {s : State} (h : Counted s) {m : Handle} {p : Nat} (b : Handle) :
    (s.remove m p).pteCount b + weight (refersTo b) (s.pte m p) = s.pteCount b := by
  rcases hs : s.space m with _ | sp
  · simp [State.remove, State.pte, hs]
  · rcases hp : mapFind sp.pages p with _ | e
    · simp [State.remove, State.pte, hs, hp]
    · have h1 := pteCount_setSpace (s := s) h.mems (m := m) { sp with pages := mapDel sp.pages p } b
      have h2 := mapSum_del (h.pages m sp hs) (refersTo b) p
      have h3 : s.pte m p = some e := by simp [State.pte, hs, hp]
      have h4 : s.remove m p = (s.setSpace m { sp with pages := mapDel sp.pages p }).decRef e.blob := by
        simp [State.remove, hs, hp]
      rw [h4, pteCount_congr (decRef_mems _ _), h3]
      rw [hs] at h1; rw [hp] at h2
      simp only [weight_some] at h1 h2 ⊢
      unfold spaceRefs at h1
      simp only at h1
      omega

theorem hostBlob_eq_of_decRef {s : State} {b c : Handle} {x : Blob} (h : (s.decRef b).hostBlob c = some x) :
    ∃ y, s.hostBlob c = some y ∧ x.cells = y.cells ∧ x.len = y.len := by
  unfold State.hostBlob at *
  rw [decRef_find, decRef_find_graves] at h
  by_cases hc : c = b
  · subst hc
    rcases hb : mapFind s.blobs c with _ | blob
    · rw [hb] at h; exact ⟨x, by simpa using h, rfl, rfl⟩
    · rw [hb] at h
      refine ⟨blob, rfl, ?_⟩
      by_cases hr : blob.refcount ≤ 1
      · simp [lessOne, hr] at h; subst h; exact ⟨rfl, rfl⟩
      · simp [lessOne, hr] at h; subst h; exact ⟨rfl, rfl⟩
  · rw [if_neg hc, if_neg (by rintro ⟨h1, _⟩; exact hc h1)] at h; exact ⟨x, h, rfl, rfl⟩

theorem Blob.cellsOk_congr {x y : Blob} (h1 : x.cells = y.cells) (h2 : x.len = y.len) : x.cellsOk = y.cellsOk := by
  simp [Blob.cellsOk, h1, h2]

/-- `remove` keeps the counting invariant. -/
theorem Counted.remove {s : State} (h : Counted s) (m : Handle) (p : Nat) : Counted (s.remove m p) := by
  rcases hs : s.space m with _ | sp
  · simpa [State.remove, hs] using h
  · rcases hp : mapFind sp.pages p with _ | e
    · simpa [State.remove, hs, hp] using h
    · have h3 : s.pte m p = some e := by simp [State.pte, hs, hp]
      have h4 : s.remove m p = (s.setSpace m { sp with pages := mapDel sp.pages p }).decRef e.blob := by
        simp [State.remove, hs, hp]
      have hfind : ∀ x, mapFind (s.remove m p).blobs x =
          if x = e.blob then (mapFind s.blobs e.blob).bind lessOne else mapFind s.blobs x := by
        intro x; rw [h4, decRef_find]; rfl
      have hgr : ∀ x, mapFind (s.remove m p).graves x =
          if x = e.blob ∧ ((mapFind s.blobs e.blob).map fun blob => decide (blob.refcount ≤ 1)) = some true then
            (mapFind s.blobs e.blob).map fun blob => { blob with refcount := 0 } else mapFind s.graves x := by
        intro x; rw [h4, decRef_find_graves]; rfl
      have hcnt : ∀ b, (s.remove m p).pteCount b + refersTo b e = s.pteCount b := by
        intro b; have := pteCount_remove h (m := m) (p := p) b; rw [h3] at this; simpa using this
      refine ⟨?_, ?_, ?_, ?_, ?_, ?_, ?_, ?_, ?_⟩
      · rw [h4, decRef_mems]; exact keysRising_put h.mems _ _
      · rw [h4]; unfold State.decRef; split
        · exact h.blobs
        · split
          · exact keysRising_del h.blobs _
          · exact keysRising_put h.blobs _ _
      · rw [h4]; unfold State.decRef; split
        · exact h.graves
        · split
          · exact keysRising_put h.graves _ _
          · exact h.graves
      · intro m2 sp2 h2
        rw [remove_space] at h2
        split at h2
        · rw [hs] at h2; cases h2; exact keysRising_del (h.pages m sp hs) p
        · exact h.pages m2 sp2 h2
      · intro m2 p2 e2 h2
        rw [remove_pte] at h2
        split at h2
        · cases h2
        · exact h.bound m2 p2 e2 h2
      · intro b blob hb
        rw [hfind] at hb
        have hc := hcnt b
        by_cases hbe : b = e.blob
        · subst hbe
          rw [if_pos rfl] at hb
          rcases hB : mapFind s.blobs e.blob with _ | old
          · rw [hB] at hb; cases hb
          · rw [hB] at hb
            simp only [Option.bind_some, lessOne] at hb
            split at hb
            · cases hb
            · cases hb
              have := h.count _ _ hB
              simp only [refersTo, ↓reduceIte] at hc ⊢; omega
        · rw [if_neg hbe] at hb
          have := h.count _ _ hb
          simp only [refersTo, if_neg (Ne.symm hbe)] at hc; omega
      · intro m2 p2 e2 h2
        have h2' : s.pte m2 p2 = some e2 := by rw [remove_pte] at h2; split at h2 <;> [cases h2; exact h2]
        obtain ⟨blob, hb, hl⟩ := h.backed m2 p2 e2 h2'
        rw [hfind]
        by_cases hbe : e2.blob = e.blob
        · rw [if_pos hbe, ← hbe, hb]
          have h1 := refersTo_le_pteCount h2
          have h5 := hcnt e2.blob
          have h6 := h.count _ _ hb
          have h7 : refersTo e2.blob e = 1 := by simp [refersTo, hbe]
          refine ⟨{ blob with refcount := blob.refcount - 1 }, ?_, hl⟩
          simp only [Option.bind_some, lessOne]
          rw [if_neg (by omega)]
        · rw [if_neg hbe]; exact ⟨blob, hb, hl⟩
      · intro b
        rw [hfind, hgr]
        by_cases hbe : b = e.blob
        · subst hbe
          rw [if_pos rfl]
          rcases hB : mapFind s.blobs e.blob with _ | old
          · exact .inr rfl
          · by_cases hr : old.refcount ≤ 1
            · right; simp [lessOne, hr]
            · left
              rw [if_neg (by simp [hr])]
              rcases h.apart e.blob with h1 | h1
              · exact h1
              · rw [h1] at hB; cases hB
        · rw [if_neg hbe, if_neg (by rintro ⟨h1, _⟩; exact hbe h1)]; exact h.apart b
      · intro b blob hb
        rw [h4] at hb
        obtain ⟨y, hy, e1, e2⟩ := hostBlob_eq_of_decRef hb
        rw [Blob.cellsOk_congr e1 e2]
        exact h.cells b y hy

theorem hostBlob_eq_of_incRef {s : State} {b c : Handle} {x : Blob} (h : (s.incRef b).hostBlob c = some x) :
    ∃ y, s.hostBlob c = some y ∧ x.cells = y.cells ∧ x.len = y.len := by
  unfold State.hostBlob at *
  rw [incRef_find, incRef_graves] at h
  by_cases hc : c = b
  · subst hc
    rcases hb : mapFind s.blobs c with _ | blob
    · rw [hb] at h; exact ⟨x, by simpa using h, rfl, rfl⟩
    · rw [hb] at h; simp at h; subst h; exact ⟨blob, rfl, rfl, rfl⟩
  · rw [if_neg hc] at h; exact ⟨x, h, rfl, rfl⟩

/-- `install` keeps the counting invariant, where the page was unmapped, the space exists and the entry is backed. -/
theorem Counted.install {s : State} (h : Counted s) {m : Handle} {p : Nat} {e : Pte} (hm : (s.space m).isSome = true)
    (hp : s.pte m p = none) (hlt : p < numPages)
    (hb : ∃ blob, mapFind s.blobs e.blob = some blob ∧ e.offset + pageSize ≤ blob.len) : Counted (s.install m p e) := by
  have hbl := putPte_blobs s m p e
  have hfind : ∀ x, mapFind (s.install m p e).blobs x =
      if x = e.blob then (mapFind s.blobs e.blob).map fun blob => { blob with refcount := blob.refcount + 1 }
      else mapFind s.blobs x := by
    intro x; unfold State.install; rw [incRef_find, hbl.1]
  have hgr : (s.install m p e).graves = s.graves := by unfold State.install; rw [incRef_graves, hbl.2]
  have hcnt : ∀ b, (s.install m p e).pteCount b = s.pteCount b + refersTo b e := by
    intro b
    have := pteCount_putPte h hm p e b
    rw [hp] at this
    unfold State.install
    rw [pteCount_congr (incRef_mems _ _)]; simpa using this
  rcases hs : s.space m with _ | sp
  · rw [hs] at hm; cases hm
  · refine ⟨?_, ?_, ?_, ?_, ?_, ?_, ?_, ?_, ?_⟩
    · unfold State.install; rw [incRef_mems]; unfold State.putPte; rw [hs]; exact keysRising_put h.mems _ _
    · unfold State.install State.incRef; rw [hbl.1]; split
      · rw [hbl.1]; exact h.blobs
      · exact keysRising_put h.blobs _ _
    · rw [hgr]; exact h.graves
    · intro m2 sp2 h2
      rw [install_space] at h2
      split at h2
      · rw [hs] at h2; cases h2; exact keysRising_put (h.pages m sp hs) p e
      · exact h.pages m2 sp2 h2
    · intro m2 p2 e2 h2
      rw [install_pte] at h2
      split at h2
      · rename_i hc; rw [hc.2]; exact hlt
      · exact h.bound m2 p2 e2 h2
    · intro b blob hbb
      rw [hfind] at hbb
      rw [hcnt]
      by_cases hbe : b = e.blob
      · subst hbe
        rw [if_pos rfl] at hbb
        rcases hB : mapFind s.blobs e.blob with _ | old
        · rw [hB] at hbb; cases hbb
        · rw [hB] at hbb; cases hbb
          have := h.count _ _ hB
          simp [refersTo]; omega
      · rw [if_neg hbe] at hbb
        have := h.count _ _ hbb
        simp [refersTo, Ne.symm hbe]; omega
    · intro m2 p2 e2 h2
      have hback : ∃ blob, mapFind s.blobs e2.blob = some blob ∧ e2.offset + pageSize ≤ blob.len := by
        rw [install_pte] at h2
        split at h2
        · rw [hs] at h2; cases h2; exact hb
        · exact h.backed m2 p2 e2 h2
      obtain ⟨blob, hbb, hl⟩ := hback
      rw [hfind]
      by_cases hbe : e2.blob = e.blob
      · rw [if_pos hbe, ← hbe, hbb]; exact ⟨_, rfl, hl⟩
      · rw [if_neg hbe]; exact ⟨blob, hbb, hl⟩
    · intro b
      rw [hgr, hfind]
      by_cases hbe : b = e.blob
      · subst hbe
        rcases h.apart e.blob with h1 | h1
        · exact .inl h1
        · right; rw [if_pos rfl, h1]; rfl
      · rw [if_neg hbe]; exact h.apart b
    · intro b blob hbb
      obtain ⟨y, hy, e1, e2⟩ := hostBlob_eq_of_incRef (s := s.putPte m p e) hbb
      rw [Blob.cellsOk_congr e1 e2]
      exact h.cells b y (by simpa [State.hostBlob, hbl.1, hbl.2] using hy)

/-- Changing the flags of an entry keeps the counting invariant. -/
theorem Counted.putPte_flags {s : State} (h : Counted s) {m : Handle} {p : Nat} {e : Pte} (hp : s.pte m p = some e)
    (flags : BitVec 7) : Counted (s.putPte m p { e with flags := flags }) := by
  have hbl := putPte_blobs s m p { e with flags := flags }
  rcases hs : s.space m with _ | sp
  · simp [State.pte, hs] at hp
  · have hm : (s.space m).isSome = true := by rw [hs]; rfl
    have hcnt : ∀ b, (s.putPte m p { e with flags := flags }).pteCount b = s.pteCount b := by
      intro b
      have := pteCount_putPte h hm p { e with flags := flags } b
      rw [hp] at this
      simpa [refersTo] using this
    refine ⟨?_, ?_, ?_, ?_, ?_, ?_, ?_, ?_, ?_⟩
    · unfold State.putPte; rw [hs]; exact keysRising_put h.mems _ _
    · rw [hbl.1]; exact h.blobs
    · rw [hbl.2]; exact h.graves
    · intro m2 sp2 h2
      rw [putPte_space] at h2
      split at h2
      · rw [hs] at h2; cases h2; exact keysRising_put (h.pages m sp hs) p _
      · exact h.pages m2 sp2 h2
    · intro m2 p2 e2 h2
      rw [putPte_pte] at h2
      split at h2
      · rename_i hc; rw [hc.2]; exact h.bound m p e hp
      · exact h.bound m2 p2 e2 h2
    · intro b blob hb; rw [hcnt]; exact h.count b blob (by rwa [hbl.1] at hb)
    · intro m2 p2 e2 h2
      rw [hbl.1]
      rw [putPte_pte] at h2
      split at h2
      · rw [hs] at h2; cases h2; exact h.backed m p e hp
      · exact h.backed m2 p2 e2 h2
    · intro b; rw [hbl.1, hbl.2]; exact h.apart b
    · intro b blob hb; exact h.cells b blob (by simpa [State.hostBlob, hbl.1, hbl.2] using hb)

theorem spaceRefs_gen (b : Handle) (sp : Space) (g : Nat) : spaceRefs b { sp with gen := g } = spaceRefs b sp := rfl

/-- A change of a space that keeps its pages keeps the counting invariant. -/
theorem Counted.setSpace_pages {s : State} (h : Counted s) {m : Handle} {sp sp2 : Space} (hs : s.space m = some sp)
    (hp : sp2.pages = sp.pages) : Counted (s.setSpace m sp2) := by
  have hpte : ∀ x y, (s.setSpace m sp2).pte x y = s.pte x y := by
    intro x y
    unfold State.pte
    rw [setSpace_space]
    split
    · rename_i hx; subst hx; rw [hs]; simp [hp]
    · rfl
  have hcnt : ∀ b, (s.setSpace m sp2).pteCount b = s.pteCount b := by
    intro b
    have h1 := pteCount_setSpace (s := s) h.mems (m := m) sp2 b
    rw [hs] at h1
    have : spaceRefs b sp2 = spaceRefs b sp := by simp [spaceRefs, hp]
    simp only [weight_some] at h1; omega
  refine ⟨keysRising_put h.mems _ _, h.blobs, h.graves, ?_, ?_, ?_, ?_, h.apart, h.cells⟩
  · intro m2 s2 h2
    rw [setSpace_space] at h2
    split at h2
    · cases h2; rw [hp]; exact h.pages m sp hs
    · exact h.pages m2 s2 h2
  · intro m2 p e he; rw [hpte] at he; exact h.bound m2 p e he
  · intro b blob hb; rw [hcnt]; exact h.count b blob hb
  · intro m2 p e he; rw [hpte] at he; exact h.backed m2 p e he

theorem Counted.bump {s : State} (h : Counted s) (m : Handle) : Counted (s.bump m) := by
  unfold State.bump
  split
  · exact h
  · rename_i sp hs; exact h.setSpace_pages hs rfl

theorem pteCount_zero {s : State} (h : Counted s) {b : Handle} (hb : mapFind s.blobs b = none) : s.pteCount b = 0 := by
  have key : ∀ sp ∈ s.mems, spaceRefs b sp.2 = 0 := by
    intro e he
    have hs : s.space e.1 = some e.2 := mapFind_of_mem h.mems he
    have hr := h.pages _ _ hs
    have : ∀ x ∈ e.2.pages, refersTo b x.2 = 0 := by
      intro x hx
      have hpte : s.pte e.1 x.1 = some x.2 := by
        simp [State.pte, hs, mapFind_of_mem hr hx]
      obtain ⟨blob, h1, -⟩ := h.backed _ _ _ hpte
      unfold refersTo
      rw [if_neg]; intro hh; rw [hh, hb] at h1; cases h1
    unfold spaceRefs
    generalize e.2.pages = l at this
    induction l with
    | nil => rfl
    | cons y ys ih =>
      obtain ⟨j, w⟩ := y
      simp only [mapSum]
      rw [show refersTo b w = 0 from this (j, w) List.mem_cons_self, ih fun x hx => this x (List.mem_cons_of_mem _ hx)]
  rw [pteCount_eq]
  generalize s.mems = l at key
  induction l with
  | nil => rfl
  | cons y ys ih =>
    obtain ⟨j, w⟩ := y
    simp only [mapSum]
    rw [show spaceRefs b w = 0 from key (j, w) List.mem_cons_self, ih fun x hx => key x (List.mem_cons_of_mem _ hx)]

/-- `newblob` keeps the counting invariant. -/
theorem Counted.newBlob {s : State} (h : Counted s) {cells : Memory} {len : Nat}
    (hc : ({ cells := cells, len := len, refcount := 0 } : Blob).cellsOk = true) : Counted (s.newBlob cells len).2 := by
  have hf := newBlob_free s cells len
  refine ⟨h.mems, keysRising_put h.blobs _ _, h.graves, h.pages, h.bound, ?_, ?_, ?_, ?_⟩
  · intro b blob hb
    rw [pteCount_congr (newBlob_mems s cells len)]
    rw [newBlob_find] at hb
    split at hb
    · rename_i hx; cases hb; subst hx; exact (pteCount_zero h hf.1).symm
    · exact h.count b blob hb
  · intro m p e he
    obtain ⟨blob, h1, h2⟩ := h.backed m p e he
    refine ⟨blob, ?_, h2⟩
    rw [newBlob_find, if_neg]
    · exact h1
    · intro hh; rw [hh, hf.1] at h1; cases h1
  · intro b
    rw [newBlob_find, newBlob_graves]
    split
    · rename_i hx; subst hx; exact .inl hf.2
    · exact h.apart b
  · intro b blob hb
    unfold State.hostBlob at hb
    rw [newBlob_find, newBlob_graves] at hb
    split at hb
    · rename_i x hx
      split at hx
      · cases hx; cases hb; exact hc
      · cases hb; exact h.cells b _ (by simp [State.hostBlob, hx])
    · rename_i hx
      split at hx
      · cases hx
      · exact h.cells b blob (by simp only [State.hostBlob, hx]; exact hb)

end Sys2Proof.Machine
end

