-- ==== Sys2Proof/Laws/Cache.lean ====
section
/-! SUPPORT. What a translation and an access through a cache can change, said once: frames of `translate` and `reach`,
the rule by which any relation kept by one reach and one store is kept by a whole access, and that an access taken up where it
was left is the access done at once. -/

namespace Sys2Proof.Machine

/-! ### Translation -/

theorem grow_sameRest (s : State) (m : Handle) (p : Nat) : sameRest s (s.grow m p).2 := by
  unfold State.grow
  split
  · exact .refl s
  · split
    · split
      · exact drawOom_sameRest s
      · exact (((drawOom_sameRest s).trans (newBlob_sameRest _ _ _)).trans (install_sameRest _ _ _ _)).trans
          (bump_sameRest _ _)
    · exact .refl s

theorem replace_sameRest (s : State) (m : Handle) (p : Nat) (e : Pte) : sameRest s (s.replace m p e) :=
  (remove_sameRest s m p).trans (install_sameRest _ _ _ _)

theorem duplicate_sameRest (s : State) (m : Handle) (p : Nat) (e : Pte) : sameRest s (s.duplicate m p e).2 := by
  unfold State.duplicate
  split
  · exact drawOom_sameRest s
  · split
    · exact .refl s
    · split
      · exact (((drawOom_sameRest s).trans (newBlob_sameRest _ _ _)).trans (replace_sameRest _ _ _ _)).trans
          (bump_sameRest _ _)
      · exact .refl s

theorem translateMapped_sameRest (s : State) (m : Handle) (addr : Nat) (kind : Access) (e : Pte) :
    sameRest s (s.translateMapped m addr kind e).2 := by
  have h := duplicate_sameRest s m (pageOf addr) e
  unfold State.translateMapped
  split
  · exact .refl s
  · split
    · split
      · split <;> simp_all
      · exact .refl s
    · exact .refl s

theorem translate_sameRest (s : State) (m : Handle) (addr : Nat) (kind : Access) : sameRest s (s.translate m addr kind).2 := by
  have h := grow_sameRest s m (pageOf addr)
  unfold State.translate
  split
  · exact .refl s
  · split
    · exact translateMapped_sameRest _ _ _ _ _
    · split
      · simp_all
      · next e t heq =>
        rw [heq] at h
        exact h.trans (translateMapped_sameRest _ _ _ _ _)

/-! ### One context's cache -/

/-- Only the cache of a context, and the stores and the oracle's draws, may differ. -/
def onlyCache (c : BitVec 32) (s t : State) : Prop :=
  t.params = s.params ∧ t.port = s.port ∧ (∀ d, d ≠ c → t.ctx d = s.ctx d) ∧
    t.cpu c = s.cpu c ∧ t.fpu c = s.fpu c ∧ t.rm c = s.rm c ∧ (t.tlb c).mem = (s.tlb c).mem

theorem onlyCache.refl (c : BitVec 32) (s : State) : onlyCache c s s := ⟨rfl, rfl, fun _ _ => rfl, rfl, rfl, rfl, rfl⟩

theorem onlyCache.trans {c : BitVec 32} {s t u : State} (h : onlyCache c s t) (g : onlyCache c t u) : onlyCache c s u :=
  ⟨g.1.trans h.1, g.2.1.trans h.2.1, fun d hd => (g.2.2.1 d hd).trans (h.2.2.1 d hd), g.2.2.2.1.trans h.2.2.2.1,
    g.2.2.2.2.1.trans h.2.2.2.2.1, g.2.2.2.2.2.1.trans h.2.2.2.2.2.1, g.2.2.2.2.2.2.trans h.2.2.2.2.2.2⟩

theorem onlyCache.of_sameRest {s t : State} (h : sameRest s t) (c : BitVec 32) : onlyCache c s t :=
  have hc := State.ctx_congr h.2.1
  ⟨h.1, h.2.2, fun d _ => hc d, by simp [State.cpu, hc], by simp [State.fpu, hc], by simp [State.rm, hc],
    by simp [State.tlb, hc]⟩

theorem setTlb_onlyCache (s : State) (c : BitVec 32) (v : Tlb) (h : v.mem = (s.tlb c).mem) : onlyCache c s (s.setTlb c v) :=
  ⟨rfl, rfl, fun _ hd => State.setTlb_ctx_other s v hd, by simp, by simp, by simp, by simp [h]⟩

theorem revalidate_onlyCache (s : State) (c : BitVec 32) : onlyCache c s (s.revalidate c) := by
  unfold State.revalidate
  split
  · exact .refl c s
  · split
    · exact .refl c s
    · exact setTlb_onlyCache s c _ rfl

theorem genTest_onlyCache (s : State) (c : BitVec 32) : onlyCache c s (s.genTest c) := by
  unfold State.genTest
  split
  · exact revalidate_onlyCache s c
  · exact .refl c s

theorem fill_onlyCache (s : State) (c : BitVec 32) (p : Nat) (slot : Slot) : onlyCache c s (s.fill c p slot) :=
  setTlb_onlyCache s c _ rfl

theorem reach_onlyCache (s : State) (c : BitVec 32) (addr : Nat) (kind : Access) : onlyCache c s (s.reach c addr kind).2 := by
  have hg := genTest_onlyCache s c
  unfold State.reach
  simp only
  split
  · exact hg
  · split
    · exact hg
    · next m _ =>
      have ht := onlyCache.of_sameRest (translate_sameRest (s.genTest c) m addr kind) c
      split <;> rename_i heq <;> rw [heq] at ht
      · exact (hg.trans ht).trans (fill_onlyCache _ _ _ _)
      · exact hg.trans ht
      · exact hg.trans ht

theorem storeHost_sameRest {s t : State} {b : Handle} {off : Int} {v : Byte} (h : s.storeHost b off v = some t) :
    sameRest s t := by
  unfold State.storeHost at h
  split at h
  · cases h
  · split at h
    · split at h <;> cases h <;> exact ⟨rfl, rfl, rfl⟩
    · cases h

/-! ### Accesses -/

/-- The state an access ends in meets a property, however it ends. -/
def Served.Ends {α : Type} (P : State → Prop) : Served α → Prop
  | .done _ t => P t
  | .fault _ t => P t
  | .noSuchByte => True

theorem Served.Ends.mono {α : Type} {P Q : State → Prop} {x : Served α} (h : x.Ends P) (hpq : ∀ t, P t → Q t) :
    x.Ends Q := by
  cases x with
  | done v t => exact hpq t h
  | fault a t => exact hpq t h
  | noSuchByte => trivial

theorem Served.Ends.andThen {α β : Type} {P Q : State → Prop} {x : Served α} {f : α → State → Served β} (h : x.Ends P)
    (hpq : ∀ t, P t → Q t) (hf : ∀ v t, P t → (f v t).Ends Q) : (x.andThen f).Ends Q := by
  cases x with
  | done v t => exact hf v t h
  | fault a t => exact hpq t h
  | noSuchByte => trivial

theorem Served.andThen_assoc {α β γ : Type} (x : Served α) (f : α → State → Served β) (g : β → State → Served γ) :
    (x.andThen f).andThen g = x.andThen fun v t => (f v t).andThen g := by
  cases x <;> rfl

/-- A host pointer that the piece already has costs nothing; else a relation is kept that one reach keeps. -/
theorem locate_keeps {R : State → State → Prop} {c : BitVec 32} {kind : Access} (refl : ∀ s, R s s)
    (hreach : ∀ s addr, R s (s.reach c addr kind).2) (s : State) (place : Place) : R s (s.locate c place kind).2 := by
  unfold State.locate
  split
  · exact refl s
  · exact hreach s place.addr

/-- A relation that is reflexive and kept by one reach is kept by reading one byte. -/
theorem readOne_ends {R : State → State → Prop} {c : BitVec 32} (refl : ∀ s, R s s)
    (hreach : ∀ s addr, R s (s.reach c addr .read).2) (s : State) (place : Place) : (s.readOne c place).Ends (R s) := by
  have h := locate_keeps refl hreach s place
  unfold State.readOne
  split
  · next heq =>
    rw [heq] at h
    split
    · exact h
    · trivial
  · next heq => rw [heq] at h; exact h
  · trivial

/-- The same for a run of bytes, for a transitive relation. -/
theorem readRun_ends {R : State → State → Prop} {c : BitVec 32} (refl : ∀ s, R s s)
    (trans : ∀ s t u, R s t → R t u → R s u) (hreach : ∀ s addr, R s (s.reach c addr .read).2) (n : Nat) :
    ∀ (s : State) (place : Place), (s.readRun c n place).Ends (R s) := by
  induction n with
  | zero => exact fun s _ => refl s
  | succ n ih =>
    intro s place
    exact (readOne_ends refl hreach s place).andThen (fun _ h => h) fun one t h =>
      (ih t one.2).andThen (Q := R s) (fun u g => trans s t u h g) fun _ u g => trans s t u h g

/-- The same for a run of written bytes, for a relation that a store through a host pointer keeps too. -/
theorem writeRun_ends {R : State → State → Prop} {c : BitVec 32} (refl : ∀ s, R s s)
    (trans : ∀ s t u, R s t → R t u → R s u) (hreach : ∀ s addr, R s (s.reach c addr .write).2)
    (hstore : ∀ s t b off v, s.storeHost b off v = some t → R s t) (data : List Byte) :
    ∀ (s : State) (place : Place), (s.writeRun c data place).Ends (R s) := by
  induction data with
  | nil => exact fun s _ => refl s
  | cons v rest ih =>
    intro s place
    have hp : (s.writeOne c place v).Ends (R s) := by
      have h := locate_keeps refl hreach s place
      unfold State.writeOne
      split
      · next heq =>
        rw [heq] at h
        split
        · next hw => exact trans _ _ _ h (hstore _ _ _ _ _ hw)
        · trivial
      · next heq => rw [heq] at h; exact h
      · trivial
    exact hp.andThen (fun _ h => h) fun next t h => (ih t next).mono fun u g => trans s t u h g

/-- A run of `m + n` bytes is a run of `m` and then one of `n` from the place it stopped at. -/
theorem readRun_add (c : BitVec 32) (m n : Nat) (s : State) (place : Place) :
    s.readRun c (m + n) place = (s.readRun c m place).andThen fun r t =>
      (t.readRun c n r.2).andThen fun q u => .done (r.1 ++ q.1, q.2) u := by
  induction m generalizing s place with
  | zero =>
    rw [Nat.zero_add]
    simp only [State.readRun, Served.andThen]
    cases s.readRun c n place <;> rfl
  | succ m ih =>
    rw [Nat.succ_add]
    simp only [State.readRun, ih, Served.andThen_assoc]
    rfl

theorem writeRun_append (c : BitVec 32) (front back : List Byte) (s : State) (place : Place) :
    s.writeRun c (front ++ back) place = (s.writeRun c front place).andThen fun next t => t.writeRun c back next := by
  induction front generalizing s place with
  | nil => rfl
  | cons v rest ih => simp only [List.cons_append, State.writeRun, ih, Served.andThen_assoc]

/-- A run of bytes that is served gives as many as were asked for. -/
theorem readRun_length (c : BitVec 32) (n : Nat) {s t : State} {place : Place} {r : List Byte × Place}
    (h : s.readRun c n place = .done r t) : r.1.length = n := by
  induction n generalizing s t place r with
  | zero => cases h; rfl
  | succ n ih =>
    simp only [State.readRun] at h
    rcases h1 : s.readOne c place with ⟨one, u⟩ | ⟨a, u⟩ | _ <;> rw [h1] at h <;> simp only [Served.andThen] at h
    · rcases h2 : u.readRun c n one.2 with ⟨more, w⟩ | ⟨a, w⟩ | _ <;> rw [h2] at h <;> simp only [reduceCtorEq] at h
      cases h
      simp [ih h2]
    · cases h
    · cases h

/-! ### Accesses of several bytes -/

/-- A relation kept by one reach of either kind and by one store is kept by moving any number of bytes of an access. -/
theorem move_ends {R : State → State → Prop} {c : BitVec 32} (refl : ∀ s, R s s) (trans : ∀ s t u, R s t → R t u → R s u)
    (hreach : ∀ s addr kind, R s (s.reach c addr kind).2)
    (hstore : ∀ s t b off v, s.storeHost b off v = some t → R s t) (s : State) (k : Nat) (x : Transfer) :
    (s.move c k x).Ends (R s) := by
  have hr := readRun_ends (c := c) refl trans (fun s a => hreach s a .read) k s x.place
  unfold State.move
  split
  · exact hr.andThen (fun _ h => h) fun _ _ h => h
  · exact (writeRun_ends refl trans (fun s a => hreach s a .write) hstore _ s x.place).andThen (fun _ h => h) fun _ _ h => h
  · exact hr.andThen (fun _ h => h) fun _ _ h => h

theorem move_onlyCache (s : State) (c : BitVec 32) (k : Nat) (x : Transfer) : (s.move c k x).Ends (onlyCache c s) :=
  move_ends (onlyCache.refl c) (fun _ _ _ h g => h.trans g) (fun s a kind => reach_onlyCache s c a kind)
    (fun _ _ _ _ _ h => .of_sameRest (storeHost_sameRest h) c) s k x

/-- Moving takes the bytes moved off those left. -/
theorem move_left (c : BitVec 32) (k : Nat) {s t : State} {x y : Transfer} (h : s.move c k x = .done y t) :
    y.left = x.left - k := by
  obtain ⟨place, job⟩ := x
  cases job <;> simp only [State.move] at h
  case write rest =>
    rcases h1 : s.writeRun c (rest.take k) place with ⟨r, u⟩ | ⟨a, u⟩ | _ <;> rw [h1] at h <;> cases h
    simp [Transfer.left]
  all_goals
    rcases h1 : s.readRun c k place with ⟨r, u⟩ | ⟨a, u⟩ | _ <;> rw [h1] at h <;> cases h
    simp [Transfer.left]

/-- Moving `m + n` bytes with nothing between is moving `m` and then `n`. -/
theorem move_add (c : BitVec 32) (m n : Nat) (s : State) (x : Transfer) :
    s.move c (m + n) x = (s.move c m x).andThen fun y t => t.move c n y := by
  obtain ⟨place, job⟩ := x
  cases job <;> simp only [State.move, Served.andThen_assoc]
  case write rest =>
    rw [List.take_add, writeRun_append, Served.andThen_assoc]
    simp only [Served.andThen, List.drop_drop]
  all_goals
    rw [readRun_add, Served.andThen_assoc]
    rcases s.readRun c m place with ⟨r, u⟩ | ⟨a, u⟩ | _ <;> try rfl
    simp only [Served.andThen]
    rcases u.readRun c n r.2 with ⟨q, w⟩ | ⟨a, w⟩ | _ <;> simp [Nat.sub_sub]

/-- How an access goes on: it answers, it faults, or it is left under way with fewer bytes; and what it may change. -/
theorem advance_cases {s t : State} {c : BitVec 32} {x : Transfer} (h : s.advance c x = .next t) :
    ∃ u, onlyCache c s u ∧
      ((∃ r, t = u.ok r) ∨ (∃ a, t = u.pageFault c a) ∨ ∃ y, t = u.park c y ∧ 0 < y.left ∧ y.left < x.left) := by
  have hs : onlyCache c s (s.slice x.left).2 :=
    .of_sameRest ⟨s.slice_params x.left, s.slice_ctxs x.left, s.slice_port x.left⟩ c
  have hm := move_onlyCache (s.slice x.left).2 c (s.slice x.left).1 x
  unfold State.advance at h
  split at h
  · next y u heq =>
    rw [heq] at hm
    refine ⟨u, hs.trans hm, ?_⟩
    split at h
    · cases h
      exact .inl ⟨_, rfl⟩
    · next hy =>
      cases h
      have hl := move_left c _ heq
      have := s.slice_pos (n := x.left) (by omega)
      exact .inr (.inr ⟨y, rfl, by omega, by omega⟩)
  · next a u heq =>
    rw [heq] at hm
    cases h
    exact ⟨u, hs.trans hm, .inr (.inl ⟨a, rfl⟩)⟩
  · cases h

/-- Up to a 32-bit displacement the decoder reads single bytes: a relation that a reach keeps, it keeps. -/
theorem decodeModRm_ends {R : State → State → Prop} {c : BitVec 32} (refl : ∀ s, R s s)
    (trans : ∀ s t u, R s t → R t u → R s u) (hreach : ∀ s addr, R s (s.reach c addr .read).2)
    (s : State) (cursor : BitVec 32) : (s.decodeModRm c cursor).Ends (R s) := by
  have h8 : ∀ (s : State) (a : BitVec 32), (s.fetch8 c a).Ends (R s) := fun s a =>
    (readOne_ends refl hreach s _).andThen (fun _ h => h) fun _ _ h => h
  have hmem : ∀ (s : State) (a : BitVec 32) (mod : BitVec 2) (reg : BitVec 3) (adr : Addressing),
      (s.decodeMem c a mod reg adr).Ends (R s) := by
    intro s a mod reg adr
    unfold State.decodeMem
    split
    · exact (h8 s a).andThen (fun _ h => h) fun _ _ h => h
    · split <;> exact refl s
  refine (h8 s cursor).andThen (fun _ h => h) fun b t h => ?_
  split
  · exact h
  · split
    · exact (h8 t _).andThen (fun u g => trans s t u h g) fun sib u g =>
        (hmem u _ _ _ _).mono fun v k => trans s t v h (trans t u v g k)
    · exact (hmem t _ _ _ _).mono fun v k => trans s t v h k

theorem decodeModRm_onlyCache (s : State) (c cursor : BitVec 32) : (s.decodeModRm c cursor).Ends (onlyCache c s) :=
  decodeModRm_ends (onlyCache.refl c) (fun _ _ _ h g => h.trans g) (fun s a => reach_onlyCache s c a .read) s cursor

end Sys2Proof.Machine
end

