-- ==== Sys2Proof/Laws/Codec.lean ====
section
/-! SUPPORT. What each reader of the command packet does on what the encoder wrote for the same field (R73, R110; log 1). -/

namespace Sys2Proof

theorem leBytes_length (n v : Nat) : (leBytes n v).length = n := by
  induction n generalizing v with
  | zero => rfl
  | succ n ih => simp [leBytes, ih]

theorem leNat_leBytes (n v : Nat) : leNat (leBytes n v) = v % 256 ^ n := by
  induction n generalizing v with
  | zero => simp [leBytes, leNat, Nat.mod_one]
  | succ n ih =>
    have h8 : (2 : Nat) ^ 8 = 256 := by norm_num
    simp only [leBytes, leNat, ih, BitVec.toNat_ofNat, h8]
    rw [pow_succ', Nat.mod_mul]

/-- A number below `256 ^ n` survives its `n` bytes. -/
theorem leNat_leBytes_of_lt {n v : Nat} (h : v < 256 ^ n) : leNat (leBytes n v) = v := by
  rw [leNat_leBytes, Nat.mod_eq_of_lt h]

@[simp] theorem take_leBytes (n v : Nat) (rest : List Byte) : (leBytes n v ++ rest).take n = leBytes n v := by
  simp [leBytes_length]

@[simp] theorem drop_leBytes (n v : Nat) (rest : List Byte) : (leBytes n v ++ rest).drop n = rest := by
  simp [leBytes_length]

theorem two_pow_le_fieldBytes (w : Nat) : 2 ^ w ≤ 256 ^ fieldBytes w := by
  have : (256 : Nat) = 2 ^ 8 := by norm_num
  rw [this, ← Nat.pow_mul]
  exact Nat.pow_le_pow_right (by norm_num) (by unfold fieldBytes; omega)

/-- Reading a field back. -/
@[simp] theorem Parse.field_fieldOf {w : Nat} (x : BitVec w) (rest : List Byte) :
    Parse.field w (fieldOf x ++ rest) = .ok (x, rest) := by
  have h : leNat (leBytes (fieldBytes w) x.toNat) = x.toNat :=
    leNat_leBytes_of_lt (lt_of_lt_of_le x.isLt (two_pow_le_fieldBytes w))
  have hl : ¬ (leBytes (fieldBytes w) x.toNat ++ rest).length < fieldBytes w := by simp [leBytes_length]
  simp only [Parse.field, fieldOf, if_neg hl, take_leBytes, drop_leBytes, h, if_pos x.isLt, BitVec.ofNat_toNat,
    BitVec.setWidth_eq]

/-- Reading the only field of a packet with nothing after it. -/
@[simp] theorem Parse.field_fieldOf_nil {w : Nat} (x : BitVec w) : Parse.field w (fieldOf x) = .ok (x, []) := by
  simpa using Parse.field_fieldOf x []

@[simp] theorem Parse.ret_apply {α : Type} (a : α) (bs : List Byte) : Parse.ret a bs = .ok (a, bs) := rfl

/-- One reader after another, where the first answers. -/
theorem Parse.andThen_ok {α β : Type} {p : Parse α} {f : α → Parse β} {bs rest : List Byte} {a : α}
    (h : p bs = .ok (a, rest)) : p.andThen f bs = f a rest := by simp [Parse.andThen, h]

@[simp] theorem Parse.bit_bitOf (b : Bool) (rest : List Byte) : Parse.bit (bitOf b ++ rest) = .ok (b, rest) := by
  cases b <;> exact Parse.andThen_ok (Parse.field_fieldOf _ rest)

@[simp] theorem Parse.access_accessOf (k : Access) (rest : List Byte) :
    Parse.access (accessOf k ++ rest) = .ok (k, rest) := by
  cases k <;> exact Parse.andThen_ok (Parse.field_fieldOf _ rest)

/-- Reading back a run of bytes whose length fits its length field. -/
theorem Parse.counted_countedOf {k : Nat} {data : List Byte} (h : data.length < 256 ^ k) (rest : List Byte) :
    Parse.counted k (countedOf k data ++ rest) = .ok (data, rest) := by
  have hl : ¬ (leBytes k data.length ++ (data ++ rest)).length < k := by simp [leBytes_length]
  have hd : ¬ (data ++ rest).length < data.length := by simp
  simp only [Parse.counted, countedOf, List.append_assoc, if_neg hl, take_leBytes, drop_leBytes,
    leNat_leBytes_of_lt h, if_neg hd, List.take_left', List.drop_left']

theorem Parse.hostMem_hostMemOf {host : HostMem} (h : host.wf = true) (rest : List Byte) :
    Parse.hostMem (hostMemOf host ++ rest) = .ok (host, rest) := by
  have key : ∀ (valid : Bool) (bytes : List Byte), bytes.length < 256 ^ 8 →
      Parse.hostMem (bitOf valid ++ countedOf 8 bytes ++ rest) = .ok (if valid then .region bytes else .invalid, rest) :=
    fun valid bytes hb => by
      rw [List.append_assoc]
      exact (Parse.andThen_ok (Parse.bit_bitOf valid _)).trans (Parse.andThen_ok (Parse.counted_countedOf hb rest))
  cases host with
  | invalid => exact key false [] (by decide)
  | region bytes => exact key true bytes (by simpa [HostMem.wf] using h)

/-- Reading back the six fields of a descriptor. -/
theorem Parse.desc_descFields (isMem : Bool) (r : BitVec 3) (b i : BitVec 4) (s : BitVec 2) (d : BitVec 32)
    (rest : List Byte) :
    Parse.desc (descFields isMem r b i s d ++ rest) = .ok (if isMem then .mem b i s d else .reg r, rest) := by
  simp only [descFields, List.append_assoc]
  exact (Parse.andThen_ok (Parse.bit_bitOf isMem _)).trans ((Parse.andThen_ok (Parse.field_fieldOf r _)).trans
    ((Parse.andThen_ok (Parse.field_fieldOf b _)).trans ((Parse.andThen_ok (Parse.field_fieldOf i _)).trans
      ((Parse.andThen_ok (Parse.field_fieldOf s _)).trans (Parse.andThen_ok (Parse.field_fieldOf d rest))))))

@[simp] theorem Parse.desc_descOf (d : Desc) (rest : List Byte) : Parse.desc (descOf d ++ rest) = .ok (d, rest) := by
  cases d <;> exact Parse.desc_descFields ..

@[simp] theorem Parse.args1_fieldOf {w : Nat} (f : BitVec w → Instr) (x : BitVec w) (rest : List Byte) :
    Parse.args1 f (fieldOf x ++ rest) = .ok (f x, rest) := Parse.andThen_ok (Parse.field_fieldOf x rest)

@[simp] theorem Parse.args2_fieldOf {v w : Nat} (f : BitVec v → BitVec w → Instr) (x : BitVec v) (y : BitVec w)
    (rest : List Byte) : Parse.args2 f (fieldOf x ++ (fieldOf y ++ rest)) = .ok (f x y, rest) :=
  (Parse.andThen_ok (Parse.field_fieldOf x _)).trans (Parse.args1_fieldOf _ _ _)

@[simp] theorem Parse.args3_fieldOf {u v w : Nat} (f : BitVec u → BitVec v → BitVec w → Instr) (x : BitVec u)
    (y : BitVec v) (z : BitVec w) (rest : List Byte) :
    Parse.args3 f (fieldOf x ++ (fieldOf y ++ (fieldOf z ++ rest))) = .ok (f x y z, rest) :=
  (Parse.andThen_ok (Parse.field_fieldOf x _)).trans (Parse.args2_fieldOf _ _ _ _)

/-- Decoding, where the code is listed and the fields are read back. -/
theorem decode_encode_of {i : Instr} {form : BitVec 32 → Parse Instr} {rest : List Byte}
    (hc : opcode i < 65536) (hf : operandForm (opcode i) = some form)
    (hp : form (contextOf i) (operandBytes i ++ rest) = .ok (i, rest)) : decode (encode i ++ rest) = .ok i := by
  have h2 : leNat [BitVec.ofNat 8 (opcode i), BitVec.ofNat 8 (opcode i / 256)] = opcode i := by
    simp only [leNat, BitVec.toNat_ofNat]
    omega
  simp only [encode, leBytes, List.cons_append, List.nil_append, List.append_assoc, decode, h2, hf]
  have h := (Parse.andThen_ok (f := form) (Parse.field_fieldOf (contextOf i) (operandBytes i ++ rest))).trans hp
  rw [h]

end Sys2Proof
end

