-- ==== Sys2Proof/Laws/PerInstr.lean ====
section
/-! SUPPORT. One lemma per command: its packet begins with the two bytes of its code, low byte first, and the code is one
that R133 lists, in the unit of its bits 15:8 (R110, R111, R133; the byte order is log 1). -/

namespace Sys2Proof.Laws.CommandCode

open Sys2Proof.Machine

/-- The first two bytes of a command's packet are its code, which is listed. -/
def Statement (i : Instr) : Prop :=
  (encode i).take 2 = [BitVec.ofNat 8 (opcode i), BitVec.ofNat 8 (unitOf i)] ∧ listedCode (opcode i) = true

theorem wiFromU64 (x : BitVec 64) : Statement (.wiFromU64 x) := ⟨rfl, rfl⟩
theorem wiFromS64 (x : BitVec 64) : Statement (.wiFromS64 x) := ⟨rfl, rfl⟩
theorem wiToU64 (a : BitVec 128) : Statement (.wiToU64 a) := ⟨rfl, rfl⟩
theorem wiToS64 (a : BitVec 128) : Statement (.wiToS64 a) := ⟨rfl, rfl⟩
theorem wiUcmp (a : BitVec 128) (b : BitVec 128) : Statement (.wiUcmp a b) := ⟨rfl, rfl⟩
theorem wiScmp (a : BitVec 128) (b : BitVec 128) : Statement (.wiScmp a b) := ⟨rfl, rfl⟩
theorem wiClz (a : BitVec 128) : Statement (.wiClz a) := ⟨rfl, rfl⟩
theorem wiNot (a : BitVec 128) : Statement (.wiNot a) := ⟨rfl, rfl⟩
theorem wiAnd (a : BitVec 128) (b : BitVec 128) : Statement (.wiAnd a b) := ⟨rfl, rfl⟩
theorem wiOr (a : BitVec 128) (b : BitVec 128) : Statement (.wiOr a b) := ⟨rfl, rfl⟩
theorem wiShl (a : BitVec 128) (n : BitVec 32) : Statement (.wiShl a n) := ⟨rfl, rfl⟩
theorem wiShr (a : BitVec 128) (n : BitVec 32) : Statement (.wiShr a n) := ⟨rfl, rfl⟩
theorem wiUadd (a : BitVec 128) (b : BitVec 128) : Statement (.wiUadd a b) := ⟨rfl, rfl⟩
theorem wiSadd (a : BitVec 128) (b : BitVec 128) : Statement (.wiSadd a b) := ⟨rfl, rfl⟩
theorem wiUsub (a : BitVec 128) (b : BitVec 128) : Statement (.wiUsub a b) := ⟨rfl, rfl⟩
theorem wiSsub (a : BitVec 128) (b : BitVec 128) : Statement (.wiSsub a b) := ⟨rfl, rfl⟩
theorem wiUmul (a : BitVec 128) (b : BitVec 128) : Statement (.wiUmul a b) := ⟨rfl, rfl⟩
theorem wiSmul (a : BitVec 128) (b : BitVec 128) : Statement (.wiSmul a b) := ⟨rfl, rfl⟩
theorem wiUdiv (a : BitVec 128) (b : BitVec 128) : Statement (.wiUdiv a b) := ⟨rfl, rfl⟩
theorem wiSdiv (a : BitVec 128) (b : BitVec 128) : Statement (.wiSdiv a b) := ⟨rfl, rfl⟩
theorem wiNeg (a : BitVec 128) : Statement (.wiNeg a) := ⟨rfl, rfl⟩
theorem feSetRm (c : BitVec 32) (m : BitVec 2) : Statement (.feSetRm c m) := ⟨rfl, rfl⟩
theorem feGetRm (c : BitVec 32) : Statement (.feGetRm c) := ⟨rfl, rfl⟩
theorem feFromI64 (x : BitVec 64) : Statement (.feFromI64 x) := ⟨rfl, rfl⟩
theorem feToI64 (c : BitVec 32) (a : F80) : Statement (.feToI64 c a) := ⟨rfl, rfl⟩
theorem feFromF64 (w : BitVec 64) : Statement (.feFromF64 w) := ⟨rfl, rfl⟩
theorem feToF64 (c : BitVec 32) (a : F80) : Statement (.feToF64 c a) := ⟨rfl, rfl⟩
theorem feAdd (c : BitVec 32) (a : F80) (b : F80) : Statement (.feAdd c a b) := ⟨rfl, rfl⟩
theorem feSub (c : BitVec 32) (a : F80) (b : F80) : Statement (.feSub c a b) := ⟨rfl, rfl⟩
theorem feMul (c : BitVec 32) (a : F80) (b : F80) : Statement (.feMul c a b) := ⟨rfl, rfl⟩
theorem feDiv (c : BitVec 32) (a : F80) (b : F80) : Statement (.feDiv c a b) := ⟨rfl, rfl⟩
theorem feMod (a : F80) (b : F80) : Statement (.feMod a b) := ⟨rfl, rfl⟩
theorem feRem (a : F80) (b : F80) : Statement (.feRem a b) := ⟨rfl, rfl⟩
theorem feIsNan (a : F80) : Statement (.feIsNan a) := ⟨rfl, rfl⟩
theorem feIsInf (a : F80) : Statement (.feIsInf a) := ⟨rfl, rfl⟩
theorem feIsZero (a : F80) : Statement (.feIsZero a) := ⟨rfl, rfl⟩
theorem feIsDenormal (a : F80) : Statement (.feIsDenormal a) := ⟨rfl, rfl⟩
theorem feIsSupported (a : F80) : Statement (.feIsSupported a) := ⟨rfl, rfl⟩
theorem feCmp (a : F80) (b : F80) : Statement (.feCmp a b) := ⟨rfl, rfl⟩
theorem feLt (a : F80) (b : F80) : Statement (.feLt a b) := ⟨rfl, rfl⟩
theorem feEq (a : F80) (b : F80) : Statement (.feEq a b) := ⟨rfl, rfl⟩
theorem feNeg (a : F80) : Statement (.feNeg a) := ⟨rfl, rfl⟩
theorem feAbs (a : F80) : Statement (.feAbs a) := ⟨rfl, rfl⟩
theorem feLog2 (c : BitVec 32) (a : F80) : Statement (.feLog2 c a) := ⟨rfl, rfl⟩
theorem feSqrt (c : BitVec 32) (a : F80) : Statement (.feSqrt c a) := ⟨rfl, rfl⟩
theorem feScale (c : BitVec 32) (a : F80) (n : BitVec 32) : Statement (.feScale c a n) := ⟨rfl, rfl⟩
theorem fpuInit (c : BitVec 32) : Statement (.fpuInit c) := ⟨rfl, rfl⟩
theorem fpuLd (c : BitVec 32) (i : BitVec 3) : Statement (.fpuLd c i) := ⟨rfl, rfl⟩
theorem fpuSt (c : BitVec 32) (i : BitVec 3) : Statement (.fpuSt c i) := ⟨rfl, rfl⟩
theorem fpuPop (c : BitVec 32) : Statement (.fpuPop c) := ⟨rfl, rfl⟩
theorem fpuGetSt (c : BitVec 32) (i : BitVec 3) : Statement (.fpuGetSt c i) := ⟨rfl, rfl⟩
theorem fpuSetSt (c : BitVec 32) (i : BitVec 3) (v : F80) (valid : Bool) : Statement (.fpuSetSt c i v valid) := ⟨rfl, rfl⟩
theorem fpuLdI16 (c : BitVec 32) (x : BitVec 16) : Statement (.fpuLdI16 c x) := ⟨rfl, rfl⟩
theorem fpuLdI32 (c : BitVec 32) (x : BitVec 32) : Statement (.fpuLdI32 c x) := ⟨rfl, rfl⟩
theorem fpuLdI64 (c : BitVec 32) (x : BitVec 64) : Statement (.fpuLdI64 c x) := ⟨rfl, rfl⟩
theorem fpuLdF32 (c : BitVec 32) (w : BitVec 32) : Statement (.fpuLdF32 c w) := ⟨rfl, rfl⟩
theorem fpuLdF64 (c : BitVec 32) (w : BitVec 64) : Statement (.fpuLdF64 c w) := ⟨rfl, rfl⟩
theorem fpuLdF80 (c : BitVec 32) (v : F80) : Statement (.fpuLdF80 c v) := ⟨rfl, rfl⟩
theorem fpuStI16 (c : BitVec 32) : Statement (.fpuStI16 c) := ⟨rfl, rfl⟩
theorem fpuStI32 (c : BitVec 32) : Statement (.fpuStI32 c) := ⟨rfl, rfl⟩
theorem fpuStI64 (c : BitVec 32) : Statement (.fpuStI64 c) := ⟨rfl, rfl⟩
theorem fpuStF32 (c : BitVec 32) : Statement (.fpuStF32 c) := ⟨rfl, rfl⟩
theorem fpuStF64 (c : BitVec 32) : Statement (.fpuStF64 c) := ⟨rfl, rfl⟩
theorem fpuStF80 (c : BitVec 32) : Statement (.fpuStF80 c) := ⟨rfl, rfl⟩
theorem fpuAdd (c : BitVec 32) (dst : BitVec 3) (src : BitVec 3) : Statement (.fpuAdd c dst src) := ⟨rfl, rfl⟩
theorem fpuSub (c : BitVec 32) (dst : BitVec 3) (src : BitVec 3) : Statement (.fpuSub c dst src) := ⟨rfl, rfl⟩
theorem fpuMul (c : BitVec 32) (dst : BitVec 3) (src : BitVec 3) : Statement (.fpuMul c dst src) := ⟨rfl, rfl⟩
theorem fpuDiv (c : BitVec 32) (dst : BitVec 3) (src : BitVec 3) : Statement (.fpuDiv c dst src) := ⟨rfl, rfl⟩
theorem fpuMod (c : BitVec 32) (dst : BitVec 3) (src : BitVec 3) : Statement (.fpuMod c dst src) := ⟨rfl, rfl⟩
theorem fpuRem (c : BitVec 32) (dst : BitVec 3) (src : BitVec 3) : Statement (.fpuRem c dst src) := ⟨rfl, rfl⟩
theorem fpuNeg (c : BitVec 32) (dst : BitVec 3) : Statement (.fpuNeg c dst) := ⟨rfl, rfl⟩
theorem fpuAbs (c : BitVec 32) (dst : BitVec 3) : Statement (.fpuAbs c dst) := ⟨rfl, rfl⟩
theorem fpuSqrt (c : BitVec 32) (dst : BitVec 3) : Statement (.fpuSqrt c dst) := ⟨rfl, rfl⟩
theorem fpuLog2 (c : BitVec 32) (dst : BitVec 3) : Statement (.fpuLog2 c dst) := ⟨rfl, rfl⟩
theorem fpuScale (c : BitVec 32) (dst : BitVec 3) (src : BitVec 3) : Statement (.fpuScale c dst src) := ⟨rfl, rfl⟩
theorem fpuCom (c : BitVec 32) (x : BitVec 3) (y : BitVec 3) : Statement (.fpuCom c x y) := ⟨rfl, rfl⟩
theorem fpuLdCw (c : BitVec 32) (v : BitVec 16) : Statement (.fpuLdCw c v) := ⟨rfl, rfl⟩
theorem fpuStCw (c : BitVec 32) : Statement (.fpuStCw c) := ⟨rfl, rfl⟩
theorem fpuStSw (c : BitVec 32) : Statement (.fpuStSw c) := ⟨rfl, rfl⟩
theorem fpuConst1 (c : BitVec 32) : Statement (.fpuConst1 c) := ⟨rfl, rfl⟩
theorem fpuConstL2T (c : BitVec 32) : Statement (.fpuConstL2T c) := ⟨rfl, rfl⟩
theorem fpuConstL2E (c : BitVec 32) : Statement (.fpuConstL2E c) := ⟨rfl, rfl⟩
theorem fpuConstPi (c : BitVec 32) : Statement (.fpuConstPi c) := ⟨rfl, rfl⟩
theorem fpuConstLg2 (c : BitVec 32) : Statement (.fpuConstLg2 c) := ⟨rfl, rfl⟩
theorem fpuConstLn2 (c : BitVec 32) : Statement (.fpuConstLn2 c) := ⟨rfl, rfl⟩
theorem fpuConstZ (c : BitVec 32) : Statement (.fpuConstZ c) := ⟨rfl, rfl⟩
theorem asmCreate : Statement .asmCreate := ⟨rfl, rfl⟩
theorem asmRetain (m : BitVec 64) : Statement (.asmRetain m) := ⟨rfl, rfl⟩
theorem asmRelease (m : BitVec 64) : Statement (.asmRelease m) := ⟨rfl, rfl⟩
theorem asmMap (m : BitVec 64) (page : BitVec 20) (count : BitVec 32) (host : HostMem) (flags : BitVec 7) : Statement (.asmMap m page count host flags) := ⟨rfl, rfl⟩
theorem asmMapAnon (m : BitVec 64) (page : BitVec 20) (count : BitVec 32) (flags : BitVec 7) : Statement (.asmMapAnon m page count flags) := ⟨rfl, rfl⟩
theorem asmUnmap (m : BitVec 64) (page : BitVec 20) (count : BitVec 32) (force : Bool) : Statement (.asmUnmap m page count force) := ⟨rfl, rfl⟩
theorem asmSetProt (m : BitVec 64) (page : BitVec 20) (count : BitVec 32) (flags : BitVec 7) : Statement (.asmSetProt m page count flags) := ⟨rfl, rfl⟩
theorem asmCow (m : BitVec 64) (page : BitVec 20) (count : BitVec 32) (m2 : BitVec 64) (page2 : BitVec 20) : Statement (.asmCow m page count m2 page2) := ⟨rfl, rfl⟩
theorem asmFindHole (m : BitVec 64) (n : BitVec 32) : Statement (.asmFindHole m n) := ⟨rfl, rfl⟩
theorem asmTranslate (m : BitVec 64) (addr : BitVec 32) (kind : Access) : Statement (.asmTranslate m addr kind) := ⟨rfl, rfl⟩
theorem tlbRead (c : BitVec 32) (addr : BitVec 32) (n : BitVec 32) : Statement (.tlbRead c addr n) := ⟨rfl, rfl⟩
theorem tlbWrite (c : BitVec 32) (addr : BitVec 32) (data : List Byte) : Statement (.tlbWrite c addr data) := ⟨rfl, rfl⟩
theorem tlbFlush (c : BitVec 32) : Statement (.tlbFlush c) := ⟨rfl, rfl⟩
theorem tlbRevalidate (c : BitVec 32) : Statement (.tlbRevalidate c) := ⟨rfl, rfl⟩
theorem tlbAttach (c : BitVec 32) (m : BitVec 64) : Statement (.tlbAttach c m) := ⟨rfl, rfl⟩
theorem cpuGetReg32 (c : BitVec 32) (i : BitVec 3) : Statement (.cpuGetReg32 c i) := ⟨rfl, rfl⟩
theorem cpuSetReg32 (c : BitVec 32) (i : BitVec 3) (v : BitVec 32) : Statement (.cpuSetReg32 c i v) := ⟨rfl, rfl⟩
theorem cpuGetReg16 (c : BitVec 32) (i : BitVec 3) : Statement (.cpuGetReg16 c i) := ⟨rfl, rfl⟩
theorem cpuSetReg16 (c : BitVec 32) (i : BitVec 3) (v : BitVec 16) : Statement (.cpuSetReg16 c i v) := ⟨rfl, rfl⟩
theorem cpuGetReg8 (c : BitVec 32) (j : BitVec 3) : Statement (.cpuGetReg8 c j) := ⟨rfl, rfl⟩
theorem cpuSetReg8 (c : BitVec 32) (j : BitVec 3) (v : BitVec 8) : Statement (.cpuSetReg8 c j v) := ⟨rfl, rfl⟩
theorem cpuGetEip (c : BitVec 32) : Statement (.cpuGetEip c) := ⟨rfl, rfl⟩
theorem cpuSetEip (c : BitVec 32) (v : BitVec 32) : Statement (.cpuSetEip c v) := ⟨rfl, rfl⟩
theorem cpuGetXmm (c : BitVec 32) (i : BitVec 3) : Statement (.cpuGetXmm c i) := ⟨rfl, rfl⟩
theorem cpuSetXmm (c : BitVec 32) (i : BitVec 3) (v : BitVec 128) : Statement (.cpuSetXmm c i v) := ⟨rfl, rfl⟩
theorem cpuGetSeg (c : BitVec 32) (i : BitVec 3) : Statement (.cpuGetSeg c i) := ⟨rfl, rfl⟩
theorem cpuSetSeg (c : BitVec 32) (i : BitVec 3) (v : BitVec 16) : Statement (.cpuSetSeg c i v) := ⟨rfl, rfl⟩
theorem cpuRecord (c : BitVec 32) (res : BitVec 32) (op1 : BitVec 32) (op2 : BitVec 32) : Statement (.cpuRecord c res op1 op2) := ⟨rfl, rfl⟩
theorem cpuGetFlag (c : BitVec 32) (sel : BitVec 3) : Statement (.cpuGetFlag c sel) := ⟨rfl, rfl⟩
theorem cpuSetFlag (c : BitVec 32) (sel : BitVec 3) (v : Bool) : Statement (.cpuSetFlag c sel v) := ⟨rfl, rfl⟩
theorem cpuMaterialize (c : BitVec 32) : Statement (.cpuMaterialize c) := ⟨rfl, rfl⟩
theorem cpuExpand (c : BitVec 32) : Statement (.cpuExpand c) := ⟨rfl, rfl⟩
theorem cpuGetEflags (c : BitVec 32) : Statement (.cpuGetEflags c) := ⟨rfl, rfl⟩
theorem cpuSetEflags (c : BitVec 32) (v : BitVec 32) : Statement (.cpuSetEflags c v) := ⟨rfl, rfl⟩
theorem cpuGetFaultAddr (c : BitVec 32) : Statement (.cpuGetFaultAddr c) := ⟨rfl, rfl⟩
theorem decModRm (c : BitVec 32) (cursor : BitVec 32) : Statement (.decModRm c cursor) := ⟨rfl, rfl⟩
theorem decEa (c : BitVec 32) (desc : Desc) : Statement (.decEa c desc) := ⟨rfl, rfl⟩

end Sys2Proof.Laws.CommandCode
end

