-- ==== Sys2Proof/Laws/Registers.lean ====
section
/-! SUPPORT. Register views and CPU flags: what a read gives after each write, and what a write leaves (spec/10_state.md
R21–R30). -/

namespace Sys2Proof.Machine

/-! ### General registers -/

theorem Cpu.setReg32_reg32 (u : Cpu) (i j : BitVec 3) (v : BitVec 32) :
    (u.setReg32 i v).reg32 j = if j = i then v else u.reg32 j := by
  by_cases h : j = i
  · subst h
    simp [Cpu.setReg32, Cpu.reg32]
  · have hn : i.toNat ≠ j.toNat := fun e => h (BitVec.eq_of_toNat_eq e.symm)
    simp [Cpu.setReg32, Cpu.reg32, h, hn]

/-- A register write leaves everything but the general registers. -/
theorem Cpu.setReg32_rest (u : Cpu) (i : BitVec 3) (v : BitVec 32) :
    ({ u.setReg32 i v with r32 := u.r32 } : Cpu) = u := rfl

/-- A 16-bit write replaces bits 15:0 (R23). -/
theorem Cpu.setReg16_getLsbD (u : Cpu) (i : BitVec 3) (v : BitVec 16) (k : Nat) (hk : k < 32) :
    ((u.setReg16 i v).reg32 i).getLsbD k = if k < 16 then v.getLsbD k else (u.reg32 i).getLsbD k := by
  simp only [Cpu.setReg16, Cpu.setReg32_reg32, if_true, BitVec.getLsbD_append, BitVec.getLsbD_extractLsb']
  by_cases h : k < 16
  · simp [h]
  · have h2 : k - 16 < 16 := by omega
    simp [h, h2, show 16 + (k - 16) = k by omega]

/-- An 8-bit write replaces its 8 bits (R23). -/
theorem Cpu.setReg8_getLsbD (u : Cpu) (j : BitVec 3) (v : BitVec 8) (k : Nat) (hk : k < 32) :
    ((u.setReg8 j v).reg32 (byteReg j)).getLsbD k =
      if (if j < 4#3 then 0 else 8) ≤ k ∧ k < (if j < 4#3 then 0 else 8) + 8 then
        v.getLsbD (k - if j < 4#3 then 0 else 8)
      else (u.reg32 (byteReg j)).getLsbD k := by
  simp only [Cpu.setReg8, Cpu.setReg32_reg32, if_true]
  by_cases hj : j < 4#3
  · simp only [hj, if_true, BitVec.getLsbD_append, BitVec.getLsbD_extractLsb']
    by_cases h : k < 8
    · simp [h]
    · simp [h, show k - 8 < 24 by omega, show 8 + (k - 8) = k by omega]
  · simp only [hj, if_false, BitVec.getLsbD_append, BitVec.getLsbD_extractLsb']
    by_cases h : k < 8
    · simp [h, show ¬ 8 ≤ k by omega]
      intro; omega
    · by_cases h2 : k < 16
      · simp [h2, show 8 ≤ k by omega, show ¬ k < 8 by omega, show k - 8 < 8 by omega]
      · simp [h2, show k - 16 < 16 by omega, show 16 + (k - 16) = k by omega]

/-! ### XMM and segment registers -/

theorem Cpu.setXmm_getXmm (u : Cpu) (i j : BitVec 3) (v : BitVec 128) :
    (u.setXmm i v).getXmm j = if j = i then v else u.getXmm j := by
  by_cases h : j = i
  · subst h
    simp [Cpu.setXmm, Cpu.getXmm]
  · have hn : i.toNat ≠ j.toNat := fun e => h (BitVec.eq_of_toNat_eq e.symm)
    simp [Cpu.setXmm, Cpu.getXmm, h, hn]

/-- A segment write: none for a number past the last register (R410). -/
theorem Cpu.setSeg_eq_none {u : Cpu} {nseg : Nat} {i : BitVec 3} {v : BitVec 16} (h : nseg ≤ i.toNat) :
    u.setSeg nseg i v = none := if_neg (Nat.not_lt.2 h)

theorem Cpu.setSeg_getSeg {u w : Cpu} {nseg : Nat} {i : BitVec 3} {v : BitVec 16} (h : u.setSeg nseg i v = some w)
    (j : BitVec 3) : w.getSeg nseg j = if j = i then some v else u.getSeg nseg j := by
  unfold Cpu.setSeg at h
  split at h
  · next hi =>
    cases h
    by_cases hj : j = i
    · subst hj
      simp [Cpu.getSeg, hi]
    · have hn : i.toNat ≠ j.toNat := fun e => hj (BitVec.eq_of_toNat_eq e.symm)
      simp [Cpu.getSeg, hj, hn]
  · cases h

end Sys2Proof.Machine
end

