-- ==== Sys2Proof/Laws/Stack.lean ====
section
/-! SUPPORT. The FPU's operations, said once each: bits of the status word, stack slots, `finish`, and what ending a command
does. -/

namespace Sys2Proof.Machine

/-! ### Bits -/

theorem setBit_getLsbD {w : Nat} (x : BitVec w) (i : Nat) (v : Bool) (k : Nat) (hk : k < w) :
    (setBit x i v).getLsbD k = if k = i then v else x.getLsbD k := by
  unfold setBit
  by_cases h : k = i
  · subst h
    cases v <;> simp [hk]
  · have h' : i ≠ k := fun e => h e.symm
    cases v
    · simp [h, hk]
    · simp [h, h', BitVec.getLsbD_twoPow]

theorem word16_ext {x y : BitVec 16} (h : ∀ k, k < 16 → x.getLsbD k = y.getLsbD k) : x = y :=
  BitVec.eq_of_getLsbD_eq h

theorem excFlags_getLsbD (f : Fpu) (k : Nat) (hk : k < 6) : f.excFlags.getLsbD k = f.sw.getLsbD k := by
  simp [Fpu.excFlags, hk]

theorem excFlags_eq_iff (f g : Fpu) : g.excFlags = f.excFlags ↔ ∀ k, k < 6 → g.sw.getLsbD k = f.sw.getLsbD k := by
  constructor
  · intro h k hk; rw [← excFlags_getLsbD f k hk, ← excFlags_getLsbD g k hk, h]
  · intro h
    apply BitVec.eq_of_getLsbD_eq
    intro k hk
    rw [excFlags_getLsbD f k hk, excFlags_getLsbD g k hk, h k hk]

/-! ### The status word -/

@[simp] theorem Fpu.withSummary_fpr (f : Fpu) : f.withSummary.fpr = f.fpr := rfl
@[simp] theorem Fpu.withSummary_tag (f : Fpu) : f.withSummary.tag = f.tag := rfl
@[simp] theorem Fpu.withSummary_cw (f : Fpu) : f.withSummary.cw = f.cw := rfl
@[simp] theorem Fpu.addFlags_fpr (f : Fpu) (fl : Flags6) : (f.addFlags fl).fpr = f.fpr := rfl
@[simp] theorem Fpu.addFlags_tag (f : Fpu) (fl : Flags6) : (f.addFlags fl).tag = f.tag := rfl
@[simp] theorem Fpu.addFlags_cw (f : Fpu) (fl : Flags6) : (f.addFlags fl).cw = f.cw := rfl
@[simp] theorem Fpu.stackFault_fpr (f : Fpu) (v : Bool) : (f.stackFault v).fpr = f.fpr := rfl
@[simp] theorem Fpu.stackFault_tag (f : Fpu) (v : Bool) : (f.stackFault v).tag = f.tag := rfl
@[simp] theorem Fpu.stackFault_cw (f : Fpu) (v : Bool) : (f.stackFault v).cw = f.cw := rfl
@[simp] theorem Fpu.setTop_fpr (f : Fpu) (t : BitVec 3) : (f.setTop t).fpr = f.fpr := rfl
@[simp] theorem Fpu.setTop_tag (f : Fpu) (t : BitVec 3) : (f.setTop t).tag = f.tag := rfl
@[simp] theorem Fpu.setTop_cw (f : Fpu) (t : BitVec 3) : (f.setTop t).cw = f.cw := rfl
@[simp] theorem Fpu.setSt_sw (f : Fpu) (i : BitVec 3) (v : F80) (b : Bool) : (f.setSt i v b).sw = f.sw := rfl
@[simp] theorem Fpu.setSt_cw (f : Fpu) (i : BitVec 3) (v : F80) (b : Bool) : (f.setSt i v b).cw = f.cw := rfl
@[simp] theorem Fpu.setSt_top (f : Fpu) (i : BitVec 3) (v : F80) (b : Bool) : (f.setSt i v b).top = f.top := rfl
@[simp] theorem Fpu.free_sw (f : Fpu) (i : BitVec 3) : (f.free i).sw = f.sw := rfl
@[simp] theorem Fpu.free_cw (f : Fpu) (i : BitVec 3) : (f.free i).cw = f.cw := rfl
@[simp] theorem Fpu.free_fpr (f : Fpu) (i : BitVec 3) : (f.free i).fpr = f.fpr := rfl
@[simp] theorem Fpu.free_top (f : Fpu) (i : BitVec 3) : (f.free i).top = f.top := rfl
@[simp] theorem Fpu.setCodes_fpr (f : Fpu) (c : Order) : (f.setCodes c).fpr = f.fpr := rfl
@[simp] theorem Fpu.setCodes_tag (f : Fpu) (c : Order) : (f.setCodes c).tag = f.tag := rfl
@[simp] theorem Fpu.setCodes_cw (f : Fpu) (c : Order) : (f.setCodes c).cw = f.cw := rfl

theorem Fpu.withSummary_sw (f : Fpu) (k : Nat) (hk : k < 16) :
    f.withSummary.sw.getLsbD k = if k = 7 then f.anyUnmasked f.excFlags else f.sw.getLsbD k :=
  setBit_getLsbD _ _ _ _ hk

theorem Fpu.addFlags_sw (f : Fpu) (fl : Flags6) (k : Nat) (hk : k < 16) :
    (f.addFlags fl).sw.getLsbD k =
      if k = 7 then f.anyUnmasked (f.excFlags ||| fl) else f.sw.getLsbD k || (decide (k < 6) && fl.getLsbD k) := by
  unfold Fpu.addFlags
  rw [Fpu.withSummary_sw _ k hk]
  split
  · have he : ({ f with sw := f.sw ||| fl.setWidth 16 } : Fpu).excFlags = f.excFlags ||| fl := by
      apply BitVec.eq_of_getLsbD_eq
      intro j hj
      have hj' : j < 16 := by omega
      simp [Fpu.excFlags, hj, hj']
    rw [he]; rfl
  · by_cases h6 : k < 6
    · simp [h6, hk]
    · simp only [BitVec.getLsbD_or, BitVec.getLsbD_setWidth, hk, decide_true, Bool.true_and, h6, decide_false,
        Bool.false_and]
      rw [BitVec.getLsbD_of_ge fl k (by omega)]

theorem Fpu.addFlags_excFlags (f : Fpu) (fl : Flags6) : (f.addFlags fl).excFlags = f.excFlags ||| fl := by
  apply BitVec.eq_of_getLsbD_eq
  intro k hk
  rw [excFlags_getLsbD _ k hk, Fpu.addFlags_sw f fl k (by omega), if_neg (by omega)]
  rw [BitVec.getLsbD_or, excFlags_getLsbD f k hk]
  simp [hk]

theorem Fpu.stackFault_sw (f : Fpu) (v : Bool) (k : Nat) (hk : k < 16) :
    (f.stackFault v).sw.getLsbD k = if k = 9 then v else if k = 6 then true else f.sw.getLsbD k := by
  unfold Fpu.stackFault
  rw [setBit_getLsbD _ _ _ _ hk, setBit_getLsbD _ _ _ _ hk]

theorem Fpu.setTop_sw (f : Fpu) (t : BitVec 3) (k : Nat) (hk : k < 16) :
    (f.setTop t).sw.getLsbD k = if 11 ≤ k ∧ k < 14 then t.getLsbD (k - 11) else f.sw.getLsbD k := by
  unfold Fpu.setTop
  simp only [BitVec.getLsbD_append, BitVec.getLsbD_extractLsb']
  interval_cases k <;> simp

theorem Fpu.top_getLsbD (f : Fpu) (j : Nat) (hj : j < 3) : f.top.getLsbD j = f.sw.getLsbD (11 + j) := by
  simp [Fpu.top, hj]

@[simp] theorem Fpu.setTop_top (f : Fpu) (t : BitVec 3) : (f.setTop t).top = t := by
  apply BitVec.eq_of_getLsbD_eq
  intro j hj
  rw [Fpu.top_getLsbD _ j hj, Fpu.setTop_sw f t _ (by omega), if_pos (by omega)]
  congr 1; omega

theorem top_eq_of_sw {f g : Fpu} (h : ∀ k, 11 ≤ k → k < 14 → g.sw.getLsbD k = f.sw.getLsbD k) : g.top = f.top := by
  apply BitVec.eq_of_getLsbD_eq
  intro j hj
  rw [Fpu.top_getLsbD _ j hj, Fpu.top_getLsbD _ j hj, h _ (by omega) (by omega)]

@[simp] theorem Fpu.addFlags_top (f : Fpu) (fl : Flags6) : (f.addFlags fl).top = f.top :=
  top_eq_of_sw fun k h1 h2 => by rw [Fpu.addFlags_sw f fl k (by omega), if_neg (by omega)]; simp; omega

@[simp] theorem Fpu.stackFault_top (f : Fpu) (v : Bool) : (f.stackFault v).top = f.top :=
  top_eq_of_sw fun k h1 h2 => by rw [Fpu.stackFault_sw f v k (by omega), if_neg (by omega), if_neg (by omega)]

theorem Fpu.setCodes_sw (f : Fpu) (c : Order) (k : Nat) (hk : k < 16) :
    (f.setCodes c).sw.getLsbD k =
      if k = 9 then false else if k = 8 then c == .lt || c == .unordered else if k = 10 then c == .unordered
      else if k = 14 then c == .eq || c == .unordered else f.sw.getLsbD k := by
  unfold Fpu.setCodes
  simp only [setBit_getLsbD _ _ _ _ hk]

@[simp] theorem Fpu.setCodes_top (f : Fpu) (c : Order) : (f.setCodes c).top = f.top :=
  top_eq_of_sw fun k h1 h2 => by
    rw [Fpu.setCodes_sw f c k (by omega), if_neg (by omega), if_neg (by omega), if_neg (by omega), if_neg (by omega)]

/-! ### Slots -/

theorem slot_congr {f g : Fpu} (h1 : g.fpr = f.fpr) (h2 : g.tag = f.tag) (h3 : g.top = f.top) (i : BitVec 3) :
    g.st i = f.st i ∧ g.valid i = f.valid i := by
  simp [Fpu.st, Fpu.valid, Fpu.phys, h1, h2, h3]

theorem phys_inj (f : Fpu) {i j : BitVec 3} (h : (f.phys i).toNat = (f.phys j).toNat) : i = j := by
  have : f.top + i = f.top + j := BitVec.eq_of_toNat_eq h
  bv_omega

theorem Fpu.setSt_slot (f : Fpu) (i : BitVec 3) (v : F80) (b : Bool) (j : BitVec 3) :
    (f.setSt i v b).st j = (if j = i then v else f.st j) ∧
      (f.setSt i v b).valid j = (if j = i then b else f.valid j) := by
  unfold Fpu.st Fpu.valid
  have hp : ∀ j, (f.setSt i v b).phys j = f.phys j := fun _ => rfl
  simp only [hp]
  by_cases h : j = i
  · subst h; simp [Fpu.setSt]
  · have : (f.phys i).toNat ≠ (f.phys j).toNat := fun e => h (phys_inj f e).symm
    simp [Fpu.setSt, h, this]

theorem Fpu.free_slot (f : Fpu) (i j : BitVec 3) :
    (f.free i).st j = f.st j ∧ (f.free i).valid j = (if j = i then false else f.valid j) := by
  unfold Fpu.st Fpu.valid
  have hp : ∀ j, (f.free i).phys j = f.phys j := fun _ => rfl
  simp only [hp]
  by_cases h : j = i
  · subst h; simp [Fpu.free]
  · have : (f.phys i).toNat ≠ (f.phys j).toNat := fun e => h (phys_inj f e).symm
    simp [Fpu.free, h, this]

/-- Moving the top renames the slots. -/
theorem Fpu.setTop_slot (f : Fpu) (t i : BitVec 3) :
    (f.setTop t).st i = f.st (t + i - f.top) ∧ (f.setTop t).valid i = f.valid (t + i - f.top) := by
  have hp : (f.setTop t).phys i = f.phys (t + i - f.top) := by
    simp only [Fpu.phys, Fpu.setTop_top]; bv_omega
  simp [Fpu.st, Fpu.valid, hp]

/-! ### Ending an operation (R261) -/

/-- An operation that produces an unmasked flag writes its flags only, and raises. -/
theorem Fpu.finish_raises {f : Fpu} {fl : Flags6} (w : Fpu → Fpu) (h : f.anyUnmasked fl = true) :
    f.finish fl w = (f.addFlags fl, true) := by
  simp [Fpu.finish, h]

/-- Any other writes its flags and then writes back. -/
theorem Fpu.finish_completes {f : Fpu} {fl : Flags6} (w : Fpu → Fpu) (h : f.anyUnmasked fl = false) :
    f.finish fl w = (w (f.addFlags fl), false) := by
  simp [Fpu.finish, h]

/-- Reading a slot, whether it is empty or not (R262). -/
theorem Fpu.rd_eq (f : Fpu) (i : BitVec 3) :
    f.rd i = if f.valid i = true then { value := f.st i, flags := 0, fpu := f }
      else { value := F80.dnan, flags := flagI, fpu := f.stackFault false } := by
  unfold Fpu.rd; rfl

/-! ### Ending a command -/

@[simp] theorem State.fpuDone_params (s : State) (c : BitVec 32) (r : Fpu × Bool) (res : Results) :
    (s.fpuDone c r res).params = s.params := by
  unfold State.fpuDone; split <;> rfl
@[simp] theorem State.fpuDone_mems (s : State) (c : BitVec 32) (r : Fpu × Bool) (res : Results) :
    (s.fpuDone c r res).mems = s.mems := by
  unfold State.fpuDone; split <;> rfl
@[simp] theorem State.fpuDone_blobs (s : State) (c : BitVec 32) (r : Fpu × Bool) (res : Results) :
    (s.fpuDone c r res).blobs = s.blobs := by
  unfold State.fpuDone; split <;> rfl
@[simp] theorem State.fpuDone_graves (s : State) (c : BitVec 32) (r : Fpu × Bool) (res : Results) :
    (s.fpuDone c r res).graves = s.graves := by
  unfold State.fpuDone; split <;> rfl
@[simp] theorem State.fpuDone_port (s : State) (c : BitVec 32) (r : Fpu × Bool) (res : Results) :
    (s.fpuDone c r res).port = s.port := by
  unfold State.fpuDone; split <;> rfl
@[simp] theorem State.fpuDone_draws (s : State) (c : BitVec 32) (r : Fpu × Bool) (res : Results) :
    (s.fpuDone c r res).draws = s.draws := by
  unfold State.fpuDone; split <;> rfl

@[simp] theorem State.fpuDone_ctx_same (s : State) (c : BitVec 32) (r : Fpu × Bool) (res : Results) :
    (s.fpuDone c r res).ctx c = { s.ctx c with fpu := r.1 } := by
  unfold State.fpuDone; split <;> simp

theorem State.fpuDone_ctx_other (s : State) {c d : BitVec 32} (r : Fpu × Bool) (res : Results) (h : d ≠ c) :
    (s.fpuDone c r res).ctx d = s.ctx d := by
  unfold State.fpuDone; split <;> simp [State.setFpu_ctx_other s r.1 h]

@[simp] theorem State.fpuDone_cpu_same (s : State) (c : BitVec 32) (r : Fpu × Bool) (res : Results) :
    (s.fpuDone c r res).cpu c = s.cpu c := by
  simp [State.cpu]
@[simp] theorem State.fpuDone_fpu_same (s : State) (c : BitVec 32) (r : Fpu × Bool) (res : Results) :
    (s.fpuDone c r res).fpu c = r.1 := by
  simp [State.fpu]
@[simp] theorem State.fpuDone_rm_same (s : State) (c : BitVec 32) (r : Fpu × Bool) (res : Results) :
    (s.fpuDone c r res).rm c = s.rm c := by
  simp [State.rm]
@[simp] theorem State.fpuDone_tlb_same (s : State) (c : BitVec 32) (r : Fpu × Bool) (res : Results) :
    (s.fpuDone c r res).tlb c = s.tlb c := by
  simp [State.tlb]

theorem fpuDone_resp (s : State) (c : BitVec 32) (r : Fpu × Bool) (res : Results) :
    (s.fpuDone c r res).resp = if r.2 = true then some (.fault .floatError 0#32) else some (.ok res) := by
  unfold State.fpuDone; split <;> simp_all [State.raise, State.ok, State.respond]

end Sys2Proof.Machine
end

