-- ==== Sys2Proof/Laws/Step.lean ====
section
/-! SUPPORT. What a step can be: an access that goes on, an idle port, a command, or a packet that holds none; and what choosing
between them can change. -/

namespace Sys2Proof.Machine

/-- Choosing whose turn it is takes at most a choice of the scheduler. -/
theorem State.turn_draws (s : State) : ∃ d, s.turn.2 = { s with draws := d } := by
  have hd : ∃ d, s.drawSched.2 = { s with draws := d } := by
    unfold State.drawSched
    split <;> exact ⟨_, rfl⟩
  unfold State.turn
  split
  · exact ⟨s.draws, rfl⟩
  · split <;> exact hd

/-- A context whose turn it is has an access under way. -/
theorem State.turn_underWay {s u : State} {c : BitVec 32} (h : s.turn = (some c, u)) : c ∈ s.underWay := by
  unfold State.turn at h
  split at h
  · cases h
  · next first others e =>
    rw [e]
    split at h
    · next k hk =>
      cases h
      exact List.mem_of_getElem? hk
    · split at h <;> cases h
      exact List.mem_cons_self

/-- Everything a step that goes on can be. -/
theorem step_cases {s t : State} (h : step s = .next t) :
    (∃ c u, s.turn = (some c, u) ∧ u.resume c = .next t) ∨
    (s.turn = (none, t) ∧ t.port = []) ∨
    (∃ u packet later i, s.turn = (none, u) ∧ u.port = packet :: later ∧ decode packet = .ok i ∧
      exec i { u with port := later } = .next t) ∨
    ∃ u packet later r f, s.turn = (none, u) ∧ u.port = packet :: later ∧ decode packet = .error r ∧
      t = ({ u with port := later } : State).fail f := by
  unfold step at h
  split at h
  · next c u hu => exact .inl ⟨c, u, hu, h⟩
  · next u hu =>
    unfold State.fetch at h
    cases hp : u.port with
    | nil =>
      rw [hp] at h
      cases h
      exact .inr (.inl ⟨hu, hp⟩)
    | cons packet later =>
      rw [hp] at h
      cases hd : decode packet with
      | ok i =>
        simp only [hd] at h
        exact .inr (.inr (.inl ⟨u, packet, later, i, hu, hp, hd, h⟩))
      | error r =>
        simp only [hd] at h
        cases r <;> cases h <;> exact .inr (.inr (.inr ⟨u, packet, later, _, _, hu, hp, hd, rfl⟩))

end Sys2Proof.Machine
end

