-- ==== Sys2Proof/Tests/Slice0.lean ====
section
/-! SUPPORT. The model's own tests. Expected results are those of spec/95_test_vectors.md (named in each comment by its table)
or are worked out by hand from the rule named. Packets are written out byte by byte from spec/30_encoding.md R110, R133 in
the layout of log 1. The witnesses at the end show, for each statement, a state and operands that meet its hypotheses. -/

namespace Sys2Proof.Tests

open Sys2Proof.Machine

set_option Elab.async false

/-! ### Helpers -/

/-- The response of a command. -/
def answer (i : Instr) (s : State) : Option Response :=
  match exec i s with
  | .next t => t.resp
  | _ => none

/-- The state after a command. -/
def after (i : Instr) (s : State) : State :=
  match exec i s with
  | .next t => t
  | _ => s

/-- Its response is `OK` with these results. -/
def gives (i : Instr) (s : State) (r : Results) : Bool := answer i s == some (.ok r)

/-- Reset, with a rounding mode. -/
def withRm (m : BitVec 2) : State := State.reset.setRm 0 m

/-- Reset, with a control word and values on the stack, the first in `ST(0)`; draws of the default NaN are pending. -/
def withStack (cw : BitVec 16) (vs : List F80) : State :=
  ({ State.reset with draws := { Draws.reset with nans := [F80.dnan, F80.dnan] } } : State).setFpu 0
    (vs.foldr (fun v f => (f.setTop (f.top - 1#3)).setSt 0#3 v true) { Fpu.reset with cw := cw })

/-- The masks all set, as after reset. -/
def masked : BitVec 16 := 0x037F#16

/-- Context 0's FPU after a command: `SW`, and `ST(0)`. -/
def swSt (i : Instr) (s : State) : BitVec 16 × F80 := (((after i s).fpu 0).sw, ((after i s).fpu 0).st 0#3)

/-- One address space, handle 1, with these entries; blob 1 of two pages whose first bytes are `11 22 33 44`, counted; context 0
attached with an empty cache; the next two allocations succeed, and the scheduler interrupts none of the next four accesses. -/
def memory (entries : List (Nat × BitVec 7)) : State :=
  { State.reset with
    mems := [(1,
      { pages := entries.map fun e => (e.1, { blob := 1, offset := 0, flags := e.2 }), gen := 1, refcount := 1,
        lock := .free })],
    blobs := [(1, { cells := [(0, 0x11), (1, 0x22), (2, 0x33), (3, 0x44)], len := 8192, refcount := entries.length })],
    ctxs := [(0, { Context.reset with tlb := { mem := some 1, gen := 1, slots := [] } })],
    draws := { Draws.reset with oom := [false, false], sched := [4095, 4095, 4095, 4095] } }

/-- The scheduler's next choices. -/
def scheduled (ks : List Nat) (s : State) : State := { s with draws := { s.draws with sched := ks } }

/-- Code bytes on page 1, writable; page 2 unmapped. -/
def code (at_ : Nat) (bytes : List Byte) : State :=
  { memory [(1, 0x43#7)] with
    blobs := [(1, { cells := (bytes.zipIdx at_).foldl (fun m v => Memory.write m v.2 v.1) [], len := 4096, refcount := 1 })] }

/-- An empty space 2 beside space 1. -/
def twoSpaces (entries : List (Nat × BitVec 7)) : State :=
  (memory entries).setSpace 2 { pages := [], gen := 0, refcount := 1, lock := .free }

/-- The flags of an entry. -/
def flagsAt (s : State) (m : Handle) (p : Nat) : Option (BitVec 7) := (s.pte m p).map Pte.flags

/-- The generation of a space. -/
def genOf (s : State) (m : Handle) : Option Nat := (s.space m).map Space.gen

/-! ### WellFormed refuses ill-formed commands -/

/-- `TLB.WRITE`'s byte count is 32 bits (R363). -/
theorem test_wf_write_too_long : (Instr.tlbWrite 0 0 (List.replicate (2 ^ 32) 0)).wf = false := by
  simp only [Instr.wf, dataWf, List.length_replicate]
  decide

theorem test_wf_write_longest : (Instr.tlbWrite 0 0 (List.replicate (2 ^ 32 - 1) 0)).wf = true := by
  simp only [Instr.wf, dataWf, List.length_replicate]
  decide

/-- A region's length fits its field (log 1). -/
theorem test_wf_region_too_long : (Instr.asmMap 1 0 1 (.region (List.replicate (2 ^ 64) 0)) 0).wf = false := by
  simp only [Instr.wf, HostMem.wf, List.length_replicate]
  decide

theorem test_wf_invalid_host : (Instr.asmMap 1 0 1 .invalid 0).wf = true := by decide

/-! ### Decoding packets written out from R110 and R133 -/

theorem test_decode_wi_shl :
    decode ([0x0A, 0x01, 0, 0, 0, 0] ++ [1, 0, 0, 0, 0, 0, 0, 0, 0, 0, 0, 0, 0, 0, 0, 0x80] ++ [0x7F, 0, 0, 0]) =
      .ok (.wiShl 0x80000000000000000000000000000001 127) := by decide

theorem test_decode_wi_fromu64 :
    decode ([0x00, 0x01, 0, 0, 0, 0] ++ [1, 2, 3, 4, 5, 6, 7, 8]) = .ok (.wiFromU64 0x0807060504030201) := by decide

theorem test_decode_fe_add :
    decode ([0x06, 0x02, 3, 0, 0, 0] ++ [0, 0, 0, 0, 0, 0, 0, 0x80, 0xFF, 0x3F] ++ [1, 0, 0, 0, 0, 0, 0, 0, 0, 0x80]) =
      .ok (.feAdd 3 0x3FFF8000000000000000 0x80000000000000000001) := by decide

theorem test_decode_fe_setrm : decode [0x00, 0x02, 0, 0, 0, 0x80, 3] = .ok (.feSetRm 0x80000000 3) := by decide

theorem test_decode_fpu_setst :
    decode ([0x05, 0x03, 7, 0, 0, 0] ++ [2] ++ [0, 0, 0, 0, 0, 0, 0, 0x80, 0x00, 0x40] ++ [1]) =
      .ok (.fpuSetSt 7 2 0x40008000000000000000 true) := by decide

theorem test_decode_fpu_div : decode [0x15, 0x03, 7, 0, 0, 0, 1, 0] = .ok (.fpuDiv 7 1 0) := by decide

theorem test_decode_asm_map :
    decode ([0x03, 0x04, 0, 0, 0, 0] ++ [1, 0, 0, 0, 0, 0, 0, 0] ++ [0x48, 0x80, 0x00] ++ [2, 0, 0, 0]
        ++ ([1] ++ [3, 0, 0, 0, 0, 0, 0, 0] ++ [0x8B, 0x44, 0x8D]) ++ [5]) =
      .ok (.asmMap 1 0x08048 2 (.region [0x8B, 0x44, 0x8D]) 5) := by decide

theorem test_decode_asm_map_invalid :
    decode ([0x03, 0x04, 0, 0, 0, 0] ++ [1, 0, 0, 0, 0, 0, 0, 0] ++ [0x10, 0, 0] ++ [1, 0, 0, 0] ++ [0]
        ++ [0, 0, 0, 0, 0, 0, 0, 0] ++ [3]) =
      .ok (.asmMap 1 0x10 1 .invalid 3) := by decide

theorem test_decode_asm_cow :
    decode ([0x07, 0x04, 0, 0, 0, 0] ++ [1, 0, 0, 0, 0, 0, 0, 0] ++ [0x10, 0, 0] ++ [2, 0, 0, 0]
        ++ [2, 0, 0, 0, 0, 0, 0, 0] ++ [0x30, 0, 0x0F]) = .ok (.asmCow 1 0x10 2 2 0xF0030) := by decide

theorem test_decode_tlb_write :
    decode ([0x01, 0x05, 1, 0, 0, 0] ++ [0xFE, 0x0F, 1, 0] ++ [2, 0, 0, 0] ++ [0xAA, 0xBB] ++ [0xCC]) =
      .ok (.tlbWrite 1 0x10FFE [0xAA, 0xBB]) := by decide

theorem test_decode_cpu_record :
    decode ([0x0C, 0x06, 0, 0, 0, 0] ++ [1, 0, 0, 0] ++ [2, 0, 0, 0] ++ [0, 0, 0, 0x80]) =
      .ok (.cpuRecord 0 1 2 0x80000000) := by decide

theorem test_decode_dec_ea :
    decode ([0x01, 0x07, 0, 0, 0, 0] ++ [1, 0, 5, 1, 2] ++ [0xF0, 0xFF, 0xFF, 0xFF]) =
      .ok (.decEa 0 (.mem 5 1 2 0xFFFFFFF0)) := by decide

/-- One length and one format for both kinds (R110); a field that has no meaning for the kind is ignored (log 1). -/
theorem test_decode_dec_ea_reg :
    decode ([0x01, 0x07, 0, 0, 0, 0] ++ [0, 6, 0, 0, 0] ++ [0, 0, 0, 0]) = .ok (.decEa 0 (.reg 6)) ∧
    decode ([0x01, 0x07, 0, 0, 0, 0] ++ [0, 6, 8, 1, 2] ++ [1, 0, 0, 0]) = .ok (.decEa 0 (.reg 6)) ∧
    decode ([0x01, 0x07, 0, 0, 0, 0] ++ [0, 6]) = .error .truncated ∧
    (encode (.decEa 0 (.reg 6))).length = (encode (.decEa 0 (.mem 5 1 2 0xFFFFFFF0))).length := by decide

/-! ### Every command's packet, written out from the code of R133 and the operand order of its rule -/

theorem test_packets_wi_1 :
    decode ([0x00, 0x01, 0, 0, 0, 0] ++ [1, 0, 0, 0, 0, 0, 0, 0x51]) = .ok (.wiFromU64 0x5100000000000001) ∧
    decode ([0x01, 0x01, 0, 0, 0, 0] ++ [1, 0, 0, 0, 0, 0, 0, 0x51]) = .ok (.wiFromS64 0x5100000000000001) ∧
    decode ([0x02, 0x01, 0, 0, 0, 0] ++ [1, 0, 0, 0, 0, 0, 0, 0, 0, 0, 0, 0, 0, 0, 0, 0x51]) =
      .ok (.wiToU64 0x51000000000000000000000000000001) ∧
    decode ([0x03, 0x01, 0, 0, 0, 0] ++ [1, 0, 0, 0, 0, 0, 0, 0, 0, 0, 0, 0, 0, 0, 0, 0x51]) =
      .ok (.wiToS64 0x51000000000000000000000000000001) ∧
    decode ([0x04, 0x01, 0, 0, 0, 0] ++
        [1, 0, 0, 0, 0, 0, 0, 0, 0, 0, 0, 0, 0, 0, 0, 0x51, 2, 0, 0, 0, 0, 0, 0, 0, 0, 0, 0, 0, 0, 0, 0, 0x61]) =
      .ok (.wiUcmp 0x51000000000000000000000000000001 0x61000000000000000000000000000002) ∧
    decode ([0x05, 0x01, 0, 0, 0, 0] ++
        [1, 0, 0, 0, 0, 0, 0, 0, 0, 0, 0, 0, 0, 0, 0, 0x51, 2, 0, 0, 0, 0, 0, 0, 0, 0, 0, 0, 0, 0, 0, 0, 0x61]) =
      .ok (.wiScmp 0x51000000000000000000000000000001 0x61000000000000000000000000000002) ∧
    decode ([0x06, 0x01, 0, 0, 0, 0] ++ [1, 0, 0, 0, 0, 0, 0, 0, 0, 0, 0, 0, 0, 0, 0, 0x51]) =
      .ok (.wiClz 0x51000000000000000000000000000001) ∧
    decode ([0x07, 0x01, 0, 0, 0, 0] ++ [1, 0, 0, 0, 0, 0, 0, 0, 0, 0, 0, 0, 0, 0, 0, 0x51]) =
      .ok (.wiNot 0x51000000000000000000000000000001) ∧
    decode ([0x08, 0x01, 0, 0, 0, 0] ++
        [1, 0, 0, 0, 0, 0, 0, 0, 0, 0, 0, 0, 0, 0, 0, 0x51, 2, 0, 0, 0, 0, 0, 0, 0, 0, 0, 0, 0, 0, 0, 0, 0x61]) =
      .ok (.wiAnd 0x51000000000000000000000000000001 0x61000000000000000000000000000002) ∧
    decode ([0x09, 0x01, 0, 0, 0, 0] ++
        [1, 0, 0, 0, 0, 0, 0, 0, 0, 0, 0, 0, 0, 0, 0, 0x51, 2, 0, 0, 0, 0, 0, 0, 0, 0, 0, 0, 0, 0, 0, 0, 0x61]) =
      .ok (.wiOr 0x51000000000000000000000000000001 0x61000000000000000000000000000002) ∧
    decode ([0x0A, 0x01, 0, 0, 0, 0] ++ [1, 0, 0, 0, 0, 0, 0, 0, 0, 0, 0, 0, 0, 0, 0, 0x51, 2, 0, 0, 0x61]) =
      .ok (.wiShl 0x51000000000000000000000000000001 0x61000002) ∧
    decode ([0x0B, 0x01, 0, 0, 0, 0] ++ [1, 0, 0, 0, 0, 0, 0, 0, 0, 0, 0, 0, 0, 0, 0, 0x51, 2, 0, 0, 0x61]) =
      .ok (.wiShr 0x51000000000000000000000000000001 0x61000002) ∧
    decode ([0x0C, 0x01, 0, 0, 0, 0] ++
        [1, 0, 0, 0, 0, 0, 0, 0, 0, 0, 0, 0, 0, 0, 0, 0x51, 2, 0, 0, 0, 0, 0, 0, 0, 0, 0, 0, 0, 0, 0, 0, 0x61]) =
      .ok (.wiUadd 0x51000000000000000000000000000001 0x61000000000000000000000000000002) ∧
    decode ([0x0D, 0x01, 0, 0, 0, 0] ++
        [1, 0, 0, 0, 0, 0, 0, 0, 0, 0, 0, 0, 0, 0, 0, 0x51, 2, 0, 0, 0, 0, 0, 0, 0, 0, 0, 0, 0, 0, 0, 0, 0x61]) =
      .ok (.wiSadd 0x51000000000000000000000000000001 0x61000000000000000000000000000002) := by decide +kernel

theorem test_packets_wi_2 :
    decode ([0x0E, 0x01, 0, 0, 0, 0] ++
        [1, 0, 0, 0, 0, 0, 0, 0, 0, 0, 0, 0, 0, 0, 0, 0x51, 2, 0, 0, 0, 0, 0, 0, 0, 0, 0, 0, 0, 0, 0, 0, 0x61]) =
      .ok (.wiUsub 0x51000000000000000000000000000001 0x61000000000000000000000000000002) ∧
    decode ([0x0F, 0x01, 0, 0, 0, 0] ++
        [1, 0, 0, 0, 0, 0, 0, 0, 0, 0, 0, 0, 0, 0, 0, 0x51, 2, 0, 0, 0, 0, 0, 0, 0, 0, 0, 0, 0, 0, 0, 0, 0x61]) =
      .ok (.wiSsub 0x51000000000000000000000000000001 0x61000000000000000000000000000002) ∧
    decode ([0x10, 0x01, 0, 0, 0, 0] ++
        [1, 0, 0, 0, 0, 0, 0, 0, 0, 0, 0, 0, 0, 0, 0, 0x51, 2, 0, 0, 0, 0, 0, 0, 0, 0, 0, 0, 0, 0, 0, 0, 0x61]) =
      .ok (.wiUmul 0x51000000000000000000000000000001 0x61000000000000000000000000000002) ∧
    decode ([0x11, 0x01, 0, 0, 0, 0] ++
        [1, 0, 0, 0, 0, 0, 0, 0, 0, 0, 0, 0, 0, 0, 0, 0x51, 2, 0, 0, 0, 0, 0, 0, 0, 0, 0, 0, 0, 0, 0, 0, 0x61]) =
      .ok (.wiSmul 0x51000000000000000000000000000001 0x61000000000000000000000000000002) ∧
    decode ([0x12, 0x01, 0, 0, 0, 0] ++
        [1, 0, 0, 0, 0, 0, 0, 0, 0, 0, 0, 0, 0, 0, 0, 0x51, 2, 0, 0, 0, 0, 0, 0, 0, 0, 0, 0, 0, 0, 0, 0, 0x61]) =
      .ok (.wiUdiv 0x51000000000000000000000000000001 0x61000000000000000000000000000002) ∧
    decode ([0x13, 0x01, 0, 0, 0, 0] ++
        [1, 0, 0, 0, 0, 0, 0, 0, 0, 0, 0, 0, 0, 0, 0, 0x51, 2, 0, 0, 0, 0, 0, 0, 0, 0, 0, 0, 0, 0, 0, 0, 0x61]) =
      .ok (.wiSdiv 0x51000000000000000000000000000001 0x61000000000000000000000000000002) ∧
    decode ([0x14, 0x01, 0, 0, 0, 0] ++ [1, 0, 0, 0, 0, 0, 0, 0, 0, 0, 0, 0, 0, 0, 0, 0x51]) =
      .ok (.wiNeg 0x51000000000000000000000000000001) := by decide +kernel

theorem test_packets_fe_1 :
    decode ([0x00, 0x02, 7, 0, 0, 0] ++ [1]) = .ok (.feSetRm 7 1) ∧
    decode [0x01, 0x02, 7, 0, 0, 0] = .ok (.feGetRm 7) ∧
    decode ([0x02, 0x02, 0, 0, 0, 0] ++ [1, 0, 0, 0, 0, 0, 0, 0x51]) = .ok (.feFromI64 0x5100000000000001) ∧
    decode ([0x03, 0x02, 7, 0, 0, 0] ++ [1, 0, 0, 0, 0, 0, 0, 0, 0, 0x51]) = .ok (.feToI64 7 0x51000000000000000001) ∧
    decode ([0x04, 0x02, 0, 0, 0, 0] ++ [1, 0, 0, 0, 0, 0, 0, 0x51]) = .ok (.feFromF64 0x5100000000000001) ∧
    decode ([0x05, 0x02, 7, 0, 0, 0] ++ [1, 0, 0, 0, 0, 0, 0, 0, 0, 0x51]) = .ok (.feToF64 7 0x51000000000000000001) ∧
    decode ([0x06, 0x02, 7, 0, 0, 0] ++ [1, 0, 0, 0, 0, 0, 0, 0, 0, 0x51, 2, 0, 0, 0, 0, 0, 0, 0, 0, 0x61]) =
      .ok (.feAdd 7 0x51000000000000000001 0x61000000000000000002) ∧
    decode ([0x07, 0x02, 7, 0, 0, 0] ++ [1, 0, 0, 0, 0, 0, 0, 0, 0, 0x51, 2, 0, 0, 0, 0, 0, 0, 0, 0, 0x61]) =
      .ok (.feSub 7 0x51000000000000000001 0x61000000000000000002) ∧
    decode ([0x08, 0x02, 7, 0, 0, 0] ++ [1, 0, 0, 0, 0, 0, 0, 0, 0, 0x51, 2, 0, 0, 0, 0, 0, 0, 0, 0, 0x61]) =
      .ok (.feMul 7 0x51000000000000000001 0x61000000000000000002) ∧
    decode ([0x09, 0x02, 7, 0, 0, 0] ++ [1, 0, 0, 0, 0, 0, 0, 0, 0, 0x51, 2, 0, 0, 0, 0, 0, 0, 0, 0, 0x61]) =
      .ok (.feDiv 7 0x51000000000000000001 0x61000000000000000002) ∧
    decode ([0x0A, 0x02, 0, 0, 0, 0] ++ [1, 0, 0, 0, 0, 0, 0, 0, 0, 0x51, 2, 0, 0, 0, 0, 0, 0, 0, 0, 0x61]) =
      .ok (.feMod 0x51000000000000000001 0x61000000000000000002) ∧
    decode ([0x0B, 0x02, 0, 0, 0, 0] ++ [1, 0, 0, 0, 0, 0, 0, 0, 0, 0x51, 2, 0, 0, 0, 0, 0, 0, 0, 0, 0x61]) =
      .ok (.feRem 0x51000000000000000001 0x61000000000000000002) ∧
    decode ([0x0C, 0x02, 0, 0, 0, 0] ++ [1, 0, 0, 0, 0, 0, 0, 0, 0, 0x51]) = .ok (.feIsNan 0x51000000000000000001) ∧
    decode ([0x0D, 0x02, 0, 0, 0, 0] ++ [1, 0, 0, 0, 0, 0, 0, 0, 0, 0x51]) = .ok (.feIsInf 0x51000000000000000001) := by decide +kernel

theorem test_packets_fe_2 :
    decode ([0x0E, 0x02, 0, 0, 0, 0] ++ [1, 0, 0, 0, 0, 0, 0, 0, 0, 0x51]) = .ok (.feIsZero 0x51000000000000000001) ∧
    decode ([0x0F, 0x02, 0, 0, 0, 0] ++ [1, 0, 0, 0, 0, 0, 0, 0, 0, 0x51]) =
      .ok (.feIsDenormal 0x51000000000000000001) ∧
    decode ([0x10, 0x02, 0, 0, 0, 0] ++ [1, 0, 0, 0, 0, 0, 0, 0, 0, 0x51]) =
      .ok (.feIsSupported 0x51000000000000000001) ∧
    decode ([0x11, 0x02, 0, 0, 0, 0] ++ [1, 0, 0, 0, 0, 0, 0, 0, 0, 0x51, 2, 0, 0, 0, 0, 0, 0, 0, 0, 0x61]) =
      .ok (.feCmp 0x51000000000000000001 0x61000000000000000002) ∧
    decode ([0x12, 0x02, 0, 0, 0, 0] ++ [1, 0, 0, 0, 0, 0, 0, 0, 0, 0x51, 2, 0, 0, 0, 0, 0, 0, 0, 0, 0x61]) =
      .ok (.feLt 0x51000000000000000001 0x61000000000000000002) ∧
    decode ([0x13, 0x02, 0, 0, 0, 0] ++ [1, 0, 0, 0, 0, 0, 0, 0, 0, 0x51, 2, 0, 0, 0, 0, 0, 0, 0, 0, 0x61]) =
      .ok (.feEq 0x51000000000000000001 0x61000000000000000002) ∧
    decode ([0x14, 0x02, 0, 0, 0, 0] ++ [1, 0, 0, 0, 0, 0, 0, 0, 0, 0x51]) = .ok (.feNeg 0x51000000000000000001) ∧
    decode ([0x15, 0x02, 0, 0, 0, 0] ++ [1, 0, 0, 0, 0, 0, 0, 0, 0, 0x51]) = .ok (.feAbs 0x51000000000000000001) ∧
    decode ([0x16, 0x02, 7, 0, 0, 0] ++ [1, 0, 0, 0, 0, 0, 0, 0, 0, 0x51]) = .ok (.feLog2 7 0x51000000000000000001) ∧
    decode ([0x17, 0x02, 7, 0, 0, 0] ++ [1, 0, 0, 0, 0, 0, 0, 0, 0, 0x51]) = .ok (.feSqrt 7 0x51000000000000000001) ∧
    decode ([0x18, 0x02, 7, 0, 0, 0] ++ [1, 0, 0, 0, 0, 0, 0, 0, 0, 0x51, 2, 0, 0, 0x61]) =
      .ok (.feScale 7 0x51000000000000000001 0x61000002) := by decide +kernel

theorem test_packets_fpu_1 :
    decode [0x00, 0x03, 7, 0, 0, 0] = .ok (.fpuInit 7) ∧
    decode ([0x01, 0x03, 7, 0, 0, 0] ++ [1]) = .ok (.fpuLd 7 1) ∧
    decode ([0x02, 0x03, 7, 0, 0, 0] ++ [1]) = .ok (.fpuSt 7 1) ∧
    decode [0x03, 0x03, 7, 0, 0, 0] = .ok (.fpuPop 7) ∧
    decode ([0x04, 0x03, 7, 0, 0, 0] ++ [1]) = .ok (.fpuGetSt 7 1) ∧
    decode ([0x05, 0x03, 7, 0, 0, 0] ++ [1, 2, 0, 0, 0, 0, 0, 0, 0, 0, 0x61, 1]) =
      .ok (.fpuSetSt 7 1 0x61000000000000000002 true) ∧
    decode ([0x06, 0x03, 7, 0, 0, 0] ++ [1, 0x51]) = .ok (.fpuLdI16 7 0x5101) ∧
    decode ([0x07, 0x03, 7, 0, 0, 0] ++ [1, 0, 0, 0x51]) = .ok (.fpuLdI32 7 0x51000001) ∧
    decode ([0x08, 0x03, 7, 0, 0, 0] ++ [1, 0, 0, 0, 0, 0, 0, 0x51]) = .ok (.fpuLdI64 7 0x5100000000000001) ∧
    decode ([0x09, 0x03, 7, 0, 0, 0] ++ [1, 0, 0, 0x51]) = .ok (.fpuLdF32 7 0x51000001) ∧
    decode ([0x0A, 0x03, 7, 0, 0, 0] ++ [1, 0, 0, 0, 0, 0, 0, 0x51]) = .ok (.fpuLdF64 7 0x5100000000000001) ∧
    decode ([0x0B, 0x03, 7, 0, 0, 0] ++ [1, 0, 0, 0, 0, 0, 0, 0, 0, 0x51]) = .ok (.fpuLdF80 7 0x51000000000000000001) ∧
    decode [0x0C, 0x03, 7, 0, 0, 0] = .ok (.fpuStI16 7) ∧
    decode [0x0D, 0x03, 7, 0, 0, 0] = .ok (.fpuStI32 7) := by decide +kernel

theorem test_packets_fpu_2 :
    decode [0x0E, 0x03, 7, 0, 0, 0] = .ok (.fpuStI64 7) ∧
    decode [0x0F, 0x03, 7, 0, 0, 0] = .ok (.fpuStF32 7) ∧
    decode [0x10, 0x03, 7, 0, 0, 0] = .ok (.fpuStF64 7) ∧
    decode [0x11, 0x03, 7, 0, 0, 0] = .ok (.fpuStF80 7) ∧
    decode ([0x12, 0x03, 7, 0, 0, 0] ++ [1, 2]) = .ok (.fpuAdd 7 1 2) ∧
    decode ([0x13, 0x03, 7, 0, 0, 0] ++ [1, 2]) = .ok (.fpuSub 7 1 2) ∧
    decode ([0x14, 0x03, 7, 0, 0, 0] ++ [1, 2]) = .ok (.fpuMul 7 1 2) ∧
    decode ([0x15, 0x03, 7, 0, 0, 0] ++ [1, 2]) = .ok (.fpuDiv 7 1 2) ∧
    decode ([0x16, 0x03, 7, 0, 0, 0] ++ [1, 2]) = .ok (.fpuMod 7 1 2) ∧
    decode ([0x17, 0x03, 7, 0, 0, 0] ++ [1, 2]) = .ok (.fpuRem 7 1 2) ∧
    decode ([0x18, 0x03, 7, 0, 0, 0] ++ [1]) = .ok (.fpuNeg 7 1) ∧
    decode ([0x19, 0x03, 7, 0, 0, 0] ++ [1]) = .ok (.fpuAbs 7 1) ∧
    decode ([0x1A, 0x03, 7, 0, 0, 0] ++ [1]) = .ok (.fpuSqrt 7 1) ∧
    decode ([0x1B, 0x03, 7, 0, 0, 0] ++ [1]) = .ok (.fpuLog2 7 1) := by decide +kernel

theorem test_packets_fpu_3 :
    decode ([0x1C, 0x03, 7, 0, 0, 0] ++ [1, 2]) = .ok (.fpuScale 7 1 2) ∧
    decode ([0x1D, 0x03, 7, 0, 0, 0] ++ [1, 2]) = .ok (.fpuCom 7 1 2) ∧
    decode ([0x1E, 0x03, 7, 0, 0, 0] ++ [1, 0x51]) = .ok (.fpuLdCw 7 0x5101) ∧
    decode [0x1F, 0x03, 7, 0, 0, 0] = .ok (.fpuStCw 7) ∧
    decode [0x20, 0x03, 7, 0, 0, 0] = .ok (.fpuStSw 7) ∧
    decode [0x21, 0x03, 7, 0, 0, 0] = .ok (.fpuConst1 7) ∧
    decode [0x22, 0x03, 7, 0, 0, 0] = .ok (.fpuConstL2T 7) ∧
    decode [0x23, 0x03, 7, 0, 0, 0] = .ok (.fpuConstL2E 7) ∧
    decode [0x24, 0x03, 7, 0, 0, 0] = .ok (.fpuConstPi 7) ∧
    decode [0x25, 0x03, 7, 0, 0, 0] = .ok (.fpuConstLg2 7) ∧
    decode [0x26, 0x03, 7, 0, 0, 0] = .ok (.fpuConstLn2 7) ∧
    decode [0x27, 0x03, 7, 0, 0, 0] = .ok (.fpuConstZ 7) := by decide +kernel

theorem test_packets_asm :
    decode [0x00, 0x04, 0, 0, 0, 0] = .ok .asmCreate ∧
    decode ([0x01, 0x04, 0, 0, 0, 0] ++ [1, 0, 0, 0, 0, 0, 0, 0x51]) = .ok (.asmRetain 0x5100000000000001) ∧
    decode ([0x02, 0x04, 0, 0, 0, 0] ++ [1, 0, 0, 0, 0, 0, 0, 0x51]) = .ok (.asmRelease 0x5100000000000001) ∧
    decode ([0x03, 0x04, 0, 0, 0, 0] ++
        [1, 0, 0, 0, 0, 0, 0, 0x51, 2, 0, 1, 3, 0, 0, 0x71, 1, 2, 0, 0, 0, 0, 0, 0, 0, 0x8B, 0x44, 4]) =
      .ok (.asmMap 0x5100000000000001 0x10002 0x71000003 (.region [0x8B, 0x44]) 4) ∧
    decode ([0x04, 0x04, 0, 0, 0, 0] ++ [1, 0, 0, 0, 0, 0, 0, 0x51, 2, 0, 1, 3, 0, 0, 0x71, 4]) =
      .ok (.asmMapAnon 0x5100000000000001 0x10002 0x71000003 4) ∧
    decode ([0x05, 0x04, 0, 0, 0, 0] ++ [1, 0, 0, 0, 0, 0, 0, 0x51, 2, 0, 1, 3, 0, 0, 0x71, 1]) =
      .ok (.asmUnmap 0x5100000000000001 0x10002 0x71000003 true) ∧
    decode ([0x06, 0x04, 0, 0, 0, 0] ++ [1, 0, 0, 0, 0, 0, 0, 0x51, 2, 0, 1, 3, 0, 0, 0x71, 4]) =
      .ok (.asmSetProt 0x5100000000000001 0x10002 0x71000003 4) ∧
    decode ([0x07, 0x04, 0, 0, 0, 0] ++
        [1, 0, 0, 0, 0, 0, 0, 0x51, 2, 0, 1, 3, 0, 0, 0x71, 4, 0, 0, 0, 0, 0, 0, 0x81, 5, 0, 1]) =
      .ok (.asmCow 0x5100000000000001 0x10002 0x71000003 0x8100000000000004 0x10005) ∧
    decode ([0x08, 0x04, 0, 0, 0, 0] ++ [1, 0, 0, 0, 0, 0, 0, 0x51, 2, 0, 0, 0x61]) =
      .ok (.asmFindHole 0x5100000000000001 0x61000002) ∧
    decode ([0x09, 0x04, 0, 0, 0, 0] ++ [1, 0, 0, 0, 0, 0, 0, 0x51, 2, 0, 0, 0x61, 1]) =
      .ok (.asmTranslate 0x5100000000000001 0x61000002 .write) := by decide +kernel

theorem test_packets_tlb :
    decode ([0x00, 0x05, 7, 0, 0, 0] ++ [1, 0, 0, 0x51, 2, 0, 0, 0x61]) = .ok (.tlbRead 7 0x51000001 0x61000002) ∧
    decode ([0x01, 0x05, 7, 0, 0, 0] ++ [1, 0, 0, 0x51, 2, 0, 0, 0, 0xAA, 0xBB]) =
      .ok (.tlbWrite 7 0x51000001 [0xAA, 0xBB]) ∧
    decode [0x02, 0x05, 7, 0, 0, 0] = .ok (.tlbFlush 7) ∧
    decode [0x03, 0x05, 7, 0, 0, 0] = .ok (.tlbRevalidate 7) ∧
    decode ([0x04, 0x05, 7, 0, 0, 0] ++ [1, 0, 0, 0, 0, 0, 0, 0x51]) = .ok (.tlbAttach 7 0x5100000000000001) := by decide +kernel

theorem test_packets_cpu_1 :
    decode ([0x00, 0x06, 7, 0, 0, 0] ++ [1]) = .ok (.cpuGetReg32 7 1) ∧
    decode ([0x01, 0x06, 7, 0, 0, 0] ++ [1, 2, 0, 0, 0x61]) = .ok (.cpuSetReg32 7 1 0x61000002) ∧
    decode ([0x02, 0x06, 7, 0, 0, 0] ++ [1]) = .ok (.cpuGetReg16 7 1) ∧
    decode ([0x03, 0x06, 7, 0, 0, 0] ++ [1, 2, 0x61]) = .ok (.cpuSetReg16 7 1 0x6102) ∧
    decode ([0x04, 0x06, 7, 0, 0, 0] ++ [1]) = .ok (.cpuGetReg8 7 1) ∧
    decode ([0x05, 0x06, 7, 0, 0, 0] ++ [1, 2]) = .ok (.cpuSetReg8 7 1 2) ∧
    decode [0x06, 0x06, 7, 0, 0, 0] = .ok (.cpuGetEip 7) ∧
    decode ([0x07, 0x06, 7, 0, 0, 0] ++ [1, 0, 0, 0x51]) = .ok (.cpuSetEip 7 0x51000001) ∧
    decode ([0x08, 0x06, 7, 0, 0, 0] ++ [1]) = .ok (.cpuGetXmm 7 1) ∧
    decode ([0x09, 0x06, 7, 0, 0, 0] ++ [1, 2, 0, 0, 0, 0, 0, 0, 0, 0, 0, 0, 0, 0, 0, 0, 0x61]) =
      .ok (.cpuSetXmm 7 1 0x61000000000000000000000000000002) ∧
    decode ([0x0A, 0x06, 7, 0, 0, 0] ++ [1]) = .ok (.cpuGetSeg 7 1) ∧
    decode ([0x0B, 0x06, 7, 0, 0, 0] ++ [1, 2, 0x61]) = .ok (.cpuSetSeg 7 1 0x6102) ∧
    decode ([0x0C, 0x06, 7, 0, 0, 0] ++ [1, 0, 0, 0x51, 2, 0, 0, 0x61, 3, 0, 0, 0x71]) =
      .ok (.cpuRecord 7 0x51000001 0x61000002 0x71000003) ∧
    decode ([0x0D, 0x06, 7, 0, 0, 0] ++ [1]) = .ok (.cpuGetFlag 7 1) := by decide +kernel

theorem test_packets_cpu_2 :
    decode ([0x0E, 0x06, 7, 0, 0, 0] ++ [1, 1]) = .ok (.cpuSetFlag 7 1 true) ∧
    decode [0x0F, 0x06, 7, 0, 0, 0] = .ok (.cpuMaterialize 7) ∧
    decode [0x10, 0x06, 7, 0, 0, 0] = .ok (.cpuExpand 7) ∧
    decode [0x11, 0x06, 7, 0, 0, 0] = .ok (.cpuGetEflags 7) ∧
    decode ([0x12, 0x06, 7, 0, 0, 0] ++ [1, 0, 0, 0x51]) = .ok (.cpuSetEflags 7 0x51000001) ∧
    decode [0x13, 0x06, 7, 0, 0, 0] = .ok (.cpuGetFaultAddr 7) := by decide +kernel

theorem test_packets_dec :
    decode ([0x00, 0x07, 7, 0, 0, 0] ++ [1, 0, 0, 0x51]) = .ok (.decModRm 7 0x51000001) ∧
    decode ([0x01, 0x07, 7, 0, 0, 0] ++ [1, 0, 5, 1, 2, 0xF0, 0xFF, 0xFF, 0xFF]) = .ok (.decEa 7 (.mem 5 1 2 0xFFFFFFF0)) := by decide +kernel

/-- Codes around each unit's map are not listed (R133, R114). -/
theorem test_decode_unlisted :
    decode [0x15, 0x01] = .error .illegalCommand ∧ decode [0xFF, 0x01] = .error .illegalCommand ∧
    decode [0x19, 0x02] = .error .illegalCommand ∧ decode [0x28, 0x03] = .error .illegalCommand ∧
    decode [0x0A, 0x04] = .error .illegalCommand ∧ decode [0x05, 0x05] = .error .illegalCommand ∧
    decode [0x14, 0x06] = .error .illegalCommand ∧ decode [0x02, 0x07] = .error .illegalCommand ∧
    decode [0x00, 0x00] = .error .illegalCommand ∧ decode [0x00, 0x08] = .error .illegalCommand := by decide

/-- A field that its width cannot hold (R114), and a packet cut short (log 3). -/
theorem test_decode_bad_fields :
    decode [0x00, 0x02, 0, 0, 0, 0, 4] = .error .illegalOperand ∧
    decode [0x0E, 0x06, 0, 0, 0, 0, 1, 2] = .error .illegalOperand ∧
    decode [0x01, 0x03, 0, 0, 0, 0] = .error .truncated ∧ decode [0x01] = .error .truncated := by decide

/-- A table word of 16 bits is the code with operands of zeros. -/
theorem test_table_word :
    decodeTableWord 16 0x0112 = some (.wiUdiv 0 0) ∧ decodeTableWord 16 0x0403 = some (.asmMap 0 0 0 .invalid 0) ∧
    decodeTableWord 16 0x0501 = some (.tlbWrite 0 0 []) ∧ decodeTableWord 16 0x0701 = some (.decEa 0 (.reg 0)) ∧
    decodeTableWord 16 0x0115 = none := by decide

/-- The first step after reset with a word on the port runs it (log 2): `WI.UDIV 0, 0` raises `DIVIDE_ERROR`. -/
theorem test_step_runs_table_word :
    (match step (State.reset.withFetchWord 16 0x0112) with
      | .next t => t.resp
      | _ => none) = some (.fault .divideError 0) := by decide

/-! ### WI (spec/95 part 2, table WI) -/

theorem test_wi_convert :
    gives (.wiFromU64 0xFFFFFFFFFFFFFFFF) .reset (.wide 0x0000000000000000FFFFFFFFFFFFFFFF) = true ∧
    gives (.wiFromS64 0x8000000000000000) .reset (.wide 0xFFFFFFFFFFFFFFFF8000000000000000) = true ∧
    gives (.wiToU64 0x00000000000000010000000000000005) .reset (.narrow 5 true) = true ∧
    gives (.wiToS64 0xFFFFFFFFFFFFFFFF8000000000000000) .reset (.narrow 0x8000000000000000 false) = true ∧
    gives (.wiToS64 0x00000000000000008000000000000000) .reset (.narrow 0x8000000000000000 true) = true := by decide

theorem test_wi_compare :
    gives (.wiUcmp 0x80000000000000000000000000000000 0x7FFFFFFFFFFFFFFFFFFFFFFFFFFFFFFF) .reset (.u8 1) = true ∧
    gives (.wiScmp 0x80000000000000000000000000000000 0x7FFFFFFFFFFFFFFFFFFFFFFFFFFFFFFF) .reset (.u8 0xFF) = true := by
  decide

theorem test_wi_clz :
    gives (.wiClz 0) .reset (.u8 128) = true ∧
    gives (.wiClz 0x0123456789ABCDEFFEDCBA9876543210) .reset (.u8 7) = true := by decide +kernel

theorem test_wi_bits :
    gives (.wiNot 0x0123456789ABCDEFFEDCBA9876543210) .reset (.wide 0xFEDCBA98765432100123456789ABCDEF) = true ∧
    gives (.wiAnd 0x0123456789ABCDEFFEDCBA9876543210 0xFFFF0000FFFF0000FFFF0000FFFF0000) .reset
      (.wide 0x0123000089AB0000FEDC000076540000) = true ∧
    gives (.wiOr 0x0123456789ABCDEFFEDCBA9876543210 0xFFFF0000FFFF0000FFFF0000FFFF0000) .reset
      (.wide 0xFFFF4567FFFFCDEFFFFFBA98FFFF3210) = true := by decide

theorem test_wi_shift :
    gives (.wiShl 0x0123456789ABCDEFFEDCBA9876543210 4) .reset (.wide 0x123456789ABCDEFFEDCBA98765432100) = true ∧
    gives (.wiShl 1 127) .reset (.wide 0x80000000000000000000000000000000) = true ∧
    gives (.wiShr 0xFFFFFFFFFFFFFFFFFFFFFFFFFFFFFFFF 127) .reset (.wide 1) = true ∧
    answer (.wiShl 1 128) .reset = some (.fail .illegalOperand) ∧
    answer (.wiShr 1 0xFFFFFFFF) .reset = some (.fail .illegalOperand) := by decide

theorem test_wi_add :
    gives (.wiUadd 0xFFFFFFFFFFFFFFFFFFFFFFFFFFFFFFFF 1) .reset (.wideOvf 0 true) = true ∧
    gives (.wiSadd 0xFFFFFFFFFFFFFFFFFFFFFFFFFFFFFFFF 1) .reset (.wideOvf 0 false) = true ∧
    gives (.wiSadd 0x7FFFFFFFFFFFFFFFFFFFFFFFFFFFFFFF 1) .reset
      (.wideOvf 0x80000000000000000000000000000000 true) = true := by decide

theorem test_wi_sub :
    gives (.wiUsub 0 1) .reset (.wideOvf 0xFFFFFFFFFFFFFFFFFFFFFFFFFFFFFFFF true) = true ∧
    gives (.wiSsub 0 1) .reset (.wideOvf 0xFFFFFFFFFFFFFFFFFFFFFFFFFFFFFFFF false) = true ∧
    gives (.wiSsub 0 0x80000000000000000000000000000000) .reset
      (.wideOvf 0x80000000000000000000000000000000 true) = true := by decide

theorem test_wi_mul :
    gives (.wiUmul 0x123456789ABCDEF0 0xFEDCBA9876543210) .reset
      (.wideOvf 0x121FA00AD77D7422236D88FE5618CF00 false) = true ∧
    gives (.wiUmul 0x10000000000000000 0x10000000000000000) .reset (.wideOvf 0 true) = true ∧
    gives (.wiSmul 0xFFFFFFFFFFFFFFFFFFFFFFFFFFFFFFFD 7) .reset
      (.wideOvf 0xFFFFFFFFFFFFFFFFFFFFFFFFFFFFFFEB false) = true ∧
    gives (.wiSmul 0x8000000000000000 0x10000000000000000) .reset
      (.wideOvf 0x80000000000000000000000000000000 true) = true := by decide

theorem test_wi_div :
    gives (.wiUdiv 0x0123456789ABCDEFFEDCBA9876543210 0x10001) .reset
      (.quotRem 0x00000123444445678888765444443210 0) = true ∧
    answer (.wiUdiv 5 0) .reset = some (.fault .divideError 0) ∧
    gives (.wiSdiv 0xFFFFFFFFFFFFFFFFFFFFFFFFFFFFFFF9 2) .reset
      (.quotRemOvf 0xFFFFFFFFFFFFFFFFFFFFFFFFFFFFFFFD 0xFFFFFFFFFFFFFFFFFFFFFFFFFFFFFFFF false) = true ∧
    gives (.wiSdiv 0x80000000000000000000000000000000 0xFFFFFFFFFFFFFFFFFFFFFFFFFFFFFFFF) .reset
      (.quotRemOvf 0x80000000000000000000000000000000 0 true) = true := by decide

theorem test_wi_neg :
    gives (.wiNeg 6) .reset (.wideOvf 0xFFFFFFFFFFFFFFFFFFFFFFFFFFFFFFFA false) = true ∧
    gives (.wiNeg 0x80000000000000000000000000000000) .reset
      (.wideOvf 0x80000000000000000000000000000000 true) = true := by decide

/-! ### FE (spec/95 part 2, tables FE) -/

theorem test_fe_rm :
    ((after (.feSetRm 0 2) .reset).rm 0, ((after (.feSetRm 0 2) .reset).fpu 0).cw) = (2#2, 0x037F#16) ∧
    gives (.feGetRm 0) (withRm 3) (.u2 3) = true := by decide

theorem test_fe_integers :
    gives (.feFromI64 0xFFFFFFFFFFFFBFC3) .reset (.f80Fl 0xC00D807A000000000000 0) = true ∧
    gives (.feToI64 0 0xC00D807A000000000000) .reset (.u64Fl 0xFFFFFFFFFFFFBFC3 0) = true ∧
    gives (.feToI64 0 0xC000A000000000000000) (withRm 1) (.u64Fl 0xFFFFFFFFFFFFFFFD flagP) = true ∧
    gives (.feToI64 0 0x403DFFFFFFFFFFFFFFFF) .reset (.u64Fl 0x7FFFFFFFFFFFFFFF flagI) = true := by decide +kernel

theorem test_fe_doubles :
    gives (.feFromF64 0x3FB999999999999A) .reset (.f80Fl 0x3FFBCCCCCCCCCCCCD000 0) = true ∧
    gives (.feFromF64 0x0000000000000001) .reset (.f80Fl 0x3BCD8000000000000000 flagD) = true ∧
    gives (.feToF64 0 0x7FFEFFFFFFFFFFFFFFFF) (withRm 1) (.u64Fl 0x7FEFFFFFFFFFFFFF (flagO ||| flagP)) = true ∧
    gives (.feToF64 0 0x7FFF8000000000000001) .reset (.u64Fl 0x7FF8000000000000 flagI) = true := by decide +kernel

theorem test_fe_add :
    gives (.feAdd 0 0x3FFF8000000000000000 0x3FBF8000000000000000) .reset (.f80Fl 0x3FFF8000000000000000 flagP) = true ∧
    gives (.feAdd 0 0x7FFEFFFFFFFFFFFFFFFF 0x7FFEFFFFFFFFFFFFFFFF) (withRm 3)
      (.f80Fl 0x7FFEFFFFFFFFFFFFFFFF (flagO ||| flagP)) = true := by decide +kernel

theorem test_fe_sub :
    gives (.feSub 0 0x3FFF8000000000000000 0x3FFF8000000000000000) (withRm 1) (.f80Fl 0x80000000000000000000 0) = true ∧
    gives (.feSub 0 0x3FFF8000000000000000 0x3FBF8000000000000000) .reset (.f80Fl 0x3FFEFFFFFFFFFFFFFFFF 0) = true ∧
    gives (.feSub 0 0x7FFF8000000000000000 0x7FFF8000000000000000) (withStack 0 []) (.f80Fl F80.dnan flagI) = true ∧
    gives (.feSub 0 0x3FFF8000000000000000 0x7FFF8000000000000000) (withStack 0 []) (.f80Fl 0xFFFF8000000000000000 0) =
      true := by decide +kernel

theorem test_fe_mul :
    gives (.feMul 0 0x00000000000000000001 0x3FFE8000000000000000) (withRm 2)
      (.f80Fl 1 (flagD ||| flagU ||| flagP)) = true ∧
    gives (.feMul 0 0x4000C000000000000000 0x4002A000000000000000) .reset (.f80Fl 0x4003F000000000000000 0) = true := by
  decide +kernel

theorem test_fe_div :
    gives (.feDiv 0 0x3FFF8000000000000000 0x4000C000000000000000) (withRm 1) (.f80Fl 0x3FFDAAAAAAAAAAAAAAAA flagP) = true ∧
    gives (.feDiv 0 0xBFFF8000000000000000 0) .reset (.f80Fl 0xFFFF8000000000000000 flagZ) = true := by decide +kernel

theorem test_fe_mod_rem :
    gives (.feMod 0xC001A000000000000000 0x4000C000000000000000) .reset (.f80Fl 0xC0008000000000000000 0) = true ∧
    gives (.feMod 0xC001C000000000000000 0x4000C000000000000000) .reset (.f80Fl 0x80000000000000000000 0) = true ∧
    gives (.feRem 0x4001E000000000000000 0x40008000000000000000) .reset (.f80Fl 0xBFFF8000000000000000 0) = true ∧
    gives (.feRem 0x4001A000000000000000 0x40008000000000000000) .reset (.f80Fl 0x3FFF8000000000000000 0) = true := by
  decide +kernel

theorem test_fe_classes :
    gives (.feIsNan 0xFFFFC000000000000000) .reset (.u1 true) = true ∧
    gives (.feIsInf 0x7FFF8000000000000000) .reset (.u1 true) = true ∧
    gives (.feIsZero 0x80000000000000000000) .reset (.u1 true) = true ∧
    gives (.feIsDenormal 0x00008000000000000000) .reset (.u1 true) = true ∧
    gives (.feIsSupported 0x3FFF0000000000000000) .reset (.u1 false) = true := by decide

theorem test_fe_compare :
    gives (.feCmp 0 0x80000000000000000000) .reset (.u2Fl 2 0) = true ∧
    gives (.feCmp 0x3FFF8000000000000000 0x7FFF8000000000000001) .reset (.u2Fl 3 flagI) = true ∧
    gives (.feLt 0x40008000000000000000 0xFFFFC000000000000000) .reset (.u2Fl 3 0) = true ∧
    gives (.feLt 1 2) .reset (.u2Fl 1 flagD) = true ∧
    gives (.feEq 0 0x80000000000000000000) .reset (.u2Fl 1 0) = true := by decide

theorem test_fe_neg_abs :
    gives (.feNeg 0) .reset (.f80 0x80000000000000000000) = true ∧
    gives (.feAbs 0xFFFFC000000000000000) .reset (.f80 0x7FFFC000000000000000) = true := by decide

theorem test_fe_log2 :
    gives (.feLog2 0 0x00000000000000000001) .reset (.f80Fl 0xC00D807A000000000000 flagD) = true ∧
    gives (.feLog2 0 0) .reset (.f80Fl 0xFFFF8000000000000000 flagZ) = true := by decide +kernel

theorem test_fe_sqrt :
    gives (.feSqrt 0 0x4000C000000000000000) .reset (.f80Fl 0x3FFFDDB3D742C265539E flagP) = true ∧
    gives (.feSqrt 0 0x40008000000000000000) (withRm 2) (.f80Fl 0x3FFFB504F333F9DE6485 flagP) = true := by decide +kernel

theorem test_fe_scale :
    gives (.feScale 0 0x4000C000000000000000 0xFFFFBFC2) .reset (.f80Fl 2 (flagU ||| flagP)) = true ∧
    gives (.feScale 0 0x00000000000000000001 16445) .reset (.f80Fl 0x3FFF8000000000000000 flagD) = true := by
  decide +kernel

/-! ### FPU (spec/95 part 2, table FPU) -/

theorem test_fpu_init :
    (after (.feSetRm 0 3) (withStack 0x0F40 [1])).rm 0 = 3 ∧
    ((after (.fpuInit 0) (withStack 0x0F40 [1])).fpu 0).cw = 0x037F ∧
    ((after (.fpuInit 0) (withStack 0x0F40 [1])).fpu 0).valid 7#3 = false ∧
    swSt (.fpuInit 0) (withStack 0x0F40 [1]) = (0x0000, 0) := by decide

theorem test_fpu_ld :
    swSt (.fpuLd 0 1) (withStack masked [0x4000C90FDAA22168C235, 0x3FFF8000000000000000]) =
      (0x2800, 0x3FFF8000000000000000) ∧
    swSt (.fpuLd 0 0) (withStack masked []) = (0x3841, 0xFFFFC000000000000000) := by decide

theorem test_fpu_st :
    ((after (.fpuSt 0 2) (withStack masked [0x40008000000000000000])).fpu 0).st 2#3 = 0x40008000000000000000 ∧
    ((after (.fpuSt 0 2) (withStack masked [0x40008000000000000000])).fpu 0).valid 2#3 = true := by decide

/-- Popping an empty stack, masked and with the invalid flag unmasked. -/
theorem test_fpu_pop :
    (swSt (.fpuPop 0) (withStack masked [])).1 = 0x0841 ∧
    answer (.fpuPop 0) (withStack 0x037E []) = some (.fault .floatError 0) ∧
    (swSt (.fpuPop 0) (withStack 0x037E [])).1 = 0x00C1 := by decide

theorem test_fpu_getst_setst :
    gives (.fpuGetSt 0 0) (after (.fpuSetSt 0 0 0x40008000000000000000 true) (withStack masked []))
      (.stackReg 0x40008000000000000000 true) = true ∧
    gives (.fpuGetSt 0 0) (withStack masked []) (.stackReg 0 false) = true := by decide

theorem test_fpu_ld_integers :
    swSt (.fpuLdI16 0 0x8000) (withStack masked []) = (0x3800, 0xC00E8000000000000000) ∧
    swSt (.fpuLdI32 0 0xFFFFFFFF) (withStack masked []) = (0x3800, 0xBFFF8000000000000000) ∧
    swSt (.fpuLdI64 0 0x7FFFFFFFFFFFFFFF) (withStack masked []) = (0x3800, 0x403DFFFFFFFFFFFFFFFE) := by decide +kernel

theorem test_fpu_ld_floats :
    swSt (.fpuLdF32 0 0x7FA00000) (withStack masked []) = (0x3801, 0x7FFFE000000000000000) ∧
    swSt (.fpuLdF64 0 0x0000000000000001) (withStack masked []) = (0x3802, 0x3BCD8000000000000000) ∧
    swSt (.fpuLdF80 0 0x3FFF0000000000000000) (withStack masked []) = (0x3800, 0x3FFF0000000000000000) := by
  decide +kernel

theorem test_fpu_st_integers :
    gives (.fpuStI16 0) (withStack masked [0x400E9C40000000000000]) (.u16 32767) = true ∧
    gives (.fpuStI32 0) (withStack masked [0x4000A000000000000000]) (.u32 2) = true ∧
    gives (.fpuStI64 0) (withStack masked [0xBFFF8000000000000000]) (.u64 0xFFFFFFFFFFFFFFFF) = true := by decide +kernel

theorem test_fpu_st_floats :
    gives (.fpuStF32 0) (withStack masked [0x4000C90FDAA22168C235]) (.u32 0x40490FDB) = true ∧
    gives (.fpuStF64 0) (withStack masked [0x4000C90FDAA22168C235]) (.u64 0x400921FB54442D18) = true ∧
    gives (.fpuStF80 0) (withStack masked []) (.f80 0xFFFFC000000000000000) = true ∧
    (swSt (.fpuStF80 0) (withStack masked [])).1 = 0x0041 := by decide +kernel

/-- 1 + π is a tie rounded to even. -/
theorem test_fpu_add :
    swSt (.fpuAdd 0 0 1) (withStack masked [0x3FFF8000000000000000, 0x4000C90FDAA22168C235, 0x3FFF8000000000000000]) =
      (0x2820, 0x40018487ED5110B4611A) ∧
    swSt (.fpuAdd 0 0 1) (withStack masked []) = (0x0041, 0xFFFFC000000000000000) := by decide +kernel

/-- 1 − 3 = −2: the destination is the left operand. -/
theorem test_fpu_sub :
    swSt (.fpuSub 0 0 1) (withStack masked [0x3FFF8000000000000000, 0x4000C000000000000000]) =
      (0x3000, 0xC0008000000000000000) := by decide +kernel

/-- log10 2 times log2 10. -/
theorem test_fpu_mul :
    swSt (.fpuMul 0 0 1) (withStack masked [0x3FFD9A209A84FBCFF799, 0x4000D49A784BCD1B8AFE]) =
      (0x3020, 0x3FFF8000000000000000) := by decide +kernel

/-- 1 / 0, masked and with divide-by-zero unmasked. -/
theorem test_fpu_div :
    swSt (.fpuDiv 0 0 1) (withStack masked [0x3FFF8000000000000000, 0]) = (0x3004, 0x7FFF8000000000000000) ∧
    answer (.fpuDiv 0 0 1) (withStack 0x037B [0x3FFF8000000000000000, 0]) = some (.fault .floatError 0) ∧
    swSt (.fpuDiv 0 0 1) (withStack 0x037B [0x3FFF8000000000000000, 0]) = (0x3084, 0x3FFF8000000000000000) := by
  decide +kernel

theorem test_fpu_mod_rem :
    swSt (.fpuMod 0 0 1) (withStack masked [0x4001A000000000000000, 0x4000C000000000000000]) =
      (0x3000, 0x40008000000000000000) ∧
    swSt (.fpuRem 0 0 1) (withStack masked [0x4001A000000000000000, 0x4000C000000000000000]) =
      (0x3000, 0xBFFF8000000000000000) := by decide +kernel

theorem test_fpu_neg_abs :
    swSt (.fpuNeg 0 0) (withStack masked [0]) = (0x3800, 0x80000000000000000000) ∧
    swSt (.fpuAbs 0 0) (withStack masked [0xFFFFC000000000000000]) = (0x3800, 0x7FFFC000000000000000) := by decide

theorem test_fpu_sqrt_log2 :
    swSt (.fpuSqrt 0 0) (withStack masked [0x40008000000000000000]) = (0x3820, 0x3FFFB504F333F9DE6484) ∧
    swSt (.fpuLog2 0 0) (withStack masked [0x40028000000000000000]) = (0x3800, 0x4000C000000000000000) := by
  decide +kernel

/-- 3 scaled by 5.9, truncated to 5, is 96. -/
theorem test_fpu_scale :
    ((after (.fpuScale 0 1 0) (withStack masked [0x4001BCCCCCCCCCCCD000, 0x4000C000000000000000])).fpu 0).st 1#3 =
      0x4005C000000000000000 := by decide +kernel

/-- Equal, less, greater, and an empty slot. -/
theorem test_fpu_com :
    (swSt (.fpuCom 0 0 1) (withStack masked [0x3FFF8000000000000000, 0x3FFF8000000000000000])).1 = 0x7000 ∧
    (swSt (.fpuCom 0 0 1) (withStack masked [0, 0x3FFF8000000000000000])).1 = 0x3100 ∧
    (swSt (.fpuCom 0 1 0) (withStack masked [0, 0x3FFF8000000000000000])).1 = 0x3000 ∧
    (swSt (.fpuCom 0 0 1) (withStack masked [0x3FFF8000000000000000])).1 = 0x7D41 := by decide +kernel

theorem test_fpu_ldcw :
    (after (.fpuLdCw 0 0x0F7F) .reset).rm 0 = 3 ∧ ((after (.fpuLdCw 0 0x0F7F) .reset).fpu 0).cw = 0x0F7F ∧
    (swSt (.fpuLdCw 0 0x037E) (after (.fpuPop 0) (withStack masked []))).1 = 0x08C1 := by decide

theorem test_fpu_stcw_stsw :
    gives (.fpuStCw 0) .reset (.u16 0x037F) = true ∧
    gives (.fpuStSw 0) (withStack masked [0x3FFF8000000000000000]) (.u16 0x3800) = true := by decide

/-- The constants (R296), and a push onto a full stack. -/
theorem test_fpu_constants :
    swSt (.fpuConst1 0) .reset = (0x3800, 0x3FFF8000000000000000) ∧
    swSt (.fpuConstL2T 0) .reset = (0x3800, 0x4000D49A784BCD1B8AFE) ∧
    swSt (.fpuConstL2E 0) .reset = (0x3800, 0x3FFFB8AA3B295C17F0BC) ∧
    swSt (.fpuConstPi 0) .reset = (0x3800, 0x4000C90FDAA22168C235) ∧
    swSt (.fpuConstLg2 0) .reset = (0x3800, 0x3FFD9A209A84FBCFF799) ∧
    swSt (.fpuConstLn2 0) .reset = (0x3800, 0x3FFEB17217F7D1CF79AC) ∧
    swSt (.fpuConstZ 0) .reset = (0x3800, 0) ∧
    swSt (.fpuConstZ 0) (withStack masked [1, 1, 1, 1, 1, 1, 1, 1]) = (0x3A41, 0xFFFFC000000000000000) := by decide

/-! ### ASM (spec/95 part 2, table ASM) -/

theorem test_asm_create :
    gives .asmCreate { State.reset with draws := { Draws.reset with oom := [false] } } (.handle 1) = true ∧ gives .asmCreate (memory [(0x10, 0x43)]) (.handle 2) = true ∧
    answer .asmCreate { State.reset with draws := { Draws.reset with oom := [true] } } = some (.fail .outOfMemory) := by
  decide

/-- A context stays attached to a space that is gone: its handle is not given to a new one (R98, R321). -/
theorem test_asm_create_reused :
    gives .asmCreate (after (.asmRelease 1) (memory [])) (.handle 2) = true := by decide

theorem test_asm_retain_release :
    ((after (.asmRetain 1) (memory [])).space 1).map Space.refcount = some 2 ∧
    gives (.asmRelease 1) (after (.asmRetain 1) (memory [])) (.u1 false) = true ∧
    gives (.asmRelease 1) (memory [(0x10, 0x43), (0x11, 0x43)]) (.u1 true) = true ∧
    (after (.asmRelease 1) (memory [(0x10, 0x43), (0x11, 0x43)])).blobs = [] := by decide

/-- S1: a region mapped over two pages, translated at the second. -/
theorem test_asm_map :
    answer (.asmMap 1 0x10 2 (.region [1, 2]) 3) (memory []) = some (.fail .mapFailed) ∧
    answer (.asmMap 1 0xFFFFF 2 .invalid 3) (memory []) = some (.fail .illegalOperand) ∧
    (after (.asmMap 1 0x08048 1 (.region (0x8B :: List.replicate 4095 0)) 5) (memory [])).byteOf 1 0x08048000 = some 0x8B ∧
    flagsAt (after (.asmMap 1 0x08048 1 (.region (0x8B :: List.replicate 4095 0)) 5) (memory [])) 1 0x08048 = some 5 := by
  decide +kernel

theorem test_asm_mapanon :
    (after (.asmMapAnon 1 0x11 1 1) (memory [(0x10, 0x43), (0x11, 0x43)])).pte 1 0x11 =
      some { blob := 2, offset := 0, flags := 0x41 } ∧
    (mapFind (after (.asmMapAnon 1 0x11 1 1) (memory [(0x10, 0x43), (0x11, 0x43)])).blobs 1).map Blob.refcount = some 1 ∧
    genOf (after (.asmMapAnon 1 0x11 1 1) (memory [(0x10, 0x43), (0x11, 0x43)])) 1 = some 2 := by decide

theorem test_asm_unmap :
    answer (.asmUnmap 1 0x10 3 false) (memory [(0x10, 0x43), (0x11, 0x43)]) = some (.fail .notMapped) ∧
    (after (.asmUnmap 1 0x10 3 true) (memory [(0x10, 0x43), (0x11, 0x43)])).blobs = [] ∧
    genOf (after (.asmUnmap 1 0x20 1 true) (memory [(0x10, 0x43)])) 1 = some 2 := by decide

theorem test_asm_setprot :
    flagsAt (after (.asmSetProt 1 0x10 2 0x7F) (memory [(0x10, 0x53), (0x11, 0x41)])) 1 0x10 = some 0x57 ∧
    flagsAt (after (.asmSetProt 1 0x10 2 0x7F) (memory [(0x10, 0x53), (0x11, 0x41)])) 1 0x11 = some 0x47 ∧
    answer (.asmSetProt 1 0x10 2 1) (memory [(0x10, 0x53)]) = some (.fail .notMapped) := by decide

theorem test_asm_cow :
    gives (.asmCow 1 0x10 2 2 0x30) (twoSpaces [(0x10, 0x63)]) (.u32 1) = true ∧
    flagsAt (after (.asmCow 1 0x10 2 2 0x30) (twoSpaces [(0x10, 0x63)])) 1 0x10 = some 0x53 ∧
    (after (.asmCow 1 0x10 2 2 0x30) (twoSpaces [(0x10, 0x63)])).pte 2 0x30 = some { blob := 1, offset := 0, flags := 0x53 } ∧
    (mapFind (after (.asmCow 1 0x10 2 2 0x30) (twoSpaces [(0x10, 0x63)])).blobs 1).map Blob.refcount = some 2 ∧
    answer (.asmCow 1 0x10 2 1 0x11) (memory [(0x10, 0x63)]) = some (.fail .illegalOperand) := by decide

theorem test_asm_findhole :
    gives (.asmFindHole 1 4) (memory []) (.u32 0xF7FFA) = true ∧
    gives (.asmFindHole 1 2) (memory [(0xF7FFC, 0x43)]) (.u32 0xF7FFA) = true ∧
    gives (.asmFindHole 1 0xB7FFE) (memory []) (.u32 0x10000000) = true ∧
    answer (.asmFindHole 1 0) (memory []) = some (.fail .illegalOperand) := by decide

theorem test_asm_translate :
    gives (.asmTranslate 1 0x10123 .read) (memory [(0x10, 0x53)]) (.pointer 1 0x123 0x53) = true ∧
    answer (.asmTranslate 1 0x10000 .write) (memory [(0x10, 0x51)]) = some (.fail .noTranslation) ∧
    gives (.asmTranslate 1 0x10004 .write) (memory [(0x10, 0x53)]) (.pointer 2 4 0x43) = true ∧
    (after (.asmTranslate 1 0x10004 .write) (memory [(0x10, 0x53)])).byteOf 1 0x10003 = some 0x44 := by decide +kernel

/-- Stack growth below a page with and without GROWS-DOWN. -/
theorem test_asm_translate_grows :
    gives (.asmTranslate 1 0xBFFFE000 .write) (memory [(0xBFFFF, 0x4B)]) (.pointer 2 0 0x4B) = true ∧
    answer (.asmTranslate 1 0xBFFFE000 .write) (memory [(0xBFFFF, 0x43)]) = some (.fail .noTranslation) := by decide +kernel

/-! ### TLB (spec/95 part 2, table TLB) -/

theorem test_tlb_read :
    gives (.tlbRead 0 0x10000 4) (memory [(0x10, 0x43)]) (.bytes [0x11, 0x22, 0x33, 0x44]) = true ∧
    ((after (.tlbRead 0 0x10000 4) (memory [(0x10, 0x43)])).tlb 0).slots =
      [(0x10, { page := 0x10, pageW := some 0x10, blob := 1, off := -0x10000 })] ∧
    answer (.tlbRead 0 0xFFFFFFFF 2) (memory [(0x10, 0x43)]) = some (.fail .illegalOperand) ∧
    gives (.tlbRead 0 0x10000 0) (memory []) (.bytes []) = true := by decide +kernel

/-- A write over a page boundary whose second page is unmapped keeps its first piece. -/
theorem test_tlb_write :
    answer (.tlbWrite 0 0x10FFE [0xAA, 0xBB, 0xCC, 0xDD]) (memory [(0x10, 0x43)]) = some (.fault .pageFault 0x11000) ∧
    (after (.tlbWrite 0 0x10FFE [0xAA, 0xBB, 0xCC, 0xDD]) (memory [(0x10, 0x43)])).byteOf 1 0x10FFF = some 0xBB ∧
    ((after (.tlbWrite 0 0x10FFE [0xAA, 0xBB, 0xCC, 0xDD]) (memory [(0x10, 0x43)])).cpu 0).faultAddr = 0x11000 ∧
    answer (.tlbWrite 0 0x10000 [0]) (memory [(0x10, 0x41)]) = some (.fault .pageFault 0x10000) := by decide +kernel

theorem test_tlb_flush_revalidate :
    ((after (.tlbFlush 0) (after (.tlbRead 0 0x10000 1) (memory [(0x10, 0x43)]))).tlb 0) =
      { mem := some 1, gen := 1, slots := [] } ∧
    gives (.tlbRevalidate 0) (after (.asmSetProt 1 0x10 1 1) (memory [(0x10, 0x43)])) (.u1 true) = true ∧
    gives (.tlbRevalidate 0) (memory [(0x10, 0x43)]) (.u1 false) = true ∧
    answer (.tlbFlush 1) (memory []) = some (.fail .illegalOperand) := by decide +kernel

theorem test_tlb_attach :
    (after (.tlbAttach 5 1) (memory [])).tlb 5 = { mem := some 1, gen := 1, slots := [] } ∧
    answer (.tlbAttach 5 2) (memory []) = some (.fail .illegalOperand) := by decide

/-- A `TLB.READ` of four bytes, stopped after the first, while context 1 writes the second and the third byte: the reader sees
the old first byte and the new others (R75, R92, R94). -/
theorem test_torn_read :
    let s := scheduled [0, 4095, 4095] (after (.tlbAttach 1 1) (memory [(0x10, 0x43)]))
    let t := after (.tlbRead 0 0x10000 4) s
    t.resp = none ∧ t.transfer 0 = some { place := { addr := 0x10001, host := some (1, 1) }, job := .read 3 [0x11] } ∧
    (match (after (.tlbWrite 1 0x10000 [0xAA, 0xBB, 0xCC]) t).resume 0 with
      | .next u => decide (u.resp = some (.ok (.bytes [0x11, 0xBB, 0xCC, 0x44])) ∧ u.transfer 0 = none)
      | _ => false) = true := by decide +kernel

/-- A `TLB.WRITE` stopped in its first page; the second page is unmapped meanwhile, so that its piece faults (R77, R92). -/
theorem test_interrupted_write :
    let t := after (.tlbWrite 0 0x10FFE [1, 2, 3]) (scheduled [0, 4095] (memory [(0x10, 0x43), (0x11, 0x43)]))
    t.byteOf 1 0x10FFE = some 1 ∧ t.byteOf 1 0x10FFF = some 0 ∧
    (match (after (.asmUnmap 1 0x11 1 false) t).resume 0 with
      | .next u => decide (u.resp = some (.fault .pageFault 0x11000) ∧ u.byteOf 1 0x10FFF = some 2)
      | _ => false) = true := by decide +kernel

/-- A displacement fetch stopped after its first byte, while its other bytes are changed (R75, R439). -/
theorem test_interrupted_fetch :
    let t := after (.decModRm 0 0x1000) (scheduled [0, 4095, 4095] (after (.tlbAttach 1 1) (code 0 [0x05, 0x78, 0x56])))
    t.resp = none ∧
    (match (after (.tlbWrite 1 0x1001 [1, 2, 3, 4]) t).resume 0 with
      | .next u => decide (u.resp = some (.ok (.modRm (.mem 8 8 0 0x04030278) 0 0x1005)))
      | _ => false) = true := by decide +kernel

/-- A stale read hit on a deleted blob answers its last contents and a stale write is lost (U6); with the generation test of
R361 the same read misses and faults. -/
theorem test_stale_deleted :
    let s := after (.asmUnmap 1 0x10 1 false) (after (.tlbWrite 0 0x10000 [0xAB]) (memory [(0x10, 0x43)]))
    s.blobs = [] ∧ gives (.tlbRead 0 0x10000 2) s (.bytes [0xAB, 0x22]) = true ∧
    after (.tlbWrite 0 0x10001 [0xCD]) s = s.ok .none ∧
    answer (.tlbRead 0 0x10000 2) { s with params := { s.params with genCheck := true } } =
      some (.fault .pageFault 0x10000) := by decide +kernel

/-- A stale write hit (spec/20_memory.md R93): the slot filled before the protection change still serves the write. -/
theorem test_tlb_stale_hit :
    answer (.tlbWrite 0 0x10000 [0xCD])
      (after (.asmSetProt 1 0x10 1 1) (after (.tlbWrite 0 0x10000 [0xAB]) (memory [(0x10, 0x43)]))) =
      some (.ok .none) := by decide +kernel

/-! ### CPU (spec/95 part 2, table CPU) -/

theorem test_cpu_registers :
    gives (.cpuGetReg32 0 3) (after (.cpuSetReg8 0 7 0x11) (after (.cpuSetReg32 0 3 0xAABBCCDD) .reset)) (.u32 0xAABB11DD) =
      true ∧
    gives (.cpuGetReg32 0 0) (after (.cpuSetReg16 0 0 0) (after (.cpuSetReg32 0 0 0x1234FF78) .reset)) (.u32 0x12340000) =
      true ∧
    gives (.cpuGetReg16 0 0) (after (.cpuSetReg32 0 0 0x12345678) .reset) (.u16 0x5678) = true ∧
    gives (.cpuGetReg8 0 4) (after (.cpuSetReg32 0 0 0x12345678) .reset) (.u8 0x56) = true ∧
    gives (.cpuGetReg8 0 0) (after (.cpuSetReg32 0 0 0x12345678) .reset) (.u8 0x78) = true := by decide

theorem test_cpu_others :
    gives (.cpuGetEip 0) (after (.cpuSetEip 0 0x08048000) .reset) (.u32 0x08048000) = true ∧
    gives (.cpuGetXmm 0 7) (after (.cpuSetXmm 0 7 0x0123456789ABCDEFFEDCBA9876543210) .reset)
      (.wide 0x0123456789ABCDEFFEDCBA9876543210) = true ∧
    gives (.cpuGetSeg 0 5) (after (.cpuSetSeg 0 5 0x2B) .reset) (.u16 0x2B) = true ∧
    answer (.cpuGetSeg 0 6) .reset = some (.fail .illegalOperand) ∧
    answer (.cpuSetSeg 0 7 1) .reset = some (.fail .illegalOperand) ∧
    gives (.cpuGetSeg 0 7) { State.reset with params := { Params.default with nseg := 8 } } (.u16 0) = true ∧
    gives (.cpuGetFaultAddr 0) (after (.tlbRead 0 0x20000 4) (memory [])) (.u32 0x20000) = true := by decide +kernel

/-- S5, second row: parity and auxiliary carry set, sign set. -/
theorem test_cpu_record_materialize :
    gives (.cpuGetEflags 0)
      (after (.cpuMaterialize 0)
        (after (.cpuRecord 0 0x80000000 0x7FFFFFFF 1) (after (.cpuExpand 0) (after (.cpuSetEflags 0 2) .reset))))
      (.u32 0x96) = true ∧
    gives (.cpuGetFlag 0 2) (after (.cpuRecord 0 0xFF 0xF0 0x0F) .reset) (.u1 false) = true := by decide

theorem test_cpu_flags :
    gives (.cpuGetFlag 0 5) (after (.cpuExpand 0) (after (.cpuSetEflags 0 0x841) .reset)) (.u1 true) = true ∧
    gives (.cpuGetFlag 0 3) (after (.cpuSetFlag 0 3 true) (after (.cpuRecord 0 1 1 0) .reset)) (.u1 true) = true ∧
    answer (.cpuGetFlag 0 6) .reset = some (.fail .illegalOperand) ∧
    answer (.cpuSetFlag 0 7 true) .reset = some (.fail .illegalOperand) := by decide

/-! ### DEC (spec/95 part 2, table DEC) -/

theorem test_dec_modrm :
    gives (.decModRm 0 0x1000) (code 0 [0x05, 0x78, 0x56, 0x34, 0x12]) (.modRm (.mem 8 8 0 0x12345678) 0 0x1005) = true ∧
    gives (.decModRm 0 0x1000) (code 0 [0x7C, 0x6B, 0x7F]) (.modRm (.mem 3 5 1 0x7F) 7 0x1003) = true ∧
    gives (.decModRm 0 0x1000) (code 0 [0x84, 0x8D, 0xF0, 0xFF, 0xFF, 0xFF]) (.modRm (.mem 5 1 2 0xFFFFFFF0) 0 0x1006) =
      true := by decide +kernel

/-- An index field 100 is no index whatever the scale; a register operand; a fault inside the displacement. -/
theorem test_dec_modrm_edges :
    gives (.decModRm 0 0x1000) (code 0 [0x04, 0xE4]) (.modRm (.mem 4 8 0 0) 0 0x1002) = true ∧
    gives (.decModRm 0 0x1000) (code 0 [0xFC]) (.modRm (.reg 4) 7 0x1001) = true ∧
    answer (.decModRm 0 0x1FFD) (code 0xFFD [0x05, 0x78, 0x56]) = some (.fault .pageFault 0x2000) := by decide +kernel

theorem test_dec_ea :
    gives (.decEa 0 (.mem 5 1 2 0xFFFFFFF0)) (after (.cpuSetReg32 0 5 0x2000) (after (.cpuSetReg32 0 1 3) (memory [])))
      (.u32 0x1FFC) = true ∧
    gives (.decEa 0 (.mem 8 1 3 0xFFFFFFFF)) (after (.cpuSetReg32 0 1 3) (memory [])) (.u32 0x17) = true ∧
    answer (.decEa 0 (.reg 0)) (memory []) = some (.fail .illegalOperand) ∧
    answer (.decEa 0 (.mem 9 8 0 0)) (memory []) = some (.fail .illegalOperand) ∧
    answer (.decEa 0 (.mem 8 8 0 0)) .reset = some (.fail .illegalOperand) := by decide

/-! ### Witnesses: for each statement of Certificates/Slice0/Obligations.lean, a state and operands that meet its hypotheses, at the
boundary values of its clauses -/

/-- A command answers a next state. -/
def answers (i : Instr) (s : State) : Bool :=
  match exec i s with
  | .next _ => true
  | _ => false

theorem next_after {i : Instr} {s : State} (h : answers i s = true) : exec i s = .next (after i s) := by
  unfold answers at h
  unfold after
  split at h
  · next t ht => rw [ht]
  · cases h

/-- One page 0x10 with flags `0x43`, context 0 attached to its space. -/
def page43 : State := memory [(0x10, 0x43)]

/-- The next allocation fails. -/
def starved (s : State) : State := { s with draws := { s.draws with oom := [true] } }

/-- A packet on the port. -/
def pending (i : Instr) (s : State) : State := s.present (encode i)

theorem inv_page43 : page43.Inv := by unfold State.Inv; decide +kernel

theorem witness_DecodeOfEncode :
    (Instr.asmMap 1 0xFFFFF 1 (.region [1, 2]) 0x7F).wf = true ∧ (Instr.tlbWrite 7 0 [0xAB]).wf = true ∧
    (Instr.wiNeg 0).wf = true := by decide

/-- Context 0's read of four bytes is stopped after the first. -/
def parked : State := after (.tlbRead 0 0x10000 4) (scheduled [0, 4095, 4095] page43)

/-- A code that is not listed; then, for forms of every kind of narrow field, one value too wide: a u3 alone, first and last, a
2-bit mode, 1-bit operands, page indexes, 7-bit flags, the descriptor's fields; and of `ASM.MAP` the page, the host byte and the
flags, with a region and without. -/
theorem witness_RejectedPackets :
    (State.reset.present [0x15, 0x01]).port = (0x15 :: 0x01 :: []) :: [] ∧ State.reset.turn = (none, .reset) ∧
    listedCode ((0x15 : Byte).toNat + 256 * (0x01 : Byte).toNat) = false ∧
    (([(0x0200, [(2, 4)]), (0x0301, [(3, 8)]), (0x0305, [(3, 0), (80, 0), (1, 2)]), (0x0305, [(3, 255), (80, 0), (1, 0)]),
        (0x0312, [(3, 7), (3, 8)]), (0x031D, [(3, 8), (3, 0)]),
        (0x0404, [(64, 1), (20, 0), (32, 1), (7, 128)]), (0x0405, [(64, 1), (20, 0), (32, 1), (1, 2)]),
        (0x0407, [(64, 1), (20, 0), (32, 1), (64, 1), (20, 2 ^ 24 - 1)]), (0x0409, [(64, 1), (32, 0), (1, 255)]),
        (0x0601, [(3, 8), (32, 0)]), (0x0603, [(3, 8), (16, 0)]), (0x0605, [(3, 8), (8, 0)]), (0x0609, [(3, 8), (128, 0)]),
        (0x060B, [(3, 8), (16, 0)]), (0x060D, [(3, 8)]), (0x060E, [(3, 0), (1, 2)]), 
        (0x0701, [(1, 2), (3, 0), (4, 0), (4, 0), (2, 0), (32, 0)]), (0x0701, [(1, 0), (3, 8), (4, 0), (4, 0), (2, 0), (32, 0)]),
        (0x0701, [(1, 1), (3, 0), (4, 16), (4, 0), (2, 0), (32, 0)]),
        (0x0701, [(1, 1), (3, 0), (4, 0), (4, 0), (2, 4), (32, 0)])] : List (Nat × List (Nat × Nat))).all fun e =>
      narrowFields e.1 == e.2.map Prod.fst &&
        e.2.all (fun f => decide (f.2 < 256 ^ fieldBytes f.1)) && e.2.any fun f => decide (2 ^ f.1 ≤ f.2)) = true ∧
    ([(2 ^ 20, 1, 0), (2 ^ 20, 0, 0), (2 ^ 24 - 1, 1, 0), (0, 2, 0), (0, 255, 0), (0, 1, 128), (0, 0, 128)].all fun e =>
      decide (e.1 < 2 ^ 24 ∧ e.2.1 < 256 ∧ (2 ^ 20 ≤ e.1 ∨ 2 ≤ e.2.1 ∨ 128 ≤ e.2.2)) &&
        match decode ([0x03, 0x04, 0, 0, 0, 0] ++ (rawFields [(64, 1), (20, e.1), (32, 1), (1, e.2.1)] ++
          (leBytes 8 [0xAB#8].length ++ ([0xAB#8] ++ [BitVec.ofNat 8 e.2.2])))) with
        | .error .illegalOperand => true
        | _ => false) = true := by decide +kernel

/-- Nothing under way; an access under way and the scheduler's choice of it (0), of the packet (1), and of a packet that has to
wait for it. -/
theorem witness_StepRunsDecoded :
    State.reset.underWay = [] ∧ (pending (.wiNeg 0) .reset).port = encode (.wiNeg 0) :: [] ∧
    decode (encode (.wiNeg 0)) = .ok (.wiNeg 0) ∧ State.reset.port = [] ∧
    (State.reset.present [0x14]).port = [0x14] :: [] ∧ decode [0x14] = .error .truncated ∧
    decodeTableWord 16 0x0114 = some (.wiNeg 0) ∧ State.reset.waits (tablePacket 16 0x0114) = false ∧
    parked.underWay = [0] ∧ (scheduled [0, 5] parked).drawSched = (0, scheduled [5] parked) ∧
    parked.underWay[0]? = some 0 ∧ parked.underWay[1]? = none ∧
    (pending (.wiNeg 0) parked).portReady = true ∧ (pending (.cpuGetEip 0) parked).portReady = false ∧
    parked.waits (tablePacket 16 0x0606) = true ∧
    (scheduled [1] (pending (.wiNeg 0) parked)).turn = (none, scheduled [] (pending (.wiNeg 0) parked)) ∧
    (scheduled [1] (pending (.cpuGetEip 0) parked)).turn = (some 0, scheduled [] (pending (.cpuGetEip 0) parked)) := by
  decide +kernel

/-- A pending write in a state of the invariant; the step answers a next state. For
`MemoryAndStatusStayConsistent`, `InvariantKept`. -/
theorem witness_invariants :
    (pending (.tlbWrite 0 0x10001 [0, 0x55]) page43).Inv ∧
    (match step (pending (.tlbWrite 0 0x10001 [0, 0x55]) page43) with
      | .next t => decide (t.byteOf 1 0x10001 = some 0 ∧ t.byteOf 1 0x10002 = some 0x55)
      | _ => false) = true := by
  refine ⟨?_, by decide +kernel⟩
  unfold State.Inv
  decide +kernel

/-- A command that answers, and one that is left under way; a packet that runs, and one cut short. -/
theorem witness_EveryCommandAnswers :
    page43.Inv ∧ State.reset.Inv ∧ parked.Inv ∧ (after (.tlbRead 0 0x10000 4) page43).resp.isSome = true ∧
    parked.resp = none ∧ (parked.transfer 0).isSome = true ∧
    (page43.present [0x14]).Inv ∧ step (page43.present [0x14]) = .refused .truncatedCommand ∧
    decode [0x14] = .error .truncated ∧
    (match step (pending (.wiNeg 0) page43) with
      | .next _ => true
      | _ => false) = true := by
  refine ⟨inv_page43, by unfold State.Inv; decide, by unfold State.Inv; decide +kernel, by decide +kernel,
    by decide +kernel, by decide +kernel, by unfold State.Inv; decide +kernel, by rfl, by decide, by decide +kernel⟩

/-- One command of every unit that answers. -/
theorem witness_CommandsStayInTheirUnits :
    answers (.wiNot 0) page43 = true ∧ unitOf (.wiNot 0) = 1 ∧ answers (.asmRetain 1) page43 = true ∧
    unitOf (.asmRetain 1) = 4 ∧ answers (.feGetRm 3) page43 = true ∧ unitOf (.feGetRm 3) = 2 ∧
    answers (.fpuPop 3) page43 = true ∧ unitOf (.fpuPop 3) = 3 ∧ answers (.cpuExpand 3) page43 = true ∧
    unitOf (.cpuExpand 3) = 6 ∧ answers (.decEa 3 (.reg 0)) page43 = true ∧ opcode (.decEa 3 (.reg 0)) = 0x0701 ∧
    answers (.tlbRead 0 0x10000 4) page43 = true := by decide +kernel

/-- A mapping command that succeeds, one that fails, a translation that grows the table and one that does not, and a
creation. -/
theorem witness_GenerationCounter :
    gives (.asmSetProt 1 0x10 1 1) page43 .none = true ∧ genOf page43 1 = some 1 ∧
    genOf (after (.asmSetProt 1 0x10 1 1) page43) 1 = some 2 ∧
    answer (.asmUnmap 1 0x11 1 false) page43 = some (.fail .notMapped) ∧
    genOf (after (.asmUnmap 1 0x11 1 false) page43) 1 = some 1 ∧
    genOf (after (.asmTranslate 1 0xBFFFE000 .write) (memory [(0xBFFFF, 0x4B)])) 1 = some 2 ∧
    genOf (after (.asmTranslate 1 0x10000 .write) page43) 1 = some 1 ∧
    gives .asmCreate page43 (.handle 2) = true ∧ genOf (after .asmCreate page43) 2 = some 0 := by decide +kernel

/-- A failure that took no draw, and one that took one. -/
theorem witness_FailingAndRaisingArePrecise :
    answer (.cpuGetSeg 0 6) page43 = some (.fail .illegalOperand) ∧
    answer (.asmMapAnon 1 0x20 1 3) (starved page43) = some (.fail .outOfMemory) := by decide +kernel

/-- Each of the three conditions. For `ConditionsRaised` and `FailingAndRaisingArePrecise`. -/
theorem witness_conditions :
    answer (.wiSdiv 1 0) page43 = some (.fault .divideError 0) ∧
    answer (.tlbRead 0 0x20000 1) page43 = some (.fault .pageFault 0x20000) ∧
    answer (.decModRm 0 0x20000) page43 = some (.fault .pageFault 0x20000) ∧
    answer (.fpuPop 0) (withStack 0x037E []) = some (.fault .floatError 0) ∧
    ((withStack 0x037E []).fpu 0).masks ≠ 0x3F := by decide +kernel

/-- Every one of these registers does change under its command. -/
theorem witness_RegistersHaveOneWriter :
    ((after (.cpuSetReg32 0 7 1) page43).cpu 0).r32 ≠ (page43.cpu 0).r32 ∧
    ((after (.cpuSetEip 0 1) page43).cpu 0).eip ≠ (page43.cpu 0).eip ∧
    ((after (.cpuSetSeg 0 5 1) page43).cpu 0).seg ≠ (page43.cpu 0).seg ∧
    ((after (.cpuSetXmm 0 7 1) page43).cpu 0).xmm ≠ (page43.cpu 0).xmm ∧
    ((after (.tlbRead 0 0x20000 1) page43).cpu 0).faultAddr ≠ (page43.cpu 0).faultAddr := by decide +kernel

/-- `IE` (bit 0) and `SF` (bit 6) set, then a command other than `FPU.INIT`; and a control word that changes. -/
theorem witness_RegistersHaveOneWriter_fpu :
    ((after (.fpuPop 0) .reset).fpu 0).sw.getLsbD 0 = true ∧ ((after (.fpuPop 0) .reset).fpu 0).sw.getLsbD 6 = true ∧
    answers (.fpuConst1 0) (after (.fpuPop 0) .reset) = true ∧ Instr.fpuConst1 0 ≠ .fpuInit 0 ∧
    ((after (.fpuLdCw 0 0) .reset).fpu 0).cw ≠ (State.reset.fpu 0).cw := by decide

theorem witness_WideConvertCompareCount :
    (0 : Wide).toNat < (1 : Wide).toNat ∧ (0x80000000000000000000000000000000 : Wide).toInt < (0 : Wide).toInt ∧
    (5 : Wide).toNat = (5 : Wide).toNat ∧ (1 : Wide) ≠ 0 := by decide

/-- Both ends of the count's range, and the values just outside it. -/
theorem witness_WideBitsAndShifts :
    (0 ≤ (0 : BitVec 32).toInt ∧ (0 : BitVec 32).toInt ≤ 127) ∧
    (0 ≤ (127 : BitVec 32).toInt ∧ (127 : BitVec 32).toInt ≤ 127) ∧ (127 < (128 : BitVec 32).toInt) ∧
    (0xFFFFFFFF : BitVec 32).toInt < 0 := by decide

/-- For `WideDivision` and `RestoringDivisionIsDivision`: a zero divisor, another, the one overflow, and the ends of the
iteration count. -/
theorem witness_division :
    (0 : Wide) = 0#128 ∧ (7 : Wide) ≠ 0#128 ∧ (0x80000000000000000000000000000000 : Wide).toInt = -2 ^ 127 ∧
    (0xFFFFFFFFFFFFFFFFFFFFFFFFFFFFFFFF : Wide).toInt = -1 ∧ (0 : Nat) ≤ 128 ∧ (128 : Nat) ≤ 128 := by decide

/-- A pattern of every kind that `loadsHost` and `storesHost` tell apart. For `DoubleConversions`, `StoreConversions`. -/
theorem witness_conversions :
    ¬ (hostExp 11 52 0x3FF0000000000000 = 2047 ∧ hostFrac 52 0x3FF0000000000000 ≠ 0) ∧
    (hostExp 11 52 0x7FF0000000000000 = 2 ^ 11 - 1 ∧ hostFrac 52 0x7FF0000000000000 = 0) ∧
    (hostExp 11 52 0x7FF4000000000000 = 2 ^ 11 - 1 ∧ hostFrac 52 0x7FF4000000000000 ≠ 0) ∧
    hostExp 11 52 0x0000000000000001 ≠ 2 ^ 11 - 1 ∧
    F80.isUnsupported 0x3FFF0000000000000000 = true ∧ F80.isNan F80.dnan = true ∧ F80.isInf 0x7FFF8000000000000000 = true ∧
    F80.isZero 0x80000000000000000000 = true ∧
    (F80.isFinite 0x00000000000000000001 = true ∧ F80.isZero 0x00000000000000000001 = false) := by decide +kernel

theorem witness_FloatComparison :
    F80.isSpecial F80.dnan = true ∧ F80.isSpecial 0x3FFF8000000000000000 = false ∧
    F80.lessThan 0x3FFF8000000000000000 0x40008000000000000000 ∧ F80.sameValue 0 0x80000000000000000000 ∧
    F80.lessThan 0xFFFF8000000000000000 0x3FFF8000000000000000 ∧
    F80.sameValue 0x7FFF8000000000000000 0x7FFF8000000000000000 := by
  unfold F80.lessThan F80.sameValue
  decide +kernel

theorem witness_OperandScreening :
    screenedOperands (.feMod 0x3FFF0000000000000000 1) ≠ [] ∧
    (screenedOperands (.feMod 0x3FFF0000000000000000 1)).any F80.isUnsupported = true ∧
    ((screenedOperands (.feAdd 0 F80.dnan 1)).any F80.isUnsupported = false ∧
      (screenedOperands (.feAdd 0 F80.dnan 1)).any F80.isNan = true) ∧
    ((screenedOperands (.feScale 0 1 0)).any F80.isSpecial = false ∧
      (screenedOperands (.feScale 0 1 0)).any F80.isDenormal = true) := by decide +kernel

/-- 1 + 2, 1 + (−1), 1 − 1, the smallest denormal, the largest finite. -/
theorem witness_ExactThenRounded :
    F80.isFinite 0x3FFF8000000000000000 = true ∧ F80.isFinite 0x00000000000000000001 = true ∧
    F80.isFinite 0x7FFEFFFFFFFFFFFFFFFF = true ∧
    F80.val 0x3FFF8000000000000000 + F80.val 0x40008000000000000000 ≠ 0 ∧
    F80.val 0x3FFF8000000000000000 + F80.val 0xBFFF8000000000000000 = 0 ∧
    F80.val 0x3FFF8000000000000000 - F80.val 0x3FFF8000000000000000 = 0 ∧
    F80.val 0x3FFF8000000000000000 - F80.val 0x40008000000000000000 ≠ 0 ∧
    F80.isZero 0x00000000000000000001 = false := by decide +kernel

/-- Both infinities, a zero, a finite value: none is screened. For `InfinityAndZeroRows`, `RemaindersAreExact`, and the
classes that `SquareRootIsCorrectlyRounded` tells apart. -/
theorem witness_rows :
    F80.isSpecial 0x7FFF8000000000000000 = false ∧ F80.isInf 0x7FFF8000000000000000 = true ∧
    F80.isSpecial 0xFFFF8000000000000000 = false ∧ F80.isInf 0xFFFF8000000000000000 = true ∧
    F80.sgn 0x7FFF8000000000000000 ≠ F80.sgn 0xFFFF8000000000000000 ∧
    F80.isSpecial 0 = false ∧ F80.isZero 0 = true ∧ F80.isInf 0 = false ∧
    F80.isSpecial 0x3FFF8000000000000000 = false ∧ F80.isZero 0x3FFF8000000000000000 = false ∧
    F80.isInf 0x3FFF8000000000000000 = false ∧ F80.sgn 0x3FFF8000000000000000 = false ∧
    F80.sgn 0xBFFF8000000000000000 = true ∧ F80.isFinite 0x3FFF8000000000000000 = true ∧
    (withRm 0).rm 0 = 0#2 ∧ (withRm 1).rm 0 = 1#2 ∧ (withRm 2).rm 0 = 2#2 ∧ (withRm 3).rm 0 = 3#2 := by decide +kernel

/-- 1 and 8 are powers of two, 3 is none. -/
theorem witness_LogarithmRows :
    F80.isSpecial 0x4000C000000000000000 = false ∧ F80.val 0x3FFF8000000000000000 = 2 ^ (0 : ℤ) ∧
    F80.val 0x40028000000000000000 = 2 ^ (3 : ℤ) ∧ ∀ k : ℤ, F80.val 0x4000C000000000000000 ≠ 2 ^ k := by
  refine ⟨by decide +kernel, by decide +kernel, by decide +kernel, fun k h => ?_⟩
  have h3 : F80.val 0x4000C000000000000000 = 3 := by decide +kernel
  rw [h3] at h
  have h1 : (1 : ℤ) < k := by
    by_contra hk
    have := zpow_le_zpow_right₀ (by norm_num : (1 : ℚ) ≤ 2) (not_lt.mp hk)
    rw [← h] at this
    norm_num at this
  have := zpow_le_zpow_right₀ (by norm_num : (1 : ℚ) ≤ 2) (show (2 : ℤ) ≤ k by omega)
  rw [← h] at this
  norm_num at this

theorem witness_RoundingIsExact :
    (1 ≤ 1) ∧ (0 : ℤ) ≤ 0 ∧ 0 < ({ num := 1, den := 3, exp := 0 } : Mag).num ∧
    0 < ({ num := 1, den := 3, exp := 0 } : Mag).den := by decide

/-- Seven values below an empty slot, and a value in the slot a push takes. -/
def fullButTop : State := after (.fpuSetSt 0 0 1 false) (withStack masked [1, 1, 1, 1, 1, 1, 1, 1])

/-- A pushing command of each kind, on an empty stack and on a full one; and `FPU.LD` of an empty slot while the push overflows
(log 23): `C1` is 1. -/
theorem witness_PushingCommands :
    (State.reset.pushOf (.fpuLd 0 7)).isSome = true ∧ (State.reset.pushOf (.fpuLdI16 0 0x8000)).isSome = true ∧
    (State.reset.pushOf (.fpuLdF80 0 1)).isSome = true ∧ (State.reset.pushOf (.fpuConstZ 0)).isSome = true ∧
    (State.reset.fpu 0).valid 7#3 = false ∧
    ((withStack masked [1, 1, 1, 1, 1, 1, 1, 1]).fpu 0).valid 7#3 = true ∧
    (fullButTop.fpu 0).valid 7#3 = true ∧ (fullButTop.fpu 0).valid 0#3 = false ∧
    swSt (.fpuLd 0 0) fullButTop = (0x3A41, 0xFFFFC000000000000000) := by decide +kernel

theorem witness_StackArithmetic :
    (State.reset.feTwin (.fpuAdd 0 0 7)).isSome = true ∧ (State.reset.feTwin (.fpuRem 0 3 3)).isSome = true ∧
    (State.reset.feTwin (.fpuLog2 0 7)).isSome = true := by decide +kernel

/-- A value of each kind for `ST(dst)` and `ST(src)`. -/
theorem witness_StackScaling :
    (((withStack masked [0x3FFF0000000000000000]).fpu 0).slotValue 0).isUnsupported = true ∧
    (((withStack masked []).fpu 0).slotValue 0).isNan = true ∧
    (((withStack masked []).fpu 0).slotValue 0).isUnsupported = false ∧
    (((withStack masked [0, 0x7FFF8000000000000000]).fpu 0).slotValue 0).isSpecial = false ∧
    (((withStack masked [0, 0x7FFF8000000000000000]).fpu 0).slotValue 1).isInf = true ∧
    (((withStack masked [0, 0x7FFF8000000000000000]).fpu 0).slotValue 1).sgn = false ∧
    (((withStack masked [0, 0xFFFF8000000000000000]).fpu 0).slotValue 1).sgn = true ∧
    (((withStack masked [1, 0x7FFEFFFFFFFFFFFFFFFF]).fpu 0).slotValue 1).isFinite = true := by decide +kernel

/-- A live space with one owner and with two, a dead handle, an allocation that fails. -/
theorem witness_SpaceLifecycle :
    page43.Inv ∧ page43.drawOom.1 = false ∧ (starved page43).drawOom.1 = true ∧ page43.space (2 : BitVec 64).toNat = none ∧
    (page43.space (1 : BitVec 64).toNat).map Space.refcount = some 1 ∧
    ((after (.asmRetain 1) page43).space (1 : BitVec 64).toNat).map Space.refcount = some 2 :=
  ⟨inv_page43, by decide +kernel⟩

/-- The last page of the address space, and a region of exactly its size; for `UnmappingRemovesRange` and
`ProtectionReplacesThreeBits` a mapped page. -/
theorem witness_mapping :
    page43.Inv ∧ rangeValid (0xFFFFF : BitVec 20).toNat (1 : BitVec 32).toNat = true ∧
    (page43.space (1 : BitVec 64).toNat).isSome = true ∧ page43.drawOom.1 = false ∧
    (1 : BitVec 32).toNat * 4096 ≤ (List.replicate 4096 (0 : Byte)).length ∧
    (∀ k, k < (1 : BitVec 32).toNat → (page43.pte (1 : BitVec 64).toNat ((0x10 : BitVec 20).toNat + k)).isSome = true) := by
  refine ⟨inv_page43, by decide +kernel, by decide +kernel, by decide +kernel, ?_, by decide +kernel⟩
  rw [List.length_replicate]
  decide

/-- Neighbouring ranges of one space do not overlap; nor do equal ranges of two spaces. -/
theorem witness_SharingInstallsBoth :
    (twoSpaces [(0x10, 0x63)]).Inv ∧
    rangeValid (0x10 : BitVec 20).toNat (2 : BitVec 32).toNat = true ∧
    rangeValid (0x12 : BitVec 20).toNat (2 : BitVec 32).toNat = true ∧
    ((twoSpaces [(0x10, 0x63)]).space (1 : BitVec 64).toNat).isSome = true ∧
    ((twoSpaces [(0x10, 0x63)]).space (2 : BitVec 64).toNat).isSome = true ∧
    (twoSpaces [(0x10, 0x63)]).drawOom.1 = false ∧
    ¬ ((1 : BitVec 64) = 1 ∧ (0x10 : BitVec 20).toNat < (0x12 : BitVec 20).toNat + (2 : BitVec 32).toNat ∧
      (0x12 : BitVec 20).toNat < (0x10 : BitVec 20).toNat + (2 : BitVec 32).toNat) ∧
    ((twoSpaces [(0x10, 0x63)]).pte (1 : BitVec 64).toNat 0x10).isSome = true ∧
    (twoSpaces [(0x10, 0x63)]).pte (1 : BitVec 64).toNat 0x11 = none := by
  refine ⟨?_, by decide +kernel⟩
  unfold State.Inv
  decide +kernel

/-- The highest hole of one page in an empty space is `HOLE_HIGH_PAGE` itself; and a run longer than the bounds allow. -/
theorem witness_HoleIsHighest :
    (page43.space (1 : BitVec 64).toNat).isSome = true ∧ (1 : BitVec 32) ≠ 0#32 ∧
    (page43.params.holeLow < 0xF7FFD ∧ 0xF7FFD + (1 : BitVec 32).toNat - 1 ≤ page43.params.holeHigh ∧
      ∀ j, j < (1 : BitVec 32).toNat → page43.pte (1 : BitVec 64).toNat (0xF7FFD + j) = none) ∧
    (∀ r, r + (1 : BitVec 32).toNat - 1 ≤ page43.params.holeHigh → r ≤ 0xF7FFD) ∧
    ∀ q, ¬ (page43.params.holeLow < q ∧ q + (0xB7FFE : BitVec 32).toNat - 1 ≤ page43.params.holeHigh) := by
  have hl : page43.params.holeLow = 0x40000 := rfl
  have hh : page43.params.holeHigh = 0xF7FFD := rfl
  have h1 : (1 : BitVec 32).toNat = 1 := rfl
  have h2 : (0xB7FFE : BitVec 32).toNat = 0xB7FFE := rfl
  refine ⟨by decide +kernel, by decide, ⟨by decide, by decide, by decide +kernel⟩, ?_, ?_⟩ <;> intros <;> omega

/-- A page with WRITABLE alone, with neither, and with both. For `TranslationOfMappedPage`, `WriteDuplicatesSharedPage`. -/
theorem witness_translation :
    (memory [(0x10, 0x53)]).Inv ∧
    (page43.pte (1 : BitVec 64).toNat ((0x10FFF : BitVec 32).toNat / 4096)).map Pte.flags = some 0x43 ∧
    ((memory [(0x10, 0x51)]).pte (1 : BitVec 64).toNat ((0x10000 : BitVec 32).toNat / 4096)).map Pte.flags = some 0x51 ∧
    ((memory [(0x10, 0x53)]).pte (1 : BitVec 64).toNat ((0x10000 : BitVec 32).toNat / 4096)).map Pte.flags = some 0x53 ∧
    ((0x43 : BitVec 7).getLsbD 1 = true ∧ (0x43 : BitVec 7).getLsbD 4 = false) ∧ (0x51 : BitVec 7).getLsbD 1 = false ∧
    ((0x53 : BitVec 7).getLsbD 1 = true ∧ (0x53 : BitVec 7).getLsbD 4 = true) ∧
    (memory [(0x10, 0x53)]).drawOom.1 = false ∧ (starved (memory [(0x10, 0x53)])).drawOom.1 = true := by
  refine ⟨?_, by decide +kernel⟩
  unfold State.Inv
  decide +kernel

/-- Nothing above the page, a page above it without GROWS-DOWN, and one with it. -/
theorem witness_StackGrowth :
    (memory [(0xBFFFF, 0x4B)]).Inv ∧ ((memory [(0xBFFFF, 0x4B)]).space (1 : BitVec 64).toNat).isSome = true ∧
    (memory [(0xBFFFF, 0x4B)]).pte (1 : BitVec 64).toNat ((0xBFFFE000 : BitVec 32).toNat / 4096) = none ∧
    (∀ q, (0xC0000000 : BitVec 32).toNat / 4096 < q → (memory [(0xBFFFF, 0x4B)]).pte (1 : BitVec 64).toNat q = none) ∧
    (0xBFFFE000 : BitVec 32).toNat / 4096 < 0xBFFFF ∧
    ((memory [(0xBFFFF, 0x4B)]).pte (1 : BitVec 64).toNat 0xBFFFF).map (fun e => e.flags.getLsbD 3) = some true ∧
    ((memory [(0xBFFFF, 0x43)]).pte (1 : BitVec 64).toNat 0xBFFFF).map (fun e => e.flags.getLsbD 3) = some false ∧
    (∀ j, (0xBFFFE000 : BitVec 32).toNat / 4096 < j → j < 0xBFFFF →
      (memory [(0xBFFFF, 0x4B)]).pte (1 : BitVec 64).toNat j = none) := by
  have e1 : (0xC0000000 : BitVec 32).toNat / 4096 = 0xC0000 := by decide
  have e2 : (0xBFFFE000 : BitVec 32).toNat / 4096 = 0xBFFFE := by decide
  refine ⟨by unfold State.Inv; decide +kernel, by decide +kernel, by decide +kernel, fun q hq => ?_, by decide,
    by decide +kernel, by decide +kernel, fun j h1 h2 => ?_⟩
  · have h : q ≠ 0xBFFFF := by omega
    simp [State.pte, State.space, memory, mapFind, h]
  · omega

/-- A range that runs past the last page, a dead handle, overlapping ranges, a short region, a hole in the range. -/
theorem witness_MappingRefusals :
    rangeValid (0xFFFFF : BitVec 20).toNat (2 : BitVec 32).toNat = false ∧
    rangeValid (0 : BitVec 20).toNat (0 : BitVec 32).toNat = false ∧ page43.space (9 : BitVec 64).toNat = none ∧
    ((0x10 : BitVec 20).toNat < (0x11 : BitVec 20).toNat + (2 : BitVec 32).toNat ∧
      (0x11 : BitVec 20).toNat < (0x10 : BitVec 20).toNat + (2 : BitVec 32).toNat) ∧
    ¬ (rangeValid (0x10 : BitVec 20).toNat (2 : BitVec 32).toNat = false ∨ page43.space (1 : BitVec 64).toNat = none) ∧
    ([] : List Byte).length < (2 : BitVec 32).toNat * 4096 ∧
    (∃ k, k < (2 : BitVec 32).toNat ∧ page43.pte (1 : BitVec 64).toNat ((0x10 : BitVec 20).toNat + k) = none) ∧
    (starved page43).drawOom.1 = true := by
  refine ⟨by decide, by decide, by decide +kernel, by decide, by decide +kernel, by decide, ⟨1, by decide, by decide +kernel⟩,
    by decide⟩

/-- An attached context with an empty cache and one with a filled slot agree with the page table; the last page of the
address space ends at 2^32. For the statements of the cache. -/
theorem witness_cache :
    page43.Inv ∧ page43.coherent 0 1 = true ∧ (page43.space 1).isSome = true ∧ page43.covered 1 0x10000 4096 ∧
    (after (.tlbRead 0 0x10000 4) page43).coherent 0 1 = true ∧
    ((after (.tlbRead 0 0x10000 4) page43).tlb 0).slots ≠ [] ∧
    (memory [(0xFFFFF, 0x43)]).Inv ∧ (memory [(0xFFFFF, 0x43)]).coherent 0 1 = true ∧
    (0xFFFFF000 : BitVec 32).toNat + (0x1000 : BitVec 32).toNat ≤ 2 ^ 32 ∧
    (memory [(0xFFFFF, 0x43)]).covered 1 (0xFFFFF000 : BitVec 32).toNat (0x1000 : BitVec 32).toNat ∧
    ((memory [(0xFFFFF, 0x43)]).slice (0x1000 : BitVec 32).toNat).1 = (0x1000 : BitVec 32).toNat := by
  refine ⟨inv_page43, by decide +kernel, by decide +kernel, fun i hi => ?_, by decide +kernel, by decide +kernel,
    by unfold State.Inv; decide +kernel, by decide +kernel, by decide, fun i hi => ?_, by decide +kernel⟩
  · have h : pageOf (0x10000 + i) = 0x10 := by unfold pageOf pageSize; omega
    rw [h]
    decide +kernel
  · have e : (0xFFFFF000 : BitVec 32).toNat = 0xFFFFF000 := by decide
    have e2 : (0x1000 : BitVec 32).toNat = 0x1000 := by decide
    have h : pageOf ((0xFFFFF000 : BitVec 32).toNat + i) = 0xFFFFF := by
      unfold pageOf pageSize
      omega
    rw [h]
    decide +kernel

/-- Two bytes on a page with WRITABLE and without COPY-ON-WRITE. -/
theorem witness_WriteStoresBytes :
    (page43.slice [0xAA#8, 0xBB#8].length).1 = [0xAA#8, 0xBB#8].length ∧
    (0x10FFE : BitVec 32).toNat + [0xAA#8, 0xBB#8].length ≤ 2 ^ 32 ∧
    ∀ k, k < [0xAA#8, 0xBB#8].length → ∃ e, page43.pte 1 (pageOf ((0x10FFE : BitVec 32).toNat + k)) = some e ∧
      e.flags.getLsbD 1 = true ∧ e.flags.getLsbD 4 = false := by
  refine ⟨by decide +kernel, by decide, fun k hk => ⟨{ blob := 1, offset := 0, flags := 0x43 }, ?_, by decide, by decide⟩⟩
  have e : (0x10FFE : BitVec 32).toNat = 0x10FFE := by decide
  simp only [List.length_cons, List.length_nil] at hk
  have h : pageOf ((0x10FFE : BitVec 32).toNat + k) = 0x10 := by unfold pageOf pageSize; omega
  rw [h]
  decide +kernel

/-- The same access with the filled cache and with the empty one. -/
theorem witness_CacheIsInvisible :
    answers (.tlbRead 0 0x10000 4) (after (.tlbRead 0 0x10000 4) page43) = true ∧
    answers (.tlbRead 0 0x10000 4)
      ((after (.tlbRead 0 0x10000 4) page43).setTlb 0
        { (after (.tlbRead 0 0x10000 4) page43).tlb 0 with slots := [] }) = true := by decide +kernel

/-- A translation that answers a pointer and one that fails, for each kind; a piece that ends at its page's end. -/
theorem witness_MissTranslates :
    (page43.tlb 0).mem = some (1 : BitVec 64).toNat ∧ (page43.tlb 0).slots = [] ∧ 0 < (2 : BitVec 32).toNat ∧
    (0x10FFE : BitVec 32).toNat % 4096 + (2 : BitVec 32).toNat ≤ 4096 ∧
    (page43.slice (2 : BitVec 32).toNat).1 = (2 : BitVec 32).toNat ∧
    gives (.asmTranslate 1 0x10FFE .read) page43 (.pointer 1 0xFFE 0x43) = true ∧
    gives (.asmTranslate 1 0x10FFE .write) page43 (.pointer 1 0xFFE 0x43) = true ∧
    answer (.asmTranslate 1 0x20FFE .read) page43 = some (.fail .noTranslation) ∧
    answer (.asmTranslate 1 0x20FFE .write) page43 = some (.fail .noTranslation) := by decide +kernel

/-- A write that faults at the page boundary inside it, and one that faults at its first address. -/
theorem witness_FaultKeepsEarlierPieces :
    answer (.tlbWrite 0 0x10FFF [1, 2]) page43 = some (.fault .pageFault 0x11000) ∧
    answer (.tlbWrite 0 0x20001 [1, 2]) page43 = some (.fault .pageFault 0x20001) := by decide +kernel

/-- A slot for reads and writes whose page is gone: its blob deleted, and, shared with another page, still live; and a cache
whose generation has moved while the test is on. -/
theorem witness_StaleHits :
    let slot : Slot := { page := 0x10, pageW := some 0x10, blob := 1, off := -0x10000 }
    let s := after (.asmUnmap 1 0x10 1 false) (after (.tlbWrite 0 0x10000 [1, 2]) (memory [(0x10, 0x43)]))
    let t := after (.asmUnmap 1 0x10 1 false) (after (.tlbWrite 0 0x10000 [1, 2]) (memory [(0x10, 0x43), (0x11, 0x43)]))
    ([s, t].all fun u => (u.tlb 0).mem == some 1 && (u.space 1).isSome && !u.params.genCheck &&
      mapFind (u.tlb 0).slots (tlbIndex u.params ((0x10FFE : BitVec 32).toNat / 4096)) == some slot &&
      (u.hostBlob 1).isSome && (u.slice 2).1 == 2 && gives (.tlbRead 0 0x10000 2) u (.bytes [1, 2]) &&
      (u.space 1).map Space.gen != some (u.tlb 0).gen) = true ∧
    mapFind s.blobs 1 = none ∧ (mapFind t.blobs 1).isSome = true ∧
    0 ≤ slot.off + (0x10FFE : BitVec 32).toNat ∧ slot.page.toNat = (0x10FFE : BitVec 32).toNat / 4096 ∧
    slot.pageW = some (BitVec.ofNat 20 ((0x10FFE : BitVec 32).toNat / 4096)) ∧
    (0x10FFE : BitVec 32).toNat % 4096 + 2 ≤ 4096 ∧ (slot.off + (0x10FFE : BitVec 32).toNat).toNat + 2 ≤ 8192 ∧
    ({ t with params := { t.params with genCheck := true } } : State).params.genCheck = true := by decide +kernel

/-- A read and a write of three bytes over a page boundary, stopped before it and at it. -/
theorem witness_InterruptedAccess :
    let s := memory [(0x10, 0x43), (0x11, 0x43)]
    s.Inv ∧ s.coherent 0 1 = true ∧ s.transfer 0 = none ∧ s.covered 1 (0x10FFE : BitVec 32).toNat (3 : BitVec 32).toNat ∧
    ([0, 1].all fun k => decide (k + 1 < (3 : BitVec 32).toNat) &&
      (after (.tlbRead 0 0x10FFE 3) (scheduled [k] s)).resp.isNone &&
      (after (.tlbWrite 0 0x10FFE [1, 2, 3]) (scheduled [k] s)).resp.isNone &&
      ((after (.tlbRead 0 0x10FFE 3) (scheduled [k] s)).transfer 0).map (fun x => x.place.host.isNone) == some (k == 1)) =
      true := by
  refine ⟨by unfold State.Inv; decide +kernel, by decide +kernel, by decide +kernel, fun i hi => ?_, by decide +kernel⟩
  have e : (0x10FFE : BitVec 32).toNat = 0x10FFE := by decide
  have e2 : (3 : BitVec 32).toNat = 3 := by decide
  have h : pageOf ((0x10FFE : BitVec 32).toNat + i) = 0x10 ∨ pageOf ((0x10FFE : BitVec 32).toNat + i) = 0x11 := by
    unfold pageOf pageSize
    omega
  rcases h with h | h <;> rw [h] <;> decide +kernel

/-- An access of each kind under way inside a piece, a read and a write at the start of one, and how each goes on: to its end,
to a fault, and stopped again. -/
theorem witness_AccessGoesOn :
    let two := memory [(0x10, 0x43), (0x11, 0x43)]
    let r := after (.tlbRead 0 0x10FFF 3) (scheduled [0, 0] two)
    let w := after (.tlbWrite 0 0x10FFF [1, 2, 3]) (scheduled [0, 4095] two)
    let d := after (.decModRm 0 0x1000) (scheduled [0, 4095] (code 0 [0x05, 0x78]))
    let i := after (.tlbWrite 0 0x10000 [1, 2, 3]) (scheduled [0, 4095] two)
    parked.Inv ∧ r.Inv ∧ w.Inv ∧ d.Inv ∧ i.Inv ∧
    parked.transfer 0 = some { place := { addr := 0x10001, host := some (1, 1) }, job := .read 3 [0x11] } ∧
    (parked.hostBlob 1).isSome = true ∧ 0x10001 % 4096 + 3 ≤ 4096 ∧ (parked.slice 3).1 = 3 ∧
    i.transfer 0 = some { place := { addr := 0x10001, host := some (1, 1) }, job := .write [2, 3] } ∧
    (mapFind i.blobs 1).isSome = true ∧ (i.slice 2).1 = 2 ∧
    d.transfer 0 = some { place := { addr := 0x1002, host := some (1, 2) }, job := .disp 8 8 0 0 3 [0x78] } ∧
    (d.slice 3).1 = 3 ∧
    r.transfer 0 = some { place := { addr := 0x11000, host := none }, job := .read 2 [0] } ∧ (r.attached 0).isSome = true ∧
    w.transfer 0 = some { place := { addr := 0x11000, host := none }, job := .write [2, 3] } ∧
    (match r.resume 0 with
      | .next t => decide (t.resp = none ∧ (t.transfer 0).isSome = true)
      | _ => false) = true ∧
    (match (after (.asmUnmap 1 0x11 1 false) w).resume 0 with
      | .next t => decide (t.resp = some (.fault .pageFault 0x11000))
      | _ => false) = true := by
  refine ⟨?_, ?_, ?_, ?_, ?_, by decide +kernel⟩ <;> unfold State.Inv <;> decide +kernel

/-- Attached with the generation current and moved; attached to a space that is gone; detached. -/
theorem witness_CacheMaintenance :
    (page43.tlb 0).mem = some 1 ∧ (page43.space 1).map Space.gen = some (page43.tlb 0).gen ∧
    (((after (.asmSetProt 1 0x10 1 1) page43).space 1).map Space.gen ≠
      some ((after (.asmSetProt 1 0x10 1 1) page43).tlb 0).gen) ∧
    ((after (.asmRelease 1) page43).tlb 0).mem = some 1 ∧ (after (.asmRelease 1) page43).space 1 = none ∧
    (page43.tlb 3).mem = none := by decide +kernel

/-- The last segment register and the first number past it, with 6 of them and with 8, of which none is past; the last flag selector and the first past it. For
`RegisterAccess`, `LazyFlags`, `MaterializeAndExpand`. -/
theorem witness_registers_and_flags :
    ((5 : BitVec 3).toNat < State.reset.params.nseg ∧ State.reset.params.nseg ≤ (6 : BitVec 3).toNat) ∧
    (7 : BitVec 3).toNat < ({ Params.default with nseg := 8 } : Params).nseg ∧ (5 : BitVec 3).toNat ≤ 5 ∧ 5 < (6 : BitVec 3).toNat ∧
    (3 : BitVec 3).toNat < 4 ∧ ¬ (4 : BitVec 3).toNat < 4 ∧
    gives (.cpuGetFlag 0 3) (after (.cpuRecord 0 0 0 0) .reset) (.u1 true) = true ∧ (3 : BitVec 3) ≠ 4 := by decide

/-- The bytes `84 8D F0 FF FF FF` of `[ebp + ecx*4 − 16]` at `0x1000`. -/
theorem witness_DecoderFollowsTable :
    let s := code 0 [0x84, 0x8D, 0xF0, 0xFF, 0xFF, 0xFF]
    let b := fun k => ([0x84, 0x8D, 0xF0, 0xFF, 0xFF, 0xFF] : List Byte).getD k 0
    s.Inv ∧ s.coherent 0 1 = true ∧ (s.space 1).isSome = true ∧ (addressingForm b).2.2 = 6 ∧ (s.slice 4).1 = 4 ∧
    ∀ k, k < (addressingForm b).2.2 → s.byteOf 1 ((0x1000 : BitVec 32) + BitVec.ofNat 32 k).toNat = some (b k) := by
  refine ⟨?_, by decide +kernel, by decide +kernel, by decide +kernel, by decide +kernel, by decide +kernel⟩
  unfold State.Inv
  decide +kernel

/-- Both sides of every bound on the two register codes. -/
theorem witness_EffectiveAddress :
    (page43.attached 0).isSome = true ∧ State.reset.attached 0 = none ∧ 8 < (9 : BitVec 4).toNat ∧ (8 : BitVec 4).toNat ≤ 8 ∧ (8 : BitVec 4).toNat = 8 ∧ (7 : BitVec 4).toNat ≠ 8 := by decide

end Sys2Proof.Tests
end

section
/-! SUPPORT. What a step does once the turn is given, one equation per answer of the port, and what the scheduler's choice makes of
the turn (spec/00_scope.md R3; spec/20_memory.md R90–R92; log 2, log 3, log 15). -/

namespace Sys2Proof.Machine

/-! ### A step by whose turn it is -/

/-- Choosing whose turn it is leaves the port. -/
theorem State.port_of_turn {s u : State} {o : Option (BitVec 32)} (h : s.turn = (o, u)) : u.port = s.port := by
  obtain ⟨d, hd⟩ := s.turn_draws
  rw [h] at hd
  cases hd
  rfl

theorem step_of_resume {s u : State} {c : BitVec 32} (h : s.turn = (some c, u)) : step s = u.resume c := by
  simp [step, h]

theorem step_of_idle {s u : State} (h : s.turn = (none, u)) (hp : s.port = []) : step s = .next u := by
  have hu : u.port = [] := (State.port_of_turn h).trans hp
  simp [step, State.fetch, h, hu]

theorem step_of_command {s u : State} {packet : List Byte} {later : List (List Byte)} {i : Instr}
    (h : s.turn = (none, u)) (hp : s.port = packet :: later) (hd : decode packet = .ok i) :
    step s = exec i { u with port := later } := by
  have hu : u.port = packet :: later := (State.port_of_turn h).trans hp
  simp [step, State.fetch, h, hu, hd]

theorem step_of_reject {s u : State} {packet : List Byte} {later : List (List Byte)} {r : Reject}
    (h : s.turn = (none, u)) (hp : s.port = packet :: later) (hd : decode packet = .error r) :
    step s = answerReject r { u with port := later } := by
  have hu : u.port = packet :: later := (State.port_of_turn h).trans hp
  simp [step, State.fetch, h, hu, hd]

/-! ### The turn by the scheduler's choice -/

/-- A choice below the number of accesses under way is the turn of that access. -/
theorem State.turn_of_chosen {s u : State} {k : Nat} {c : BitVec 32} (hd : s.drawSched = (k, u))
    (hc : s.underWay[k]? = some c) : s.turn = (some c, u) := by
  unfold State.turn
  split
  · next e => simp [e] at hc
  · next first others e =>
    rw [e] at hc
    simp [hd, hc]

/-- A choice past the accesses under way is the packet's turn, or the first access's where no packet can be taken. -/
theorem State.turn_of_past {s u : State} {k : Nat} {first : BitVec 32} (hd : s.drawSched = (k, u))
    (hf : s.underWay[0]? = some first) (hk : s.underWay[k]? = none) :
    s.turn = (if s.portReady then none else some first, u) := by
  unfold State.turn
  split
  · next e => simp [e] at hf
  · next head others e =>
    rw [e] at hf hk
    cases hf
    simp only [hd, hk]

/-! ### A table word put on the port -/

/-- A packet that does not have to wait has the turn once it is presented with the turn given. -/
theorem State.giveTurn_present_turn {s : State} {packet : List Byte} (h : s.waits packet = false) :
    (s.giveTurn.present packet).turn = (none, s.present packet) := by
  have hc : s.giveTurn.present packet = (s.present packet).giveTurn := by
    have hu : (s.present packet).underWay = s.underWay := rfl
    simp only [State.giveTurn, hu]
    split <;> rfl
  have hr : (s.present packet).portReady = true := by
    have hw : (s.present packet).waits packet = s.waits packet := rfl
    simp [State.portReady, hw, h]
  rw [hc, State.giveTurn_turn _ hr]

theorem decode_of_decodeTableWord {nbits w : Nat} {i : Instr} (h : decodeTableWord nbits w = some i) :
    decode (tablePacket nbits w) = .ok i := by
  unfold decodeTableWord at h
  split at h
  · next j hj => rw [hj, Option.some.inj h]
  · cases h

theorem step_withFetchWord {s : State} {nbits w : Nat} {i : Instr} (hd : decodeTableWord nbits w = some i)
    (hw : s.waits (tablePacket nbits w) = false) : step (s.withFetchWord nbits w) = exec i s :=
  have hp : (s.withFetchWord nbits w).port = tablePacket nbits w :: s.port := by simp [State.withFetchWord]
  step_of_command (u := s.present (tablePacket nbits w)) (State.giveTurn_present_turn hw) hp (decode_of_decodeTableWord hd)

/-- Settles O4: the turn says whether an access or the port goes on, and the port's oldest packet says with what. -/
theorem stepRunsDecoded : Obligations.StepRunsDecoded := by
  refine ⟨fun s => State.turn_of_none, fun s u packet later i => step_of_command,
    fun s hn hp => step_of_idle (State.turn_of_none hn) hp, fun s u packet later ht hp hd => step_of_reject ht hp hd,
    fun s nbits w i => step_withFetchWord, fun s u k hd => ⟨?chosen, ?packet, ?first⟩⟩
  case chosen => exact fun c hc => step_of_resume (State.turn_of_chosen hd hc)
  case packet =>
    intro hn hk hr
    have hf : s.underWay[0]? = some (s.underWay.head hn) := by
      rw [← List.head?_eq_getElem?, List.head?_eq_some_head hn]
    simpa [hr] using State.turn_of_past hd hf hk
  case first =>
    intro hk hr c hc
    exact step_of_resume (by simpa [hr] using State.turn_of_past hd hc hk)

end Sys2Proof.Machine
end

section
/-! SUPPORT. The register commands of unit CPU (spec/45_cpu_flags.md R391–R400, R408–R410): the frame of a write to one context's
CPU state, and what a write leaves of that state. -/

namespace Sys2Proof.Machine

/-- Replacing a context's CPU state and answering changes nothing else. -/
theorem State.setCpu_ok_sameButCpu (s : State) (c : BitVec 32) (w : Cpu) (r : Results) :
    sameButCpu c s ((s.setCpu c w).ok r) := by
  have others : ∀ d, d ≠ c → ((s.setCpu c w).ok r).ctx d = s.ctx d := fun d hd => State.setCpu_ctx_other s w hd
  exact ⟨⟨rfl, rfl, rfl, rfl, rfl, others⟩, rfl, by simp, by simp, by simp, by simp⟩

/-- What an 8-bit register number names, by its number (R23). -/
theorem byteReg_eq (j : BitVec 3) : byteReg j = if j.toNat < 4 then j else j - 4#3 := rfl

theorem Cpu.reg8_eq (u : Cpu) (j : BitVec 3) :
    u.reg8 j = if j.toNat < 4 then (u.reg32 j).extractLsb' 0 8 else (u.reg32 (j - 4#3)).extractLsb' 8 8 := by
  unfold Cpu.reg8
  rw [byteReg_eq]
  by_cases h : j.toNat < 4 <;> simp [BitVec.lt_def, h]

/-- Reading a segment register that exists. -/
theorem Cpu.getSeg_eq_some (u : Cpu) {nseg : Nat} {i : BitVec 3} (h : i.toNat < nseg) :
    ∃ w, u.getSeg nseg i = some w := ⟨_, if_pos h⟩

/-- A segment read: none for a number past the last register (R409). -/
theorem Cpu.getSeg_eq_none {u : Cpu} {nseg : Nat} {i : BitVec 3} (h : nseg ≤ i.toNat) : u.getSeg nseg i = none :=
  if_neg (Nat.not_lt.2 h)

/-- A write to a segment register that exists: everything but the segment registers is left. -/
theorem Cpu.setSeg_eq_some (u : Cpu) {nseg : Nat} {i : BitVec 3} (h : i.toNat < nseg) (v : BitVec 16) :
    ∃ w, u.setSeg nseg i v = some w ∧ ({ w with seg := u.seg } : Cpu) = u := ⟨_, if_pos h, rfl⟩

/-! ### The segment commands, by what the register view gives -/

section
variable {s : State} {c : BitVec 32} {i : BitVec 3} {h : BitVec 16}

theorem exec_cpuGetSeg_of_some {w : BitVec 16} (hg : (s.cpu c).getSeg s.params.nseg i = some w) :
    exec (.cpuGetSeg c i) s = .next (s.ok (.u16 w)) := by
  simp only [exec, execCpuGetSeg, hg]

theorem exec_cpuGetSeg_of_none (hg : (s.cpu c).getSeg s.params.nseg i = none) :
    exec (.cpuGetSeg c i) s = .next (s.fail .illegalOperand) := by
  simp only [exec, execCpuGetSeg, hg]

theorem exec_cpuSetSeg_of_some {w : Cpu} (hs : (s.cpu c).setSeg s.params.nseg i h = some w) :
    exec (.cpuSetSeg c i h) s = .next ((s.setCpu c w).ok .none) := by
  simp only [exec, execCpuSetSeg, State.cpuDone, hs]

theorem exec_cpuSetSeg_of_none (hs : (s.cpu c).setSeg s.params.nseg i h = none) :
    exec (.cpuSetSeg c i h) s = .next (s.fail .illegalOperand) := by
  simp only [exec, execCpuSetSeg, State.cpuDone, hs]

end

/-! ### Register access -/

/-- Settles O56: each read answers its view of the register, and each write is read back by the laws of the register views. -/
theorem registerAccess : Obligations.RegisterAccess := by
  intro s c i v h b x u
  have frame : ∀ w, sameButCpu c s ((s.setCpu c w).ok .none) := fun w => s.setCpu_ok_sameButCpu c w .none
  have wrote : ∀ w, ((s.setCpu c w).ok .none).cpu c = w := fun w => s.setCpu_cpu_same c w
  refine ⟨⟨rfl, rfl, ?get8, rfl, rfl, rfl, ?getSeg⟩, ⟨_, rfl, rfl, frame _, ?set32⟩, ⟨_, rfl, rfl, frame _, ?set16⟩,
    ⟨_, rfl, rfl, frame _, ?set8⟩, ⟨_, rfl, rfl, frame _, wrote _⟩, ⟨_, rfl, rfl, frame _, ?setXmm⟩, ?setSeg, ?noSeg⟩
  case get8 => rw [← Cpu.reg8_eq]; rfl
  case getSeg =>
    intro hi
    obtain ⟨w, hw⟩ := u.getSeg_eq_some hi
    exact ⟨w, hw, exec_cpuGetSeg_of_some hw⟩
  case set32 =>
    rw [wrote]
    exact ⟨rfl, by simp [Cpu.setReg32_reg32], fun j hj => by simp [Cpu.setReg32_reg32, hj, u]⟩
  case set16 =>
    rw [wrote]
    exact ⟨rfl, u.setReg16_getLsbD i h, fun j hj => by simp [Cpu.setReg16, Cpu.setReg32_reg32, hj, u]⟩
  case set8 =>
    rw [wrote]
    refine ⟨rfl, u.setReg8_getLsbD i b, fun j hj => ?_⟩
    have hr : j ≠ byteReg i := hj
    simp [Cpu.setReg8, Cpu.setReg32_reg32, hr, u]
  case setXmm =>
    rw [wrote]
    exact ⟨rfl, by simp [Cpu.setXmm_getXmm], fun j hj => by simp [Cpu.setXmm_getXmm, hj, u]⟩
  case setSeg =>
    intro hi
    obtain ⟨w, hw, hrest⟩ := u.setSeg_eq_some hi h
    refine ⟨_, exec_cpuSetSeg_of_some hw, rfl, frame w, ?_⟩
    rw [wrote]
    exact ⟨hrest, by simp [Cpu.setSeg_getSeg hw], fun j hj => by simp [Cpu.setSeg_getSeg hw, hj]⟩
  case noSeg =>
    intro hi
    exact ⟨exec_cpuSetSeg_of_none (Cpu.setSeg_eq_none hi), exec_cpuGetSeg_of_none (Cpu.getSeg_eq_none hi)⟩

end Sys2Proof.Machine
end

section
/-! SUPPORT. What the memory commands keep whatever they do (spec/43_address_space.md R324–R336): the parameters, the contexts and
the port, every byte a host pointer may reach, and the canonical form of the blobs' memory. -/

namespace Sys2Proof.Machine

/-- What every change of the address spaces and blobs keeps: the rest of the state, the host pointers, canonical memory. -/
structure Moved (s t : State) : Prop where
  rest : sameRest s t
  host : keepsHost s t
  memory : s.memoryOk = true → t.memoryOk = true

theorem Moved.refl (s : State) : Moved s s := ⟨.refl s, .refl s, id⟩

theorem Moved.trans {s t u : State} (h : Moved s t) (g : Moved t u) : Moved s u :=
  ⟨h.rest.trans g.rest, h.host.trans g.host, g.memory ∘ h.memory⟩

theorem memoryOk_iff (s : State) :
    s.memoryOk = true ↔ mapAll s.blobs (fun _ b => b.cellsOk) = true ∧ mapAll s.graves (fun _ b => b.cellsOk) = true := by
  simp [State.memoryOk]

theorem memoryOk_congr {s t : State} (hb : t.blobs = s.blobs) (hg : t.graves = s.graves) (h : s.memoryOk = true) :
    t.memoryOk = true := by
  rwa [memoryOk_iff, hb, hg, ← memoryOk_iff]

theorem memoryOk_live {s : State} (h : s.memoryOk = true) {b : Handle} {blob : Blob} (hb : mapFind s.blobs b = some blob) :
    blob.cellsOk = true :=
  mapAll_find (p := fun _ x => x.cellsOk) ((memoryOk_iff s).1 h).1 hb

/-- A change that leaves blobs, deleted blobs and the rest of the state alone. -/
theorem Moved.of_eq {s t : State} (hr : sameRest s t) (hb : t.blobs = s.blobs) (hg : t.graves = s.graves) : Moved s t :=
  ⟨hr, keepsHost_of_eq hb hg, memoryOk_congr hb hg⟩

/-! ### The helpers of R336 -/

theorem incRef_memoryOk {s : State} (h : s.memoryOk = true) (b : Handle) : (s.incRef b).memoryOk = true := by
  obtain ⟨hb, hg⟩ := (memoryOk_iff s).1 h
  unfold State.incRef
  split
  · exact h
  · next blob hf =>
    have hc : blob.cellsOk = true := memoryOk_live h hf
    exact (memoryOk_iff _).2 ⟨mapAll_put hb hc, hg⟩

theorem decRef_memoryOk {s : State} (h : s.memoryOk = true) (b : Handle) : (s.decRef b).memoryOk = true := by
  obtain ⟨hb, hg⟩ := (memoryOk_iff s).1 h
  unfold State.decRef
  split
  · exact h
  · next blob hf =>
    have hc : blob.cellsOk = true := memoryOk_live h hf
    split
    · exact (memoryOk_iff _).2 ⟨mapAll_del hb b, mapAll_put hg hc⟩
    · exact (memoryOk_iff _).2 ⟨mapAll_put hb hc, hg⟩

theorem drawOom_moved (s : State) : Moved s s.drawOom.2 := .of_eq (drawOom_sameRest s) (by simp) (by simp)

theorem setSpace_moved (s : State) (m : Handle) (sp : Space) : Moved s (s.setSpace m sp) := .of_eq ⟨rfl, rfl, rfl⟩ rfl rfl

theorem putPte_moved (s : State) (m : Handle) (p : Nat) (e : Pte) : Moved s (s.putPte m p e) :=
  .of_eq (putPte_sameRest s m p e) (putPte_blobs s m p e).1 (putPte_blobs s m p e).2

theorem bump_moved (s : State) (m : Handle) : Moved s (s.bump m) :=
  .of_eq (bump_sameRest s m) (bump_blobs s m).1 (bump_blobs s m).2

theorem install_moved (s : State) (m : Handle) (p : Nat) (e : Pte) : Moved s (s.install m p e) :=
  (putPte_moved s m p e).trans ⟨incRef_sameRest _ _, incRef_keepsHost _ _, fun h => incRef_memoryOk h _⟩

/-- What `remove` does where there is an entry. -/
theorem remove_of_entry {s : State} {m : Handle} {p : Nat} {sp : Space} {e : Pte} (hs : s.space m = some sp)
    (hp : mapFind sp.pages p = some e) :
    s.remove m p = (s.setSpace m { sp with pages := mapDel sp.pages p }).decRef e.blob := by
  simp [State.remove, hs, hp]

/-- Where there is none, it does nothing. -/
theorem remove_of_none {s : State} {m : Handle} {p : Nat} (h : s.pte m p = none) : s.remove m p = s := by
  unfold State.remove
  split
  · rfl
  · next sp hs =>
    have hp : mapFind sp.pages p = none := by simpa [State.pte, hs] using h
    rw [hp]

theorem remove_moved (s : State) (m : Handle) (p : Nat) : Moved s (s.remove m p) := by
  refine ⟨remove_sameRest s m p, remove_keepsHost s m p, fun h => ?_⟩
  cases hs : s.space m with
  | none => rwa [remove_of_none (by simp [State.pte, hs])]
  | some sp =>
    cases hp : mapFind sp.pages p with
    | none => rwa [remove_of_none (by simp [State.pte, hs, hp])]
    | some e => rw [remove_of_entry hs hp]; exact decRef_memoryOk ((setSpace_moved s m _).memory h) _

theorem replace_moved (s : State) (m : Handle) (p : Nat) (e : Pte) : Moved s (s.replace m p e) :=
  (remove_moved s m p).trans (install_moved _ m p e)

/-- A new blob's memory has to be canonical, where that of the state is. -/
theorem newBlob_moved {s : State} {cells : Memory} {len : Nat}
    (h : s.memoryOk = true → ({ cells := cells, len := len, refcount := 0 } : Blob).cellsOk = true) :
    Moved s (s.newBlob cells len).2 := by
  refine ⟨newBlob_sameRest s cells len, newBlob_keepsHost s cells len, fun hm => ?_⟩
  obtain ⟨hb, hg⟩ := (memoryOk_iff s).1 hm
  exact (memoryOk_iff _).2 ⟨mapAll_put hb (h hm), hg⟩

theorem forPages_moved {f : Nat → State → State} (h : ∀ k s, Moved s (f k s)) (n : Nat) (s : State) :
    Moved s (forPages f n s) := by
  induction n with
  | zero => exact .refl s
  | succ n ih => exact ih.trans (h n _)

/-! ### The memory a command makes -/

/-- A blob of zero bytes (R325, R332). -/
theorem cellsOk_zeros (len refs : Nat) : ({ cells := [], len := len, refcount := refs } : Blob).cellsOk = true := rfl

/-- A blob of a region's bytes (R324). -/
theorem cellsOk_region (bytes : List Byte) (refs : Nat) :
    ({ cells := cellsFrom 0 bytes, len := bytes.length, refcount := refs } : Blob).cellsOk = true := by
  refine (Blob.cellsOk_iff _).2 ⟨cellsFrom_wf 0 bytes, fun cell hc => ?_⟩
  have h := (cellsFrom_ge hc).2.1
  simpa using h

/-- The copy of a page (R334). -/
theorem cellsOk_page {old : Blob} (h : old.cellsOk = true) (offset refs : Nat) :
    ({ cells := pageCells old.cells offset, len := pageSize, refcount := refs } : Blob).cellsOk = true :=
  (Blob.cellsOk_iff _).2 ⟨pageCells_wf ((Blob.cellsOk_iff _).1 h).1 offset, fun _ hc => (mem_pageCells.1 hc).1⟩

/-! ### Translation (R331–R335) -/

theorem grow_moved (s : State) (m : Handle) (p : Nat) : Moved s (s.grow m p).2 := by
  unfold State.grow
  split
  · exact .refl s
  · split
    · split
      · exact drawOom_moved s
      · exact (((drawOom_moved s).trans (newBlob_moved fun _ => cellsOk_zeros _ _)).trans (install_moved _ _ _ _)).trans
          (bump_moved _ _)
    · exact .refl s

theorem duplicate_moved (s : State) (m : Handle) (p : Nat) (e : Pte) : Moved s (s.duplicate m p e).2 := by
  unfold State.duplicate
  split
  · exact drawOom_moved s
  · split
    · exact .refl s
    · next old hf =>
      split
      · have hc : s.drawOom.2.memoryOk = true →
            ({ cells := pageCells old.cells e.offset, len := pageSize, refcount := 0 } : Blob).cellsOk = true := fun h =>
          cellsOk_page (memoryOk_live h (by simpa using hf)) _ _
        exact (((drawOom_moved s).trans (newBlob_moved hc)).trans (replace_moved _ _ _ _)).trans (bump_moved _ _)
      · exact .refl s

theorem translateMapped_moved (s : State) (m : Handle) (addr : Nat) (kind : Access) (e : Pte) :
    Moved s (s.translateMapped m addr kind e).2 := by
  have h := duplicate_moved s m (pageOf addr) e
  unfold State.translateMapped
  split
  · exact .refl s
  · split
    · split
      · split <;> next heq => rw [heq] at h; exact h
      · exact .refl s
    · exact .refl s

theorem translate_moved (s : State) (m : Handle) (addr : Nat) (kind : Access) : Moved s (s.translate m addr kind).2 := by
  have h := grow_moved s m (pageOf addr)
  unfold State.translate
  split
  · exact .refl s
  · split
    · exact translateMapped_moved _ _ _ _ _
    · split
      · next heq => rw [heq] at h; exact h
      · next heq => rw [heq] at h; exact h.trans (translateMapped_moved _ _ _ _ _)

/-! ### The mapping commands (R324–R329) -/

theorem mapBlob_moved {s : State} {cells : Memory} {len : Nat} (m : Handle) (page count : Nat) (flags : BitVec 7)
    (h : ({ cells := cells, len := len, refcount := 0 } : Blob).cellsOk = true) :
    Moved s (s.mapBlob m page count cells len flags).2 :=
  ((newBlob_moved fun _ => h).trans (forPages_moved (fun _ _ => replace_moved _ _ _ _) _ _)).trans (bump_moved _ _)

theorem protectPage_moved (s : State) (m : Handle) (flags : BitVec 7) (p : Nat) : Moved s (s.protectPage m flags p) := by
  unfold State.protectPage
  split
  · exact .refl s
  · exact putPte_moved _ _ _ _

theorem sharePage_moved (s : State) (m : Handle) (p : Nat) (m2 : Handle) (p2 : Nat) : Moved s (s.sharePage m p m2 p2) := by
  unfold State.sharePage
  split
  · exact .refl s
  · exact ((remove_moved _ _ _).trans (putPte_moved _ _ _ _)).trans (install_moved _ _ _ _)

theorem shareRange_moved (s : State) (m : Handle) (page count : Nat) (m2 : Handle) (page2 : Nat) :
    Moved s (s.shareRange m page count m2 page2) := by
  have h := (forPages_moved (fun k u => sharePage_moved u m (page + k) m2 (page2 + k)) count s).trans (bump_moved _ m)
  unfold State.shareRange
  simp only
  split
  · exact h
  · exact h.trans (bump_moved _ _)

theorem foldl_remove_moved (m : Handle) (ps : List Nat) (s : State) : Moved s (ps.foldl (fun u p => u.remove m p) s) := by
  induction ps generalizing s with
  | nil => exact .refl s
  | cons p ps ih => exact (remove_moved s m p).trans (ih _)

theorem destroy_moved (s : State) (m : Handle) : Moved s (s.destroy m) := by
  unfold State.destroy
  split
  · exact .refl s
  · exact (foldl_remove_moved m _ s).trans (.of_eq ⟨rfl, rfl, rfl⟩ rfl rfl)

/-- A store through a host pointer (R364). -/
theorem storeHost_keepsHost {s t : State} {b : Handle} {off : Int} {v : Byte} (h : s.storeHost b off v = some t) :
    keepsHost s t := by
  unfold State.storeHost at h
  split at h
  · cases h
  · split at h
    · split at h
      · next live hf =>
        cases h
        intro c x hx
        unfold State.hostBlob at hx ⊢
        simp only [mapFind_put]
        by_cases hc : c = b
        · subst hc
          rw [hf] at hx
          cases hx
          exact ⟨{ live with cells := Memory.write live.cells off.toNat v }, by simp, rfl⟩
        · rw [if_neg hc]
          exact ⟨x, hx, rfl⟩
      · cases h
        exact .refl s
    · cases h

theorem storeHost_moved {s t : State} {b : Handle} {off : Int} {v : Byte} (h : s.storeHost b off v = some t) :
    Moved s t := by
  refine ⟨storeHost_sameRest h, storeHost_keepsHost h, fun hm => ?_⟩
  obtain ⟨hb, hg⟩ := (memoryOk_iff s).1 hm
  unfold State.storeHost at h
  split at h
  · cases h
  · next blob hh =>
    split at h
    · next hoff =>
      split at h
      · next live hf =>
        cases h
        have hl : blob = live := by simpa [State.hostBlob, hf] using hh.symm
        subst hl
        obtain ⟨hw, hlt⟩ := (Blob.cellsOk_iff blob).1 (memoryOk_live hm hf)
        exact (memoryOk_iff _).2 ⟨mapAll_put hb ((Blob.cellsOk_iff _).2
          ⟨Memory.write_wf hw _ v, Memory.write_bound hlt v hoff.2⟩), hg⟩
      · cases h
        exact hm
    · cases h

end Sys2Proof.Machine
end

section
/-! SUPPORT. The page-table invariant through the memory commands (spec/10_state.md R40–R44; spec/43_address_space.md R321–R336): the
counting invariant of the helpers, the owners of the spaces, and that no blob is left that no entry names. -/

namespace Sys2Proof.Machine

/-- Every address space has an owner and its lock is free (R40, R45). -/
def Owned (s : State) : Prop := ∀ m sp, s.space m = some sp → 1 ≤ sp.refcount ∧ sp.lock = .free

/-- The page tables are good but for one blob that may have no entry yet: one that a command has made and not installed. -/
structure TablesBut (x : Option Handle) (s : State) : Prop where
  counted : Counted s
  owned : Owned s
  named : ∀ b blob, some b ≠ x → mapFind s.blobs b = some blob → 1 ≤ blob.refcount

/-- The page tables are good (R40–R44). -/
abbrev Tables (s : State) : Prop := TablesBut none s

section
variable {x : Option Handle} {s t : State} {m : Handle} {p : Nat} {e : Pte}

theorem TablesBut.of_eq (h : TablesBut x s) (hm : t.mems = s.mems) (hb : t.blobs = s.blobs) (hg : t.graves = s.graves) :
    TablesBut x t where
  counted := h.counted.of_eq hm hb hg
  owned y sp hs := h.owned y sp (by rwa [space_congr hm] at hs)
  named b blob hx hf := h.named b blob hx (by rwa [hb] at hf)

theorem TablesBut.drawOom (h : TablesBut x s) : TablesBut x s.drawOom.2 := h.of_eq (by simp) (by simp) (by simp)

theorem TablesBut.weaken (h : Tables s) (x : Option Handle) : TablesBut x s :=
  ⟨h.counted, h.owned, fun b blob _ hb => h.named b blob (by simp) hb⟩

/-- Once an entry names the new blob, the tables are good. -/
theorem TablesBut.tables_of_entry (h : TablesBut (some e.blob) s) (he : s.pte m p = some e) : Tables s where
  counted := h.counted
  owned := h.owned
  named b blob _ hb := by
    by_cases hx : b = e.blob
    · have hc := h.counted.count b blob hb
      have hr := refersTo_le_pteCount he
      rw [← hx] at hr
      omega
    · exact h.named b blob (by simpa using hx) hb

/-! ### Owners and named blobs through the helpers of R336 -/

/-- A change of one space that keeps its owners and its lock keeps every space owned. -/
theorem Owned.of_space {f : Space → Space} (h : Owned s)
    (ht : ∀ y, t.space y = if y = m then (s.space m).map f else s.space y)
    (hf : ∀ sp : Space, (f sp).refcount = sp.refcount ∧ (f sp).lock = sp.lock) : Owned t := by
  intro y sp hs
  rw [ht] at hs
  split at hs
  · obtain ⟨sp0, h0, rfl⟩ := Option.map_eq_some_iff.1 hs
    rw [(hf sp0).1, (hf sp0).2]
    exact h m sp0 h0
  · exact h y sp hs

theorem incRef_named (h : ∀ b blob, some b ≠ x → mapFind s.blobs b = some blob → 1 ≤ blob.refcount) (c : Handle) :
    ∀ b blob, some b ≠ x → mapFind (s.incRef c).blobs b = some blob → 1 ≤ blob.refcount := by
  intro b blob hx hb
  rw [incRef_find] at hb
  split at hb
  · obtain ⟨old, -, rfl⟩ := Option.map_eq_some_iff.1 hb
    exact Nat.le_add_left 1 _
  · exact h b blob hx hb

theorem decRef_named (h : ∀ b blob, some b ≠ x → mapFind s.blobs b = some blob → 1 ≤ blob.refcount) (c : Handle) :
    ∀ b blob, some b ≠ x → mapFind (s.decRef c).blobs b = some blob → 1 ≤ blob.refcount := by
  intro b blob hx hb
  rw [decRef_find] at hb
  split at hb
  · obtain ⟨old, -, hl⟩ := Option.bind_eq_some_iff.1 hb
    unfold lessOne at hl
    split at hl
    · cases hl
    · cases hl
      show 1 ≤ old.refcount - 1
      omega
  · exact h b blob hx hb

theorem TablesBut.remove (h : TablesBut x s) (m : Handle) (p : Nat) : TablesBut x (s.remove m p) where
  counted := h.counted.remove m p
  owned := h.owned.of_space (remove_space s m p) fun _ => ⟨rfl, rfl⟩
  named := by
    cases hs : s.space m with
    | none => rw [remove_of_none (by simp [State.pte, hs])]; exact h.named
    | some sp =>
      cases hp : mapFind sp.pages p with
      | none => rw [remove_of_none (by simp [State.pte, hs, hp])]; exact h.named
      | some old => rw [remove_of_entry hs hp]; exact decRef_named (s := s.setSpace m _) h.named _

/-- Where the page is unmapped and the entry's blob has the page's bytes, it can be installed. -/
theorem TablesBut.install (h : TablesBut x s) (hm : (s.space m).isSome = true) (hp : s.pte m p = none)
    (hlt : p < numPages) (hb : ∃ blob, mapFind s.blobs e.blob = some blob ∧ e.offset + pageSize ≤ blob.len) :
    TablesBut x (s.install m p e) where
  counted := h.counted.install hm hp hlt hb
  owned := h.owned.of_space (install_space s m p e) fun _ => ⟨rfl, rfl⟩
  named := incRef_named (s := s.putPte m p e) (by rw [(putPte_blobs s m p e).1]; exact h.named) _

theorem TablesBut.putPte_flags (h : TablesBut x s) (hp : s.pte m p = some e) (flags : BitVec 7) :
    TablesBut x (s.putPte m p { e with flags := flags }) where
  counted := h.counted.putPte_flags hp flags
  owned := h.owned.of_space (putPte_space s m p _) fun _ => ⟨rfl, rfl⟩
  named := by rw [(putPte_blobs s m p _).1]; exact h.named

theorem TablesBut.bump (h : TablesBut x s) (m : Handle) : TablesBut x (s.bump m) where
  counted := h.counted.bump m
  owned := h.owned.of_space (bump_space s m) fun _ => ⟨rfl, rfl⟩
  named := by rw [(bump_blobs s m).1]; exact h.named

theorem TablesBut.newBlob (h : Tables s) {cells : Memory} {len : Nat}
    (hc : ({ cells := cells, len := len, refcount := 0 } : Blob).cellsOk = true) :
    TablesBut (some (s.newBlob cells len).1) (s.newBlob cells len).2 where
  counted := h.counted.newBlob hc
  owned := h.owned
  named b blob hx hb := by
    rw [newBlob_find, if_neg (by simpa using hx)] at hb
    exact h.named b blob (by simp) hb

/-- A change of a space's owners that leaves it one, and of nothing else of it but its generation. -/
theorem TablesBut.setSpace (h : Tables s) {sp sp2 : Space} (hs : s.space m = some sp) (hp : sp2.pages = sp.pages)
    (ho : 1 ≤ sp2.refcount ∧ sp2.lock = .free) : Tables (s.setSpace m sp2) where
  counted := h.counted.setSpace_pages hs hp
  owned y spy hy := by
    rw [setSpace_space] at hy
    split at hy
    · cases hy; exact ho
    · exact h.owned y spy hy
  named := h.named

/-! ### A page of a new blob -/

/-- Every entry names a live blob, so none names a handle that is free. -/
theorem Counted.blob_ne_free (h : Counted s) (he : s.pte m p = some e) {b : Handle} (hb : mapFind s.blobs b = none) :
    e.blob ≠ b := by
  obtain ⟨blob, hf, -⟩ := h.backed m p e he
  rintro rfl
  rw [hf] at hb
  cases hb

theorem newBlob_self (s : State) (cells : Memory) (len : Nat) :
    mapFind (s.newBlob cells len).2.blobs (s.newBlob cells len).1 = some { cells := cells, len := len, refcount := 0 } := by
  rw [newBlob_find, if_pos rfl]

/-- Removing an entry leaves every blob it does not name. -/
theorem remove_find_other {b : Handle} (h : ∀ old, s.pte m p = some old → old.blob ≠ b) :
    mapFind (s.remove m p).blobs b = mapFind s.blobs b := by
  cases hs : s.space m with
  | none => rw [remove_of_none (by simp [State.pte, hs])]
  | some sp =>
    cases hp : mapFind sp.pages p with
    | none => rw [remove_of_none (by simp [State.pte, hs, hp])]
    | some old =>
      have hne := h old (by simp [State.pte, hs, hp])
      rw [remove_of_entry hs hp, decRef_find, if_neg hne.symm]
      rfl

/-- Force-unmapping a page and installing an entry of a new blob. -/
theorem TablesBut.replace (h : TablesBut (some e.blob) s) (hm : (s.space m).isSome = true) (hlt : p < numPages)
    (hb : ∃ blob, mapFind s.blobs e.blob = some blob ∧ e.offset + pageSize ≤ blob.len)
    (hold : ∀ old, s.pte m p = some old → old.blob ≠ e.blob) : Tables (s.replace m p e) := by
  have hm' : ((s.remove m p).space m).isSome = true := by rw [remove_space, if_pos rfl]; simpa using hm
  have hi := (h.remove m p).install (e := e) hm' (by simp [remove_pte]) hlt (by rwa [remove_find_other hold])
  refine hi.tables_of_entry (m := m) (p := p) ?_
  obtain ⟨sp, hs⟩ := Option.isSome_iff_exists.1 hm
  rw [replace_pte, if_pos ⟨rfl, rfl⟩, hs]
  rfl

/-- Replacing a page leaves the length of a blob that the old entry does not name. -/
theorem replace_find_len {b : Handle} {n : Nat} (h : ∀ old, s.pte m p = some old → old.blob ≠ b)
    (hb : ∃ blob, mapFind s.blobs b = some blob ∧ n ≤ blob.len) :
    ∃ blob, mapFind (s.replace m p e).blobs b = some blob ∧ n ≤ blob.len := by
  obtain ⟨blob, hf, hl⟩ := hb
  unfold State.replace State.install
  rw [incRef_find, (putPte_blobs _ m p e).1, remove_find_other h, hf]
  split
  · next hbe =>
    rw [← hbe, remove_find_other h, hf]
    exact ⟨_, rfl, hl⟩
  · exact ⟨blob, rfl, hl⟩

end

/-! ### Translation (R331–R335) -/

/-- A page grown: the tables stay good, and the entry is the page's (R332). -/
theorem grow_tables {s : State} (h : Tables s) {m : Handle} {p : Nat} (hlt : p < numPages) (hp : s.pte m p = none) :
    Tables (s.grow m p).2 ∧ ∀ e, (s.grow m p).1 = .ok e → (s.grow m p).2.pte m p = some e := by
  unfold State.grow
  split
  · exact ⟨h, nofun⟩
  · next above ha =>
    obtain ⟨sp, hs, -⟩ := Option.bind_eq_some_iff.1 ha
    split
    · split
      · exact ⟨h.drawOom, nofun⟩
      · set nb := s.drawOom.2.newBlob [] pageSize
        set e : Pte := { blob := nb.1, offset := 0, flags := grownFlags }
        have hmems : nb.2.mems = s.mems := by simp [nb]
        have hm : nb.2.space m = some sp := by rw [space_congr hmems]; exact hs
        have hb := h.drawOom.newBlob (cells := []) (len := pageSize) (cellsOk_zeros _ _)
        have hi : TablesBut (some e.blob) (nb.2.install m p e) :=
          hb.install (by rw [hm]; rfl) (by rw [pte_congr hmems]; exact hp) hlt
            ⟨_, newBlob_self _ _ _, (Nat.zero_add pageSize).le⟩
        have he : (nb.2.install m p e).pte m p = some e := by simp [install_pte, hm]
        refine ⟨(hi.tables_of_entry he).bump m, fun e' he' => ?_⟩
        cases he'
        rw [bump_pte, he]
    · exact ⟨h, nofun⟩

/-- A page duplicated: the tables stay good, and the new entry is the page's (R334). -/
theorem duplicate_tables {s : State} (h : Tables s) {m : Handle} {p : Nat} {e : Pte} (he : s.pte m p = some e) :
    Tables (s.duplicate m p e).2 ∧ ∀ e2, (s.duplicate m p e).1 = some (.ok e2) → (s.duplicate m p e).2.pte m p = some e2 := by
  unfold State.duplicate
  split
  · exact ⟨h.drawOom, nofun⟩
  · split
    · exact ⟨h, nofun⟩
    · next old hf =>
      split
      · have hc : old.cellsOk = true := h.counted.cells e.blob old (by simp [State.hostBlob, hf])
        set nb := s.drawOom.2.newBlob (pageCells old.cells e.offset) pageSize
        set e2 : Pte := { blob := nb.1, offset := 0, flags := setBit e.flags pCowBit false }
        have hmems : nb.2.mems = s.mems := by simp [nb]
        have hpte : nb.2.pte m p = some e := by rw [pte_congr hmems]; exact he
        obtain ⟨sp, hs, -⟩ := Option.bind_eq_some_iff.1 hpte
        have hfree : mapFind s.blobs nb.1 = none := by
          simpa using (newBlob_free s.drawOom.2 (pageCells old.cells e.offset) pageSize).1
        have hb : TablesBut (some e2.blob) nb.2 := h.drawOom.newBlob (cellsOk_page hc e.offset 0)
        have hr : Tables (nb.2.replace m p e2) := by
          refine hb.replace (by rw [hs]; rfl) (h.counted.bound m p e he)
            ⟨_, newBlob_self _ _ _, (Nat.zero_add pageSize).le⟩ fun o ho => ?_
          exact h.counted.blob_ne_free (by rwa [pte_congr hmems] at ho) hfree
        refine ⟨hr.bump m, fun e' he' => ?_⟩
        cases he'
        rw [bump_pte, replace_pte, if_pos ⟨rfl, rfl⟩, hs]
        rfl
      · exact ⟨h, nofun⟩

/-- A translation's answer is the pointer of the page's entry (R335). -/
def State.answersEntry (t : State) (m : Handle) (addr : Nat) (r : Translation) : Prop :=
  ∀ b o f, r = .ok b o f → ∃ e, t.pte m (pageOf addr) = some e ∧ e.pointer addr = r

theorem translateMapped_tables {s : State} (h : Tables s) {m : Handle} {addr : Nat} (kind : Access) {e : Pte}
    (he : s.pte m (pageOf addr) = some e) :
    Tables (s.translateMapped m addr kind e).2 ∧
      (s.translateMapped m addr kind e).2.answersEntry m addr (s.translateMapped m addr kind e).1 := by
  have hd := duplicate_tables h he
  have same : s.answersEntry m addr (e.pointer addr) := fun _ _ _ _ => ⟨e, he, rfl⟩
  unfold State.translateMapped
  split
  · exact ⟨h, same⟩
  · split
    · split
      · split
        · next heq => rw [heq] at hd; exact ⟨hd.1, fun _ _ _ _ => ⟨_, hd.2 _ rfl, rfl⟩⟩
        · next heq => rw [heq] at hd; exact ⟨hd.1, nofun⟩
        · next heq => rw [heq] at hd; exact ⟨hd.1, nofun⟩
      · exact ⟨h, same⟩
    · exact ⟨h, nofun⟩

theorem pageOf_lt {addr : Nat} (h : addr < 2 ^ 32) : pageOf addr < numPages := by
  unfold pageOf pageSize numPages
  omega

/-- A translation keeps the tables good, and its pointer is that of the page's entry. -/
theorem translate_tables {s : State} (h : Tables s) (m : Handle) {addr : Nat} (ha : addr < 2 ^ 32) (kind : Access) :
    Tables (s.translate m addr kind).2 ∧ (s.translate m addr kind).2.answersEntry m addr (s.translate m addr kind).1 := by
  unfold State.translate
  split
  · exact ⟨h, nofun⟩
  · split
    · next e he => exact translateMapped_tables h kind he
    · next hp =>
      have hg := grow_tables h (pageOf_lt ha) hp
      split
      · next heq => rw [heq] at hg; exact ⟨hg.1, nofun⟩
      · next heq => rw [heq] at hg; exact translateMapped_tables hg.1 kind (hg.2 _ rfl)

end Sys2Proof.Machine
end

section
/-! SUPPORT. The commands of unit ASM (spec/43_address_space.md R321–R331): what each keeps, the page-table invariant among it. -/

namespace Sys2Proof.Machine

/-- What a memory command keeps: what every change of the stores keeps, and good page tables. -/
structure Retabled (s t : State) : Prop extends Moved s t where
  tables : Tables s → Tables t

theorem Retabled.refl (s : State) : Retabled s s := ⟨.refl s, id⟩

theorem Retabled.trans {s t u : State} (h : Retabled s t) (g : Retabled t u) : Retabled s u :=
  ⟨h.toMoved.trans g.toMoved, g.tables ∘ h.tables⟩

theorem Retabled.of_eq {s t : State} (hr : sameRest s t) (hm : t.mems = s.mems) (hb : t.blobs = s.blobs)
    (hg : t.graves = s.graves) : Retabled s t :=
  ⟨.of_eq hr hb hg, fun h => h.of_eq hm hb hg⟩

theorem Retabled.respond {s t : State} (h : Retabled s t) (r : Response) : Retabled s (t.respond r) :=
  h.trans (.of_eq ⟨rfl, rfl, rfl⟩ rfl rfl rfl)

theorem drawOom_retabled (s : State) : Retabled s s.drawOom.2 := ⟨drawOom_moved s, TablesBut.drawOom⟩

theorem bump_retabled (s : State) (m : Handle) : Retabled s (s.bump m) := ⟨bump_moved s m, fun h => h.bump m⟩

theorem remove_retabled (s : State) (m : Handle) (p : Nat) : Retabled s (s.remove m p) :=
  ⟨remove_moved s m p, fun h => h.remove m p⟩

theorem forPages_retabled {f : Nat → State → State} (h : ∀ k s, Retabled s (f k s)) (n : Nat) (s : State) :
    Retabled s (forPages f n s) := by
  induction n with
  | zero => exact .refl s
  | succ n ih => exact ih.trans (h n _)

theorem forPages_space_isSome {f : Nat → State → State} {x : Handle}
    (h : ∀ k s, ((f k s).space x).isSome = (s.space x).isSome) (n : Nat) (s : State) :
    ((forPages f n s).space x).isSome = (s.space x).isSome := by
  induction n with
  | zero => rfl
  | succ n ih => exact (h n _).trans ih

theorem rangeValid_iff (page count : Nat) : rangeValid page count = true ↔ 1 ≤ count ∧ page + count ≤ numPages := by
  simp [rangeValid]

/-! ### Mapping a fresh blob over a range (R324, R325) -/

/-- `ASM.MAP`'s installation of page `k` of the blob `b`. -/
def mapPage (m : Handle) (page : Nat) (b : Handle) (flags : BitVec 7) (k : Nat) (t : State) : State :=
  t.replace m (page + k) { blob := b, offset := k * pageSize, flags := flags }

/-- While the pages of a new blob are installed in ascending order: the tables are good but for the blob until its first page is
in, the blob keeps its length, and the pages still to come are as they were. -/
theorem mapPages_tables {s : State} {m : Handle} {page len : Nat} {b : Handle} (flags : BitVec 7) (h : TablesBut (some b) s)
    (hm : (s.space m).isSome = true) (hb : ∃ blob, mapFind s.blobs b = some blob ∧ len ≤ blob.len)
    (hold : ∀ p e, s.pte m p = some e → e.blob ≠ b) (n : Nat) (hn : page + n ≤ numPages) (hl : n * pageSize ≤ len) :
    let t := forPages (mapPage m page b flags) n s
    TablesBut (some b) t ∧ (1 ≤ n → Tables t) ∧ (∃ blob, mapFind t.blobs b = some blob ∧ len ≤ blob.len) ∧
      ∀ p, page + n ≤ p → t.pte m p = s.pte m p := by
  induction n with
  | zero => exact ⟨h, fun h0 => absurd h0 (by omega), hb, fun _ _ => rfl⟩
  | succ n ih =>
    rw [Nat.add_one_mul] at hl
    obtain ⟨ht, -, ⟨blob, hf, hlen⟩, hkept⟩ := ih (by omega) (by omega)
    set t := forPages (mapPage m page b flags) n s
    have hmt : (t.space m).isSome = true :=
      (forPages_space_isSome (fun k u => replace_space_isSome u m (page + k) _ m) n s).trans hm
    have hne : ∀ old, t.pte m (page + n) = some old → old.blob ≠ b := fun old ho =>
      hold _ old (by rwa [hkept _ (Nat.le_refl _)] at ho)
    have hroom : n * pageSize + pageSize ≤ blob.len := by omega
    have hr : Tables (mapPage m page b flags n t) := ht.replace hmt (by omega) ⟨blob, hf, hroom⟩ hne
    refine ⟨hr.weaken _, fun _ => hr, replace_find_len hne ⟨blob, hf, hlen⟩, fun p hp => ?_⟩
    have hpn : ¬(m = m ∧ p = page + n) := by omega
    exact (replace_pte t m (page + n) _ m p).trans ((if_neg hpn).trans (hkept p (by omega)))

theorem mapBlob_retabled {s : State} {m : Handle} {page count len : Nat} {cells : Memory} (flags : BitVec 7)
    (hv : rangeValid page count = true) (hm : (s.space m).isSome = true) (hl : count * pageSize ≤ len)
    (hc : ({ cells := cells, len := len, refcount := 0 } : Blob).cellsOk = true) :
    Retabled s (s.mapBlob m page count cells len flags).2 := by
  refine ⟨mapBlob_moved m page count flags hc, fun h => ?_⟩
  obtain ⟨h1, h2⟩ := (rangeValid_iff page count).1 hv
  have hp := mapPages_tables (page := page) flags (h.newBlob hc) (by rw [space_congr (newBlob_mems s cells len)]; exact hm)
    ⟨_, newBlob_self s cells len, Nat.le_refl len⟩
    (fun p e he => h.counted.blob_ne_free (by rwa [pte_congr (newBlob_mems s cells len)] at he) (newBlob_free s cells len).1)
    count h2 hl
  exact (hp.2.1 h1).bump m

theorem mapChecked_retabled {s : State} {m : Handle} {page count len : Nat} {cells : Memory} (flags : BitVec 7)
    (hv : rangeValid page count = true) (hm : (s.space m).isSome = true) (hl : count * pageSize ≤ len)
    (hc : ({ cells := cells, len := len, refcount := 0 } : Blob).cellsOk = true) :
    Retabled s (s.mapChecked m page count cells len flags) := by
  unfold State.mapChecked
  split
  · exact (drawOom_retabled s).respond _
  · have hm' : (s.drawOom.2.space m).isSome = true := by rw [space_congr (State.drawOom_mems s)]; exact hm
    exact ((drawOom_retabled s).trans (mapBlob_retabled flags hv hm' hl hc)).respond _

/-! ### Protection and sharing (R327, R329) -/

theorem putPte_space_isSome (s : State) (m : Handle) (p : Nat) (e : Pte) (x : Handle) :
    ((s.putPte m p e).space x).isSome = (s.space x).isSome := by
  rw [putPte_space]
  split
  · next hx => rw [Option.isSome_map, hx]
  · rfl

theorem remove_space_isSome (s : State) (m : Handle) (p : Nat) (x : Handle) :
    ((s.remove m p).space x).isSome = (s.space x).isSome := by
  rw [remove_space]
  split
  · next hx => rw [Option.isSome_map, hx]
  · rfl

theorem protectPage_retabled (s : State) (m : Handle) (flags : BitVec 7) (p : Nat) :
    Retabled s (s.protectPage m flags p) := by
  refine ⟨protectPage_moved s m flags p, fun h => ?_⟩
  unfold State.protectPage
  split
  · exact h
  · next e he => exact h.putPte_flags he _

/-- Sharing a page with another page: the source's entry stays, with new flags, and the destination gets the same blob. -/
theorem sharePage_tables {s : State} (h : Tables s) {m m2 : Handle} {p p2 : Nat} (hm2 : (s.space m2).isSome = true)
    (hlt : p2 < numPages) (hne : ¬(m = m2 ∧ p = p2)) : Tables (s.sharePage m p m2 p2) := by
  unfold State.sharePage
  split
  · exact h
  · next e he =>
    have hr := h.remove m2 p2
    have her : (s.remove m2 p2).pte m p = some e := by rw [remove_pte, if_neg hne]; exact he
    have hs := hr.putPte_flags her (sharedFlags e.flags)
    refine hs.install ?_ ?_ hlt ?_
    · rw [putPte_space_isSome, remove_space_isSome]
      exact hm2
    · rw [putPte_pte, if_neg (fun hc => hne ⟨hc.1.symm, hc.2.symm⟩), remove_pte, if_pos ⟨rfl, rfl⟩]
    · rw [(putPte_blobs _ m p _).1]
      exact hr.counted.backed m p e her

theorem sharePage_space_isSome (s : State) (m : Handle) (p : Nat) (m2 : Handle) (p2 : Nat) (x : Handle) :
    ((s.sharePage m p m2 p2).space x).isSome = (s.space x).isSome := by
  unfold State.sharePage
  split
  · rfl
  · rw [State.install, space_congr (incRef_mems _ _), putPte_space_isSome, putPte_space_isSome, remove_space_isSome]

theorem sharePages_tables {s : State} (h : Tables s) {m m2 : Handle} {page page2 : Nat} (hm2 : (s.space m2).isSome = true)
    (n : Nat) (hlt : page2 + n ≤ numPages) (hne : ∀ k, k < n → ¬(m = m2 ∧ page + k = page2 + k)) :
    Tables (forPages (fun k u => u.sharePage m (page + k) m2 (page2 + k)) n s) := by
  induction n with
  | zero => exact h
  | succ n ih =>
    have ht := ih (by omega) fun k hk => hne k (by omega)
    refine sharePage_tables ht ?_ (by omega) (hne n (by omega))
    rw [forPages_space_isSome fun k u => sharePage_space_isSome u m _ m2 _ m2]
    exact hm2

theorem shareRange_retabled {s : State} {m m2 : Handle} {page page2 count : Nat} (hm2 : (s.space m2).isSome = true)
    (hlt : page2 + count ≤ numPages) (hne : ∀ k, k < count → ¬(m = m2 ∧ page + k = page2 + k)) :
    Retabled s (s.shareRange m page count m2 page2) := by
  refine ⟨shareRange_moved s m page count m2 page2, fun h => ?_⟩
  have ht := (sharePages_tables h hm2 count hlt hne).bump m
  unfold State.shareRange
  simp only
  split
  · exact ht
  · exact ht.bump m2

/-! ### Spaces come and go (R321–R323) -/

/-- A space without entries counts for no blob. -/
theorem spaceRefs_empty {sp : Space} (h : sp.pages = []) (b : Handle) : spaceRefs b sp = 0 := by
  simp [spaceRefs, h]

theorem setSpace_new_pte {s : State} {m : Handle} {sp : Space} (hs : s.space m = none) (hp : sp.pages = []) (y : Handle)
    (p : Nat) : (s.setSpace m sp).pte y p = s.pte y p := by
  unfold State.pte
  rw [setSpace_space]
  split
  · next hy => subst hy; simp [hs, hp]
  · rfl

/-- A new space without entries keeps the tables good. -/
theorem TablesBut.newSpace {s : State} (h : Tables s) {m : Handle} {sp : Space} (hs : s.space m = none) (hp : sp.pages = [])
    (ho : 1 ≤ sp.refcount ∧ sp.lock = .free) : Tables (s.setSpace m sp) := by
  have hc := h.counted
  have hcount : ∀ b, (s.setSpace m sp).pteCount b = s.pteCount b := fun b => by
    have hput := pteCount_setSpace (s := s) hc.mems (m := m) sp b
    rw [hs, spaceRefs_empty hp] at hput
    simpa using hput
  refine ⟨⟨keysRising_put hc.mems m sp, hc.blobs, hc.graves, ?pages, ?bound, ?count, ?backed, hc.apart, hc.cells⟩, ?owned,
    h.named⟩
  case pages =>
    intro y spy hy
    rw [setSpace_space] at hy
    split at hy
    · cases hy; rw [hp]; rfl
    · exact hc.pages y spy hy
  case bound => exact fun y p e he => hc.bound y p e (by rwa [setSpace_new_pte hs hp] at he)
  case count => exact fun b blob hb => (hc.count b blob hb).trans (hcount b).symm
  case backed => exact fun y p e he => hc.backed y p e (by rwa [setSpace_new_pte hs hp] at he)
  case owned =>
    intro y spy hy
    rw [setSpace_space] at hy
    split at hy
    · cases hy; exact ho
    · exact h.owned y spy hy

/-- Taking out a space without entries keeps the tables good. -/
theorem TablesBut.dropSpace {s : State} (h : Tables s) {m : Handle} (hm : ∀ p, s.pte m p = none) :
    Tables { s with mems := mapDel s.mems m } := by
  have hc := h.counted
  have hspace : ∀ y, State.space { s with mems := mapDel s.mems m } y = if y = m then none else s.space y :=
    mapFind_del s.mems m
  have kept : ∀ y sp, State.space { s with mems := mapDel s.mems m } y = some sp → s.space y = some sp := fun y sp hy => by
    rw [hspace] at hy
    split at hy
    · cases hy
    · exact hy
  have hpte : ∀ y p e, State.pte { s with mems := mapDel s.mems m } y p = some e → s.pte y p = some e := fun y p e he => by
    obtain ⟨sp, hy, hp⟩ := Option.bind_eq_some_iff.1 he
    exact Option.bind_eq_some_iff.2 ⟨sp, kept y sp hy, hp⟩
  have hempty : ∀ b, weight (spaceRefs b) (s.space m) = 0 := fun b => by
    cases hs : s.space m with
    | none => rfl
    | some sp =>
      refine spaceRefs_empty (map_ext (hc.pages m sp hs) keysRising_nil fun p => ?_) b
      simpa [State.pte, hs] using hm p
  have hcount : ∀ b, State.pteCount { s with mems := mapDel s.mems m } b = s.pteCount b := fun b => by
    have hdel := mapSum_del hc.mems (spaceRefs b) m
    have hw : weight (spaceRefs b) (mapFind s.mems m) = 0 := hempty b
    rw [hw] at hdel
    exact hdel
  exact ⟨⟨keysRising_del hc.mems m, hc.blobs, hc.graves, fun y sp hy => hc.pages y sp (kept y sp hy),
    fun y p e he => hc.bound y p e (hpte y p e he), fun b blob hb => (hc.count b blob hb).trans (hcount b).symm,
    fun y p e he => hc.backed y p e (hpte y p e he), hc.apart, hc.cells⟩, fun y sp hy => h.owned y sp (kept y sp hy), h.named⟩

/-- Removing the entries of a list of pages removes those and no other. -/
theorem foldl_remove_pte (m : Handle) (ps : List Nat) (s : State) (p : Nat) :
    (ps.foldl (fun u q => u.remove m q) s).pte m p = if p ∈ ps then none else s.pte m p := by
  induction ps generalizing s with
  | nil => simp
  | cons q ps ih =>
    rw [List.foldl_cons, ih, remove_pte]
    by_cases h1 : p ∈ ps <;> by_cases h2 : p = q <;> simp [h1, h2]

theorem foldl_remove_tables (m : Handle) (ps : List Nat) {s : State} (h : Tables s) :
    Tables (ps.foldl (fun u p => u.remove m p) s) := by
  induction ps generalizing s with
  | nil => exact h
  | cons p ps ih => exact ih (h.remove m p)

theorem destroy_retabled (s : State) (m : Handle) : Retabled s (s.destroy m) := by
  refine ⟨destroy_moved s m, fun h => ?_⟩
  unfold State.destroy
  split
  · exact h
  · next sp hs =>
    refine (foldl_remove_tables m _ h).dropSpace fun p => ?_
    rw [foldl_remove_pte]
    split
    · rfl
    · next hp => simpa [State.pte, hs] using (mapFind_eq_none_iff sp.pages p).2 hp

theorem freshMem_retabled (s : State) : Retabled s s.freshMem.2 := .of_eq ⟨rfl, rfl, rfl⟩ rfl rfl rfl

theorem setSpace_retabled {s : State} {m : Handle} {sp sp2 : Space} (hs : s.space m = some sp) (hp : sp2.pages = sp.pages)
    (ho : Tables s → 1 ≤ sp2.refcount ∧ sp2.lock = .free) : Retabled s (s.setSpace m sp2) :=
  ⟨setSpace_moved s m sp2, fun h => h.setSpace hs hp (ho h)⟩

/-! ### The commands -/

/-- Where a command ends in a next state, that state meets a property. -/
def Ends (P : State → Prop) : Out → Prop
  | .next t => P t
  | .fault _ => True
  | .refused _ => True

theorem Ends.of_next {P : State → Prop} {o : Out} {t : State} (h : Ends P o) (ht : o = .next t) : P t := by
  rw [ht] at h
  exact h

theorem execAsmCreate_retabled (s : State) : Ends (Retabled s) (execAsmCreate s) := by
  unfold execAsmCreate
  split
  · exact (drawOom_retabled s).respond _
  · refine (((drawOom_retabled s).trans (freshMem_retabled _)).trans ?_).respond _
    exact ⟨setSpace_moved _ _ _, fun h => h.newSpace (freshMem_free s.drawOom.2) rfl ⟨Nat.le_refl 1, rfl⟩⟩

theorem execAsmRetain_retabled (m : BitVec 64) (s : State) : Ends (Retabled s) (execAsmRetain m s) := by
  unfold execAsmRetain
  split
  · exact (Retabled.refl s).respond _
  · next sp hs =>
    refine (setSpace_retabled (sp2 := { sp with refcount := sp.refcount + 1 }) hs rfl fun h => ?_).respond _
    exact ⟨Nat.le_add_left 1 _, (h.owned _ sp hs).2⟩

theorem execAsmRelease_retabled (m : BitVec 64) (s : State) : Ends (Retabled s) (execAsmRelease m s) := by
  unfold execAsmRelease
  split
  · exact (Retabled.refl s).respond _
  · next sp hs =>
    split
    · exact (destroy_retabled s _).respond _
    · next hr =>
      refine (setSpace_retabled (sp2 := { sp with refcount := sp.refcount - 1 }) hs rfl fun h => ?_).respond _
      exact ⟨Nat.le_sub_one_of_lt (Nat.lt_of_not_le hr), (h.owned _ sp hs).2⟩

/-- The test of the operands that the mapping commands share (R320). -/
theorem not_refused {v : Bool} {o : Option Space} (h : ¬(!v || o.isNone) = true) : v = true ∧ o.isSome = true := by
  simpa [Option.isSome_iff_ne_none] using h

theorem execAsmMap_retabled (m : BitVec 64) (page : BitVec 20) (count : BitVec 32) (host : HostMem) (flags : BitVec 7)
    (s : State) : Ends (Retabled s) (execAsmMap m page count host flags s) := by
  unfold execAsmMap
  split
  · exact (Retabled.refl s).respond _
  · next hv =>
    obtain ⟨hr, hm⟩ := not_refused hv
    split
    · exact (Retabled.refl s).respond _
    · next bytes =>
      split
      · exact (Retabled.refl s).respond _
      · next hl => exact mapChecked_retabled flags hr hm (Nat.le_of_not_lt hl) (cellsOk_region bytes 0)

theorem execAsmMapAnon_retabled (m : BitVec 64) (page : BitVec 20) (count : BitVec 32) (flags : BitVec 7)
    (s : State) : Ends (Retabled s) (execAsmMapAnon m page count flags s) := by
  unfold execAsmMapAnon
  split
  · exact (Retabled.refl s).respond _
  · next hv =>
    obtain ⟨hr, hm⟩ := not_refused hv
    exact mapChecked_retabled _ hr hm (Nat.le_refl _) (cellsOk_zeros _ 0)

theorem execAsmUnmap_retabled (m : BitVec 64) (page : BitVec 20) (count : BitVec 32) (force : Bool) (s : State) :
    Ends (Retabled s) (execAsmUnmap m page count force s) := by
  unfold execAsmUnmap
  split
  · exact (Retabled.refl s).respond _
  · split
    · exact (Retabled.refl s).respond _
    · exact ((forPages_retabled (fun _ _ => remove_retabled _ _ _) _ s).trans (bump_retabled _ _)).respond _

theorem execAsmSetProt_retabled (m : BitVec 64) (page : BitVec 20) (count : BitVec 32) (flags : BitVec 7) (s : State) :
    Ends (Retabled s) (execAsmSetProt m page count flags s) := by
  unfold execAsmSetProt
  split
  · exact (Retabled.refl s).respond _
  · split
    · exact (Retabled.refl s).respond _
    · exact ((forPages_retabled (fun _ _ => protectPage_retabled _ _ _ _) _ s).trans (bump_retabled _ _)).respond _

/-- Ranges that do not overlap share no page at the same distance. -/
theorem page_ne_of_not_overlap {page page2 count k : Nat} (h : rangesOverlap page page2 count = false) (hk : k < count) :
    page + k ≠ page2 + k := by
  simp only [rangesOverlap, decide_eq_false_iff_not] at h
  omega

theorem execAsmCow_retabled (m : BitVec 64) (page : BitVec 20) (count : BitVec 32) (m2 : BitVec 64) (page2 : BitVec 20)
    (s : State) : Ends (Retabled s) (execAsmCow m page count m2 page2 s) := by
  unfold execAsmCow
  split
  · exact (Retabled.refl s).respond _
  · next hv =>
    simp only [Bool.or_eq_true, not_or] at hv
    obtain ⟨⟨⟨-, hrange⟩, -⟩, hm2⟩ := hv
    split
    · exact (Retabled.refl s).respond _
    · next ho =>
      split
      · exact (drawOom_retabled s).respond _
      · refine ((drawOom_retabled s).trans (shareRange_retabled ?_ ?_ fun k hk hc => ?_)).respond _
        · rw [space_congr (State.drawOom_mems s)]
          simpa [Option.isSome_iff_ne_none] using hm2
        · exact ((rangeValid_iff _ _).1 (by simpa using hrange)).2
        · have hm : m = m2 := BitVec.eq_of_toNat_eq hc.1
          exact page_ne_of_not_overlap (by simpa [hm] using ho) hk hc.2

theorem translate_retabled (s : State) (m : Handle) {addr : Nat} (ha : addr < 2 ^ 32) (kind : Access) :
    Retabled s (s.translate m addr kind).2 :=
  ⟨translate_moved s m addr kind, fun h => (translate_tables h m ha kind).1⟩

theorem execAsmFindHole_retabled (m : BitVec 64) (n : BitVec 32) (s : State) :
    Ends (Retabled s) (execAsmFindHole m n s) := by
  unfold execAsmFindHole
  split
  · exact (Retabled.refl s).respond _
  · split <;> exact (Retabled.refl s).respond _

theorem execAsmTranslate_retabled (m : BitVec 64) (addr : BitVec 32) (kind : Access) (s : State) :
    Ends (Retabled s) (execAsmTranslate m addr kind s) := by
  have h := translate_retabled s m.toNat addr.isLt kind
  unfold execAsmTranslate
  split
  · next heq => rw [heq] at h; exact h.respond _
  · next heq => rw [heq] at h; exact h.respond _
  · trivial

end Sys2Proof.Machine
end

section
/-! SUPPORT. The invariant of the block as one structure, and that an access through a context's cache keeps it
(spec/10_state.md R35, R40–R47; spec/44_tlb.md R361–R369; log 13, log 15). -/

namespace Sys2Proof.Machine

/-! ### What a context holds -/

/-- From a host pointer for an address on, the rest of the page lies within a blob, live or deleted. -/
def State.holdsPage (s : State) (addr : Nat) (b : Handle) (o : Int) : Prop :=
  ∃ blob, s.hostBlob b = some blob ∧ 0 ≤ o ∧ o + (pageSize - addr % pageSize : Nat) ≤ blob.len

/-- A place names an address, and its host pointer, where it has one, is good. -/
def State.placeOk (s : State) (place : Place) : Prop :=
  place.addr < 2 ^ 32 ∧ ∀ b o, place.host = some (b, o) → s.holdsPage place.addr b o

/-- An access keeps within its operand: four bytes of displacement, or within the address space (R72, R439). -/
def Transfer.inBounds (x : Transfer) : Prop :=
  match x.job with
  | .disp _ _ _ _ left got => left + got.length = 4
  | _ => x.place.addr + x.left ≤ 2 ^ 32

/-- A context's FPU, cache and access are well-formed. -/
structure Context.Fits (s : State) (k : Context) : Prop where
  rising : keysRising k.tlb.slots = true
  status : k.fpu.statusOk = true
  slots : ∀ i slot, mapFind k.tlb.slots i = some slot → s.slotOk i slot = true
  transfer : ∀ x, k.transfer = some x → s.transferOk x = true

/-- The invariant of the block: good page tables, and contexts that fit. -/
structure Sound (s : State) : Prop where
  tables : Tables s
  rising : keysRising s.ctxs = true
  fits : ∀ n k, mapFind s.ctxs n = some k → k.Fits s

theorem transferOk_iff (s : State) (x : Transfer) :
    s.transferOk x = true ↔ (0 < x.left ∧ x.left < 2 ^ 32) ∧ s.placeOk x.place ∧ x.inBounds := by
  obtain ⟨⟨addr, host⟩, job⟩ := x
  have hplace : s.placeOk ⟨addr, host⟩ ↔ addr < 2 ^ 32 ∧ ∀ b o, host = some (b, o) → s.holdsPage addr b o := Iff.rfl
  rw [hplace]
  unfold State.transferOk Transfer.inBounds
  cases host with
  | none => cases job <;> simp <;> tauto
  | some bo =>
    obtain ⟨b, o⟩ := bo
    have hholds : s.holdsPage addr b o ↔
        ∃ blob, s.hostBlob b = some blob ∧ 0 ≤ o ∧ o + (pageSize - addr % pageSize : Nat) ≤ blob.len := Iff.rfl
    cases hb : s.hostBlob b <;> cases job <;> simp [hholds, hb] <;> tauto

theorem slotOk_iff (s : State) (i : Nat) (slot : Slot) :
    s.slotOk i slot = true ↔ i = tlbIndex s.params slot.page.toNat ∧ (slot.pageW = none ∨ slot.pageW = some slot.page) ∧
      s.holdsPage 0 slot.blob (slot.off + slot.page.toNat * pageSize) := by
  unfold State.slotOk State.holdsPage
  cases s.hostBlob slot.blob <;> simp [and_assoc]

theorem holdsPage_mono {s t : State} (h : keepsHost s t) {addr : Nat} {b : Handle} {o : Int} (hs : s.holdsPage addr b o) :
    t.holdsPage addr b o := by
  obtain ⟨blob, hb, h0, hl⟩ := hs
  obtain ⟨blob', hb', hlen⟩ := h b blob hb
  exact ⟨blob', hb', h0, hlen ▸ hl⟩

theorem Context.Fits.mono {s t : State} {k : Context} (h : k.Fits s) (hp : t.params = s.params) (hh : keepsHost s t) :
    k.Fits t where
  rising := h.rising
  status := h.status
  slots i slot hf := by
    obtain ⟨hi, hw, hb⟩ := (slotOk_iff s i slot).1 (h.slots i slot hf)
    exact (slotOk_iff t i slot).2 ⟨hp ▸ hi, hw, holdsPage_mono hh hb⟩
  transfer x hx := by
    obtain ⟨hl, ⟨ha, hb⟩, hj⟩ := (transferOk_iff s x).1 (h.transfer x hx)
    exact (transferOk_iff t x).2 ⟨hl, ⟨ha, fun b o ho => holdsPage_mono hh (hb b o ho)⟩, hj⟩

/-- A context in the reset state fits any state. -/
theorem Context.reset_fits (s : State) : Context.reset.Fits s :=
  ⟨rfl, by decide, nofun, nofun⟩

/-! ### The invariant's two halves -/

/-- A page-table entry is backed (R41). -/
theorem backed_iff (s : State) (e : Pte) :
    s.backed e = true ↔ ∃ blob, mapFind s.blobs e.blob = some blob ∧ e.offset + pageSize ≤ blob.len := by
  unfold State.backed
  cases mapFind s.blobs e.blob <;> simp

theorem Space.ok_iff (sp : Space) :
    sp.ok = true ↔ mapAll sp.pages (fun p _ => decide (p < numPages)) = true ∧ 1 ≤ sp.refcount ∧ sp.lock = .free := by
  simp [Space.ok, and_assoc]

theorem pte_eq_some {s : State} {m : Handle} {p : Nat} {e : Pte} (h : s.pte m p = some e) :
    ∃ sp, s.space m = some sp ∧ mapFind sp.pages p = some e :=
  Option.bind_eq_some_iff.1 h

theorem pte_of_space {s : State} {m : Handle} {p : Nat} {sp : Space} (hs : s.space m = some sp) :
    s.pte m p = mapFind sp.pages p := by
  simp [State.pte, hs]

/-- What the invariant says of the stores. -/
def State.storesOk (s : State) : Prop :=
  (keysRising s.mems = true ∧ keysRising s.blobs = true ∧ keysRising s.graves = true ∧
    mapAll s.mems (fun _ sp => keysRising sp.pages) = true) ∧ s.memoryOk = true ∧ s.pagesOk = true ∧ s.gravesOk = true

/-- What it says of the contexts. -/
def State.contextsOk (s : State) : Prop :=
  keysRising s.ctxs = true ∧ mapAll s.ctxs (fun _ k => keysRising k.tlb.slots) = true ∧ s.fpuOk = true ∧
    s.slotsOk = true ∧ s.transfersOk = true

theorem inv_iff_parts (s : State) : s.Inv ↔ s.storesOk ∧ s.contextsOk := by
  simp only [State.Inv, State.mapsOk, State.storesOk, State.contextsOk, Bool.and_eq_true]
  tauto

theorem hostBlob_of_live {s : State} {b : Handle} {blob : Blob} (h : mapFind s.blobs b = some blob) :
    s.hostBlob b = some blob := by
  simp [State.hostBlob, h]

theorem hostBlob_of_dead {s : State} {b : Handle} (h : mapFind s.blobs b = none) : s.hostBlob b = mapFind s.graves b := by
  simp [State.hostBlob, h]

theorem Tables.of_storesOk {s : State} (h : s.storesOk) : Tables s := by
  obtain ⟨⟨hm, hb, hg, hp⟩, hcells, hpages, hgr⟩ := h
  obtain ⟨hsp, hbl⟩ := Bool.and_eq_true_iff.1 hpages
  have space : ∀ m sp, s.space m = some sp → sp.ok = true ∧ mapAll sp.pages (fun _ e => s.backed e) = true :=
    fun m sp hs => Bool.and_eq_true_iff.1 ((mapAll_iff hm _).1 hsp m sp hs)
  have blob : ∀ b x, mapFind s.blobs b = some x → x.refcount = s.pteCount b ∧ 1 ≤ x.refcount := fun b x hx => by
    simpa using (mapAll_iff hb _).1 hbl b x hx
  obtain ⟨hlive, hdead⟩ := (memoryOk_iff s).1 hcells
  refine ⟨⟨hm, hb, hg, (mapAll_iff hm _).1 hp, ?bound, fun b x hx => (blob b x hx).1, ?backed, ?apart, ?cells⟩,
    fun m sp hs => ((Space.ok_iff sp).1 (space m sp hs).1).2, fun b x _ hx => (blob b x hx).2⟩
  case bound =>
    intro m p e he
    obtain ⟨sp, hs, hf⟩ := pte_eq_some he
    simpa using mapAll_find ((Space.ok_iff sp).1 (space m sp hs).1).1 hf
  case backed =>
    intro m p e he
    obtain ⟨sp, hs, hf⟩ := pte_eq_some he
    exact (backed_iff s e).1 (mapAll_find (p := fun _ e => s.backed e) (space m sp hs).2 hf)
  case apart =>
    intro b
    cases hx : mapFind s.graves b with
    | none => exact .inl rfl
    | some x => exact .inr (by simpa using (mapAll_iff hg _).1 hgr b x hx)
  case cells =>
    intro b x hx
    cases hf : mapFind s.blobs b with
    | none => exact mapAll_find (p := fun _ x => x.cellsOk) hdead (hostBlob_of_dead hf ▸ hx)
    | some y =>
      rw [hostBlob_of_live hf] at hx
      exact mapAll_find (p := fun _ x => x.cellsOk) hlive (hf.trans hx)

theorem TablesBut.storesOk {s : State} (h : Tables s) : s.storesOk := by
  have hc := h.counted
  refine ⟨⟨hc.mems, hc.blobs, hc.graves, (mapAll_iff hc.mems _).2 hc.pages⟩, (memoryOk_iff s).2 ⟨?live, ?dead⟩,
    Bool.and_eq_true_iff.2 ⟨?spaces, ?blobs⟩, (mapAll_iff hc.graves _).2 fun b x hx => ?apart⟩
  case live => exact (mapAll_iff hc.blobs _).2 fun b x hx => hc.cells b x (hostBlob_of_live hx)
  case dead =>
    refine (mapAll_iff hc.graves _).2 fun b x hx => hc.cells b x ?_
    rcases hc.apart b with hn | hn
    · rw [hn] at hx; cases hx
    · rw [hostBlob_of_dead hn, hx]
  case spaces =>
    refine (mapAll_iff hc.mems _).2 fun m sp hs => Bool.and_eq_true_iff.2 ⟨(Space.ok_iff sp).2 ⟨?_, h.owned m sp hs⟩, ?_⟩
    · refine (mapAll_iff (hc.pages m sp hs) _).2 fun p e he => ?_
      simpa using hc.bound m p e ((pte_of_space hs).trans he)
    · exact (mapAll_iff (hc.pages m sp hs) _).2 fun p e he =>
        (backed_iff s e).2 (hc.backed m p e ((pte_of_space hs).trans he))
  case blobs =>
    exact (mapAll_iff hc.blobs _).2 fun b x hx => by simpa using ⟨hc.count b x hx, h.named b x (by simp) hx⟩
  case apart =>
    rcases hc.apart b with hn | hn
    · rw [hn] at hx; cases hx
    · simp [hn]

theorem contextsOk_iff (s : State) :
    s.contextsOk ↔ keysRising s.ctxs = true ∧ ∀ n k, mapFind s.ctxs n = some k → k.Fits s := by
  unfold State.contextsOk State.fpuOk State.slotsOk State.transfersOk
  refine and_congr_right fun hr => ?_
  simp only [mapAll_iff hr]
  constructor
  · rintro ⟨hs, hf, hl, ht⟩ n k hk
    exact ⟨hs n k hk, hf n k hk, (mapAll_iff (hs n k hk) _).1 (hl n k hk), fun x hx => by simpa [hx] using ht n k hk⟩
  · refine fun h => ⟨fun n k hk => (h n k hk).rising, fun n k hk => (h n k hk).status,
      fun n k hk => (mapAll_iff (h n k hk).rising _).2 (h n k hk).slots, fun n k hk => ?_⟩
    cases hx : k.transfer with
    | none => rfl
    | some x => exact (h n k hk).transfer x hx

theorem inv_iff_sound (s : State) : s.Inv ↔ Sound s := by
  rw [inv_iff_parts, contextsOk_iff]
  exact ⟨fun ⟨hs, hr, hf⟩ => ⟨.of_storesOk hs, hr, hf⟩, fun h => ⟨h.tables.storesOk, h.rising, h.fits⟩⟩

/-! ### The invariant through the updates of a context and of the stores -/

/-- The context of any name fits, named or not. -/
theorem Sound.ctx {s : State} (h : Sound s) (c : BitVec 32) : (s.ctx c).Fits s := by
  unfold State.ctx
  cases hk : mapFind s.ctxs c.toNat with
  | none => exact Context.reset_fits s
  | some k => exact h.fits _ k hk

/-- A change of the stores that keeps their half of the invariant. -/
theorem Sound.moved {s t : State} (h : Sound s) (hm : Moved s t) (ht : Tables t) : Sound t where
  tables := ht
  rising := hm.rest.2.1 ▸ h.rising
  fits n k hk := (h.fits n k (by rwa [hm.rest.2.1] at hk)).mono hm.rest.1 hm.host

theorem Sound.retabled {s t : State} (h : Sound s) (hm : Retabled s t) : Sound t := h.moved hm.toMoved (hm.tables h.tables)

theorem Sound.setCtx {s : State} (h : Sound s) (c : BitVec 32) {k : Context} (hk : k.Fits s) : Sound (s.setCtx c k) where
  tables := h.tables.of_eq rfl rfl rfl
  rising := keysRising_put h.rising _ _
  fits n k' hk' := by
    have hf : k'.Fits s := by
      rw [State.setCtx_ctxs, mapFind_put] at hk'
      split at hk'
      · cases hk'; exact hk
      · exact h.fits n k' hk'
    exact hf.mono rfl (keepsHost_of_eq rfl rfl)

theorem Sound.respond {s : State} (h : Sound s) (r : Response) : Sound (s.respond r) :=
  h.retabled ((Retabled.refl s).respond r)

/-- Replacing a context's cache. -/
theorem Sound.setTlb {s : State} (h : Sound s) (c : BitVec 32) {v : Tlb} (hr : keysRising v.slots = true)
    (hs : ∀ i slot, mapFind v.slots i = some slot → s.slotOk i slot = true) : Sound (s.setTlb c v) :=
  h.setCtx c ⟨hr, (h.ctx c).status, hs, (h.ctx c).transfer⟩

theorem Sound.setTransfer {s : State} (h : Sound s) (c : BitVec 32) {x : Option Transfer}
    (hx : ∀ y, x = some y → s.transferOk y = true) : Sound (s.setTransfer c x) :=
  h.setCtx c ⟨(h.ctx c).rising, (h.ctx c).status, (h.ctx c).slots, hx⟩

theorem Sound.setCpu {s : State} (h : Sound s) (c : BitVec 32) (u : Cpu) : Sound (s.setCpu c u) :=
  h.setCtx c ⟨(h.ctx c).rising, (h.ctx c).status, (h.ctx c).slots, (h.ctx c).transfer⟩

theorem Sound.emptyTlb {s : State} (h : Sound s) (c : BitVec 32) (gen : Nat) : Sound (s.emptyTlb c gen) :=
  h.setTlb c keysRising_nil nofun

theorem Sound.genTest {s : State} (h : Sound s) (c : BitVec 32) : Sound (s.genTest c) := by
  unfold State.genTest State.revalidate
  split
  · split
    · exact h
    · split
      · exact h
      · exact h.emptyTlb c _
  · exact h

/-! ### Reaching an address (R361–R365) -/

/-- A pointer to the page's start gives one to every address of the page. -/
theorem holdsPage_of_start {s : State} {b : Handle} {o : Int} {addr : Nat}
    (h : s.holdsPage 0 b (o + pageOf addr * pageSize)) : s.holdsPage addr b (o + addr) := by
  obtain ⟨blob, hb, h0, hl⟩ := h
  refine ⟨blob, hb, ?_, ?_⟩ <;> unfold pageOf pageSize at * <;> omega

/-- A hit serves the page's bytes (R361, R364). -/
theorem lookup_holdsPage {s : State} (h : Sound s) {c : BitVec 32} {addr : Nat} (ha : addr < 2 ^ 32) {kind : Access}
    {slot : Slot} (hl : s.lookup c (pageOf addr) kind = some slot) : s.holdsPage addr slot.blob (slot.off + addr) := by
  obtain ⟨slot', hf, hhit⟩ := Option.bind_eq_some_iff.1 hl
  split at hhit <;> cases hhit
  next hk =>
    obtain ⟨-, hw, hb⟩ := (slotOk_iff s _ slot).1 ((h.ctx c).slots _ slot hf)
    have hpage : slot.page = BitVec.ofNat 20 (pageOf addr) := by
      cases kind with
      | read => simpa [Slot.hits] using hk
      | write =>
        have hk' : slot.pageW = some (BitVec.ofNat 20 (pageOf addr)) := by simpa [Slot.hits] using hk
        rcases hw with hw | hw <;> rw [hw] at hk'
        · cases hk'
        · exact Option.some.inj hk'
    have hlt : pageOf addr < 2 ^ 20 := pageOf_lt ha
    rw [hpage, BitVec.toNat_ofNat, Nat.mod_eq_of_lt hlt] at hb
    exact holdsPage_of_start hb

/-- The pointer that a translation answers serves the page's bytes (R335, R365). -/
theorem answersEntry_holdsPage {t : State} (h : Tables t) {m : Handle} {addr : Nat} {b : Handle} {o : Nat} {f : BitVec 7}
    (ha : t.answersEntry m addr (.ok b o f)) : t.holdsPage 0 b ((o : Int) - addr + pageOf addr * pageSize) := by
  obtain ⟨e, he, hp⟩ := ha b o f rfl
  obtain ⟨blob, hf, hl⟩ := h.counted.backed m _ e he
  cases hp
  refine ⟨blob, hostBlob_of_live hf, ?_, ?_⟩ <;> unfold pageOf pageSize at * <;> omega

/-- Filling a slot with the page's pointer keeps the invariant (R365). -/
theorem Sound.fill {s : State} (h : Sound s) (c : BitVec 32) {addr : Nat} (ha : addr < 2 ^ 32) {b : Handle} {o : Nat}
    (f : BitVec 7) (hb : s.holdsPage 0 b ((o : Int) - addr + pageOf addr * pageSize)) :
    Sound (s.fill c (pageOf addr) (filledSlot (pageOf addr) addr b o f)) := by
  have hlt : pageOf addr < 2 ^ 20 := pageOf_lt ha
  have hpage : (BitVec.ofNat 20 (pageOf addr)).toNat = pageOf addr := by
    rw [BitVec.toNat_ofNat, Nat.mod_eq_of_lt hlt]
  refine h.setTlb c (keysRising_put (h.ctx c).rising _ _) fun i slot hf => ?_
  rw [mapFind_put] at hf
  split at hf
  · next hi =>
    cases hf
    refine (slotOk_iff s i _).2 ⟨by rw [hi]; simp only [filledSlot, hpage], ?_, ?_⟩
    · unfold filledSlot
      split <;> simp
    · simpa only [filledSlot, hpage] using hb
  · exact (h.ctx c).slots i slot hf

/-- Reaching an address keeps the invariant, and its pointer serves the rest of the page. -/
theorem reach_sound {s : State} (h : Sound s) (c : BitVec 32) {addr : Nat} (ha : addr < 2 ^ 32) (kind : Access) :
    Sound (s.reach c addr kind).2 ∧
      ∀ b o, (s.reach c addr kind).1 = .pointer b o → (s.reach c addr kind).2.holdsPage addr b o := by
  have hg := h.genTest c
  unfold State.reach
  simp only
  split
  · next slot hl =>
    refine ⟨hg, fun b o hp => ?_⟩
    cases hp
    exact lookup_holdsPage hg ha hl
  · split
    · exact ⟨hg, nofun⟩
    · next m hm =>
      have ht := hg.retabled (translate_retabled (s.genTest c) m ha kind)
      have hp := (translate_tables hg.tables m ha kind).2
      split
      · next b o f u heq =>
        rw [heq] at ht hp
        have hb := answersEntry_holdsPage ht.tables hp
        refine ⟨ht.fill c ha f hb, fun b' o' hp' => ?_⟩
        cases hp'
        have hs := holdsPage_of_start hb
        rwa [Int.sub_add_cancel] at hs
      · next heq => rw [heq] at ht; exact ⟨ht, nofun⟩
      · next heq => rw [heq] at ht; exact ⟨ht, nofun⟩

/-! ### Accesses -/

/-- How an access ends, with its value: served, it meets `Q`; faulting, its state meets `P`. -/
def Served.Meets {α : Type} (P : State → Prop) (Q : α → State → Prop) : Served α → Prop
  | .done v t => Q v t
  | .fault _ t => P t
  | .noSuchByte => True

theorem Served.Meets.andThen {α β : Type} {P : State → Prop} {Q : α → State → Prop} {R : β → State → Prop} {x : Served α}
    {f : α → State → Served β} (h : x.Meets P Q) (hf : ∀ v t, Q v t → (f v t).Meets P R) : (x.andThen f).Meets P R := by
  cases x with
  | done v t => exact hf v t h
  | fault a t => exact h
  | noSuchByte => trivial

theorem Served.Meets.mono {α : Type} {P : State → Prop} {Q R : α → State → Prop} {x : Served α} (h : x.Meets P Q)
    (hqr : ∀ v t, Q v t → R v t) : x.Meets P R := by
  cases x with
  | done v t => exact hqr v t h
  | fault a t => exact h
  | noSuchByte => trivial

/-- The place after a byte is good (R366): the page's next byte, or the start of another page. -/
theorem placeAfter_ok {s : State} {addr : Nat} {b : Handle} {o : Int} (h : s.holdsPage addr b o) :
    s.placeOk (placeAfter addr b o) := by
  refine ⟨Nat.mod_lt _ (by decide), fun b' o' hp => ?_⟩
  unfold placeAfter at hp ⊢
  simp only at hp ⊢
  split at hp
  · cases hp
  · next hne =>
    cases hp
    obtain ⟨blob, hb, h0, hl⟩ := h
    refine ⟨blob, hb, by omega, ?_⟩
    unfold pageSize at *
    omega

/-- The pointer of an access's next byte. -/
theorem locate_sound {s : State} (h : Sound s) (c : BitVec 32) {place : Place} (hp : s.placeOk place) (kind : Access) :
    Sound (s.locate c place kind).2 ∧
      ∀ b o, (s.locate c place kind).1 = .pointer b o → (s.locate c place kind).2.holdsPage place.addr b o := by
  unfold State.locate
  split
  · next b o hb =>
    refine ⟨h, fun b' o' he => ?_⟩
    cases he
    exact hp.2 b o hb
  · exact reach_sound h c hp.1 kind

/-- What moving `n` bytes leaves: the invariant, and a good place `n` bytes on. -/
def movedOn (place : Place) (n : Nat) (next : Place) (t : State) : Prop :=
  Sound t ∧ t.placeOk next ∧ next.addr = (place.addr + n) % 2 ^ 32

theorem movedOn_zero {s : State} (h : Sound s) {place : Place} (hp : s.placeOk place) : movedOn place 0 place s :=
  ⟨h, hp, (Nat.mod_eq_of_lt hp.1).symm⟩

theorem movedOn_succ {place next last : Place} {n : Nat} {t u : State} (h : movedOn place 1 next t)
    (g : movedOn next n last u) : movedOn place (n + 1) last u := by
  obtain ⟨-, -, ha⟩ := h
  obtain ⟨hs, hp, hb⟩ := g
  exact ⟨hs, hp, by omega⟩

theorem readOne_sound {s : State} (h : Sound s) (c : BitVec 32) {place : Place} (hp : s.placeOk place) :
    (s.readOne c place).Meets Sound fun r t => movedOn place 1 r.2 t := by
  have hl := locate_sound h c hp .read
  unfold State.readOne
  split
  · next heq =>
    rw [heq] at hl
    split
    · exact ⟨hl.1, placeAfter_ok (hl.2 _ _ rfl), rfl⟩
    · trivial
  · next heq => rw [heq] at hl; exact hl.1
  · trivial

theorem readRun_sound {s : State} (h : Sound s) (c : BitVec 32) (n : Nat) {place : Place} (hp : s.placeOk place) :
    (s.readRun c n place).Meets Sound fun r t => movedOn place n r.2 t ∧ r.1.length = n := by
  induction n generalizing s place with
  | zero => exact ⟨movedOn_zero h hp, rfl⟩
  | succ n ih =>
    refine (readOne_sound h c hp).andThen fun one t ht => (ih ht.1 ht.2.1).andThen fun more u hu => ?_
    exact ⟨movedOn_succ ht hu.1, by simp [hu.2]⟩

/-- New contents of a live blob, canonical and within its length, keep the page tables good. -/
theorem TablesBut.setCells {s : State} (h : Tables s) {b : Handle} {live : Blob} (hb : mapFind s.blobs b = some live)
    {cells : Memory} (hc : ({ live with cells := cells } : Blob).cellsOk = true) :
    Tables { s with blobs := mapPut s.blobs b { live with cells := cells } } := by
  have find : ∀ y blob, mapFind (mapPut s.blobs b { live with cells := cells }) y = some blob →
      ∃ old, mapFind s.blobs y = some old ∧ blob.refcount = old.refcount := fun y blob hy => by
    rw [mapFind_put] at hy
    split at hy
    · next he => cases hy; exact ⟨live, he ▸ hb, rfl⟩
    · exact ⟨blob, hy, rfl⟩
  have count := h.counted
  refine ⟨⟨count.mems, keysRising_put count.blobs _ _, count.graves, count.pages, count.bound, ?count, ?backed, ?apart,
    ?cells⟩, h.owned, ?named⟩
  case count =>
    intro y blob hy
    obtain ⟨old, ho, hr⟩ := find y blob hy
    exact hr.trans (count.count y old ho)
  case backed =>
    intro m p e he
    obtain ⟨old, ho, hl⟩ := count.backed m p e he
    simp only [mapFind_put]
    split
    · next hy =>
      rw [hy, hb] at ho
      cases ho
      exact ⟨_, rfl, hl⟩
    · exact ⟨old, ho, hl⟩
  case apart =>
    intro y
    refine (count.apart y).imp_right fun hn => ?_
    rw [mapFind_put, if_neg, hn]
    rintro rfl
    rw [hb] at hn
    cases hn
  case cells =>
    intro y blob hy
    unfold State.hostBlob at hy
    simp only [mapFind_put] at hy
    split at hy
    · next x hx =>
      cases hy
      split at hx
      · cases hx; exact hc
      · exact count.cells y blob (hostBlob_of_live hx)
    · next hx =>
      split at hx
      · cases hx
      · exact count.cells y blob ((hostBlob_of_dead hx).trans hy)
  case named =>
    intro y blob hx hy
    obtain ⟨old, ho, hr⟩ := find y blob hy
    exact hr ▸ h.named y old hx ho

/-- What a store through a host pointer does: new contents of a live blob, or nothing for a deleted one (log 13). -/
theorem storeHost_cases {s t : State} {b : Handle} {off : Int} {v : Byte} (h : s.storeHost b off v = some t) :
    t = s ∨ ∃ live, mapFind s.blobs b = some live ∧ off.toNat < live.len ∧
      t = { s with blobs := mapPut s.blobs b { live with cells := Memory.write live.cells off.toNat v } } := by
  unfold State.storeHost at h
  split at h
  · cases h
  · next blob hh =>
    split at h
    · next hoff =>
      split at h
      · next live hf =>
        cases h
        rw [hostBlob_of_live hf] at hh
        cases hh
        exact .inr ⟨blob, hf, hoff.2, rfl⟩
      · cases h; exact .inl rfl
    · cases h

theorem storeHost_tables {s t : State} (h : Tables s) {b : Handle} {off : Int} {v : Byte}
    (hs : s.storeHost b off v = some t) : Tables t := by
  obtain rfl | ⟨live, hb, hoff, rfl⟩ := storeHost_cases hs
  · exact h
  · obtain ⟨hw, hl⟩ := (Blob.cellsOk_iff live).1 (h.counted.cells b live (hostBlob_of_live hb))
    exact h.setCells hb ((Blob.cellsOk_iff _).2 ⟨Memory.write_wf hw _ v, Memory.write_bound hl v hoff⟩)

theorem writeOne_sound {s : State} (h : Sound s) (c : BitVec 32) {place : Place} (hp : s.placeOk place) (v : Byte) :
    (s.writeOne c place v).Meets Sound fun next t => movedOn place 1 next t := by
  have hl := locate_sound h c hp .write
  unfold State.writeOne
  split
  · next b o t heq =>
    rw [heq] at hl
    split
    · next u hw =>
      have hm := storeHost_moved hw
      refine ⟨hl.1.moved hm (storeHost_tables hl.1.tables hw), placeAfter_ok ?_, rfl⟩
      exact holdsPage_mono hm.host (hl.2 _ _ rfl)
    · trivial
  · next heq => rw [heq] at hl; exact hl.1
  · trivial

theorem writeRun_sound {s : State} (h : Sound s) (c : BitVec 32) (data : List Byte) {place : Place} (hp : s.placeOk place) :
    (s.writeRun c data place).Meets Sound fun next t => movedOn place data.length next t := by
  induction data generalizing s place with
  | nil => exact movedOn_zero h hp
  | cons v rest ih =>
    refine (writeOne_sound h c hp v).andThen fun next t ht => ?_
    exact (ih ht.1 ht.2.1).mono fun last u hu => movedOn_succ ht hu

/-- An access that may be begun or gone on with. -/
structure Transfer.Ready (s : State) (x : Transfer) : Prop where
  place : s.placeOk x.place
  bounds : x.inBounds
  short : x.left ≤ 2 ^ 32

/-- What doing some bytes of an access leaves: the invariant and an access that may be gone on with. -/
def stillReady (y : Transfer) (t : State) : Prop := Sound t ∧ y.Ready t

/-- Moving some of the bytes left keeps an access ready. -/
theorem move_sound {s : State} (h : Sound s) (c : BitVec 32) {k : Nat} {x : Transfer} (hx : x.Ready s) (hk : k ≤ x.left) :
    (s.move c k x).Meets Sound stillReady := by
  obtain ⟨⟨addr, host⟩, job⟩ := x
  obtain ⟨hp, hb, hs⟩ := hx
  cases job with
  | read left got =>
    refine (readRun_sound h c k hp).andThen fun r t ⟨⟨ht, hpt, ha⟩, hl⟩ => ⟨ht, hpt, ?_, ?_⟩ <;>
      simp only [Transfer.inBounds, Transfer.left] at * <;> omega
  | write rest =>
    refine (writeRun_sound h c (rest.take k) hp).andThen fun next t ⟨ht, hpt, ha⟩ => ⟨ht, hpt, ?_, ?_⟩ <;>
      simp only [Transfer.inBounds, Transfer.left, List.length_take, List.length_drop] at * <;> omega
  | disp base index shift reg left got =>
    refine (readRun_sound h c k hp).andThen fun r t ⟨⟨ht, hpt, ha⟩, hl⟩ => ⟨ht, hpt, ?_, ?_⟩ <;>
      simp only [Transfer.inBounds, Transfer.left, List.length_append] at * <;> omega

theorem Sound.slice {s : State} (h : Sound s) (n : Nat) : Sound (s.slice n).2 :=
  h.retabled (.of_eq ⟨by simp, by simp, by simp⟩ (by simp) (by simp) (by simp))

theorem Sound.pageFault {s : State} (h : Sound s) (c : BitVec 32) (addr : Nat) : Sound (s.pageFault c addr) :=
  (h.setCpu c _).respond _

theorem Sound.park {s : State} (h : Sound s) (c : BitVec 32) {x : Transfer} (hx : s.transferOk x = true) :
    Sound (s.park c x) :=
  (h.setTransfer c (x := some x) fun y hy => by cases hy; exact hx).retabled (.of_eq ⟨rfl, rfl, rfl⟩ rfl rfl rfl)

theorem slice_ready {s : State} {x : Transfer} (h : x.Ready s) (n : Nat) : x.Ready (s.slice n).2 := by
  have hh : keepsHost s (s.slice n).2 := keepsHost_of_eq (by simp) (by simp)
  exact ⟨⟨h.place.1, fun b o hb => holdsPage_mono hh (h.place.2 b o hb)⟩, h.bounds, h.short⟩

/-- An access that is ready keeps the invariant, however it goes on. -/
theorem advance_sound {s : State} (h : Sound s) (c : BitVec 32) {x : Transfer} (hx : x.Ready s) :
    Ends Sound (s.advance c x) := by
  have hm := move_sound (h.slice x.left) c (slice_ready hx x.left) (s.slice_le x.left)
  unfold State.advance
  split
  · next y t heq =>
    rw [heq] at hm
    obtain ⟨ht, hy⟩ := hm
    split
    · exact ht.respond _
    · next hleft =>
      have hl := move_left c _ heq
      have hpos := s.slice_pos (n := x.left) (by omega)
      have hshort := hx.short
      exact ht.park c ((transferOk_iff t y).2 ⟨by omega, hy.place, hy.bounds⟩)
  · next heq => rw [heq] at hm; exact hm.pageFault c _
  · trivial

theorem resume_sound {s : State} (h : Sound s) (c : BitVec 32) : Ends Sound (s.resume c) := by
  unfold State.resume
  split
  · exact h
  · next x hx =>
    obtain ⟨hl, hp, hb⟩ := (transferOk_iff s x).1 ((h.ctx c).transfer x hx)
    exact advance_sound (h.setTransfer c (x := none) nofun) c ⟨hp, hb, hl.2.le⟩

/-! ### The commands that read and write bytes (R362, R363, R431) -/

/-- An access begins with no host pointer. -/
theorem placeOk_start (s : State) (addr : BitVec 32) : s.placeOk { addr := addr.toNat, host := none } :=
  ⟨addr.isLt, nofun⟩

theorem not_pastTop {o : Option (Handle × Space)} {addr n : Nat} (h : ¬(o.isNone || pastTop addr n) = true) :
    addr + n ≤ 2 ^ 32 := by
  simp only [pastTop, Bool.or_eq_true, decide_eq_true_eq, not_or] at h
  exact Nat.le_of_not_lt h.2

theorem execTlbRead_sound {s : State} (h : Sound s) (c addr n : BitVec 32) : Ends Sound (execTlbRead c addr n s) := by
  unfold execTlbRead
  split
  · exact h.respond _
  · next hn => exact advance_sound h c ⟨placeOk_start s addr, not_pastTop hn, n.isLt.le⟩

theorem execTlbWrite_sound {s : State} (h : Sound s) (c addr : BitVec 32) (data : List Byte) :
    Ends Sound (execTlbWrite c addr data s) := by
  unfold execTlbWrite
  split
  · exact h.respond _
  · next hn =>
    have hb := not_pastTop hn
    exact advance_sound h c ⟨placeOk_start s addr, hb, (Nat.le_add_left _ _).trans hb⟩

theorem fetch8_sound {s : State} (h : Sound s) (c a : BitVec 32) : (s.fetch8 c a).Meets Sound fun _ t => Sound t :=
  (readOne_sound h c (placeOk_start s a)).andThen fun _ _ ht => ht.1

/-- What the decoder has left to fetch may be begun. -/
def fetchReady (d : Decoded) (t : State) : Prop := Sound t ∧ ∀ x, d = .fetching x → x.Ready t

theorem whole_fetchReady {t : State} (h : Sound t) (r : Results) : fetchReady (.whole r) t := ⟨h, nofun⟩

theorem fetch32_ready (s : State) (base index : BitVec 4) (shift : BitVec 2) (reg : BitVec 3) (a : BitVec 32) :
    (fetch32 base index shift reg a).Ready s :=
  ⟨placeOk_start s a, rfl, show 4 ≤ 2 ^ 32 by decide⟩

theorem decodeMem_sound {s : State} (h : Sound s) (c a : BitVec 32) (mod : BitVec 2) (reg : BitVec 3) (adr : Addressing) :
    (s.decodeMem c a mod reg adr).Meets Sound fetchReady := by
  unfold State.decodeMem
  split
  · exact (fetch8_sound h c a).andThen fun _ _ ht => whole_fetchReady ht _
  · split
    · refine ⟨h, fun x hx => ?_⟩
      cases hx
      exact fetch32_ready s _ _ _ _ _
    · exact whole_fetchReady h _

theorem decodeModRm_sound {s : State} (h : Sound s) (c cursor : BitVec 32) :
    (s.decodeModRm c cursor).Meets Sound fetchReady := by
  refine (fetch8_sound h c cursor).andThen fun b t ht => ?_
  split
  · exact whole_fetchReady ht _
  · split
    · exact (fetch8_sound ht c _).andThen fun sib u hu => decodeMem_sound hu c _ _ _ _
    · exact decodeMem_sound ht c _ _ _ _

theorem execDecModRm_sound {s : State} (h : Sound s) (c cursor : BitVec 32) : Ends Sound (execDecModRm c cursor s) := by
  have hd := decodeModRm_sound h c cursor
  unfold execDecModRm
  split
  · exact h.respond _
  · split <;> rename_i heq
    · rw [heq] at hd; exact hd.1.respond _
    · rw [heq] at hd; exact advance_sound hd.1 c (hd.2 _ rfl)
    · rw [heq] at hd; exact Sound.pageFault hd c _
    · trivial

end Sys2Proof.Machine
end

section
/-! SUPPORT. What an FPU operation keeps of the status and control words (spec/10_state.md R35, R36; spec/42_fpu_stack.md
R261–R263): the flags and the stack-fault bit it found set, a consistent status word, and the control word. -/

namespace Sys2Proof.Machine

theorem Fpu.statusOk_iff (f : Fpu) :
    f.statusOk = true ↔ f.sw.getLsbD 15 = false ∧ f.sw.getLsbD 7 = f.anyUnmasked f.excFlags := by
  simp [Fpu.statusOk]

theorem Fpu.anyUnmasked_congr {f g : Fpu} (h : g.cw = f.cw) (fl : Flags6) : g.anyUnmasked fl = f.anyUnmasked fl := by
  simp [Fpu.anyUnmasked, Fpu.masks, h]

/-- `g` comes of `f` by an operation other than the loads of a control word and `FPU.INIT`. -/
structure Fpu.Proceeds (f g : Fpu) : Prop where
  control : g.cw = f.cw
  sticky : ∀ k, k ≤ 6 → f.sw.getLsbD k = true → g.sw.getLsbD k = true
  status : f.statusOk = true → g.statusOk = true

theorem Fpu.Proceeds.refl (f : Fpu) : f.Proceeds f := ⟨rfl, fun _ _ h => h, id⟩

theorem Fpu.Proceeds.trans {f g h : Fpu} (a : f.Proceeds g) (b : g.Proceeds h) : f.Proceeds h :=
  ⟨b.control.trans a.control, fun k hk hf => b.sticky k hk (a.sticky k hk hf), b.status ∘ a.status⟩

/-- A write of bits of the status word other than the exception flags, `ES` and bit 15, which clears no stack-fault bit. -/
theorem Fpu.Proceeds.of_bits {f g : Fpu} (hc : g.cw = f.cw) (h6 : f.sw.getLsbD 6 = true → g.sw.getLsbD 6 = true)
    (h : ∀ k, k < 6 ∨ k = 7 ∨ k = 15 → g.sw.getLsbD k = f.sw.getLsbD k) : f.Proceeds g := by
  refine ⟨hc, fun k hk hf => ?_, fun hs => ?_⟩
  · by_cases hk6 : k = 6
    · subst hk6; exact h6 hf
    · rwa [h k (.inl (by omega))]
  · have he : g.excFlags = f.excFlags := (excFlags_eq_iff f g).2 fun k hk => h k (.inl hk)
    rw [Fpu.statusOk_iff] at hs ⊢
    rwa [h 15 (by simp), h 7 (by simp), he, Fpu.anyUnmasked_congr hc]

theorem Fpu.Proceeds.of_sw {f g : Fpu} (hc : g.cw = f.cw) (hs : g.sw = f.sw) : f.Proceeds g :=
  .of_bits hc (by rw [hs]; exact id) fun _ _ => by rw [hs]

theorem Fpu.setSt_proceeds (f : Fpu) (i : BitVec 3) (v : F80) (valid : Bool) : f.Proceeds (f.setSt i v valid) :=
  .of_sw rfl rfl

theorem Fpu.free_proceeds (f : Fpu) (i : BitVec 3) : f.Proceeds (f.free i) := .of_sw rfl rfl

theorem Fpu.setTop_proceeds (f : Fpu) (t : BitVec 3) : f.Proceeds (f.setTop t) :=
  .of_bits rfl (by rw [Fpu.setTop_sw f t 6 (by omega)]; simp) fun k hk => by
    rw [Fpu.setTop_sw f t k (by omega), if_neg (by omega)]

theorem Fpu.stackFault_proceeds (f : Fpu) (v : Bool) : f.Proceeds (f.stackFault v) :=
  .of_bits rfl (by rw [Fpu.stackFault_sw f v 6 (by omega)]; simp) fun k hk => by
    rw [Fpu.stackFault_sw f v k (by omega), if_neg (by omega), if_neg (by omega)]

theorem Fpu.setCodes_proceeds (f : Fpu) (c : Order) : f.Proceeds (f.setCodes c) :=
  .of_bits rfl (by rw [Fpu.setCodes_sw f c 6 (by omega)]; simp) fun k hk => by
    rw [Fpu.setCodes_sw f c k (by omega), if_neg (by omega), if_neg (by omega), if_neg (by omega), if_neg (by omega)]

/-- Recomputing the summary makes a status word with bit 15 at 0 consistent. -/
theorem Fpu.withSummary_statusOk {f : Fpu} (h : f.sw.getLsbD 15 = false) : f.withSummary.statusOk = true := by
  have he : f.withSummary.excFlags = f.excFlags :=
    (excFlags_eq_iff f _).2 fun k hk => by rw [Fpu.withSummary_sw f k (by omega), if_neg (by omega)]
  rw [Fpu.statusOk_iff, Fpu.withSummary_sw f 15 (by omega), Fpu.withSummary_sw f 7 (by omega), he]
  exact ⟨h, rfl⟩

theorem Fpu.addFlags_proceeds (f : Fpu) (fl : Flags6) : f.Proceeds (f.addFlags fl) := by
  refine ⟨rfl, fun k hk hf => ?_, fun hs => Fpu.withSummary_statusOk ?_⟩
  · rw [Fpu.addFlags_sw f fl k (by omega), if_neg (by omega), hf, Bool.true_or]
  · rw [← ((Fpu.statusOk_iff f).1 hs).1]
    simp

theorem Fpu.finish_proceeds {f : Fpu} (fl : Flags6) {w : Fpu → Fpu} (hw : ∀ g : Fpu, g.Proceeds (w g)) :
    f.Proceeds (f.finish fl w).1 := by
  unfold Fpu.finish
  split
  · exact f.addFlags_proceeds fl
  · exact (f.addFlags_proceeds fl).trans (hw _)

theorem Fpu.rd_proceeds (f : Fpu) (i : BitVec 3) : f.Proceeds (f.rd i).fpu := by
  unfold Fpu.rd
  split
  · exact .refl f
  · exact f.stackFault_proceeds false

theorem Fpu.pushed_proceeds (f : Fpu) (v : F80) : f.Proceeds (f.pushed v) :=
  (f.setTop_proceeds _).trans (Fpu.setSt_proceeds _ _ _ _)

theorem Fpu.push_proceeds (f : Fpu) (v : F80) (fl : Flags6) : f.Proceeds (f.push v fl).1 := by
  unfold Fpu.push
  split
  · exact (f.stackFault_proceeds true).trans (Fpu.finish_proceeds _ fun g => g.pushed_proceeds _)
  · exact Fpu.finish_proceeds _ fun g => g.pushed_proceeds _

theorem Fpu.binary_proceeds (f : Fpu) (dst src : BitVec 3) (op : F80 → F80 → F80 × Flags6) :
    f.Proceeds (f.binary dst src op).1 :=
  ((f.rd_proceeds dst).trans (Fpu.rd_proceeds _ src)).trans (Fpu.finish_proceeds _ fun g => g.setSt_proceeds _ _ _)

theorem Fpu.unary_proceeds (f : Fpu) (dst : BitVec 3) (op : F80 → F80 × Flags6) : f.Proceeds (f.unary dst op).1 :=
  (f.rd_proceeds dst).trans (Fpu.finish_proceeds _ fun g => g.setSt_proceeds _ _ _)

theorem Fpu.store_proceeds (f : Fpu) (fl : F80 → Flags6) : f.Proceeds (f.store fl).1 :=
  (f.rd_proceeds 0#3).trans (Fpu.finish_proceeds _ Fpu.Proceeds.refl)

theorem Fpu.move_proceeds (f : Fpu) (i : BitVec 3) : f.Proceeds (f.move i).1 :=
  (f.rd_proceeds 0#3).trans (Fpu.finish_proceeds _ fun g => g.setSt_proceeds _ _ _)

theorem Fpu.pop_proceeds (f : Fpu) : f.Proceeds f.pop.1 :=
  (f.rd_proceeds 0#3).trans (Fpu.finish_proceeds _ fun g => (g.free_proceeds 0#3).trans (Fpu.setTop_proceeds _ _))

theorem Fpu.compare_proceeds (f : Fpu) (x y : BitVec 3) : f.Proceeds (f.compare x y).1 :=
  ((f.rd_proceeds x).trans (Fpu.rd_proceeds _ y)).trans (Fpu.finish_proceeds _ fun g => g.setCodes_proceeds _)

end Sys2Proof.Machine
end

section
/-! SUPPORT. What a command can do, said once for all 123: it answers and changes nothing else, or writes one part of its own
context, or changes the address spaces, or goes through its context's cache (spec/10_state.md R20, R484). -/

namespace Sys2Proof.Machine

/-- The step from the context's part of the state: only the context `c`, the draws and the response may differ. -/
def wroteCtx (c : BitVec 32) (s t : State) (k : Context) : Prop :=
  { t with draws := s.draws, resp := s.resp } = s.setCtx c k

/-- What a command of unit CPU writes (R391–R411): one kind of register by its own command, or the flags' part of the state. -/
inductive CpuWrite (i : Instr) (c : BitVec 32) (u : Cpu) : Cpu → Prop
  | general (r : Vector (BitVec 32) 8)
      (hi : (∃ k v, i = .cpuSetReg32 c k v) ∨ (∃ k v, i = .cpuSetReg16 c k v) ∨ ∃ k v, i = .cpuSetReg8 c k v) :
      CpuWrite i c u { u with r32 := r }
  | eip (v : BitVec 32) (hi : i = .cpuSetEip c v) : CpuWrite i c u { u with eip := v }
  | seg (r : Vector (BitVec 16) 8) (hi : ∃ k v, i = .cpuSetSeg c k v) : CpuWrite i c u { u with seg := r }
  | xmm (r : Vector (BitVec 128) 8) (hi : ∃ k v, i = .cpuSetXmm c k v) : CpuWrite i c u { u with xmm := r }
  | flags (w : Cpu)
      (hw : w.r32 = u.r32 ∧ w.eip = u.eip ∧ w.seg = u.seg ∧ w.xmm = u.xmm ∧ w.faultAddr = u.faultAddr) : CpuWrite i c u w

/-- What a command writes into its own context `c`, but for an access through the cache. -/
inductive CtxWrite (i : Instr) (c : BitVec 32) (k : Context) : Context → Prop
  | rounding (m : BitVec 2) (hu : unitOf i = 2) : CtxWrite i c k { k with rm := m }
  | float (f : Fpu) (hu : unitOf i = 3) (hf : k.fpu.Proceeds f) : CtxWrite i c k { k with fpu := f }
  | init (hi : i = .fpuInit c) :
      CtxWrite i c k
        { k with fpu := { k.fpu with tag := Vector.replicate 8 false, sw := 0x0000#16, cw := 0x037F#16 }, rm := 0#2 }
  | control (v : BitVec 16) (hi : i = .fpuLdCw c v) :
      CtxWrite i c k { k with fpu := ({ k.fpu with cw := v } : Fpu).withSummary, rm := v.extractLsb' 10 2 }
  | cpu (w : Cpu) (hu : unitOf i = 6) (hw : CpuWrite i c k.cpu w) : CtxWrite i c k { k with cpu := w }
  | cache (v : Tlb) (hu : unitOf i = 5) (hv : v.slots = []) : CtxWrite i c k { k with tlb := v }

/-- What an access through the cache of `c` keeps, up to its end. -/
structure Accessed (c : BitVec 32) (s t : State) : Prop where
  cache : onlyCache c s t
  memory : s.memoryOk = true → t.memoryOk = true
  status : s.fpuOk = true → t.fpuOk = true

/-- How an access ends: it answers, it faults, or it is left under way. -/
def accessEnds (c : BitVec 32) (u t : State) : Prop :=
  (∃ r, t = u.ok r) ∨ (∃ a, t = u.pageFault c a) ∨ ∃ y, t = u.park c y

/-- What a command can do. -/
inductive Effect (i : Instr) (s t : State) : Prop
  | answer (h : sameButDraws s t)
  | context (k : Context) (ht : wroteCtx (contextOf i) s t k) (hk : CtxWrite i (contextOf i) (s.ctx (contextOf i)) k)
  | spaces (hu : unitOf i = 4) (h : Retabled s t)
  | access (hi : opcode i ∈ [0x0500, 0x0501, 0x0700]) (u : State) (hu : Accessed (contextOf i) s u)
      (ht : accessEnds (contextOf i) u t)

/-! ### Answers -/

theorem sameButDraws.refl (s : State) : sameButDraws s s := rfl

theorem sameButDraws.respond {s t : State} (h : sameButDraws s t) (r : Response) : sameButDraws s (t.respond r) := h

theorem drawNan_sameButDraws (s : State) : sameButDraws s s.drawNan.2 := by
  unfold State.drawNan; split <;> rfl

theorem screened_effect (i : Instr) (s : State) (op : F80 → F80 × Flags6) : Effect i s (s.screened op) :=
  .answer ((drawNan_sameButDraws s).respond _)

theorem respond_effect (i : Instr) (s : State) (r : Response) : Effect i s (s.respond r) := .answer rfl

/-! ### Writes of the command's own context -/

theorem mapPut_mapPut {α : Type} (m : List (Nat × α)) (k : Nat) (v w : α) : mapPut (mapPut m k v) k w = mapPut m k w := by
  induction m with
  | nil => simp [mapPut]
  | cons e rest ih =>
    obtain ⟨j, x⟩ := e
    simp only [mapPut]
    split
    · simp [mapPut]
    · split
      · simp [mapPut]
      · next h1 h2 => simp [mapPut, h1, h2, ih]

theorem setCtx_setCtx (s : State) (c : BitVec 32) (k k' : Context) : (s.setCtx c k).setCtx c k' = s.setCtx c k' := by
  simp [State.setCtx, mapPut_mapPut]

theorem setFpu_setRm (s : State) (c : BitVec 32) (f : Fpu) (m : BitVec 2) :
    (s.setFpu c f).setRm c m = s.setCtx c { s.ctx c with fpu := f, rm := m } := by
  unfold State.setRm
  rw [State.setFpu_ctx_same]
  exact setCtx_setCtx s c _ _

theorem setCtx_drawn {s t : State} (h : sameButDraws s t) (c : BitVec 32) (k : Context) (r : Response) :
    wroteCtx c s ((t.setCtx c k).respond r) k := by
  unfold wroteCtx
  conv_rhs => rw [← h]
  rfl

theorem setCtx_respond (s : State) (c : BitVec 32) (k : Context) (r : Response) :
    wroteCtx c s ((s.setCtx c k).respond r) k := rfl

/-- Ending an FPU command writes the FPU of its context. -/
theorem fpuDone_effect {i : Instr} {s t : State} (ht : sameButDraws s t) {r : Fpu × Bool}
    (hr : (s.fpu (contextOf i)).Proceeds r.1) (results : Results) (hu : unitOf i = 3 := by simp [unitOf, opcode]) :
    Effect i s (t.fpuDone (contextOf i) r results) := by
  have hctx : t.ctx (contextOf i) = s.ctx (contextOf i) := by
    conv_rhs => rw [← ht]
    rfl
  have hk := CtxWrite.float (c := contextOf i) r.1 hu hr
  unfold State.fpuDone State.setFpu
  rw [hctx]
  split <;> exact .context _ (setCtx_drawn ht _ _ _) hk

theorem fpuPush_effect {i : Instr} (s : State) (v : F80 × Flags6) (hu : unitOf i = 3 := by simp [unitOf, opcode]) :
    Effect i s (s.fpuPush (contextOf i) v) :=
  fpuDone_effect (.refl s) (Fpu.push_proceeds _ _ _) _ hu

theorem fpuBinary_effect {i : Instr} (s : State) (dst src : BitVec 3) (op : F80 → F80 → F80 → F80 × Flags6)
    (hu : unitOf i = 3 := by simp [unitOf, opcode]) : Effect i s (s.fpuBinary (contextOf i) dst src op) :=
  fpuDone_effect (drawNan_sameButDraws s) (Fpu.binary_proceeds _ _ _ _) _ hu

theorem fpuUnary_effect {i : Instr} (s : State) (dst : BitVec 3) (op : F80 → F80 → F80 × Flags6)
    (hu : unitOf i = 3 := by simp [unitOf, opcode]) : Effect i s (s.fpuUnary (contextOf i) dst op) :=
  fpuDone_effect (drawNan_sameButDraws s) (Fpu.unary_proceeds _ _ _) _ hu

/-- Writing a context's CPU state and answering. -/
theorem setCpu_effect {i : Instr} (s : State) {w : Cpu} (hw : CpuWrite i (contextOf i) (s.cpu (contextOf i)) w)
    (r : Results) (hu : unitOf i = 6 := by simp [unitOf, opcode]) : Effect i s ((s.setCpu (contextOf i) w).ok r) :=
  .context _ (setCtx_respond s _ _ _) (.cpu w hu hw)

theorem setTlb_effect {i : Instr} (s : State) {v : Tlb} (hv : v.slots = []) (r : Results)
    (hu : unitOf i = 5 := by simp [unitOf, opcode]) : Effect i s ((s.setTlb (contextOf i) v).ok r) :=
  .context _ (setCtx_respond s _ _ _) (.cache v hu hv)

/-- Making a flag explicit writes the flags' part only (R403). -/
theorem setFlag_flagsOnly {u w : Cpu} {sel : BitVec 3} {v : Bool} (h : u.setFlag sel v = some w) :
    w.r32 = u.r32 ∧ w.eip = u.eip ∧ w.seg = u.seg ∧ w.xmm = u.xmm ∧ w.faultAddr = u.faultAddr := by
  unfold Cpu.setFlag at h
  split at h <;> cases h <;> exact ⟨rfl, rfl, rfl, rfl, rfl⟩

/-! ### Accesses through the cache -/

theorem fpuOk_ctx {s : State} (h : s.fpuOk = true) (c : BitVec 32) : (s.ctx c).fpu.statusOk = true := by
  unfold State.ctx
  cases hk : mapFind s.ctxs c.toNat with
  | none => decide
  | some k =>
    have ha : mapAll s.ctxs (fun _ k => k.fpu.statusOk) = true := h
    exact mapAll_find ha hk

theorem fpuOk_setCtx {s : State} (h : s.fpuOk = true) (c : BitVec 32) {k : Context} (hk : k.fpu.statusOk = true) :
    (s.setCtx c k).fpuOk = true :=
  mapAll_put h hk

theorem fpuOk_congr {s t : State} (hc : t.ctxs = s.ctxs) (h : s.fpuOk = true) : t.fpuOk = true := by
  rwa [State.fpuOk, hc]

theorem Accessed.refl (c : BitVec 32) (s : State) : Accessed c s s := ⟨.refl c s, id, id⟩

theorem Accessed.trans {c : BitVec 32} {s t u : State} (h : Accessed c s t) (g : Accessed c t u) : Accessed c s u :=
  ⟨h.cache.trans g.cache, g.memory ∘ h.memory, g.status ∘ h.status⟩

theorem Accessed.of_moved {s t : State} (h : Moved s t) (c : BitVec 32) : Accessed c s t :=
  ⟨.of_sameRest h.rest c, h.memory, fpuOk_congr h.rest.2.1⟩

theorem setTlb_accessed (s : State) (c : BitVec 32) {v : Tlb} (hv : v.mem = (s.tlb c).mem) : Accessed c s (s.setTlb c v) :=
  ⟨setTlb_onlyCache s c v hv, memoryOk_congr rfl rfl, fun h => fpuOk_setCtx h c (fpuOk_ctx h c)⟩

theorem genTest_accessed (s : State) (c : BitVec 32) : Accessed c s (s.genTest c) := by
  unfold State.genTest State.revalidate
  split
  · split
    · exact .refl c s
    · split
      · exact .refl c s
      · exact setTlb_accessed s c rfl
  · exact .refl c s

theorem reach_accessed (s : State) (c : BitVec 32) (addr : Nat) (kind : Access) : Accessed c s (s.reach c addr kind).2 := by
  have hg := genTest_accessed s c
  unfold State.reach
  simp only
  split
  · exact hg
  · split
    · exact hg
    · next m _ =>
      have ht := hg.trans (.of_moved (translate_moved (s.genTest c) m addr kind) c)
      split <;> rename_i heq <;> rw [heq] at ht
      · exact ht.trans (setTlb_accessed _ c rfl)
      · exact ht
      · exact ht

theorem move_accessed (s : State) (c : BitVec 32) (k : Nat) (x : Transfer) : (s.move c k x).Ends (Accessed c s) :=
  move_ends (Accessed.refl c) (fun _ _ _ h g => h.trans g) (fun s a kind => reach_accessed s c a kind)
    (fun _ _ _ _ _ h => .of_moved (storeHost_moved h) c) s k x

theorem slice_accessed (s : State) (c : BitVec 32) (n : Nat) : Accessed c s (s.slice n).2 :=
  .of_moved (.of_eq ⟨by simp, by simp, by simp⟩ (by simp) (by simp)) c

/-- How an access goes on, and what it keeps. -/
theorem advance_accessed (s : State) (c : BitVec 32) (x : Transfer) :
    Ends (fun t => ∃ u, Accessed c s u ∧ accessEnds c u t) (s.advance c x) := by
  have hs := slice_accessed s c x.left
  have hm := move_accessed (s.slice x.left).2 c (s.slice x.left).1 x
  unfold State.advance
  split
  · next y t heq =>
    rw [heq] at hm
    split
    · exact ⟨t, hs.trans hm, .inl ⟨_, rfl⟩⟩
    · exact ⟨t, hs.trans hm, .inr (.inr ⟨y, rfl⟩)⟩
  · next a t heq =>
    rw [heq] at hm
    exact ⟨t, hs.trans hm, .inr (.inl ⟨a, rfl⟩)⟩
  · trivial

theorem decodeModRm_accessed (s : State) (c cursor : BitVec 32) : (s.decodeModRm c cursor).Ends (Accessed c s) :=
  decodeModRm_ends (Accessed.refl c) (fun _ _ _ h g => h.trans g) (fun s a => reach_accessed s c a .read) s cursor

theorem Ends.mono {P Q : State → Prop} {o : Out} (h : Ends P o) (hpq : ∀ t, P t → Q t) : Ends Q o := by
  cases o with
  | next t => exact hpq t h
  | fault _ => trivial
  | refused _ => trivial

theorem advance_effect {i : Instr} (hi : opcode i ∈ [0x0500, 0x0501, 0x0700]) {s t : State} (h : Accessed (contextOf i) s t)
    (x : Transfer) : Ends (Effect i s) (t.advance (contextOf i) x) :=
  (advance_accessed t (contextOf i) x).mono fun _ ⟨u, hu, ht⟩ => .access hi u (h.trans hu) ht

theorem decModRm_effect (c cursor : BitVec 32) (s : State) :
    Ends (Effect (.decModRm c cursor) s) (execDecModRm c cursor s) := by
  have hi : opcode (.decModRm c cursor) ∈ [0x0500, 0x0501, 0x0700] := by simp [opcode]
  have hd := decodeModRm_accessed s c cursor
  unfold execDecModRm
  split
  · exact respond_effect _ s _
  · split <;> rename_i heq
    · rw [heq] at hd; exact .access hi _ hd (.inl ⟨_, rfl⟩)
    · rw [heq] at hd; exact advance_effect (i := .decModRm c cursor) hi hd _
    · rw [heq] at hd; exact .access hi _ hd (.inr (.inl ⟨_, rfl⟩))
    · trivial

/-! ### Every command -/

theorem spaces_effect {i : Instr} {s : State} {o : Out} (h : Ends (Retabled s) o)
    (hu : unitOf i = 4 := by simp [unitOf, opcode]) : Ends (Effect i s) o :=
  h.mono fun _ => .spaces hu

/-- What each of the 123 commands can do. -/
theorem exec_effect (i : Instr) (s : State) : Ends (Effect i s) (exec i s) := by
  cases i
  -- unit WI, and every command that reads only
  case wiFromU64 | wiFromS64 | wiToU64 | wiToS64 | wiUcmp | wiScmp | wiClz | wiNot | wiAnd | wiOr | wiUadd | wiSadd | wiUsub
      | wiSsub | wiUmul | wiSmul | wiNeg | feGetRm | feFromI64 | feToI64 | feFromF64 | feToF64 | feIsNan | feIsInf | feIsZero
      | feIsDenormal | feIsSupported | feCmp | feLt | feEq | feNeg | feAbs | fpuGetSt | fpuStCw | fpuStSw | cpuGetReg32
      | cpuGetReg16 | cpuGetReg8 | cpuGetEip | cpuGetXmm | cpuGetEflags | cpuGetFaultAddr =>
    exact respond_effect _ s _
  case wiShl | wiShr =>
    simp only [exec, execWiShl, execWiShr]
    split <;> exact respond_effect _ s _
  case wiUdiv | wiSdiv =>
    simp only [exec, execWiUdiv, execWiSdiv]
    split <;> exact respond_effect _ s _
  case cpuGetSeg c n =>
    simp only [exec, execCpuGetSeg]
    split <;> exact respond_effect _ s _
  case cpuGetFlag c sel =>
    simp only [exec, execCpuGetFlag]
    split <;> exact respond_effect _ s _
  case decEa c desc =>
    simp only [exec, execDecEa]
    split
    · exact respond_effect _ s _
    · split <;> exact respond_effect _ s _
  -- unit FE
  case feAdd | feSub | feMul | feDiv | feMod | feRem | feLog2 | feSqrt | feScale => exact screened_effect _ s _
  case feSetRm c m => exact .context _ (setCtx_respond s c _ _) (.rounding m (by simp [unitOf, opcode]))
  -- unit FPU
  case fpuInit c =>
    refine .context _ ?_ (.init rfl)
    rw [setFpu_setRm]
    exact setCtx_respond s c _ _
  case fpuLdCw c v =>
    refine .context _ ?_ (.control v rfl)
    rw [setFpu_setRm]
    exact setCtx_respond s c _ _
  case fpuLd c n => exact fpuDone_effect (.refl s) ((Fpu.rd_proceeds _ n).trans (Fpu.push_proceeds _ _ _)) _
  case fpuSt c n => exact fpuDone_effect (.refl s) (Fpu.move_proceeds _ n) _
  case fpuPop c => exact fpuDone_effect (.refl s) (Fpu.pop_proceeds _) _
  case fpuSetSt c n v valid =>
    have hu : unitOf (.fpuSetSt c n v valid) = 3 := by simp [unitOf, opcode]
    exact .context _ (setCtx_respond s c _ _) (.float _ hu (Fpu.setSt_proceeds _ n v valid))
  case fpuLdI16 | fpuLdI32 | fpuLdI64 | fpuLdF32 | fpuLdF64 | fpuLdF80 | fpuConst1 | fpuConstL2T | fpuConstL2E | fpuConstPi
      | fpuConstLg2 | fpuConstLn2 | fpuConstZ =>
    exact fpuPush_effect s _
  case fpuStI16 | fpuStI32 | fpuStI64 | fpuStF32 | fpuStF64 | fpuStF80 =>
    exact fpuDone_effect (.refl s) (Fpu.store_proceeds _ _) _
  case fpuAdd | fpuSub | fpuMul | fpuDiv | fpuMod | fpuRem | fpuScale => exact fpuBinary_effect s _ _ _
  case fpuNeg | fpuAbs => exact fpuDone_effect (.refl s) (Fpu.unary_proceeds _ _ _) _
  case fpuSqrt | fpuLog2 => exact fpuUnary_effect s _ _
  case fpuCom c x y => exact fpuDone_effect (.refl s) (Fpu.compare_proceeds _ x y) _
  -- unit ASM
  case asmCreate => exact spaces_effect (execAsmCreate_retabled s)
  case asmRetain m => exact spaces_effect (execAsmRetain_retabled m s)
  case asmRelease m => exact spaces_effect (execAsmRelease_retabled m s)
  case asmMap m page count host flags => exact spaces_effect (execAsmMap_retabled m page count host flags s)
  case asmMapAnon m page count flags => exact spaces_effect (execAsmMapAnon_retabled m page count flags s)
  case asmUnmap m page count force => exact spaces_effect (execAsmUnmap_retabled m page count force s)
  case asmSetProt m page count flags => exact spaces_effect (execAsmSetProt_retabled m page count flags s)
  case asmCow m page count m2 page2 => exact spaces_effect (execAsmCow_retabled m page count m2 page2 s)
  case asmFindHole m n => exact spaces_effect (execAsmFindHole_retabled m n s)
  case asmTranslate m addr kind => exact spaces_effect (execAsmTranslate_retabled m addr kind s)
  -- unit TLB
  case tlbRead c addr n =>
    simp only [exec, execTlbRead]
    split
    · exact respond_effect _ s _
    · exact advance_effect (i := .tlbRead c addr n) (by simp [opcode]) (.refl c s) _
  case tlbWrite c addr data =>
    simp only [exec, execTlbWrite]
    split
    · exact respond_effect _ s _
    · exact advance_effect (i := .tlbWrite c addr data) (by simp [opcode]) (.refl c s) _
  case tlbFlush c =>
    simp only [exec, execTlbFlush]
    split
    · exact respond_effect _ s _
    · exact setTlb_effect (i := .tlbFlush c) s rfl _
  case tlbRevalidate c =>
    simp only [exec, execTlbRevalidate, State.revalidate]
    split
    · exact respond_effect _ s _
    · split
      · exact respond_effect _ s _
      · split
        · exact respond_effect _ s _
        · exact setTlb_effect (i := .tlbRevalidate c) s rfl _
  case tlbAttach c m =>
    simp only [exec, execTlbAttach]
    split
    · exact respond_effect _ s _
    · exact setTlb_effect (i := .tlbAttach c m) s rfl _
  -- unit CPU
  case cpuSetReg32 c n v =>
    exact setCpu_effect (i := .cpuSetReg32 c n v) s (w := (s.cpu c).setReg32 n v) (.general _ (.inl ⟨n, v, rfl⟩)) _
  case cpuSetReg16 c n v =>
    exact setCpu_effect (i := .cpuSetReg16 c n v) s (w := (s.cpu c).setReg16 n v) (.general _ (.inr (.inl ⟨n, v, rfl⟩))) _
  case cpuSetReg8 c n v =>
    exact setCpu_effect (i := .cpuSetReg8 c n v) s (w := (s.cpu c).setReg8 n v) (.general _ (.inr (.inr ⟨n, v, rfl⟩))) _
  case cpuSetEip c v =>
    exact setCpu_effect (i := .cpuSetEip c v) s (w := { s.cpu c with eip := v }) (.eip v rfl) _
  case cpuSetXmm c n v =>
    exact setCpu_effect (i := .cpuSetXmm c n v) s (w := (s.cpu c).setXmm n v) (.xmm _ ⟨n, v, rfl⟩) _
  case cpuSetSeg c n v =>
    simp only [exec, execCpuSetSeg, Cpu.setSeg]
    split
    · exact setCpu_effect (i := .cpuSetSeg c n v) s (.seg _ ⟨n, v, rfl⟩) _
    · exact respond_effect _ s _
  case cpuSetFlag c sel v =>
    simp only [exec, execCpuSetFlag, State.cpuDone]
    split
    · next w hw => exact setCpu_effect (i := .cpuSetFlag c sel v) s (.flags w (setFlag_flagsOnly hw)) _
    · exact respond_effect _ s _
  case cpuRecord c res op1 op2 =>
    exact setCpu_effect (i := .cpuRecord c res op1 op2) s (w := (s.cpu c).record res op1 op2)
      (.flags _ ⟨rfl, rfl, rfl, rfl, rfl⟩) _
  case cpuMaterialize c =>
    exact setCpu_effect (i := .cpuMaterialize c) s (w := (s.cpu c).materialize) (.flags _ ⟨rfl, rfl, rfl, rfl, rfl⟩) _
  case cpuExpand c =>
    exact setCpu_effect (i := .cpuExpand c) s (w := (s.cpu c).expand) (.flags _ ⟨rfl, rfl, rfl, rfl, rfl⟩) _
  case cpuSetEflags c v =>
    exact setCpu_effect (i := .cpuSetEflags c v) s (w := { s.cpu c with flags := v }) (.flags _ ⟨rfl, rfl, rfl, rfl, rfl⟩) _
  case decModRm c cursor => exact decModRm_effect c cursor s

end Sys2Proof.Machine
end

section
/-! SUPPORT. The rules about the whole block, from what a command can do (spec/10_state.md R20–R47; spec/60_exceptions.md R484). -/

namespace Sys2Proof.Machine

/-- The stores, the contexts and the parameters are as before: the draws, the port and the response may differ. -/
structure sameCore (s t : State) : Prop where
  params : t.params = s.params
  mems : t.mems = s.mems
  blobs : t.blobs = s.blobs
  graves : t.graves = s.graves
  ctxs : t.ctxs = s.ctxs

theorem sameButDraws.port_core {s t : State} (h : sameButDraws s t) : t.port = s.port ∧ sameCore s t :=
  have e : { t with resp := s.resp, draws := s.draws } = s := h
  ⟨(congrArg State.port e :), (congrArg State.params e :), (congrArg State.mems e :), (congrArg State.blobs e :),
    (congrArg State.graves e :), (congrArg State.ctxs e :)⟩

theorem turn_sameCore {s u : State} {o : Option (BitVec 32)} (h : s.turn = (o, u)) (later : List (List Byte)) :
    sameCore s u ∧ sameCore s { u with port := later } := by
  obtain ⟨d, hd⟩ := s.turn_draws
  rw [h] at hd
  cases hd
  exact ⟨⟨rfl, rfl, rfl, rfl, rfl⟩, ⟨rfl, rfl, rfl, rfl, rfl⟩⟩

/-- What no answer touches, every command keeps and every access under way keeps as it goes on, every step keeps. -/
theorem step_keeps {P : State → Prop} (core : ∀ s t, sameCore s t → P s → P t)
    (command : ∀ i s t, P s → exec i s = .next t → P t) (goesOn : ∀ c s t, P s → s.resume c = .next t → P t) {s t : State}
    (h : P s) (hs : step s = .next t) : P t := by
  obtain ⟨c, u, hu, ht⟩ | ⟨hu, -⟩ | ⟨u, -, later, i, hu, -, -, ht⟩ | ⟨u, -, later, -, f, hu, -, -, rfl⟩ := step_cases hs
  · exact goesOn c u t (core s u (turn_sameCore hu []).1 h) ht
  · exact core s t (turn_sameCore hu []).1 h
  · exact command i _ t (core s _ (turn_sameCore hu later).2 h) ht
  · exact core { u with port := later } _ ⟨rfl, rfl, rfl, rfl, rfl⟩ (core s _ (turn_sameCore hu later).2 h)

/-- What a write of one context leaves. -/
theorem wroteCtx.rest {c : BitVec 32} {s t : State} {k : Context} (h : wroteCtx c s t k) :
    t.port = s.port ∧ sameCore (s.setCtx c k) t :=
  have e : { t with draws := s.draws, resp := s.resp } = s.setCtx c k := h
  ⟨(congrArg State.port e :), (congrArg State.params e :), (congrArg State.mems e :), (congrArg State.blobs e :),
    (congrArg State.graves e :), (congrArg State.ctxs e :)⟩

theorem wroteCtx.ctx {c : BitVec 32} {s t : State} {k : Context} (h : wroteCtx c s t k) (d : BitVec 32) :
    t.ctx d = if d = c then k else s.ctx d := by
  rw [State.ctx_congr h.rest.2.ctxs, State.setCtx_ctx]

/-! ### Canonical memory and status words (R35, R42) -/

/-- However an access ends, it ends with the stores it had reached. -/
theorem accessEnds.stores {c : BitVec 32} {u t : State} (h : accessEnds c u t) :
    t.params = u.params ∧ t.port = u.port ∧ t.blobs = u.blobs ∧ t.graves = u.graves := by
  obtain ⟨r, rfl⟩ | ⟨a, rfl⟩ | ⟨y, rfl⟩ := h <;> exact ⟨rfl, rfl, rfl, rfl⟩

theorem accessEnds.fpuOk {c : BitVec 32} {u t : State} (h : accessEnds c u t) (hu : u.fpuOk = true) : t.fpuOk = true := by
  obtain ⟨r, rfl⟩ | ⟨a, rfl⟩ | ⟨y, rfl⟩ := h
  · exact hu
  · exact fpuOk_setCtx hu c (fpuOk_ctx hu c)
  · exact fpuOk_setCtx hu c (fpuOk_ctx hu c)

/-- A context that a command writes keeps a consistent status word. -/
theorem CtxWrite.statusOk {i : Instr} {c : BitVec 32} {k k' : Context} (h : CtxWrite i c k k') (hk : k.fpu.statusOk = true) :
    k'.fpu.statusOk = true := by
  cases h with
  | rounding _ _ => exact hk
  | float _ _ hf => exact hf.status hk
  | init _ => simp [Fpu.statusOk_iff, Fpu.anyUnmasked, Fpu.excFlags]
  | control v _ => exact Fpu.withSummary_statusOk (f := { k.fpu with cw := v }) ((Fpu.statusOk_iff k.fpu).1 hk).1
  | cpu _ _ _ => exact hk
  | cache _ _ _ => exact hk

theorem exec_keeps_memoryOk (i : Instr) (s t : State) (h : s.memoryOk = true) (he : exec i s = .next t) :
    t.memoryOk = true := by
  obtain hb | ⟨k, hw, -⟩ | ⟨-, hm⟩ | ⟨-, u, hu, hend⟩ := (exec_effect i s).of_next he
  · exact memoryOk_congr hb.port_core.2.blobs hb.port_core.2.graves h
  · exact memoryOk_congr hw.rest.2.blobs hw.rest.2.graves h
  · exact hm.memory h
  · obtain ⟨-, -, hb, hg⟩ := hend.stores
    exact memoryOk_congr hb hg (hu.memory h)

theorem exec_keeps_fpuOk (i : Instr) (s t : State) (h : s.fpuOk = true) (he : exec i s = .next t) : t.fpuOk = true := by
  obtain hb | ⟨k, hw, hk⟩ | ⟨-, hm⟩ | ⟨-, u, hu, hend⟩ := (exec_effect i s).of_next he
  · exact fpuOk_congr hb.port_core.2.ctxs h
  · exact fpuOk_congr hw.rest.2.ctxs (fpuOk_setCtx h _ (hk.statusOk (fpuOk_ctx h _)))
  · exact fpuOk_congr hm.rest.2.1 h
  · exact hend.fpuOk (hu.status h)

/-- An access under way goes on as an access does. -/
theorem resume_accessed {c : BitVec 32} {s t : State} (h : s.resume c = .next t) :
    t = s ∨ ∃ u, Accessed c (s.setTransfer c none) u ∧ accessEnds c u t := by
  unfold State.resume at h
  split at h
  · cases h; exact .inl rfl
  · exact .inr ((advance_accessed _ c _).of_next h)

theorem resume_keeps_memoryOk (c : BitVec 32) (s t : State) (h : s.memoryOk = true) (hr : s.resume c = .next t) :
    t.memoryOk = true := by
  obtain rfl | ⟨u, hu, hend⟩ := resume_accessed hr
  · exact h
  · obtain ⟨-, -, hb, hg⟩ := hend.stores
    exact memoryOk_congr hb hg (hu.memory h)

theorem resume_keeps_fpuOk (c : BitVec 32) (s t : State) (h : s.fpuOk = true) (hr : s.resume c = .next t) :
    t.fpuOk = true := by
  obtain rfl | ⟨u, hu, hend⟩ := resume_accessed hr
  · exact h
  · exact hend.fpuOk (hu.status (fpuOk_setCtx h c (fpuOk_ctx h c)))

/-- Settles O6: each half is a property that every command and every access under way keeps, so every step does. -/
theorem memoryAndStatusStayConsistent : Obligations.MemoryAndStatusStayConsistent :=
  ⟨fun _ _ => step_keeps (P := fun s => s.memoryOk = true) (fun _ _ hc => memoryOk_congr hc.blobs hc.graves)
      exec_keeps_memoryOk resume_keeps_memoryOk,
    fun _ _ => step_keeps (P := fun s => s.fpuOk = true) (fun _ _ hc => fpuOk_congr hc.ctxs) exec_keeps_fpuOk
      resume_keeps_fpuOk⟩

/-! ### The invariant of the block (R35, R40–R47) -/

theorem Sound.core {s t : State} (hc : sameCore s t) (h : Sound s) : Sound t where
  tables := h.tables.of_eq hc.mems hc.blobs hc.graves
  rising := hc.ctxs ▸ h.rising
  fits n k hk := (h.fits n k (by rwa [hc.ctxs] at hk)).mono hc.params (keepsHost_of_eq hc.blobs hc.graves)

/-- A context that a command writes still fits. -/
theorem CtxWrite.fits {s : State} {i : Instr} {c : BitVec 32} {k k' : Context} (h : CtxWrite i c k k') (hk : k.Fits s) :
    k'.Fits s := by
  have hst := h.statusOk hk.status
  cases h with
  | rounding _ _ => exact ⟨hk.rising, hst, hk.slots, hk.transfer⟩
  | float _ _ _ => exact ⟨hk.rising, hst, hk.slots, hk.transfer⟩
  | init _ => exact ⟨hk.rising, hst, hk.slots, hk.transfer⟩
  | control _ _ => exact ⟨hk.rising, hst, hk.slots, hk.transfer⟩
  | cpu _ _ _ => exact ⟨hk.rising, hst, hk.slots, hk.transfer⟩
  | cache v _ hv => exact ⟨by rw [hv]; rfl, hst, by rw [hv]; exact nofun, hk.transfer⟩

/-- The commands whose accesses may go through the cache. -/
theorem access_command {i : Instr} (hi : opcode i ∈ [0x0500, 0x0501, 0x0700]) :
    (∃ c addr n, i = .tlbRead c addr n) ∨ (∃ c addr data, i = .tlbWrite c addr data) ∨
      ∃ c cursor, i = .decModRm c cursor := by
  cases i <;> simp [opcode] at hi ⊢

theorem exec_keeps_sound (i : Instr) (s t : State) (h : Sound s) (he : exec i s = .next t) : Sound t := by
  obtain hb | ⟨k, hw, hk⟩ | ⟨-, hm⟩ | ⟨hi, -⟩ := (exec_effect i s).of_next he
  · exact h.core hb.port_core.2
  · exact (h.setCtx _ (hk.fits (h.ctx _))).core hw.rest.2
  · exact h.retabled hm
  · obtain ⟨c, addr, n, rfl⟩ | ⟨c, addr, data, rfl⟩ | ⟨c, cursor, rfl⟩ := access_command hi
    · exact (execTlbRead_sound h c addr n).of_next he
    · exact (execTlbWrite_sound h c addr data).of_next he
    · exact (execDecModRm_sound h c cursor).of_next he

/-- Settles O7: the invariant is `Sound`, which every command and every access under way keeps. -/
theorem invariantKept : Obligations.InvariantKept := by
  intro s t h hs
  rw [inv_iff_sound] at h ⊢
  exact step_keeps (P := Sound) (fun _ _ => Sound.core) exec_keeps_sound
    (fun c s t h hr => (resume_sound h c).of_next hr) h hs

/-! ### What a command cannot reach (R20, R71, R484) -/

theorem accessEnds.ctx_other {c d : BitVec 32} {u t : State} (h : accessEnds c u t) (hd : d ≠ c) : t.ctx d = u.ctx d := by
  obtain ⟨r, rfl⟩ | ⟨a, rfl⟩ | ⟨y, rfl⟩ := h
  · rfl
  · exact State.setCpu_ctx_other u _ hd
  · exact State.setTransfer_ctx_other u _ hd

/-- Only units FE, FPU, TLB and CPU write a context outside an access. -/
theorem CtxWrite.unit {i : Instr} {c : BitVec 32} {k k' : Context} (h : CtxWrite i c k k') :
    unitOf i = 2 ∨ unitOf i = 3 ∨ unitOf i = 5 ∨ unitOf i = 6 := by
  cases h with
  | rounding _ hu => simp [hu]
  | float _ hu _ => simp [hu]
  | init hi => subst hi; simp [unitOf, opcode]
  | control _ hi => subst hi; simp [unitOf, opcode]
  | cpu _ hu _ => simp [hu]
  | cache _ hu _ => simp [hu]

theorem unit_of_access {i : Instr} (hi : opcode i ∈ [0x0500, 0x0501, 0x0700]) :
    (unitOf i = 5 ∨ unitOf i = 7) ∧ opcode i ≠ 0x0701 := by
  simp only [List.mem_cons, List.not_mem_nil, or_false] at hi
  unfold unitOf
  omega

/-- Settles O9: of what a command can do, each way keeps what the statement says. -/
theorem commandsStayInTheirUnits : Obligations.CommandsStayInTheirUnits := by
  intro s t i he
  obtain hb | ⟨k, hw, hk⟩ | ⟨hu, hm⟩ | ⟨hi, u, hu, hend⟩ := (exec_effect i s).of_next he
  · obtain ⟨hp, hc⟩ := hb.port_core
    exact ⟨hc.params, hp, fun d _ => State.ctx_congr hc.ctxs d, fun _ => ⟨hc.mems, hc.blobs, hc.graves⟩⟩
  · obtain ⟨hp, hc⟩ := hw.rest
    have hunit := hk.unit
    refine ⟨hc.params, hp, fun d hd => ?_, fun _ => ⟨hc.mems, hc.blobs, hc.graves⟩⟩
    rw [hw.ctx, if_neg ((hd.resolve_left (by omega)).resolve_left (by omega))]
  · obtain ⟨hparams, hctxs, hport⟩ := hm.rest
    have hopcode : opcode i ≠ 0x0701 := fun h => by simp [unitOf, h] at hu
    exact ⟨hparams, hport, fun d _ => State.ctx_congr hctxs d, fun h => by omega⟩
  · obtain ⟨hparams, hport, -, -⟩ := hend.stores
    obtain ⟨hunit, hopcode⟩ := unit_of_access hi
    refine ⟨hparams.trans hu.cache.1, hport.trans hu.cache.2.1, fun d hd => ?_, fun h => by omega⟩
    have hne : d ≠ contextOf i := (hd.resolve_left (by omega)).resolve_left (by omega)
    exact (hend.ctx_other hne).trans (hu.cache.2.2.1 d hne)

/-! ### Registers with one writer (R21–R26, R31, R35, R36, R408) -/

theorem CpuWrite.refl (i : Instr) (c : BitVec 32) (u : Cpu) : CpuWrite i c u u := .flags u ⟨rfl, rfl, rfl, rfl, rfl⟩

/-- What a command does to a context's CPU state: a write of one kind, or `FAULT_ADDR` by a page fault that names it. -/
theorem exec_cpu_cases {i : Instr} {s t : State} (he : exec i s = .next t) (d : BitVec 32) :
    CpuWrite i d (s.cpu d) (t.cpu d) ∨
      ∃ a, t.resp = some (.fault .pageFault a) ∧ t.cpu d = { s.cpu d with faultAddr := a } := by
  have kept : t.cpu d = s.cpu d → CpuWrite i d (s.cpu d) (t.cpu d) := fun h => h ▸ .refl i d _
  obtain hb | ⟨k, hw, hk⟩ | ⟨-, hm⟩ | ⟨-, u, hu, hend⟩ := (exec_effect i s).of_next he
  · exact .inl (kept (congrArg Context.cpu (State.ctx_congr hb.port_core.2.ctxs d)))
  · have hctx := hw.ctx d
    by_cases hd : d = contextOf i
    · subst hd
      rw [if_pos rfl] at hctx
      unfold State.cpu at kept ⊢
      rw [hctx] at kept ⊢
      cases hk with
      | cpu w _ hcpu => exact .inl hcpu
      | rounding _ _ => exact .inl (kept rfl)
      | float _ _ _ => exact .inl (kept rfl)
      | init _ => exact .inl (kept rfl)
      | control _ _ => exact .inl (kept rfl)
      | cache _ _ _ => exact .inl (kept rfl)
    · rw [if_neg hd] at hctx
      exact .inl (kept (congrArg Context.cpu hctx))
  · exact .inl (kept (congrArg Context.cpu (State.ctx_congr hm.rest.2.1 d)))
  · by_cases hd : d = contextOf i
    · subst hd
      obtain ⟨-, -, -, hcpu, -⟩ := hu.cache
      obtain ⟨r, rfl⟩ | ⟨a, rfl⟩ | ⟨y, rfl⟩ := hend
      · exact .inl (kept hcpu)
      · exact .inr ⟨_, rfl, by rw [← hcpu]; exact State.setCpu_cpu_same u _ _⟩
      · exact .inl (kept ((State.setTransfer_cpu_same u _ _).trans hcpu))
    · exact .inl (kept (congrArg Context.cpu ((hend.ctx_other hd).trans (hu.cache.2.2.1 d hd))))

/-- What a command does to a context's FPU: an operation, its initialisation, or a load of the control word. -/
theorem exec_fpu_cases {i : Instr} {s t : State} (he : exec i s = .next t) (d : BitVec 32) :
    (s.fpu d).Proceeds (t.fpu d) ∨ i = .fpuInit d ∨
      ∃ v, i = .fpuLdCw d v ∧ t.fpu d = ({ s.fpu d with cw := v } : Fpu).withSummary := by
  have kept : t.fpu d = s.fpu d → (s.fpu d).Proceeds (t.fpu d) := fun h => h ▸ .refl _
  obtain hb | ⟨k, hw, hk⟩ | ⟨-, hm⟩ | ⟨-, u, hu, hend⟩ := (exec_effect i s).of_next he
  · exact .inl (kept (congrArg Context.fpu (State.ctx_congr hb.port_core.2.ctxs d)))
  · have hctx := hw.ctx d
    by_cases hd : d = contextOf i
    · subst hd
      rw [if_pos rfl] at hctx
      unfold State.fpu at kept ⊢
      rw [hctx] at kept ⊢
      cases hk with
      | float f _ hf => exact .inl hf
      | init hi => exact .inr (.inl hi)
      | control v hi => exact .inr (.inr ⟨v, hi, rfl⟩)
      | rounding _ _ => exact .inl (kept rfl)
      | cpu _ _ _ => exact .inl (kept rfl)
      | cache _ _ _ => exact .inl (kept rfl)
    · rw [if_neg hd] at hctx
      exact .inl (kept (congrArg Context.fpu hctx))
  · exact .inl (kept (congrArg Context.fpu (State.ctx_congr hm.rest.2.1 d)))
  · by_cases hd : d = contextOf i
    · subst hd
      obtain ⟨-, -, -, -, hfpu, -⟩ := hu.cache
      obtain ⟨r, rfl⟩ | ⟨a, rfl⟩ | ⟨y, rfl⟩ := hend
      · exact .inl (kept hfpu)
      · exact .inl (kept ((State.setCpu_fpu_same u _ _).trans hfpu))
      · exact .inl (kept ((State.setTransfer_fpu_same u _ _).trans hfpu))
    · exact .inl (kept (congrArg Context.fpu ((hend.ctx_other hd).trans (hu.cache.2.2.1 d hd))))

/-- A load of the control word clears no flag. -/
theorem withSummary_sticky (f : Fpu) (k : Nat) (hk : k ≤ 6) (h : f.sw.getLsbD k = true) :
    f.withSummary.sw.getLsbD k = true := by
  rw [Fpu.withSummary_sw f k (by omega), if_neg (by omega), h]

/-- Settles O13: each register's change names the command that writes it, and an FPU operation clears no sticky bit. -/
theorem registersHaveOneWriter : Obligations.RegistersHaveOneWriter := by
  intro s t i d he
  have hfpu : i ≠ .fpuInit d →
      (∀ k, k ≤ 6 → (s.fpu d).sw.getLsbD k = true → (t.fpu d).sw.getLsbD k = true) ∧
        ((t.fpu d).cw ≠ (s.fpu d).cw → ∃ v, i = .fpuLdCw d v) := by
    intro hi
    obtain hp | hinit | ⟨v, hld, hf⟩ := exec_fpu_cases he d
    · exact ⟨hp.sticky, fun h => absurd hp.control h⟩
    · exact absurd hinit hi
    · exact ⟨fun k hk h => hf ▸ withSummary_sticky _ k hk h, fun _ => ⟨v, hld⟩⟩
  obtain hw | ⟨a, hr, hw⟩ := exec_cpu_cases he d
  · generalize s.cpu d = u at hw ⊢
    generalize t.cpu d = w at hw ⊢
    cases hw with
    | general r hi =>
      exact ⟨fun _ => hi, (absurd rfl ·), (absurd rfl ·), (absurd rfl ·), (absurd rfl ·), hfpu⟩
    | eip v hi =>
      exact ⟨(absurd rfl ·), fun _ => ⟨v, hi⟩, (absurd rfl ·), (absurd rfl ·), (absurd rfl ·), hfpu⟩
    | seg r hi =>
      exact ⟨(absurd rfl ·), (absurd rfl ·), fun _ => hi, (absurd rfl ·), (absurd rfl ·), hfpu⟩
    | xmm r hi =>
      exact ⟨(absurd rfl ·), (absurd rfl ·), (absurd rfl ·), fun _ => hi, (absurd rfl ·), hfpu⟩
    | flags w hw =>
      obtain ⟨hr32, heip, hseg, hxmm, hfault⟩ := hw
      exact ⟨fun h => absurd hr32 h, fun h => absurd heip h, fun h => absurd hseg h, fun h => absurd hxmm h,
        fun h => absurd hfault h, hfpu⟩
  · rw [hw]
    exact ⟨(absurd rfl ·), (absurd rfl ·), (absurd rfl ·), (absurd rfl ·), fun _ => hr, hfpu⟩

end Sys2Proof.Machine
end

section
/-! SUPPORT. The reset state (spec/10_state.md R50; spec/70_reset_and_hazards.md R500). -/

namespace Sys2Proof.Machine

theorem reset_valid (i : BitVec 3) : Fpu.reset.valid i = false := by
  simp [Fpu.valid, Fpu.reset]

/-- Settles O5: the stores are empty, and every context is the reset context. -/
theorem resetLeaves : Obligations.ResetLeaves := by
  have hinv : State.reset.Inv := by unfold State.Inv; decide
  exact ⟨hinv, rfl, rfl, rfl, fun c => ⟨rfl, rfl, rfl, rfl, reset_valid, rfl, rfl, rfl, rfl, rfl⟩⟩

end Sys2Proof.Machine
end

section
/-! SUPPORT. The lazy flags (spec/10_state.md R27–R30; spec/45_cpu_flags.md R401–R403): what a flag reads as, and what making one
explicit changes of each of the others. -/

namespace Sys2Proof.Machine

/-! ### Reading a flag (R30, R402) -/

theorem exec_cpuGetFlag_iff (s : State) (c : BitVec 32) (sel : BitVec 3) (w : Bool) :
    exec (.cpuGetFlag c sel) s = .next (s.ok (.u1 w)) ↔ (s.cpu c).flag sel = some w := by
  simp only [exec, execCpuGetFlag]
  cases (s.cpu c).flag sel with
  | none => simp [State.fail, State.ok, State.respond]
  | some v => simp [State.ok, State.respond]

theorem exec_cpuGetFlag_of_none {s : State} {c : BitVec 32} {sel : BitVec 3} (h : (s.cpu c).flag sel = none) :
    exec (.cpuGetFlag c sel) s = .next (s.fail .illegalOperand) := by
  simp only [exec, execCpuGetFlag, h]

theorem selector_past {sel : BitVec 3} (h : 5 < sel.toNat) : sel = 6 ∨ sel = 7 := by bv_omega

theorem selector_of_flag {sel : BitVec 3} (h : sel.toNat ≤ 5) :
    sel = 0 ∨ sel = 1 ∨ sel = 2 ∨ sel = 3 ∨ sel = 4 ∨ sel = 5 := by bv_omega

/-- No flag has a selector above 5. -/
theorem Cpu.flag_eq_none (u : Cpu) {sel : BitVec 3} (h : 5 < sel.toNat) : u.flag sel = none := by
  obtain rfl | rfl := selector_past h <;> rfl

theorem Cpu.zf_eq (u : Cpu) : u.zf = if u.defZ then decide (u.res.toNat = 0) else u.flags.getLsbD 6 := by
  have h : (u.res == 0#32) = decide (u.res.toNat = 0) := by
    rw [Bool.eq_iff_iff]
    simp [← BitVec.toNat_inj]
  rw [Cpu.zf, h]

theorem Cpu.sf_eq (u : Cpu) : u.sf = if u.defS then decide (u.res.toInt < 0) else u.flags.getLsbD 7 := by
  rw [Cpu.sf, ← BitVec.msb_eq_toInt, BitVec.msb_eq_getLsbD_last]

/-- The parity of the low byte counts the bits of the result. -/
theorem popcount8_low (x : BitVec 32) : popcount8 (x.extractLsb' 0 8) = (List.range 8).countP fun k => x.getLsbD k := by
  rw [popcount8, ← List.countP_eq_length_filter]
  refine List.countP_congr fun k hk => ?_
  have h8 : k < 8 := List.mem_range.1 hk
  simp [h8]

theorem Cpu.pf_eq (u : Cpu) :
    u.pf = if u.defP then decide ((List.range 8).countP (fun k => u.res.getLsbD k) % 2 = 0) else u.flags.getLsbD 2 := by
  rw [Cpu.pf, popcount8_low]
  rfl

theorem Cpu.af_eq (u : Cpu) :
    u.af = if u.defA then (u.op1.getLsbD 4 ^^ u.op2.getLsbD 4 ^^ u.res.getLsbD 4) else u.flags.getLsbD 4 := by
  simp [Cpu.af]

/-! ### Making a flag explicit (R403) -/

/-- `setBit_getLsbD` in the spelling that `simp` gives a bit at a literal position. -/
theorem setBit_getElem {w : Nat} (x : BitVec w) (i : Nat) (v : Bool) (k : Nat) (hk : k < w) :
    (setBit x i v)[k] = if k = i then v else x[k] := by
  simpa only [BitVec.getLsbD_eq_getElem hk] using setBit_getLsbD x i v k hk

section
variable {u w : Cpu} {sel : BitVec 3} {v : Bool}

theorem Cpu.setFlag_eq_none (u : Cpu) (v : Bool) (h : 5 < sel.toNat) : u.setFlag sel v = none := by
  obtain rfl | rfl := selector_past h <;> rfl

theorem Cpu.setFlag_isSome (u : Cpu) (v : Bool) (h : sel.toNat ≤ 5) : ∃ w, u.setFlag sel v = some w := by
  obtain rfl | rfl | rfl | rfl | rfl | rfl := selector_of_flag h <;> exact ⟨_, rfl⟩

/-- The six selectors and what each writes. -/
theorem setFlag_cases (h : u.setFlag sel v = some w) :
    (sel = 0 ∧ w = { u with cf := v }) ∨
    (sel = 1 ∧ w = { u with flags := setBit u.flags 2 v, defP := false }) ∨
    (sel = 2 ∧ w = { u with flags := setBit u.flags 4 v, defA := false }) ∨
    (sel = 3 ∧ w = { u with flags := setBit u.flags 6 v, defZ := false }) ∨
    (sel = 4 ∧ w = { u with flags := setBit u.flags 7 v, defS := false }) ∨
    (sel = 5 ∧ w = { u with ovf := v }) := by
  unfold Cpu.setFlag at h
  split at h <;> next hsel => cases h <;> simp [← BitVec.toNat_inj, hsel]

/-- The flag made explicit reads as it was set. -/
theorem setFlag_flag_same (h : u.setFlag sel v = some w) : w.flag sel = some v := by
  obtain ⟨rfl, rfl⟩ | ⟨rfl, rfl⟩ | ⟨rfl, rfl⟩ | ⟨rfl, rfl⟩ | ⟨rfl, rfl⟩ | ⟨rfl, rfl⟩ := setFlag_cases h <;>
    simp [Cpu.flag, Cpu.pf, Cpu.af, Cpu.zf, Cpu.sf, setBit_getElem]

/-- Every other flag's source is as it was: its tag, its recorded values, its bit of the word. -/
theorem setFlag_sources (h : u.setFlag sel v = some w) :
    (sel ≠ 0 → w.cf = u.cf) ∧ (sel ≠ 1 → w.pf = u.pf) ∧ (sel ≠ 2 → w.af = u.af) ∧ (sel ≠ 3 → w.zf = u.zf) ∧
      (sel ≠ 4 → w.sf = u.sf) ∧ (sel ≠ 5 → w.ovf = u.ovf) := by
  obtain ⟨rfl, rfl⟩ | ⟨rfl, rfl⟩ | ⟨rfl, rfl⟩ | ⟨rfl, rfl⟩ | ⟨rfl, rfl⟩ | ⟨rfl, rfl⟩ := setFlag_cases h <;>
    simp [Cpu.pf, Cpu.af, Cpu.zf, Cpu.sf, setBit_getElem]

theorem setFlag_flag_other (h : u.setFlag sel v = some w) {other : BitVec 3} (ho : other ≠ sel) :
    w.flag other = u.flag other := by
  obtain ⟨hcf, hpf, haf, hzf, hsf, hovf⟩ := setFlag_sources h
  by_cases hlt : 5 < other.toNat
  · rw [Cpu.flag_eq_none w hlt, Cpu.flag_eq_none u hlt]
  · obtain rfl | rfl | rfl | rfl | rfl | rfl := selector_of_flag (Nat.le_of_not_lt hlt)
    · exact congrArg some (hcf ho.symm)
    · exact congrArg some (hpf ho.symm)
    · exact congrArg some (haf ho.symm)
    · exact congrArg some (hzf ho.symm)
    · exact congrArg some (hsf ho.symm)
    · exact congrArg some (hovf ho.symm)

/-- Only the flag's own tag is cleared. -/
theorem setFlag_tags (h : u.setFlag sel v = some w) :
    w.defP = (u.defP && sel != 1) ∧ w.defA = (u.defA && sel != 2) ∧ w.defZ = (u.defZ && sel != 3) ∧
      w.defS = (u.defS && sel != 4) := by
  obtain ⟨rfl, rfl⟩ | ⟨rfl, rfl⟩ | ⟨rfl, rfl⟩ | ⟨rfl, rfl⟩ | ⟨rfl, rfl⟩ | ⟨rfl, rfl⟩ := setFlag_cases h <;> simp

/-- Only the flag's own bit of the word changes, and none for carry and overflow. -/
theorem setFlag_word (h : u.setFlag sel v = some w) :
    (sel = 0 ∨ sel = 5 → w.flags = u.flags) ∧
      ∀ k, k < 32 → k ≠ flagBit sel → w.flags.getLsbD k = u.flags.getLsbD k := by
  have other : ∀ i k, k < 32 → k ≠ i → (setBit u.flags i v).getLsbD k = u.flags.getLsbD k := fun i k hk hne =>
    (setBit_getLsbD u.flags i v k hk).trans (if_neg hne)
  obtain ⟨rfl, rfl⟩ | ⟨rfl, rfl⟩ | ⟨rfl, rfl⟩ | ⟨rfl, rfl⟩ | ⟨rfl, rfl⟩ | ⟨rfl, rfl⟩ := setFlag_cases h
  · exact ⟨fun _ => rfl, fun _ _ _ => rfl⟩
  · exact ⟨by simp, other 2⟩
  · exact ⟨by simp, other 4⟩
  · exact ⟨by simp, other 6⟩
  · exact ⟨by simp, other 7⟩
  · exact ⟨fun _ => rfl, fun _ _ _ => rfl⟩

/-- Nothing but the flags, their tags and the word changes. -/
theorem setFlag_rest (h : u.setFlag sel v = some w) :
    ({ w with cf := u.cf, ovf := u.ovf, flags := u.flags, defZ := u.defZ, defS := u.defS, defP := u.defP,
              defA := u.defA } : Cpu) = u := by
  obtain ⟨-, rfl⟩ | ⟨-, rfl⟩ | ⟨-, rfl⟩ | ⟨-, rfl⟩ | ⟨-, rfl⟩ | ⟨-, rfl⟩ := setFlag_cases h <;> rfl

end

/-- Settles O57: a read gives the flag's value by its tag, and a set makes the one flag explicit and leaves the others' sources. -/
theorem lazyFlags : Obligations.LazyFlags := by
  intro s c res op1 op2 sel v u
  have reads : ∀ (n : BitVec 3) (x : Bool), u.flag n = some x →
      ∀ w, exec (.cpuGetFlag c n) s = .next (s.ok (.u1 w)) ↔ w = x := fun n x hx w => by
    have hx' : (s.cpu c).flag n = some x := hx
    rw [exec_cpuGetFlag_iff, hx', Option.some_inj, eq_comm]
  refine ⟨⟨_, rfl, rfl, s.setCpu_ok_sameButCpu c (u.record res op1 op2) .none, s.setCpu_cpu_same c _⟩, reads 0 _ rfl,
    reads 1 _ (congrArg some u.pf_eq), reads 2 _ (congrArg some u.af_eq), reads 3 _ (congrArg some u.zf_eq),
    reads 4 _ (congrArg some u.sf_eq), reads 5 _ rfl, fun hsel => ⟨?noFlag, ?noSet⟩, fun hsel => ?set⟩
  case noFlag => exact exec_cpuGetFlag_of_none (Cpu.flag_eq_none _ hsel)
  case noSet => simp only [exec, execCpuSetFlag, Cpu.setFlag_eq_none _ v hsel, State.cpuDone]
  case set =>
    obtain ⟨w, hw⟩ := u.setFlag_isSome v hsel
    have hexec : exec (.cpuSetFlag c sel v) s = .next ((s.setCpu c w).ok .none) := by
      have hw' : (s.cpu c).setFlag sel v = some w := hw
      simp only [exec, execCpuSetFlag, hw', State.cpuDone]
    have hcpu : ((s.setCpu c w).ok .none).cpu c = w := s.setCpu_cpu_same c w
    obtain ⟨hcf, -, -, -, -, hovf⟩ := setFlag_sources hw
    obtain ⟨hdefP, hdefA, hdefZ, hdefS⟩ := setFlag_tags hw
    obtain ⟨hflags, hbits⟩ := setFlag_word hw
    refine ⟨_, hexec, rfl, s.setCpu_ok_sameButCpu c w .none, ?_, fun other x ho hx => ?_, ?_⟩
    · rw [exec_cpuGetFlag_iff, hcpu, setFlag_flag_same hw]
    · rw [exec_cpuGetFlag_iff] at hx ⊢
      rw [hcpu, setFlag_flag_other hw ho]
      exact hx
    · rw [hcpu]
      exact ⟨setFlag_rest hw, hflags, hcf, hovf, hdefP, hdefA, hdefZ, hdefS, hbits⟩

end Sys2Proof.Machine
end

section
/-! SUPPORT. The patterns that the loads push, as values (spec/30_encoding.md R120–R122; spec/41_float_engine.md R201, R203, R208):
the fields of an assembled pattern, the value of an encoded magnitude, and the conversion of a single-precision pattern. -/

namespace Sys2Proof

open Sys2Proof.Machine

/-! ### The fields of an assembled pattern (R120, R121) -/

section
variable (s : Bool) (e : BitVec 15) (g : BitVec 64)

/-- Each bit of an assembled pattern is one of its fields' (R120). -/
theorem F80.make_getLsbD (k : Nat) : (F80.make s e g).getLsbD k =
    if k < 64 then g.getLsbD k else if k - 64 < 15 then e.getLsbD (k - 64) else (BitVec.ofBool s).getLsbD (k - 64 - 15) := by
  have h1 := BitVec.getLsbD_append (x := BitVec.ofBool s) (y := e ++ g) (i := k)
  have h2 := BitVec.getLsbD_append (x := e) (y := g) (i := k)
  refine (h1 : (F80.make s e g).getLsbD k = _).trans ?_
  rw [h2]
  by_cases hk : k < 64
  · simp [hk, show k < 15 + 64 by omega]
  · by_cases hk' : k < 15 + 64
    · simp [hk, hk', show k - 64 < 15 by omega]
    · simp [hk, hk', show ¬ k - 64 < 15 by omega, Nat.sub_sub, Nat.add_comm]

@[simp] theorem F80.make_sgn : (F80.make s e g).sgn = s := by
  rw [F80.sgn, F80.make_getLsbD]
  cases s <;> rfl

@[simp] theorem F80.make_expo : (F80.make s e g).expo = e.toNat := by
  have h : (F80.make s e g).extractLsb' 64 15 = e := by
    apply BitVec.eq_of_getLsbD_eq
    intro k hk
    simp only [BitVec.getLsbD_extractLsb', F80.make_getLsbD]
    simp [hk]
  rw [F80.expo, h]

theorem F80.make_extract {n : Nat} (hn : n ≤ 64) : (F80.make s e g).extractLsb' 0 n = g.extractLsb' 0 n := by
  apply BitVec.eq_of_getLsbD_eq
  intro k hk
  rw [BitVec.getLsbD_extractLsb', BitVec.getLsbD_extractLsb', Nat.zero_add, F80.make_getLsbD, if_pos (by omega)]

@[simp] theorem F80.make_sig : (F80.make s e g).sig = g.toNat := by
  rw [F80.sig, F80.make_extract s e g (Nat.le_refl 64)]
  simp

@[simp] theorem F80.make_intBit : (F80.make s e g).intBit = decide (2 ^ 63 ≤ g.toNat) := by
  rw [F80.intBit, F80.make_getLsbD, if_pos (by decide)]
  exact BitVec.msb_eq_decide g

/-- The sign of a value. -/
def signQ (s : Bool) : ℚ := if s then -1 else 1

theorem F80.make_val : (F80.make s e g).val = signQ s * g.toNat * 2 ^ ((max e.toNat 1 : ℕ) - 16446 : ℤ) := by
  simp [F80.val, F80.unitExp, signQ]

end

@[simp] theorem F80.zero_sgn (s : Bool) : (F80.zero s).sgn = s := F80.make_sgn ..

theorem F80.zero_val (s : Bool) : (F80.zero s).val = 0 := by
  rw [F80.zero, F80.make_val]
  simp

/-- A pattern with a set integer bit and an exponent field between its bounds is normal. -/
theorem F80.make_isNormal {s : Bool} {e : BitVec 15} {g : BitVec 64} (h1 : 1 ≤ e.toNat) (h2 : e.toNat < 32767)
    (hg : 2 ^ 63 ≤ g.toNat) : (F80.make s e g).isFinite = true ∧ (F80.make s e g).isDenormal = false := by
  have h0 : e.toNat ≠ 0 := by omega
  have h3 : e.toNat ≠ 32767 := by omega
  simp only [F80.isFinite, F80.isNormal, F80.isDenormal, F80.make_expo, F80.make_intBit, decide_eq_true hg]
  simp [h0, h3]

/-! ### An encoded magnitude (R203) -/

theorem toBits_of_lt {n : Nat} (h : n < 2 ^ 64) : toBits n 64 = n * 2 ^ (63 - Nat.log2 n) := by
  have hl : Nat.log2 n < 64 := by
    by_cases h0 : n = 0
    · simp [h0]
    · exact (Nat.log2_lt h0).2 h
  rw [toBits, if_pos hl, Nat.shiftLeft_eq]

/-- The scaled significand has its integer bit set and fits its field. -/
theorem toBits_bounds {n : Nat} (h0 : n ≠ 0) (h : n < 2 ^ 64) : 2 ^ 63 ≤ toBits n 64 ∧ toBits n 64 < 2 ^ 64 := by
  have hl : Nat.log2 n < 64 := (Nat.log2_lt h0).2 h
  have hlow : 2 ^ Nat.log2 n ≤ n := Nat.log2_self_le h0
  have hhigh : n < 2 ^ (Nat.log2 n + 1) := Nat.lt_log2_self
  rw [toBits_of_lt h]
  constructor
  · calc 2 ^ 63 = 2 ^ Nat.log2 n * 2 ^ (63 - Nat.log2 n) := by rw [← pow_add]; congr 1; omega
      _ ≤ n * 2 ^ (63 - Nat.log2 n) := Nat.mul_le_mul_right _ hlow
  · calc n * 2 ^ (63 - Nat.log2 n) < 2 ^ (Nat.log2 n + 1) * 2 ^ (63 - Nat.log2 n) :=
          Nat.mul_lt_mul_of_pos_right hhigh (by positivity)
      _ = 2 ^ 64 := by rw [← pow_add]; congr 1; omega

/-- A magnitude in the normal range, of at most 64 bits, is encoded as it is. -/
theorem F80.encFin_eq {n : Nat} {q : Int} (s : Bool) (h0 : n ≠ 0) (hq : -16382 ≤ q + Nat.log2 n) :
    F80.encFin s n q = F80.make s (BitVec.ofNat 15 (q + Nat.log2 n + 16383).toNat) (BitVec.ofNat 64 (toBits n 64)) := by
  rw [F80.encFin, if_neg h0]
  exact if_neg (by omega)

theorem F80.encFin_val {n : Nat} {q : Int} (s : Bool) (h0 : n ≠ 0) (h : n < 2 ^ 64) (hq : -16382 ≤ q + Nat.log2 n)
    (hq' : q + Nat.log2 n ≤ 16383) : (F80.encFin s n q).val = signQ s * n * 2 ^ q := by
  have hl : Nat.log2 n < 64 := (Nat.log2_lt h0).2 h
  have he : (BitVec.ofNat 15 (q + Nat.log2 n + 16383).toNat).toNat = (q + Nat.log2 n + 16383).toNat := by
    rw [BitVec.toNat_ofNat]; omega
  have hexp : ((max (q + Nat.log2 n + 16383).toNat 1 : ℕ) - 16446 : ℤ) = q - (63 - Nat.log2 n : ℕ) := by omega
  rw [F80.encFin_eq s h0 hq, F80.make_val, he, hexp, BitVec.toNat_ofNat, Nat.mod_eq_of_lt (toBits_bounds h0 h).2,
    toBits_of_lt h, zpow_sub₀ two_ne_zero, zpow_natCast]
  push_cast
  field_simp

theorem F80.encFin_isNormal {n : Nat} {q : Int} (s : Bool) (h0 : n ≠ 0) (h : n < 2 ^ 64) (hq : -16382 ≤ q + Nat.log2 n)
    (hq' : q + Nat.log2 n ≤ 16383) :
    (F80.encFin s n q).isFinite = true ∧ (F80.encFin s n q).isDenormal = false ∧ (F80.encFin s n q).sgn = s := by
  rw [F80.encFin_eq s h0 hq]
  refine and_assoc.1 ⟨F80.make_isNormal ?_ ?_ ?_, F80.make_sgn ..⟩
  · rw [BitVec.toNat_ofNat]; omega
  · rw [BitVec.toNat_ofNat]; omega
  · rw [BitVec.toNat_ofNat, Nat.mod_eq_of_lt (toBits_bounds h0 h).2]
    exact (toBits_bounds h0 h).1

/-- `from_int` is exact on integers of at most 64 bits (R208, R212). -/
theorem f80OfInt_val {x : Int} (h : x.natAbs < 2 ^ 64) : (f80OfInt x).val = x := by
  unfold f80OfInt
  split
  · next h0 => rw [F80.zero_val, h0, Int.cast_zero]
  · next h0 =>
    have hn : x.natAbs ≠ 0 := Int.natAbs_ne_zero.2 h0
    have hl : Nat.log2 x.natAbs < 64 := (Nat.log2_lt hn).2 h
    rw [F80.encFin_val _ hn h (by omega) (by omega), zpow_zero, mul_one]
    rw [Nat.cast_natAbs]
    by_cases hx : x < 0
    · rw [abs_of_neg hx]
      simp [signQ, hx]
    · rw [abs_of_nonneg (Int.not_lt.1 hx)]
      simp [signQ, hx]

/-! ### Single precision (R122, R208) -/

section
variable (w : BitVec 32)

theorem hostExp_f32 : hostExp 8 23 w.toNat = (w.extractLsb' 23 8).toNat := by
  rw [BitVec.extractLsb'_toNat, Nat.shiftRight_eq_div_pow, hostExp]

theorem hostFrac_f32 : hostFrac 23 w.toNat = (w.extractLsb' 0 23).toNat := by
  rw [BitVec.extractLsb'_toNat, Nat.shiftRight_zero, hostFrac]

theorem hostSign_f32 : hostSign 8 23 w.toNat = w.getLsbD 31 := by
  rw [BitVec.getLsbD, Nat.testBit_eq_decide_div_mod_eq, hostSign]

end

/-- The value of a finite single-precision pattern, by its fields. -/
theorem hostVal_f32 (w : BitVec 32) : hostVal 8 23 w.toNat =
    signQ (w.getLsbD 31) * (if (w.extractLsb' 23 8).toNat = 0 then ((w.extractLsb' 0 23).toNat : ℚ)
      else 2 ^ 23 + (w.extractLsb' 0 23).toNat) * 2 ^ ((max (w.extractLsb' 23 8).toNat 1 : ℕ) - 127 - 23 : ℤ) := by
  rw [hostVal, hostExp_f32, hostFrac_f32, hostSign_f32]
  norm_num [signQ]

/-- An append as a sum. -/
theorem toNat_append_add {n m : Nat} (x : BitVec n) (y : BitVec m) : (x ++ y).toNat = x.toNat * 2 ^ m + y.toNat := by
  rw [BitVec.toNat_append, ← Nat.shiftLeft_add_eq_or_of_lt y.isLt, Nat.shiftLeft_eq]

/-- A NaN's significand, from its fraction (R208). -/
def nanSig (f : BitVec 23) : BitVec 64 := 1#1 ++ (1#1 ++ (f.extractLsb' 0 22 ++ 0#40))

/-- A normal number's significand, from its fraction (R208). -/
def normalSig (f : BitVec 23) : BitVec 64 := 1#1 ++ (f ++ 0#40)

theorem normalSig_toNat (f : BitVec 23) : (normalSig f).toNat = 2 ^ 63 + f.toNat * 2 ^ 40 := by
  have h := toNat_append_add (1#1) (f ++ 0#40)
  rw [toNat_append_add f 0#40] at h
  exact h.trans (by simp)

theorem nanSig_toNat (f : BitVec 23) : (nanSig f).toNat = 2 ^ 63 + 2 ^ 62 + f.toNat % 2 ^ 22 * 2 ^ 40 := by
  have h := toNat_append_add (1#1) (1#1 ++ (f.extractLsb' 0 22 ++ 0#40))
  rw [toNat_append_add 1#1 (f.extractLsb' 0 22 ++ 0#40), toNat_append_add (f.extractLsb' 0 22) 0#40, BitVec.extractLsb'_toNat,
    Nat.shiftRight_zero] at h
  refine h.trans ?_
  simp only [BitVec.toNat_ofNat]
  omega

/-- The conversion of a single-precision pattern, by its class (R122, R208). -/
theorem f80OfF32_cases (w : BitVec 32) :
    let s := w.getLsbD 31
    let e := w.extractLsb' 23 8
    let f := w.extractLsb' 0 23
    (e = 0xFF#8 ∧ f = 0#23 ∧ f80OfF32 w = (F80.inf s, 0)) ∨
    (e = 0xFF#8 ∧ f ≠ 0#23 ∧ f80OfF32 w = (F80.make s 0x7FFF#15 (nanSig f), if f.getLsbD 22 then 0 else flagI)) ∨
    (e = 0#8 ∧ f = 0#23 ∧ f80OfF32 w = (F80.zero s, 0)) ∨
    (e = 0#8 ∧ f ≠ 0#23 ∧ f80OfF32 w = (F80.encFin s f.toNat (-149), flagD)) ∨
    (e ≠ 0xFF#8 ∧ e ≠ 0#8 ∧ f80OfF32 w = (F80.make s (BitVec.ofNat 15 (e.toNat + 16256)) (normalSig f), 0)) := by
  unfold f80OfF32
  simp only
  split
  · next hff =>
    split
    · next hf => exact .inl ⟨hff, hf, rfl⟩
    · next hf => exact .inr (.inl ⟨hff, hf, rfl⟩)
  · next hff =>
    split
    · next h0 =>
      split
      · next hf => exact .inr (.inr (.inl ⟨h0, hf, rfl⟩))
      · next hf => exact .inr (.inr (.inr (.inl ⟨h0, hf, rfl⟩)))
    · next h0 => exact .inr (.inr (.inr (.inr ⟨hff, h0, rfl⟩)))

/-- A NaN assembled from a single-precision one is quiet and carries its payload (R208). -/
theorem nan_f32 (s : Bool) (f : BitVec 23) :
    (F80.make s 0x7FFF#15 (nanSig f)).isQuiet = true ∧
      ((F80.make s 0x7FFF#15 (nanSig f)).extractLsb' 0 62).toNat = f.toNat % 2 ^ 22 * 2 ^ 40 := by
  have hn := nanSig_toNat f
  have hsig : ((F80.make s 0x7FFF#15 (nanSig f)).extractLsb' 0 62).toNat = f.toNat % 2 ^ 22 * 2 ^ 40 := by
    rw [F80.make_extract s _ _ (by omega), BitVec.extractLsb'_toNat, Nat.shiftRight_zero, hn]
    omega
  refine ⟨?_, hsig⟩
  have hquiet : (nanSig f).getLsbD 62 = true := by
    rw [BitVec.getLsbD, Nat.testBit_eq_decide_div_mod_eq, hn, decide_eq_true_eq]
    omega
  have hpayload : (nanSig f).extractLsb' 0 63 ≠ 0#63 := by
    intro h
    have h0 := congrArg BitVec.toNat h
    rw [BitVec.extractLsb'_toNat, Nat.shiftRight_zero, hn, BitVec.toNat_ofNat] at h0
    omega
  have hint : 2 ^ 63 ≤ (nanSig f).toNat := by omega
  rw [F80.isQuiet, F80.isNan, F80.make_expo, F80.make_intBit, F80.make_extract s _ _ (by omega : 63 ≤ 64), F80.make_getLsbD,
    if_pos (by omega), hquiet, decide_eq_true hint, bne_iff_ne.2 hpayload]
  rfl

/-- The conversion of a single-precision pattern is that of R208. -/
theorem f80OfF32_loadsHost (w : BitVec 32) : loadsHost 8 23 w.toNat (f80OfF32 w).1 (f80OfF32 w).2 := by
  unfold loadsHost
  rw [hostExp_f32, hostFrac_f32, hostSign_f32, hostVal_f32]
  have hcases := f80OfF32_cases w
  simp only at hcases
  generalize w.getLsbD 31 = s at hcases ⊢
  generalize w.extractLsb' 23 8 = e at hcases ⊢
  generalize w.extractLsb' 0 23 = f at hcases ⊢
  have hf := f.isLt
  have he := e.isLt
  obtain ⟨rfl, rfl, hr⟩ | ⟨rfl, hf0, hr⟩ | ⟨rfl, rfl, hr⟩ | ⟨rfl, hf0, hr⟩ | ⟨hff, h0, hr⟩ := hcases <;> rw [hr]
  · exact ⟨F80.make_sgn .., fun _ _ => ⟨rfl, rfl⟩, fun _ h => absurd rfl h, fun h => absurd rfl h⟩
  · have hfn : f.toNat ≠ 0 := fun h => hf0 (BitVec.eq_of_toNat_eq h)
    obtain ⟨hq, hp⟩ := nan_f32 s f
    refine ⟨F80.make_sgn .., fun _ h => absurd h hfn, fun _ _ => ⟨hq, hp, ?_⟩, fun h => absurd rfl h⟩
    have hbit : f.getLsbD 22 = true ↔ ¬ f.toNat < 2 ^ 22 := by
      rw [BitVec.getLsbD, Nat.testBit_eq_decide_div_mod_eq, decide_eq_true_eq]
      omega
    simp only [hbit, ite_not]
  · refine ⟨F80.zero_sgn s, nofun, nofun, fun _ => ⟨?_, ?_, ?_, rfl⟩⟩
    · simp [F80.isFinite, F80.isZero, F80.zero]
    · simp [F80.isDenormal, F80.zero]
    · rw [F80.zero_val]
      simp
  · have hfn : f.toNat ≠ 0 := fun h => hf0 (BitVec.eq_of_toNat_eq h)
    have hl : Nat.log2 f.toNat < 23 := (Nat.log2_lt hfn).2 hf
    have h64 : f.toNat < 2 ^ 64 := by omega
    obtain ⟨hfin, hden, hsgn⟩ := F80.encFin_isNormal (q := -149) s hfn h64 (by omega) (by omega)
    refine ⟨hsgn, nofun, nofun, fun _ => ⟨hfin, hden, ?_, ?_⟩⟩
    · rw [F80.encFin_val (q := -149) s hfn h64 (by omega) (by omega)]
      simp
    · simp [hfn]
  · have hen : e.toNat ≠ 0 := fun h => h0 (BitVec.eq_of_toNat_eq h)
    have hen' : e.toNat ≠ 2 ^ 8 - 1 := fun h => hff (BitVec.eq_of_toNat_eq h)
    have hexp : (BitVec.ofNat 15 (e.toNat + 16256)).toNat = e.toNat + 16256 := by
      rw [BitVec.toNat_ofNat]; omega
    have hsig := normalSig_toNat f
    obtain ⟨hfin, hden⟩ := F80.make_isNormal (s := s) (e := BitVec.ofNat 15 (e.toNat + 16256)) (g := normalSig f)
      (by omega) (by omega) (by omega)
    refine ⟨F80.make_sgn .., fun h => absurd h hen', fun h => absurd h hen', fun _ => ⟨hfin, hden, ?_, ?_⟩⟩
    · have hunit : ((max (e.toNat + 16256) 1 : ℕ) - 16446 : ℤ) = ((max e.toNat 1 : ℕ) - 127 - 23 : ℤ) - (40 : ℕ) := by omega
      rw [F80.make_val, hexp, hsig, if_neg hen, hunit, zpow_sub₀ two_ne_zero, zpow_natCast]
      push_cast
      field_simp
      ring
    · rw [if_neg fun h => hen h.1]

end Sys2Proof
end

section
/-! SUPPORT. A push, and how the command that pushes ends (spec/10_state.md R33, R35; spec/42_fpu_stack.md R261–R265). -/

namespace Sys2Proof.Machine

/-! ### The marks of an operation -/

/-- `g` is `f` with a stack fault marked, or none: nothing else differs (R262, R263). -/
structure Fpu.Faulted (f g : Fpu) (fault : Option Bool) : Prop where
  fpr : g.fpr = f.fpr
  tag : g.tag = f.tag
  cw : g.cw = f.cw
  bits : ∀ k, k < 16 → g.sw.getLsbD k =
    if k = 9 then fault.getD (f.sw.getLsbD 9) else if k = 6 then f.sw.getLsbD 6 || fault.isSome else f.sw.getLsbD k

theorem Fpu.faulted_none (f : Fpu) : f.Faulted f none :=
  ⟨rfl, rfl, rfl, fun k _ => by by_cases h9 : k = 9 <;> by_cases h6 : k = 6 <;> simp [h9, h6]⟩

/-- A later stack fault is the one that is marked (log 23). -/
theorem Fpu.Faulted.stackFault {f g : Fpu} {fault : Option Bool} (h : f.Faulted g fault) (overflow : Bool) :
    f.Faulted (g.stackFault overflow) (some overflow) := by
  refine ⟨h.fpr, h.tag, h.cw, fun k hk => ?_⟩
  rw [Fpu.stackFault_sw g overflow k hk, h.bits k hk]
  by_cases h9 : k = 9 <;> by_cases h6 : k = 6 <;> simp [h9, h6]

/-- Reading a slot marks an underflow where it is empty (R262). -/
theorem Fpu.rd_faulted (f : Fpu) (i : BitVec 3) :
    (f.rd i).value = f.slotValue i ∧ (f.rd i).flags = f.emptyFlag [i] ∧ f.Faulted (f.rd i).fpu (f.underflow [i]) := by
  unfold Fpu.rd Fpu.slotValue Fpu.emptyFlag Fpu.underflow
  by_cases h : f.valid i = true
  · simpa [h] using f.faulted_none
  · simpa [h] using f.faulted_none.stackFault false

/-- The marks an operation leaves, whatever it wrote back: the registers and `TOP` are not among them. -/
theorem Fpu.marked_of_bits {f g h : Fpu} {fl : Flags6} {fault : Option Bool} (hg : f.marked g fl fault) (hc : h.cw = g.cw)
    (hb : ∀ k, k < 10 ∨ k = 15 → h.sw.getLsbD k = g.sw.getLsbD k) : f.marked h fl fault := by
  obtain ⟨he, h6, h7, h9, h15, hcw⟩ := hg
  exact ⟨((excFlags_eq_iff g h).2 fun k hk => hb k (by omega)).trans he, (hb 6 (by simp)).trans h6,
    (hb 7 (by simp)).trans h7, (hb 9 (by simp)).trans h9, (hb 15 (by simp)).trans h15, hc.trans hcw⟩

/-- Adding flags to a faulted FPU is what an operation leaves where it writes nothing back (R261). -/
theorem Fpu.Faulted.addFlags {f g : Fpu} {fault : Option Bool} (h : f.Faulted g fault) (fl : Flags6) :
    f.marked (g.addFlags fl) fl fault ∧ f.regsKept (g.addFlags fl) ∧ f.codesKept (g.addFlags fl) := by
  have hexc : g.excFlags = f.excFlags :=
    (excFlags_eq_iff f g).2 fun k hk => by rw [h.bits k (by omega), if_neg (by omega), if_neg (by omega)]
  have high : ∀ k, 7 < k → k < 16 → (g.addFlags fl).sw.getLsbD k = g.sw.getLsbD k := fun k h7 h16 => by
    rw [Fpu.addFlags_sw g fl k h16, if_neg (by omega), decide_eq_false (by omega), Bool.false_and, Bool.or_false]
  have kept : ∀ k, 7 < k → k < 16 → k ≠ 9 → (g.addFlags fl).sw.getLsbD k = f.sw.getLsbD k := fun k h7 h16 h9 => by
    rw [high k h7 h16, h.bits k h16, if_neg h9, if_neg (by omega)]
  refine ⟨⟨?_, ?_, ?_, ?_, kept 15 (by omega) (by omega) (by omega), h.cw⟩,
    ⟨h.fpr, h.tag, top_eq_of_sw fun k h1 h2 => kept k (by omega) (by omega) (by omega)⟩,
    kept 8 (by omega) (by omega) (by omega), kept 10 (by omega) (by omega) (by omega),
    kept 14 (by omega) (by omega) (by omega)⟩
  · rw [Fpu.addFlags_excFlags, hexc]
  · rw [Fpu.addFlags_sw g fl 6 (by omega), h.bits 6 (by omega)]
    simp
  · rw [Fpu.addFlags_sw g fl 7 (by omega), if_pos rfl, hexc, Fpu.anyUnmasked_congr h.cw]
  · rw [high 9 (by omega) (by omega), h.bits 9 (by omega), if_pos rfl]

/-! ### The push itself (R33, R263) -/

/-- A push writes `TOP` of the status word only. -/
theorem Fpu.pushed_sw (g : Fpu) (v : F80) {k : Nat} (hk : k < 16) (h : ¬(11 ≤ k ∧ k < 14)) :
    (g.pushed v).sw.getLsbD k = g.sw.getLsbD k :=
  (g.setTop_sw _ k hk).trans (if_neg h)

theorem Fpu.pushed_wasPushed {f g : Fpu} (h : f.regsKept g) (v : F80) : f.wasPushed (g.pushed v) v := by
  obtain ⟨hfpr, htag, htop⟩ := h
  have slot := fun j => (g.setTop (g.top - 1#3)).setSt_slot 0#3 v true j
  refine ⟨by rw [← htop]; exact Fpu.setTop_top g _, (slot 0#3).1, (slot 0#3).2, fun j hj => ?_⟩
  have hne : j + 1#3 ≠ 0#3 := by bv_omega
  have hslot : g.top - 1#3 + (j + 1#3) - g.top = j := by bv_omega
  have hmoved := g.setTop_slot (g.top - 1#3) (j + 1#3)
  rw [hslot] at hmoved
  have hkept := slot_congr hfpr htag htop j
  exact ⟨(slot (j + 1#3)).1.trans ((if_neg hne).trans (hmoved.1.trans hkept.1)),
    (slot (j + 1#3)).2.trans ((if_neg hne).trans (hmoved.2.trans hkept.2))⟩

/-- How `finish` leaves an operation that found a faulted FPU and pushes (R261). -/
theorem Fpu.Faulted.finish_push {f g : Fpu} {fault : Option Bool} (h : f.Faulted g fault) (fl : Flags6) (v : F80) :
    let r := g.finish fl fun x => x.pushed v
    r.2 = f.anyUnmasked fl ∧ f.marked r.1 fl fault ∧ f.codesKept r.1 ∧
      (r.2 = true → f.regsKept r.1) ∧ (r.2 = false → f.wasPushed r.1 v) := by
  obtain ⟨hm, hr, h8, h10, h14⟩ := h.addFlags fl
  have hany : g.anyUnmasked fl = f.anyUnmasked fl := Fpu.anyUnmasked_congr h.cw fl
  cases hu : f.anyUnmasked fl with
  | true =>
    simp only [Fpu.finish_raises _ (hany.trans hu)]
    exact ⟨trivial, hm, ⟨h8, h10, h14⟩, fun _ => hr, nofun⟩
  | false =>
    simp only [Fpu.finish_completes _ (hany.trans hu)]
    have hsw := fun k (hk : k < 16) hn => (g.addFlags fl).pushed_sw v (k := k) hk hn
    refine ⟨trivial, Fpu.marked_of_bits hm rfl fun k hk => hsw k (by omega) (by omega), ⟨?_, ?_, ?_⟩, nofun,
      fun _ => Fpu.pushed_wasPushed hr v⟩
    · exact (hsw 8 (by omega) (by omega)).trans h8
    · exact (hsw 10 (by omega) (by omega)).trans h10
    · exact (hsw 14 (by omega) (by omega)).trans h14

/-! ### The command (R261, R265) -/

/-- The ends of a command whose operation marks the FPU as `r` says, by whether it raises. -/
theorem fpuDone_ends {s : State} {c : BitVec 32} {r : Fpu × Bool} {fl : Flags6} {fault : Option Bool} (results : Results)
    {writeback : Fpu → Fpu → Prop} (hu : r.2 = (s.fpu c).anyUnmasked fl) (hm : (s.fpu c).marked r.1 fl fault)
    (hraise : r.2 = true → (s.fpu c).regsKept r.1 ∧ (s.fpu c).codesKept r.1)
    (hdone : r.2 = false → writeback (s.fpu c) r.1) :
    fpuEnds c s (s.fpuDone c r results) fl fault results writeback := by
  have hframe : sameButFpu c s (s.fpuDone c r results) :=
    ⟨⟨by simp, by simp, by simp, by simp, by simp, fun d hd => State.fpuDone_ctx_other s r results hd⟩, by simp, by simp,
      by simp, by simp [State.transfer]⟩
  unfold fpuEnds
  rw [State.fpuDone_fpu_same, fpuDone_resp, ← hu]
  refine ⟨hframe, hm, ?_⟩
  cases hr : r.2 with
  | true => exact ⟨rfl, hraise hr⟩
  | false => exact ⟨rfl, hdone hr⟩

/-- A push by a command that has read the slots `slots`: the flags and faults of the reading and of an overflow. -/
theorem push_ends {s : State} {c : BitVec 32} {g : Fpu} {slots : List (BitVec 3)} (v : F80) (fl : Flags6)
    (h : (s.fpu c).Faulted g ((s.fpu c).underflow slots)) :
    fpuEnds c s (s.fpuDone c (g.push v (fl ||| (s.fpu c).emptyFlag slots)) .none)
      (fl ||| (s.fpu c).emptyFlag slots ||| (if (s.fpu c).valid 7#3 then flagI else 0))
      (if (s.fpu c).valid 7#3 then some true else (s.fpu c).underflow slots) .none
      fun f g => f.codesKept g ∧ f.wasPushed g (if f.valid 7#3 then F80.dnan else v) := by
  have htop : g.top = (s.fpu c).top :=
    top_eq_of_sw fun k h1 h2 => by rw [h.bits k (by omega), if_neg (by omega), if_neg (by omega)]
  have hvalid : g.valid 7#3 = (s.fpu c).valid 7#3 := (slot_congr h.fpr h.tag htop 7#3).2
  unfold Fpu.push
  rw [hvalid]
  cases hfull : (s.fpu c).valid 7#3 with
  | true =>
    obtain ⟨hu, hm, hc, hr, hw⟩ := (h.stackFault true).finish_push (fl ||| (s.fpu c).emptyFlag slots ||| flagI) F80.dnan
    exact fpuDone_ends .none hu hm (fun hx => ⟨hr hx, hc⟩) fun hx => ⟨hc, by simpa only [hfull, if_true] using hw hx⟩
  | false =>
    obtain ⟨hu, hm, hc, hr, hw⟩ := h.finish_push (fl ||| (s.fpu c).emptyFlag slots) v
    have hzero : fl ||| (s.fpu c).emptyFlag slots ||| 0#6 = fl ||| (s.fpu c).emptyFlag slots := BitVec.or_zero
    simp only [Bool.false_eq_true, if_false]
    rw [show (0 : Flags6) = 0#6 from rfl, hzero]
    exact fpuDone_ends .none hu hm (fun hx => ⟨hr hx, hc⟩) fun hx =>
      ⟨hc, by simpa only [hfull, Bool.false_eq_true, if_false] using hw hx⟩

/-- What a command pushes, if it pushes: the value of a slot, or its operand's. -/
theorem exec_of_pushOf {s : State} {i : Instr} {c : BitVec 32} {v : F80} {fl : Flags6} {slots : List (BitVec 3)}
    (h : s.pushOf i = some (c, v, fl, slots)) :
    (∃ n, i = .fpuLd c n ∧ v = (s.fpu c).slotValue n ∧ fl = 0 ∧ slots = [n]) ∨
      (exec i s = .next (s.fpuPush c (v, fl)) ∧ slots = []) := by
  cases i <;> cases h
  case fpuLd n => exact .inl ⟨n, rfl, rfl, rfl, rfl⟩
  all_goals exact .inr ⟨rfl, rfl⟩

theorem toInt_natAbs_lt {w : Nat} (x : BitVec w) (hw : w ≤ 63) : x.toInt.natAbs < 2 ^ 64 := by
  have h1 := x.isLt
  have h2 : 2 ^ w ≤ 2 ^ 63 := Nat.pow_le_pow_right (by omega) hw
  rw [BitVec.toInt_eq_toNat_cond]
  split <;> omega

/-- Settles O30: a push ends as `push_ends` says, after the slot is read where the command reads one. -/
theorem pushingCommands : Obligations.PushingCommands := by
  refine ⟨fun s c => ⟨fun x => ?int16, fun x => ?int32, fun x => ⟨_, rfl, rfl⟩, fun w => ⟨_, _, rfl, f80OfF32_loadsHost w⟩,
    fun w => ⟨_, _, rfl, rfl⟩⟩, fun s i c v fl slots h => ?push⟩
  case int16 => exact congrArg some (f80OfInt_val (toInt_natAbs_lt x (by decide)))
  case int32 => exact congrArg some (f80OfInt_val (toInt_natAbs_lt x (by decide)))
  case push =>
    obtain ⟨n, rfl, rfl, rfl, rfl⟩ | ⟨hexec, rfl⟩ := exec_of_pushOf h
    · obtain ⟨hvalue, hflags, hmarks⟩ := (s.fpu c).rd_faulted n
      refine ⟨_, rfl, State.fpuDone_draws .., ?_⟩
      have hend := push_ends (slots := [n]) ((s.fpu c).slotValue n) 0 hmarks
      rw [show (0 : Flags6) = 0#6 from rfl, BitVec.zero_or] at hend ⊢
      rw [hvalue, hflags]
      exact hend
    · refine ⟨_, hexec, State.fpuDone_draws .., ?_⟩
      have hend := push_ends (slots := []) v fl (s.fpu c).faulted_none
      have hread : (s.fpu c).emptyFlag [] = 0#6 := rfl
      rw [hread, BitVec.or_zero] at hend ⊢
      exact hend

end Sys2Proof.Machine
end

section
/-! SUPPORT. The scheduler's choices and the response play no part in what an access does (spec/20_memory.md R75, R92; log
15): every operation of an access commutes with changing them, so the same access begun, or gone on with, under other
choices does the same. -/

namespace Sys2Proof.Machine

/-- The response, and the scheduler's choices still pending (R112; log 5, log 15). -/
structure Clock where
  resp : Option Response
  sched : List Nat
  turns : Nat

/-- The state with another response and other choices pending. -/
def State.setClock (s : State) (k : Clock) : State :=
  { s with resp := k.resp, draws := { s.draws with sched := k.sched, turns := k.turns } }

/-- How an access ends, with its state changed. -/
def Served.mapState {α : Type} (f : State → State) : Served α → Served α
  | .done v t => .done v (f t)
  | .fault a t => .fault a (f t)
  | .noSuchByte => .noSuchByte

/-- A change of the state that what comes after commutes with. -/
theorem Served.mapState_andThen {α β : Type} {g : State → State} {x : Served α} {f : α → State → Served β}
    (h : ∀ v t, f v (g t) = (f v t).mapState g) : (x.mapState g).andThen f = (x.andThen f).mapState g := by
  cases x with
  | done v t => exact h v t
  | fault a t => rfl
  | noSuchByte => rfl

/-- Taking a share of an access changes the clock at most. -/
theorem State.slice_setClock (s : State) (n : Nat) : ∃ k, (s.slice n).2 = s.setClock k := by
  unfold State.slice State.drawSched
  split
  · exact ⟨⟨s.resp, s.draws.sched, s.draws.turns⟩, rfl⟩
  · cases hs : s.draws.sched with
    | nil => exact ⟨⟨s.resp, [], s.draws.turns + 1⟩, by simp only [State.setClock, ← hs]⟩
    | cons j rest => exact ⟨⟨s.resp, rest, s.draws.turns⟩, rfl⟩

/-- Where the scheduler lets the next access run, it gives all of it: none has more than `2^32` bytes. -/
theorem State.slice_long {s : State} {n : Nat} (hs : s.draws.sched = [2 ^ 32]) (hn : n ≤ 2 ^ 32) : (s.slice n).1 = n := by
  unfold State.slice State.drawSched
  rw [hs]
  split
  · rfl
  · exact min_eq_left (hn.trans (Nat.le_succ _))

section
variable (s : State) (k : Clock) (m : Handle) (p : Nat) (e : Pte) (c : BitVec 32) (addr : Nat) (kind : Access)

/-! ### The stores -/

theorem drawOom_setClock : (s.setClock k).drawOom = (s.drawOom.1, s.drawOom.2.setClock k) := by
  have hd : (s.setClock k).draws.oom = s.draws.oom := rfl
  unfold State.drawOom
  rw [hd]
  cases s.draws.oom <;> rfl

theorem putPte_setClock : (s.setClock k).putPte m p e = (s.putPte m p e).setClock k := by
  have hs : (s.setClock k).space m = s.space m := rfl
  unfold State.putPte
  rw [hs]
  cases s.space m <;> rfl

theorem incRef_setClock (b : Handle) : (s.setClock k).incRef b = (s.incRef b).setClock k := by
  have hb : (s.setClock k).blobs = s.blobs := rfl
  unfold State.incRef
  rw [hb]
  cases mapFind s.blobs b <;> rfl

theorem decRef_setClock (b : Handle) : (s.setClock k).decRef b = (s.decRef b).setClock k := by
  have hb : (s.setClock k).blobs = s.blobs := rfl
  unfold State.decRef
  rw [hb]
  cases mapFind s.blobs b with
  | none => rfl
  | some blob => simp only; split <;> rfl

theorem install_setClock : (s.setClock k).install m p e = (s.install m p e).setClock k := by
  unfold State.install
  rw [putPte_setClock, incRef_setClock]

theorem remove_setClock : (s.setClock k).remove m p = (s.remove m p).setClock k := by
  have hs : (s.setClock k).space m = s.space m := rfl
  unfold State.remove
  rw [hs]
  cases s.space m with
  | none => rfl
  | some sp =>
    simp only
    cases mapFind sp.pages p with
    | none => rfl
    | some old => exact decRef_setClock (s.setSpace m _) k old.blob

theorem replace_setClock : (s.setClock k).replace m p e = (s.replace m p e).setClock k := by
  unfold State.replace
  rw [remove_setClock, install_setClock]

theorem bump_setClock : (s.setClock k).bump m = (s.bump m).setClock k := by
  have hs : (s.setClock k).space m = s.space m := rfl
  unfold State.bump
  rw [hs]
  cases s.space m <;> rfl

theorem newBlob_setClock (cells : Memory) (len : Nat) :
    (s.setClock k).newBlob cells len = ((s.newBlob cells len).1, (s.newBlob cells len).2.setClock k) := rfl

/-! ### Translation (R331–R335) -/

theorem grow_setClock : (s.setClock k).grow m p = ((s.grow m p).1, (s.grow m p).2.setClock k) := by
  have hs : (s.setClock k).space m = s.space m := rfl
  unfold State.grow
  rw [hs, drawOom_setClock]
  cases (s.space m).bind fun sp => nextAbove sp.pages p with
  | none => rfl
  | some above =>
    simp only [newBlob_setClock, install_setClock, bump_setClock]
    split
    · split <;> rfl
    · rfl

theorem duplicate_setClock : (s.setClock k).duplicate m p e = ((s.duplicate m p e).1, (s.duplicate m p e).2.setClock k) := by
  have hb : (s.setClock k).blobs = s.blobs := rfl
  unfold State.duplicate
  rw [hb, drawOom_setClock]
  simp only [newBlob_setClock, replace_setClock, bump_setClock]
  split
  · rfl
  · cases mapFind s.blobs e.blob with
    | none => rfl
    | some old => simp only; split <;> rfl

theorem translateMapped_setClock : (s.setClock k).translateMapped m addr kind e =
    ((s.translateMapped m addr kind e).1, (s.translateMapped m addr kind e).2.setClock k) := by
  unfold State.translateMapped
  cases kind with
  | read => rfl
  | write =>
    simp only [duplicate_setClock]
    split
    · split
      · rcases s.duplicate m (pageOf addr) e with ⟨_ | _ | _, t⟩ <;> rfl
      · rfl
    · rfl

theorem translate_setClock : (s.setClock k).translate m addr kind =
    ((s.translate m addr kind).1, (s.translate m addr kind).2.setClock k) := by
  have hs : (s.setClock k).space m = s.space m := rfl
  have hp : (s.setClock k).pte m (pageOf addr) = s.pte m (pageOf addr) := rfl
  unfold State.translate
  rw [hs, hp, grow_setClock]
  split
  · rfl
  · cases s.pte m (pageOf addr) with
    | some e => exact translateMapped_setClock s k m e addr kind
    | none =>
      rcases s.grow m (pageOf addr) with ⟨_ | e, t⟩
      · rfl
      · exact translateMapped_setClock t k m e addr kind

/-! ### Accesses (R361–R366) -/

theorem genTest_setClock : (s.setClock k).genTest c = (s.genTest c).setClock k := by
  have ha : (s.setClock k).attached c = s.attached c := rfl
  have hp : (s.setClock k).params = s.params := rfl
  have ht : (s.setClock k).tlb c = s.tlb c := rfl
  unfold State.genTest State.revalidate
  rw [ha, hp, ht]
  split
  · cases s.attached c with
    | none => rfl
    | some a => simp only; split <;> rfl
  · rfl

theorem reach_setClock : (s.setClock k).reach c addr kind = ((s.reach c addr kind).1, (s.reach c addr kind).2.setClock k) := by
  have hl : ((s.genTest c).setClock k).lookup c (pageOf addr) kind = (s.genTest c).lookup c (pageOf addr) kind := rfl
  have hm : ((s.genTest c).setClock k).tlb c = (s.genTest c).tlb c := rfl
  unfold State.reach
  simp only [genTest_setClock, hl, hm]
  cases (s.genTest c).lookup c (pageOf addr) kind with
  | some slot => rfl
  | none =>
    cases ((s.genTest c).tlb c).mem with
    | none => rfl
    | some m =>
      simp only [translate_setClock]
      rcases (s.genTest c).translate m addr kind with ⟨_ | _ | _, t⟩ <;> rfl

theorem locate_setClock (place : Place) :
    (s.setClock k).locate c place kind = ((s.locate c place kind).1, (s.locate c place kind).2.setClock k) := by
  unfold State.locate
  cases place.host with
  | none => exact reach_setClock s k c place.addr kind
  | some bo => rfl

theorem storeHost_setClock (b : Handle) (off : Int) (v : Byte) :
    (s.setClock k).storeHost b off v = (s.storeHost b off v).map (·.setClock k) := by
  have hh : (s.setClock k).hostBlob b = s.hostBlob b := rfl
  have hb : (s.setClock k).blobs = s.blobs := rfl
  unfold State.storeHost
  rw [hh, hb]
  cases s.hostBlob b with
  | none => rfl
  | some blob =>
    simp only
    split
    · cases mapFind s.blobs b <;> rfl
    · rfl

theorem readOne_setClock (place : Place) : (s.setClock k).readOne c place = (s.readOne c place).mapState (·.setClock k) := by
  unfold State.readOne
  rw [locate_setClock]
  rcases s.locate c place .read with ⟨⟨b, o⟩ | _ | _, t⟩
  · have hb : (t.setClock k).hostByte b o = t.hostByte b o := rfl
    simp only [hb]
    cases t.hostByte b o <;> rfl
  · rfl
  · rfl

theorem readRun_setClock (n : Nat) (place : Place) :
    (s.setClock k).readRun c n place = (s.readRun c n place).mapState (·.setClock k) := by
  induction n generalizing s place with
  | zero => rfl
  | succ n ih =>
    simp only [State.readRun, readOne_setClock]
    refine Served.mapState_andThen fun one t => ?_
    rw [ih]
    exact Served.mapState_andThen fun _ _ => rfl

theorem writeOne_setClock (place : Place) (v : Byte) :
    (s.setClock k).writeOne c place v = (s.writeOne c place v).mapState (·.setClock k) := by
  unfold State.writeOne
  rw [locate_setClock]
  rcases s.locate c place .write with ⟨⟨b, o⟩ | _ | _, t⟩
  · simp only [storeHost_setClock]
    cases t.storeHost b o v <;> rfl
  · rfl
  · rfl

theorem writeRun_setClock (data : List Byte) (place : Place) :
    (s.setClock k).writeRun c data place = (s.writeRun c data place).mapState (·.setClock k) := by
  induction data generalizing s place with
  | nil => rfl
  | cons v rest ih =>
    simp only [State.writeRun, writeOne_setClock]
    exact Served.mapState_andThen fun next t => ih t next

theorem move_setClock (n : Nat) (x : Transfer) : (s.setClock k).move c n x = (s.move c n x).mapState (·.setClock k) := by
  unfold State.move
  cases x.job with
  | read left got => simp only [readRun_setClock]; exact Served.mapState_andThen fun _ _ => rfl
  | write rest => simp only [writeRun_setClock]; exact Served.mapState_andThen fun _ _ => rfl
  | disp base index shift reg left got => simp only [readRun_setClock]; exact Served.mapState_andThen fun _ _ => rfl

theorem fetch8_setClock (a : BitVec 32) : (s.setClock k).fetch8 c a = (s.fetch8 c a).mapState (·.setClock k) := by
  simp only [State.fetch8, readOne_setClock]
  exact Served.mapState_andThen fun _ _ => rfl

theorem decodeMem_setClock (a : BitVec 32) (mod : BitVec 2) (reg : BitVec 3) (adr : Addressing) :
    (s.setClock k).decodeMem c a mod reg adr = (s.decodeMem c a mod reg adr).mapState (·.setClock k) := by
  unfold State.decodeMem
  split
  · rw [fetch8_setClock]
    exact Served.mapState_andThen fun _ _ => rfl
  · split <;> rfl

theorem decodeModRm_setClock (cursor : BitVec 32) :
    (s.setClock k).decodeModRm c cursor = (s.decodeModRm c cursor).mapState (·.setClock k) := by
  simp only [State.decodeModRm, fetch8_setClock]
  refine Served.mapState_andThen fun b t => ?_
  split
  · rfl
  · split
    · rw [fetch8_setClock]
      exact Served.mapState_andThen fun sib u => decodeMem_setClock u k c _ _ _ _
    · exact decodeMem_setClock t k c _ _ _ _

end

/-! ### A whole access -/

/-- What an access that has done its share becomes. -/
def finish (c : BitVec 32) : Served Transfer → Out
  | .done y t => if y.left = 0 then .next (t.ok y.results) else .next (t.park c y)
  | .fault a t => .next (t.pageFault c a)
  | .noSuchByte => .fault .noSuchByte

theorem advance_eq_finish (s : State) (c : BitVec 32) (x : Transfer) :
    s.advance c x = finish c ((s.slice x.left).2.move c (s.slice x.left).1 x) := by
  unfold State.advance finish
  split <;> simp_all

/-- Going on with an access is moving its share of bytes, and ending under the clock that the scheduler left. -/
theorem advance_of_slice {s : State} {x : Transfer} {n : Nat} {k : Clock} (hk : (s.slice x.left).2 = s.setClock k)
    (hn : (s.slice x.left).1 = n) (c : BitVec 32) :
    s.advance c x = finish c ((s.move c n x).mapState (·.setClock k)) := by
  rw [advance_eq_finish, hk, hn, move_setClock]

end Sys2Proof.Machine
end

section
/-! SUPPORT. From the invariant of the block on, every byte an access comes to is one that some blob has (spec/10_state.md
R41; log 14); and a translation that fails leaves the stores alone (spec/43_address_space.md R331–R334). -/

namespace Sys2Proof.Machine

/-! ### Translation (R331–R335) -/

/-- Only an entry that names bytes no blob has stops a duplication. -/
theorem duplicate_answers {s : State} (h : Tables s) {m : Handle} {p : Nat} {e : Pte} (he : s.pte m p = some e) :
    (s.duplicate m p e).1 ≠ none := by
  obtain ⟨old, ho, hl⟩ := h.counted.backed m p e he
  unfold State.duplicate
  split
  · simp
  · simp [ho, hl]

theorem translateMapped_answers {s : State} (h : Tables s) {m : Handle} {addr : Nat} (kind : Access) {e : Pte}
    (he : s.pte m (pageOf addr) = some e) : (s.translateMapped m addr kind e).1 ≠ .noSuchByte := by
  have hd := duplicate_answers h he
  unfold State.translateMapped
  cases kind with
  | read => exact nofun
  | write =>
    simp only
    split
    · split
      · split
        · exact nofun
        · exact nofun
        · next heq => rw [heq] at hd; exact absurd rfl hd
      · exact nofun
    · exact nofun

theorem translate_answers {s : State} (h : Tables s) (m : Handle) {addr : Nat} (ha : addr < 2 ^ 32) (kind : Access) :
    (s.translate m addr kind).1 ≠ .noSuchByte := by
  unfold State.translate
  split
  · exact nofun
  · split
    · next e he => exact translateMapped_answers h kind he
    · next hp =>
      have hg := grow_tables h (pageOf_lt ha) hp
      split
      · exact nofun
      · next heq => rw [heq] at hg; exact translateMapped_answers hg.1 kind (hg.2 _ rfl)

/-- The address spaces and the blobs, deleted ones among them, are as before. -/
def sameStores (s t : State) : Prop := t.mems = s.mems ∧ t.blobs = s.blobs ∧ t.graves = s.graves

theorem sameStores.refl (s : State) : sameStores s s := ⟨rfl, rfl, rfl⟩

theorem sameStores.trans {s t u : State} (h : sameStores s t) (g : sameStores t u) : sameStores s u :=
  ⟨g.1.trans h.1, g.2.1.trans h.2.1, g.2.2.trans h.2.2⟩

theorem drawOom_sameStores (s : State) : sameStores s s.drawOom.2 := ⟨by simp, by simp, by simp⟩

theorem grow_sameStores_of_error {s t : State} {m : Handle} {p : Nat} {f : Failure} (h : s.grow m p = (.error f, t)) :
    sameStores s t := by
  unfold State.grow at h
  split at h
  · cases h; exact .refl s
  · split at h
    · split at h
      · cases h; exact drawOom_sameStores s
      · cases h
    · cases h; exact .refl s

/-- A page that growth has made can be read and written (R332). -/
theorem grow_flags {s t : State} {m : Handle} {p : Nat} {e : Pte} (h : s.grow m p = (.ok e, t)) : e.flags = grownFlags := by
  unfold State.grow at h
  split at h
  · cases h
  · split at h
    · split at h
      · cases h
      · cases h; rfl
    · cases h

theorem duplicate_sameStores_of_error {s t : State} {m : Handle} {p : Nat} {e : Pte} {f : Failure}
    (h : s.duplicate m p e = (some (.error f), t)) : sameStores s t := by
  unfold State.duplicate at h
  split at h
  · cases h; exact drawOom_sameStores s
  · split at h
    · cases h
    · split at h <;> cases h

theorem translateMapped_sameStores_of_fail {s t : State} {m : Handle} {addr : Nat} {kind : Access} {e : Pte} {f : Failure}
    (h : s.translateMapped m addr kind e = (.fail f, t)) : sameStores s t := by
  unfold State.translateMapped at h
  cases kind with
  | read => cases h
  | write =>
    simp only at h
    split at h
    · split at h
      · split at h
        · cases h
        · next heq => cases h; exact duplicate_sameStores_of_error heq
        · cases h
      · cases h
    · cases h; exact .refl s

/-- A page that growth has made needs no more to be written. -/
theorem translateMapped_of_grown {s : State} {e : Pte} (hf : e.flags = grownFlags) (m : Handle) (addr : Nat) (kind : Access) :
    s.translateMapped m addr kind e = (e.pointer addr, s) := by
  unfold State.translateMapped
  rw [hf]
  cases kind <;> rfl

/-- A translation that fails leaves the stores alone (R331). -/
theorem translate_sameStores_of_fail {s t : State} {m : Handle} {addr : Nat} {kind : Access} {f : Failure}
    (h : s.translate m addr kind = (.fail f, t)) : sameStores s t := by
  unfold State.translate at h
  split at h
  · cases h; exact .refl s
  · split at h
    · exact translateMapped_sameStores_of_fail h
    · split at h
      · next heq => cases h; exact grow_sameStores_of_error heq
      · next heq => rw [translateMapped_of_grown (grow_flags heq)] at h; cases h

/-! ### Reaching an address (R361–R365) -/

theorem genTest_sameStores (s : State) (c : BitVec 32) : sameStores s (s.genTest c) := by
  unfold State.genTest State.revalidate
  split
  · split
    · exact .refl s
    · split <;> exact ⟨rfl, rfl, rfl⟩
  · exact .refl s

theorem reach_answers {s : State} (h : Sound s) (c : BitVec 32) {addr : Nat} (ha : addr < 2 ^ 32) (kind : Access) :
    (s.reach c addr kind).1 ≠ .noSuchByte := by
  unfold State.reach
  simp only
  split
  · exact nofun
  · split
    · exact nofun
    · next m _ =>
      have ht := translate_answers (h.genTest c).tables m ha kind
      split
      · exact nofun
      · exact nofun
      · next heq => rw [heq] at ht; exact absurd rfl ht

/-- A page fault leaves the stores alone (R367). -/
theorem reach_sameStores_of_fault {s t : State} {c : BitVec 32} {addr : Nat} {kind : Access}
    (h : s.reach c addr kind = (.fault, t)) : sameStores s t := by
  have hg := genTest_sameStores s c
  unfold State.reach at h
  simp only at h
  split at h
  · cases h
  · split at h
    · cases h; exact hg
    · split at h
      · cases h
      · next heq => cases h; exact hg.trans (translate_sameStores_of_fail heq)
      · cases h

theorem reach_transfer (s : State) (c : BitVec 32) (addr : Nat) (kind : Access) :
    (s.reach c addr kind).2.transfer c = s.transfer c := by
  have hg : (s.genTest c).transfer c = s.transfer c := by
    unfold State.genTest State.revalidate State.emptyTlb
    split
    · split
      · rfl
      · split <;> simp
    · rfl
  have hc : ∀ m, ((s.genTest c).translate m addr kind).2.transfer c = s.transfer c := fun m => by
    rw [← hg, State.transfer, State.transfer, State.ctx_congr (translate_sameRest _ m addr kind).2.1]
  unfold State.reach
  simp only
  split
  · exact hg
  · split
    · exact hg
    · next m _ =>
      have ht := hc m
      split <;> rename_i heq <;> rw [heq] at ht <;> simpa [State.fill] using ht

theorem locate_answers {s : State} (h : Sound s) (c : BitVec 32) {place : Place} (hp : s.placeOk place) (kind : Access) :
    (s.locate c place kind).1 ≠ .noSuchByte := by
  unfold State.locate
  split
  · exact nofun
  · exact reach_answers h c hp.1 kind

/-- A good pointer reads a byte. -/
theorem holdsPage_hostByte {s : State} {addr : Nat} {b : Handle} {o : Int} (h : s.holdsPage addr b o) :
    ∃ v, s.hostByte b o = some v := by
  obtain ⟨blob, hb, h0, hl⟩ := h
  have hlt : o.toNat < blob.len := by unfold pageSize at hl; omega
  exact ⟨_, by simp [State.hostByte, hb, h0, hlt]; rfl⟩

/-- A good pointer stores a byte, or loses it on a deleted blob (log 13). -/
theorem holdsPage_storeHost {s : State} {addr : Nat} {b : Handle} {o : Int} (h : s.holdsPage addr b o) (v : Byte) :
    ∃ t, s.storeHost b o v = some t := by
  obtain ⟨blob, hb, h0, hl⟩ := h
  have hlt : o.toNat < blob.len := by unfold pageSize at hl; omega
  unfold State.storeHost
  rw [hb]
  simp only
  rw [if_pos ⟨h0, hlt⟩]
  cases mapFind s.blobs b <;> exact ⟨_, rfl⟩

/-! ### Accesses -/

/-- An access comes to no byte that no blob has (log 14). -/
def Served.Answers {α : Type} : Served α → Prop
  | .noSuchByte => False
  | _ => True

theorem Served.Answers.andThen {α β : Type} {P : State → Prop} {Q : α → State → Prop} {x : Served α}
    {f : α → State → Served β} (h : x.Answers) (hm : x.Meets P Q) (hf : ∀ v t, Q v t → (f v t).Answers) :
    (x.andThen f).Answers := by
  cases x with
  | done v t => exact hf v t hm
  | fault a t => trivial
  | noSuchByte => exact h

theorem readOne_answers {s : State} (h : Sound s) (c : BitVec 32) {place : Place} (hp : s.placeOk place) :
    (s.readOne c place).Answers := by
  have hl := locate_sound h c hp .read
  have ha := locate_answers h c hp .read
  unfold State.readOne
  split
  · next heq =>
    rw [heq] at hl
    obtain ⟨v, hv⟩ := holdsPage_hostByte (hl.2 _ _ rfl)
    rw [hv]
    trivial
  · trivial
  · next heq => rw [heq] at ha; exact ha rfl

theorem readRun_answers {s : State} (h : Sound s) (c : BitVec 32) (n : Nat) {place : Place} (hp : s.placeOk place) :
    (s.readRun c n place).Answers := by
  induction n generalizing s place with
  | zero => trivial
  | succ n ih =>
    refine (readOne_answers h c hp).andThen (readOne_sound h c hp) fun one t ht => ?_
    exact (ih ht.1 ht.2.1).andThen (readRun_sound ht.1 c n ht.2.1) fun _ _ _ => trivial

theorem writeOne_answers {s : State} (h : Sound s) (c : BitVec 32) {place : Place} (hp : s.placeOk place) (v : Byte) :
    (s.writeOne c place v).Answers := by
  have hl := locate_sound h c hp .write
  have ha := locate_answers h c hp .write
  unfold State.writeOne
  split
  · next heq =>
    rw [heq] at hl
    obtain ⟨u, hu⟩ := holdsPage_storeHost (hl.2 _ _ rfl) v
    rw [hu]
    trivial
  · trivial
  · next heq => rw [heq] at ha; exact ha rfl

theorem writeRun_answers {s : State} (h : Sound s) (c : BitVec 32) (data : List Byte) {place : Place} (hp : s.placeOk place) :
    (s.writeRun c data place).Answers := by
  induction data generalizing s place with
  | nil => trivial
  | cons v rest ih =>
    exact (writeOne_answers h c hp v).andThen (writeOne_sound h c hp v) fun next t ht => ih ht.1 ht.2.1

theorem move_answers {s : State} (h : Sound s) (c : BitVec 32) (k : Nat) {x : Transfer} (hp : s.placeOk x.place) :
    (s.move c k x).Answers := by
  unfold State.move
  split
  · exact (readRun_answers h c k hp).andThen (readRun_sound h c k hp) fun _ _ _ => trivial
  · exact (writeRun_answers h c _ hp).andThen (writeRun_sound h c _ hp) fun _ _ _ => trivial
  · exact (readRun_answers h c k hp).andThen (readRun_sound h c k hp) fun _ _ _ => trivial

/-- An access keeps, of its own context, the access under way that it was taken from. -/
theorem move_transfer (s : State) (c : BitVec 32) (k : Nat) (x : Transfer) :
    (s.move c k x).Ends fun t => t.transfer c = s.transfer c :=
  move_ends (R := fun s t => t.transfer c = s.transfer c) (fun _ => rfl) (fun _ _ _ h g => g.trans h)
    (fun s a kind => reach_transfer s c a kind)
    (fun _ _ _ _ _ h => by rw [State.transfer, State.transfer, State.ctx_congr (storeHost_sameRest h).2.1]) s k x

theorem decodeModRm_transfer (s : State) (c cursor : BitVec 32) :
    (s.decodeModRm c cursor).Ends fun t => t.transfer c = s.transfer c :=
  decodeModRm_ends (R := fun s t => t.transfer c = s.transfer c) (fun _ => rfl) (fun _ _ _ h g => g.trans h)
    (fun s a => reach_transfer s c a .read) s cursor

end Sys2Proof.Machine
end

section
/-! SUPPORT. Whole accesses and faulting ones (spec/20_memory.md R77; spec/44_tlb.md R362, R363, R366, R367): what an access
that runs to its end answers, and that a faulting write is one cut short at a piece's start. -/

namespace Sys2Proof.Machine

/-! ### The commands as accesses -/

/-- Where an access of a command begins: at its first address, with no host pointer yet. -/
abbrev Place.start (addr : BitVec 32) : Place := { addr := addr.toNat, host := none }

theorem exec_tlbRead_advance {s : State} {c addr n : BitVec 32} (ha : (s.attached c).isSome = true)
    (hb : addr.toNat + n.toNat ≤ 2 ^ 32) :
    exec (.tlbRead c addr n) s = s.advance c { place := .start addr, job := .read n.toNat [] } := by
  have hp : pastTop addr.toNat n.toNat = false := decide_eq_false (Nat.not_lt.2 hb)
  simp only [exec, execTlbRead, hp, Option.isNone_eq_false_iff.2 ha]
  rfl

theorem exec_tlbWrite_advance {s : State} {c addr : BitVec 32} {data : List Byte} (ha : (s.attached c).isSome = true)
    (hb : addr.toNat + data.length ≤ 2 ^ 32) :
    exec (.tlbWrite c addr data) s = s.advance c { place := .start addr, job := .write data } := by
  have hp : pastTop addr.toNat data.length = false := decide_eq_false (Nat.not_lt.2 hb)
  simp only [exec, execTlbWrite, hp, Option.isNone_eq_false_iff.2 ha]
  rfl

theorem isSome_of_not_refused {o : Option (Handle × Space)} {b : Bool} (h : ¬(o.isNone || b) = true) : o.isSome = true := by
  cases o with
  | none => exact absurd rfl h
  | some _ => rfl

/-- A read that is not refused is an access of an attached context within the address space (R72, R362). -/
theorem exec_tlbRead_cases (s : State) (c addr n : BitVec 32) :
    exec (.tlbRead c addr n) s = .next (s.fail .illegalOperand) ∨
      ((s.attached c).isSome = true ∧ addr.toNat + n.toNat ≤ 2 ^ 32) := by
  simp only [exec, execTlbRead]
  split
  · exact .inl rfl
  · next hn => exact .inr ⟨isSome_of_not_refused hn, not_pastTop hn⟩

/-- A write that is not refused likewise (R72, R363). -/
theorem exec_tlbWrite_cases (s : State) (c addr : BitVec 32) (data : List Byte) :
    exec (.tlbWrite c addr data) s = .next (s.fail .illegalOperand) ∨
      ((s.attached c).isSome = true ∧ addr.toNat + data.length ≤ 2 ^ 32) := by
  simp only [exec, execTlbWrite]
  split
  · exact .inl rfl
  · next hn => exact .inr ⟨isSome_of_not_refused hn, not_pastTop hn⟩

/-! ### Moving by runs -/

theorem move_of_readRun {s t : State} {c : BitVec 32} {k left : Nat} {place : Place} {got : List Byte}
    {r : List Byte × Place} (h : s.readRun c k place = .done r t) :
    s.move c k { place := place, job := .read left got } =
      .done { place := r.2, job := .read (left - k) (got ++ r.1) } t := by
  simp [State.move, h, Served.andThen]

theorem move_of_writeRun {s t : State} {c : BitVec 32} {k : Nat} {place next : Place} {rest : List Byte}
    (h : s.writeRun c (rest.take k) place = .done next t) :
    s.move c k { place := place, job := .write rest } = .done { place := next, job := .write (rest.drop k) } t := by
  simp [State.move, h, Served.andThen]

theorem move_of_dispRun {s t : State} {c : BitVec 32} {k left : Nat} {place : Place} {got : List Byte}
    {base index : BitVec 4} {shift : BitVec 2} {reg : BitVec 3} {r : List Byte × Place}
    (h : s.readRun c k place = .done r t) :
    s.move c k { place := place, job := .disp base index shift reg left got } =
      .done { place := r.2, job := .disp base index shift reg (left - k) (got ++ r.1) } t := by
  simp [State.move, h, Served.andThen]

/-- An access that is not stopped and meets no fault answers with all its bytes. -/
theorem advance_whole {s u : State} {c : BitVec 32} {x y : Transfer} {k : Clock} (hk : (s.slice x.left).2 = s.setClock k)
    (hs : (s.slice x.left).1 = x.left) (hm : s.move c x.left x = .done y u) :
    s.advance c x = .next ((u.setClock k).ok y.results) := by
  have hl : y.left = 0 := by rw [move_left c _ hm, Nat.sub_self]
  rw [advance_of_slice hk hs, hm]
  exact if_pos hl

/-- An access that is stopped is left under way with the bytes it has still to do. -/
theorem advance_stopped {s u : State} {c : BitVec 32} {x y : Transfer} {n : Nat} {k : Clock}
    (hk : (s.slice x.left).2 = s.setClock k) (hs : (s.slice x.left).1 = n) (hn : n < x.left)
    (hm : s.move c n x = .done y u) : s.advance c x = .next ((u.setClock k).park c y) := by
  have hl : y.left ≠ 0 := by rw [move_left c _ hm]; omega
  rw [advance_of_slice hk hs, hm]
  exact if_neg hl

/-- A share that covers a shorter access covers all of it. -/
theorem State.slice_of_le {s : State} {m n : Nat} (h : m ≤ (s.slice n).1) : (s.slice m).1 = m := by
  unfold State.slice at *
  split at h <;> split <;> simp only at * <;> omega

/-! ### The places of a run -/

theorem placeAfter_addr (addr : Nat) (b : Handle) (o : Int) : (placeAfter addr b o).addr = (addr + 1) % 2 ^ 32 := rfl

/-- After a byte an access has no host pointer exactly at the start of a page (R366). -/
theorem placeAfter_host (addr : Nat) (b : Handle) (o : Int) :
    (placeAfter addr b o).host = none ↔ (placeAfter addr b o).addr % pageSize = 0 := by
  unfold placeAfter pageSize
  simp only
  split
  · simp only [true_iff]; omega
  · simp only [reduceCtorEq, false_iff]; omega

theorem Served.done_of_andThen {α β : Type} {x : Served α} {f : α → State → Served β} {w : β} {u : State}
    (h : x.andThen f = .done w u) : ∃ v t, x = .done v t ∧ f v t = .done w u := by
  cases x with
  | done v t => exact ⟨v, t, rfl, h⟩
  | fault a t => cases h
  | noSuchByte => cases h

theorem writeOne_done {s t : State} {c : BitVec 32} {place next : Place} {v : Byte}
    (h : s.writeOne c place v = .done next t) : ∃ b o, next = placeAfter place.addr b o := by
  unfold State.writeOne at h
  split at h
  · next b o u _ =>
    split at h <;> cases h
    exact ⟨b, o, rfl⟩
  · cases h
  · cases h

theorem readOne_done {s t : State} {c : BitVec 32} {place : Place} {r : Byte × Place}
    (h : s.readOne c place = .done r t) : ∃ b o, r.2 = placeAfter place.addr b o := by
  unfold State.readOne at h
  split at h
  · next b o u _ =>
    split at h <;> cases h
    exact ⟨b, o, rfl⟩
  · cases h
  · cases h

/-- A byte faults at the first address of a piece only, and leaves the stores alone (R366, R367). -/
theorem writeOne_fault {s t : State} {c : BitVec 32} {place : Place} {v : Byte} {a : Nat}
    (h : s.writeOne c place v = .fault a t) : place.host = none ∧ a = place.addr ∧ sameStores s t := by
  unfold State.writeOne at h
  split at h
  · split at h <;> cases h
  · next u hl =>
    cases h
    unfold State.locate at hl
    split at hl
    · cases hl
    · next hh => exact ⟨hh, rfl, reach_sameStores_of_fault hl⟩
  · cases h

/-- A run of written bytes that faults has done those before the faulting piece. -/
theorem writeRun_fault {c : BitVec 32} {data : List Byte} {s t : State} {place : Place} {a : Nat}
    (hb : place.addr + data.length ≤ 2 ^ 32) (h : s.writeRun c data place = .fault a t) :
    ∃ n next u, n < data.length ∧ s.writeRun c (data.take n) place = .done next u ∧ a = place.addr + n ∧
      sameStores u t ∧ ((n = 0 ∧ place.host = none) ∨ a % pageSize = 0) := by
  induction data generalizing s place with
  | nil => cases h
  | cons v rest ih =>
    rw [List.length_cons] at hb
    rw [State.writeRun] at h
    cases h1 : s.writeOne c place v with
    | noSuchByte => rw [h1] at h; cases h
    | fault a' t' =>
      rw [h1] at h
      cases h
      obtain ⟨hh, rfl, hs⟩ := writeOne_fault h1
      exact ⟨0, place, s, by simp, rfl, rfl, hs, .inl ⟨rfl, hh⟩⟩
    | done next u =>
      rw [h1] at h
      cases rest with
      | nil => cases h
      | cons w more =>
        obtain ⟨b, o, rfl⟩ := writeOne_done h1
        have haddr : (placeAfter place.addr b o).addr = place.addr + 1 := by
          rw [placeAfter_addr]
          simp only [List.length_cons] at hb
          omega
        obtain ⟨n, last, w', hn, hw, rfl, hs, hp⟩ := ih (by rw [haddr]; omega) h
        refine ⟨n + 1, last, w', Nat.succ_lt_succ hn, ?_, by rw [haddr]; omega, hs, .inr ?_⟩
        · rw [List.take_succ_cons, State.writeRun, h1]
          exact hw
        · rcases hp with ⟨rfl, hh⟩ | hp
          · exact (placeAfter_host place.addr b o).1 hh
          · exact hp

/-- Settles O51: the share that was given covers the shorter write too, which so is that share up to the faulting piece. -/
theorem faultKeepsEarlierPieces : Obligations.FaultKeepsEarlierPieces := by
  intro s t c addr data a he hr
  obtain hrefused | ⟨ha, hb⟩ := exec_tlbWrite_cases s c addr data
  · rw [hrefused] at he
    cases he
    cases hr
  obtain ⟨k, hk⟩ := s.slice_setClock data.length
  have hle := s.slice_le data.length
  rw [exec_tlbWrite_advance ha hb, advance_of_slice hk rfl, State.move] at he
  simp only [Transfer.left] at he
  cases hw : s.writeRun c (data.take (s.slice data.length).1) (.start addr) with
  | noSuchByte => rw [hw] at he; cases he
  | done next u =>
    rw [hw] at he
    simp only [Served.andThen, Served.mapState, finish] at he
    split at he <;> cases he <;> cases hr
  | fault p u =>
    rw [hw] at he
    cases he
    cases hr
    obtain ⟨n, next, w, hn, hrun, rfl, ⟨hm, hbl, -⟩, hp⟩ := writeRun_fault (by simp only [List.length_take]; omega) hw
    rw [List.length_take] at hn
    rw [List.take_take, min_eq_left (by omega)] at hrun
    have hlen : (data.take n).length = n := by rw [List.length_take]; omega
    have hat : (BitVec.ofNat 32 (addr.toNat + n)).toNat = addr.toNat + n := by
      rw [BitVec.toNat_ofNat, Nat.mod_eq_of_lt (by omega)]
    have hs : (s.slice (data.take n).length).1 = (data.take n).length := State.slice_of_le (n := data.length) (by omega)
    obtain ⟨k', hk'⟩ := s.slice_setClock (data.take n).length
    rw [hat, Nat.add_sub_cancel_left]
    refine ⟨by omega, by omega, ?_, by simp [State.pageFault], (w.setClock k').ok .none, ?_, rfl, hm, hbl⟩
    · rcases hp with ⟨rfl, -⟩ | hp
      · exact .inl (by simp)
      · exact .inr hp
    · rw [exec_tlbWrite_advance ha (by omega)]
      exact advance_whole (x := { place := .start addr, job := .write (data.take n) }) hk' hs
        (move_of_writeRun (by rwa [Transfer.left, List.take_length]))

end Sys2Proof.Machine
end

section
/-! SUPPORT. Bytes within one piece (spec/20_memory.md R93; spec/44_tlb.md R364, R366; log 13): what a run reads and stores
through the host pointer the piece was given, and what a hit serves. -/

namespace Sys2Proof.Machine

/-! ### Reading through a host pointer -/

theorem hostByte_of_hostBlob {s : State} {b : Handle} {o : Int} {x : Blob} (hx : s.hostBlob b = some x) (h0 : 0 ≤ o)
    (hl : o.toNat < x.len) : s.hostByte b o = some (Memory.read x.cells o.toNat) := by
  simp [State.hostByte, hx, h0, hl]

/-- Within a page, the place after a byte has the page's next host pointer (R366). -/
theorem placeAfter_within {addr : Nat} (h : addr % pageSize + 2 ≤ pageSize) (b : Handle) (o : Int) :
    placeAfter addr b o = { addr := (addr + 1) % 2 ^ 32, host := some (b, o + 1) } := by
  unfold placeAfter pageSize at *
  rw [if_neg (by omega)]

/-- A run within a page reads the blob's bytes as they are, and changes nothing (R364, R366). -/
theorem readRun_within {s : State} (c : BitVec 32) {b : Handle} {x : Blob} (hx : s.hostBlob b = some x) {addr n : Nat}
    {o : Int} (h0 : 0 ≤ o) (hl : o.toNat + n ≤ x.len) (ha : addr < 2 ^ 32) (hp : addr % pageSize + n ≤ pageSize) :
    ∃ last, s.readRun c n { addr := addr, host := some (b, o) } = .done (readBytes x.cells o.toNat n, last) s ∧
      last.addr = (addr + n) % 2 ^ 32 := by
  induction n generalizing addr o with
  | zero => exact ⟨_, rfl, (Nat.mod_eq_of_lt ha).symm⟩
  | succ n ih =>
    have hone : s.readOne c { addr := addr, host := some (b, o) } =
        .done (Memory.read x.cells o.toNat, placeAfter addr b o) s := by
      simp [State.readOne, State.locate, hostByte_of_hostBlob hx h0 (show o.toNat < x.len by omega)]
    rw [State.readRun, hone]
    cases n with
    | zero => exact ⟨_, rfl, placeAfter_addr addr b o⟩
    | succ n =>
      have ho : (o + 1).toNat = o.toNat + 1 := by omega
      obtain ⟨last, hr, hlast⟩ := ih (addr := (addr + 1) % 2 ^ 32) (o := o + 1) (by omega) (by omega) (by omega)
        (by unfold pageSize at *; omega)
      rw [placeAfter_within (by omega)]
      simp only [Served.andThen, hr, ho]
      exact ⟨last, rfl, by omega⟩

/-! ### Storing through a host pointer -/

/-- Bytes are stored in a blob from an offset on, where it is live, and nothing else has changed (R364; log 13). -/
structure Stored (s t : State) (b : Handle) (o : Nat) (data : List Byte) : Prop where
  rest : sameRest s t
  mems : t.mems = s.mems
  graves : t.graves = s.graves
  draws : t.draws = s.draws
  live : ∀ a, (mapFind t.blobs a).isSome = (mapFind s.blobs a).isSome
  lost : mapFind s.blobs b = none → t.blobs = s.blobs
  bytes : (mapFind s.blobs b).isSome = true → ∀ k, k < data.length → t.byteAt b (o + k) = data[k]?
  others : ∀ a p, a ≠ b ∨ p < o ∨ o + data.length ≤ p → t.byteAt a p = s.byteAt a p

theorem Stored.refl (s : State) (b : Handle) (o : Nat) : Stored s s b o [] where
  rest := .refl s
  mems := rfl
  graves := rfl
  draws := rfl
  live _ := rfl
  lost _ := rfl
  bytes _ k hk := absurd hk (Nat.not_lt_zero k)
  others _ _ _ := rfl

theorem Stored.cons {s t u : State} {b : Handle} {o : Nat} {v : Byte} {rest : List Byte} (h : Stored s t b o [v])
    (g : Stored t u b (o + 1) rest) : Stored s u b o (v :: rest) where
  rest := h.rest.trans g.rest
  mems := g.mems.trans h.mems
  graves := g.graves.trans h.graves
  draws := g.draws.trans h.draws
  live a := (g.live a).trans (h.live a)
  lost hb := by
    have ht : mapFind t.blobs b = none := by rw [h.lost hb]; exact hb
    exact (g.lost ht).trans (h.lost hb)
  bytes hb k hk := by
    cases k with
    | zero => exact (g.others b o (.inr (.inl (Nat.lt_succ_self o)))).trans (h.bytes hb 0 Nat.one_pos)
    | succ k =>
      rw [show o + (k + 1) = o + 1 + k by omega]
      exact g.bytes ((h.live b).trans hb) k (Nat.lt_of_succ_lt_succ hk)
  others a p hp := by
    rw [List.length_cons] at hp
    exact (g.others a p (hp.imp_right (Or.imp (by omega) (by omega)))).trans
      (h.others a p (hp.imp_right (Or.imp_right (by rw [List.length_singleton]; omega))))

theorem storeHost_stored {s t : State} {b : Handle} {o : Int} {v : Byte} (h : s.storeHost b o v = some t) :
    Stored s t b o.toNat [v] := by
  have hrest := storeHost_sameRest h
  unfold State.storeHost at h
  split at h
  · cases h
  · split at h
    · cases hb : mapFind s.blobs b with
      | none =>
        rw [hb] at h
        cases h
        exact ⟨hrest, rfl, rfl, rfl, fun _ => rfl, fun _ => rfl, by simp [hb], fun _ _ _ => rfl⟩
      | some live =>
        rw [hb] at h
        cases h
        refine ⟨hrest, rfl, rfl, rfl, fun a => ?_, by simp [hb], fun _ k hk => ?_, fun a p hp => ?_⟩
        · simp only [mapFind_put]
          split
          · next ha => rw [ha, hb]; rfl
          · rfl
        · obtain rfl : k = 0 := by simpa using hk
          simp [State.byteAt, Memory.read_write]
        · simp only [State.byteAt, mapFind_put]
          split
          · next ha =>
            have hne : p ≠ o.toNat := by
              simp only [List.length_singleton] at hp
              rintro rfl
              exact hp.elim (absurd ha) (by omega)
            rw [ha, hb, Option.map_some, Option.map_some, Memory.read_write, if_neg hne]
          · rfl
    · cases h

/-- A run within a page stores its bytes in the blob as it is now, and does nothing else (R364, R366). -/
theorem writeRun_within {s : State} (c : BitVec 32) {b : Handle} {x : Blob} (hx : s.hostBlob b = some x) {addr : Nat}
    {data : List Byte} {o : Int} (h0 : 0 ≤ o) (hl : o.toNat + data.length ≤ x.len)
    (hp : addr % pageSize + data.length ≤ pageSize) :
    ∃ last t, s.writeRun c data { addr := addr, host := some (b, o) } = .done last t ∧ Stored s t b o.toNat data := by
  induction data generalizing s x addr o with
  | nil => exact ⟨_, _, rfl, .refl s b o.toNat⟩
  | cons v rest ih =>
    rw [List.length_cons] at hl hp
    obtain ⟨t, ht⟩ : ∃ t, s.storeHost b o v = some t := by
      unfold State.storeHost
      rw [hx]
      simp only
      rw [if_pos ⟨h0, by omega⟩]
      cases mapFind s.blobs b <;> exact ⟨_, rfl⟩
    have hone : s.writeOne c { addr := addr, host := some (b, o) } v = .done (placeAfter addr b o) t := by
      simp [State.writeOne, State.locate, ht]
    have hst := storeHost_stored ht
    rw [State.writeRun, hone]
    cases rest with
    | nil => exact ⟨_, _, rfl, hst⟩
    | cons w more =>
      obtain ⟨y, hy, hlen⟩ := storeHost_keepsHost ht b x hx
      have ho : (o + 1).toNat = o.toNat + 1 := by omega
      simp only [List.length_cons] at hl hp
      obtain ⟨last, u, hu, hs⟩ := ih hy (addr := (addr + 1) % 2 ^ 32) (o := o + 1) (by omega)
        (by simp only [List.length_cons]; omega) (by simp only [List.length_cons]; unfold pageSize at *; omega)
      rw [ho] at hs
      rw [placeAfter_within (by omega)]
      exact ⟨last, u, hu, hst.cons hs⟩

/-! ### The first byte of a piece -/

/-- The pointer of a run's first byte is all that the run takes from the lookup. -/
theorem readRun_of_locate {s t : State} {c : BitVec 32} {place other : Place}
    (h : s.locate c place .read = t.locate c other .read) (ha : place.addr = other.addr) (n : Nat) :
    s.readRun c (n + 1) place = t.readRun c (n + 1) other := by
  simp only [State.readRun, State.readOne, h, ha]

theorem writeRun_of_locate {s t : State} {c : BitVec 32} {place other : Place}
    (h : s.locate c place .write = t.locate c other .write) (ha : place.addr = other.addr) (v : Byte) (rest : List Byte) :
    s.writeRun c (v :: rest) place = t.writeRun c (v :: rest) other := by
  simp only [State.writeRun, State.writeOne, h, ha]

/-- Without the generation test a hit is served from the blob its slot names (R361, R364). -/
theorem reach_of_hit {s : State} {c : BitVec 32} {addr : Nat} {kind : Access} {slot : Slot} (hg : s.params.genCheck = false)
    (hf : mapFind (s.tlb c).slots (tlbIndex s.params (pageOf addr)) = some slot) (hh : slot.hits (pageOf addr) kind = true) :
    s.reach c addr kind = (.pointer slot.blob (slot.off + addr), s) := by
  have hgen : s.genTest c = s := by simp [State.genTest, hg]
  have hl : s.lookup c (pageOf addr) kind = some slot := by simp [State.lookup, hf, hh]
  simp only [State.reach, hgen, hl]

/-- A lookup that leaves the state alone is as good as its pointer. -/
theorem locate_start_of_reach {s : State} {c addr : BitVec 32} {kind : Access} {b : Handle} {o : Int}
    (h : s.reach c addr.toNat kind = (.pointer b o, s)) :
    s.locate c (.start addr) kind = s.locate c { addr := addr.toNat, host := some (b, o) } kind := h

/-! ### The generation test (R361) -/

theorem attached_eq {s : State} {c : BitVec 32} {m : Handle} {sp : Space} (hm : (s.tlb c).mem = some m)
    (hs : s.space m = some sp) : s.attached c = some (m, sp) := by
  simp [State.attached, hm, hs]

theorem emptyTlb_attached (s : State) (c : BitVec 32) (gen : Nat) : (s.emptyTlb c gen).attached c = s.attached c := by
  simp only [State.attached, State.emptyTlb, State.setTlb_tlb_same]
  rfl

theorem emptyTlb_slice (s : State) (c : BitVec 32) (gen n : Nat) :
    (s.emptyTlb c gen).slice n = ((s.slice n).1, (s.slice n).2.emptyTlb c gen) := by
  have hd : (s.emptyTlb c gen).draws = s.draws := rfl
  unfold State.slice State.drawSched
  rw [hd]
  split
  · rfl
  · cases s.draws.sched <;> rfl

/-- A cache whose generation has moved is emptied before the lookup. -/
theorem reach_of_stale {s : State} {c : BitVec 32} {m : Handle} {sp : Space} (ha : s.attached c = some (m, sp))
    (hg : s.params.genCheck = true) (hne : sp.gen ≠ (s.tlb c).gen) (addr : Nat) (kind : Access) :
    s.reach c addr kind = (s.emptyTlb c sp.gen).reach c addr kind := by
  have hfirst : s.genTest c = s.emptyTlb c sp.gen := by
    simp only [State.genTest, hg, if_true, State.revalidate, ha, if_neg hne]
  have hagain : (s.emptyTlb c sp.gen).genTest c = s.emptyTlb c sp.gen := by
    have hp : (s.emptyTlb c sp.gen).params = s.params := rfl
    have ht : ((s.emptyTlb c sp.gen).tlb c).gen = sp.gen := by simp [State.emptyTlb]
    simp only [State.genTest, hp, hg, if_true, State.revalidate, emptyTlb_attached, ha, ht]
  simp only [State.reach, hfirst, hagain]

section
variable {s : State} {c : BitVec 32} {m : Handle} {sp : Space} (ha : s.attached c = some (m, sp))
  (hg : s.params.genCheck = true) (hne : sp.gen ≠ (s.tlb c).gen)

include ha hg hne

/-- An access that begins, of any bytes at all, begins on the emptied cache. -/
theorem advance_of_stale {x : Transfer} (hx : x.place.host = none) (hl : 0 < x.left) :
    s.advance c x = (s.emptyTlb c sp.gen).advance c x := by
  obtain ⟨k, hk⟩ := s.slice_setClock x.left
  have hpos := s.slice_pos hl
  have hreach := reach_of_stale (s := s.setClock k) ha hg hne x.place.addr
  rw [advance_eq_finish, advance_eq_finish, emptyTlb_slice, hk]
  obtain ⟨n, hn⟩ := Nat.exists_eq_add_one.2 hpos
  obtain ⟨⟨addr, host⟩, job⟩ := x
  obtain rfl : host = none := hx
  rw [hn]
  congr 1
  have hread := readRun_of_locate (place := ⟨addr, none⟩) (other := ⟨addr, none⟩) (hreach .read) rfl n
  cases job with
  | read left got => simp only [State.move, hread]
  | write rest =>
    cases rest with
    | nil => cases hl
    | cons v more =>
      simp only [State.move, List.take_succ_cons,
        writeRun_of_locate (place := ⟨addr, none⟩) (other := ⟨addr, none⟩) (hreach .write) rfl]
  | disp base index shift reg left got => simp only [State.move, hread]

theorem exec_decModRm_of_stale (cursor : BitVec 32) :
    exec (.decModRm c cursor) s = exec (.decModRm c cursor) (s.emptyTlb c sp.gen) := by
  have hfetch : s.fetch8 c cursor = (s.emptyTlb c sp.gen).fetch8 c cursor := by
    simp only [State.fetch8, State.readOne, State.locate, reach_of_stale ha hg hne]
  simp only [exec, execDecModRm, emptyTlb_attached, ha, State.decodeModRm, hfetch]
  rfl

end

/-! ### Stale hits (R93, R361, R364) -/

section
variable {s : State} {c addr : BitVec 32} {slot : Slot} {x : Blob} (ha : (s.attached c).isSome = true)
  (hg : s.params.genCheck = false) (hf : mapFind (s.tlb c).slots (tlbIndex s.params (pageOf addr.toNat)) = some slot)
  (hx : s.hostBlob slot.blob = some x) (h0 : 0 ≤ slot.off + addr.toNat)

include ha hg hf hx h0

/-- A read that hits answers the bytes of the slot's blob, and changes nothing but the choice taken. -/
theorem exec_tlbRead_of_hit {n : BitVec 32} (hh : slot.page.toNat = pageOf addr.toNat) (hn : 0 < n.toNat)
    (hp : addr.toNat % pageSize + n.toNat ≤ pageSize) (hl : (slot.off + addr.toNat).toNat + n.toNat ≤ x.len)
    (hs : (s.slice n.toNat).1 = n.toNat) :
    exec (.tlbRead c addr n) s =
      .next ((s.slice n.toNat).2.ok (.bytes (readBytes x.cells (slot.off + addr.toNat).toNat n.toNat))) := by
  have haddr := addr.isLt
  obtain ⟨k, hk⟩ := s.slice_setClock n.toNat
  obtain ⟨last, hrun, -⟩ := readRun_within c hx h0 hl haddr hp
  have hhit : slot.hits (pageOf addr.toNat) .read = true := by
    rw [← hh]
    simp [Slot.hits]
  have hstart : s.readRun c n.toNat (.start addr) =
      s.readRun c n.toNat { addr := addr.toNat, host := some (slot.blob, slot.off + addr.toNat) } := by
    obtain ⟨j, hj⟩ := Nat.exists_eq_add_one.2 hn
    rw [hj]
    exact readRun_of_locate (locate_start_of_reach (reach_of_hit hg hf hhit)) rfl j
  rw [exec_tlbRead_advance ha (by unfold pageSize at hp; omega), hk]
  exact advance_whole (x := { place := .start addr, job := .read n.toNat [] }) hk hs
    (move_of_readRun (hstart.trans hrun))

/-- A write that hits stores in the slot's blob where it is live, is lost where it is deleted, and does nothing else. -/
theorem exec_tlbWrite_of_hit {data : List Byte} (hh : slot.pageW = some (BitVec.ofNat 20 (pageOf addr.toNat)))
    (hd : data ≠ []) (hp : addr.toNat % pageSize + data.length ≤ pageSize)
    (hl : (slot.off + addr.toNat).toNat + data.length ≤ x.len) (hs : (s.slice data.length).1 = data.length) :
    ∃ k t, (s.slice data.length).2 = s.setClock k ∧ exec (.tlbWrite c addr data) s = .next ((t.setClock k).ok .none) ∧
      Stored s t slot.blob (slot.off + addr.toNat).toNat data := by
  have haddr := addr.isLt
  obtain ⟨k, hk⟩ := s.slice_setClock data.length
  obtain ⟨last, t, hrun, hst⟩ := writeRun_within c hx h0 hl hp
  have hhit : slot.hits (pageOf addr.toNat) .write = true := by simp [Slot.hits, hh]
  have hstart : s.writeRun c data (.start addr) =
      s.writeRun c data { addr := addr.toNat, host := some (slot.blob, slot.off + addr.toNat) } := by
    obtain ⟨v, rest, rfl⟩ := List.exists_cons_of_ne_nil hd
    exact writeRun_of_locate (locate_start_of_reach (reach_of_hit hg hf hhit)) rfl v rest
  refine ⟨k, t, hk, ?_, hst⟩
  rw [exec_tlbWrite_advance ha (by unfold pageSize at hp; omega)]
  refine advance_whole (x := { place := .start addr, job := .write data }) hk hs (move_of_writeRun (next := last) ?_)
  rw [Transfer.left, List.take_length, hstart, hrun]

end

/-- Settles O52: a hit needs no page table, and a moved generation leaves no hit. -/
theorem staleHits : Obligations.StaleHits := by
  intro s c addr n cursor data m sp hm hsp
  have hatt := attached_eq hm hsp
  have ha : (s.attached c).isSome = true := by rw [hatt]; rfl
  refine ⟨fun slot x hg hf hx h0 => ⟨fun hh hn hp hl hs => exec_tlbRead_of_hit ha hg hf hx h0 hh hn hp hl hs,
    fun hh hd hp hl hs => ?write⟩, fun hg hne => ⟨fun hn hb => ?staleRead, fun hd hb => ?staleWrite,
    exec_decModRm_of_stale hatt hg hne cursor⟩⟩
  case write =>
    obtain ⟨k, t, hk, he, hst⟩ := exec_tlbWrite_of_hit ha hg hf hx h0 hh hd hp hl hs
    refine ⟨_, he, rfl, hst.mems, hst.graves, ?_, ⟨hst.rest.1, hst.rest.2.2, State.ctx_congr hst.rest.2.1⟩, hst.lost,
      hst.bytes, hst.others⟩
    rw [hk]
    show { t.draws with sched := k.sched, turns := k.turns } = { s.draws with sched := k.sched, turns := k.turns }
    rw [hst.draws]
  case staleRead =>
    rw [exec_tlbRead_advance ha hb, exec_tlbRead_advance (by rwa [emptyTlb_attached]) hb]
    exact advance_of_stale hatt hg hne rfl hn
  case staleWrite =>
    rw [exec_tlbWrite_advance ha hb, exec_tlbWrite_advance (by rwa [emptyTlb_attached]) hb]
    exact advance_of_stale hatt hg hne rfl (List.length_pos_iff.2 hd)

end Sys2Proof.Machine
end

section
/-! SUPPORT. An access that goes on (spec/20_memory.md R75, R91–R94; log 15): how it can end, and what it does within a
piece and at the start of one. -/

namespace Sys2Proof.Machine

/-! ### How it ends -/

@[simp] theorem State.park_cpu (s : State) (c : BitVec 32) (x : Transfer) : (s.park c x).cpu c = s.cpu c :=
  State.setTransfer_cpu_same s c _
@[simp] theorem State.park_fpu (s : State) (c : BitVec 32) (x : Transfer) : (s.park c x).fpu c = s.fpu c :=
  State.setTransfer_fpu_same s c _
@[simp] theorem State.park_rm (s : State) (c : BitVec 32) (x : Transfer) : (s.park c x).rm c = s.rm c :=
  State.setTransfer_rm_same s c _
@[simp] theorem State.park_tlb (s : State) (c : BitVec 32) (x : Transfer) : (s.park c x).tlb c = s.tlb c :=
  State.setTransfer_tlb_same s c _
@[simp] theorem State.park_transfer (s : State) (c : BitVec 32) (x : Transfer) : (s.park c x).transfer c = some x :=
  State.setTransfer_transfer_same s c _

theorem setTransfer_onlyCache (s : State) (c : BitVec 32) (x : Option Transfer) : onlyCache c s (s.setTransfer c x) :=
  ⟨rfl, rfl, fun _ hd => State.setTransfer_ctx_other s x hd, by simp, by simp, by simp, by simp⟩

/-- However an access ends, it has changed the cache, `FAULT_ADDR`, what is under way, and the stores at most. -/
theorem accessEnds.sameButAccess {c : BitVec 32} {s u t : State} (ht : accessEnds c u t) (h : onlyCache c s u) :
    sameButAccess c s t := by
  obtain ⟨hparams, hport, hctx, hcpu, hfpu, hrm, hmem⟩ := h
  obtain ⟨r, rfl⟩ | ⟨a, rfl⟩ | ⟨y, rfl⟩ := ht
  · exact ⟨hparams, hport, hctx, by simp [hcpu], hfpu, hrm, hmem⟩
  · exact ⟨hparams, hport, fun d hd => (State.setCpu_ctx_other u _ hd).trans (hctx d hd), by simp [State.pageFault, hcpu],
      by simp [State.pageFault, hfpu], by simp [State.pageFault, hrm], by simp [State.pageFault, hmem]⟩
  · exact ⟨hparams, hport, fun d hd => (State.setTransfer_ctx_other u _ hd).trans (hctx d hd), by simp [hcpu],
      by simp [hfpu], by simp [hrm], by simp [hmem]⟩

/-- An access that is ready answers, faults, or is left under way with fewer bytes, and never comes to bytes no blob has. -/
theorem advance_ends {s : State} (h : Sound s) (c : BitVec 32) {x : Transfer} (hx : x.Ready s) :
    ∃ t u, s.advance c x = .next t ∧ onlyCache c s u ∧ u.transfer c = s.transfer c ∧
      ((∃ r, t = u.ok r) ∨ (∃ a, t = u.pageFault c a) ∨ ∃ y, t = u.park c y ∧ 0 < y.left ∧ y.left < x.left) := by
  obtain ⟨k, hk⟩ := s.slice_setClock x.left
  have hanswers := move_answers h c (s.slice x.left).1 hx.place
  have hcache := move_onlyCache s c (s.slice x.left).1 x
  have htransfer := move_transfer s c (s.slice x.left).1 x
  rw [advance_of_slice hk rfl]
  cases hm : s.move c (s.slice x.left).1 x with
  | noSuchByte => rw [hm] at hanswers; exact hanswers.elim
  | fault a u =>
    rw [hm] at hcache htransfer
    exact ⟨_, u.setClock k, rfl, hcache, htransfer, .inr (.inl ⟨a, rfl⟩)⟩
  | done y u =>
    rw [hm] at hcache htransfer
    have hl := move_left c _ hm
    by_cases hy : y.left = 0
    · exact ⟨_, u.setClock k, if_pos hy, hcache, htransfer, .inl ⟨_, rfl⟩⟩
    · have hpos := s.slice_pos (n := x.left) (by omega)
      exact ⟨_, u.setClock k, if_neg hy, hcache, htransfer, .inr (.inr ⟨y, rfl, by omega, by omega⟩)⟩

theorem resume_of_transfer {s : State} {c : BitVec 32} {x : Transfer} (h : s.transfer c = some x) :
    s.resume c = (s.setTransfer c none).advance c x := by
  simp only [State.resume, h]

theorem setTransfer_attached (s : State) (c : BitVec 32) (x : Option Transfer) :
    (s.setTransfer c x).attached c = s.attached c := by
  simp only [State.attached, State.setTransfer_tlb_same]
  rfl

theorem slice_congr {s t : State} (h : t.draws = s.draws) (n : Nat) : (t.slice n).1 = (s.slice n).1 := by
  unfold State.slice State.drawSched
  rw [h]
  split
  · rfl
  · cases s.draws.sched <;> rfl

/-! ### Within a piece -/

section
variable {s : State} {b : Handle} {o : Int} {blob : Blob} {addr left : Nat} (hb : s.hostBlob b = some blob) (h0 : 0 ≤ o)
  (hl : o.toNat + left ≤ blob.len) (ha : addr < 2 ^ 32) (hp : addr % pageSize + left ≤ pageSize)
  (hs : (s.slice left).1 = left)

include hb h0 hl ha hp hs

theorem advance_read_within (c : BitVec 32) (got : List Byte) :
    s.advance c { place := { addr := addr, host := some (b, o) }, job := .read left got } =
      .next ((s.slice left).2.ok (.bytes (got ++ readBytes blob.cells o.toNat left))) := by
  obtain ⟨k, hk⟩ := s.slice_setClock left
  obtain ⟨last, hrun, -⟩ := readRun_within c hb h0 hl ha hp
  rw [hk]
  exact advance_whole (x := { place := _, job := .read left got }) hk hs (move_of_readRun hrun)

theorem advance_disp_within (c : BitVec 32) (base index : BitVec 4) (shift : BitVec 2) (reg : BitVec 3)
    (got : List Byte) :
    s.advance c { place := { addr := addr, host := some (b, o) }, job := .disp base index shift reg left got } =
      .next ((s.slice left).2.ok (.modRm
        (.mem base index shift (BitVec.ofNat 32 (leNat (got ++ readBytes blob.cells o.toNat left)))) reg
        (BitVec.ofNat 32 (addr + left)))) := by
  obtain ⟨k, hk⟩ := s.slice_setClock left
  obtain ⟨last, hrun, hlast⟩ := readRun_within c hb h0 hl ha hp
  have hnext : BitVec.ofNat 32 (addr + left) = BitVec.ofNat 32 last.addr := by
    rw [hlast]
    exact BitVec.eq_of_toNat_eq (by simp)
  rw [hk, hnext]
  exact advance_whole (x := { place := _, job := .disp base index shift reg left got }) hk hs (move_of_dispRun hrun)

end

theorem advance_write_within {s : State} {b : Handle} {o : Int} {blob : Blob} {addr : Nat} {rest : List Byte}
    (hb : s.hostBlob b = some blob) (h0 : 0 ≤ o) (hl : o.toNat + rest.length ≤ blob.len)
    (hp : addr % pageSize + rest.length ≤ pageSize) (hs : (s.slice rest.length).1 = rest.length) (c : BitVec 32) :
    ∃ k t, s.advance c { place := { addr := addr, host := some (b, o) }, job := .write rest } =
      .next ((t.setClock k).ok .none) ∧ Stored s t b o.toNat rest := by
  obtain ⟨k, hk⟩ := s.slice_setClock rest.length
  obtain ⟨last, t, hrun, hst⟩ := writeRun_within c hb h0 hl hp
  refine ⟨k, t, ?_, hst⟩
  exact advance_whole (x := { place := _, job := .write rest }) hk hs
    (move_of_writeRun (next := last) (by rw [Transfer.left, List.take_length, hrun]))

/-! ### At the start of a piece -/

/-- What a read has got before only stands before what it gets. -/
theorem advance_read_got {s t : State} {c : BitVec 32} {place : Place} {left : Nat} {got : List Byte}
    (h : s.advance c { place := place, job := .read left got } = .next t) :
    ∃ u, s.advance c { place := place, job := .read left [] } = .next u ∧ t.mems = u.mems ∧ t.blobs = u.blobs ∧
      (∀ data, u.resp = some (.ok (.bytes data)) → t.resp = some (.ok (.bytes (got ++ data)))) ∧
      ∀ a, u.resp = some (.fault .pageFault a) → t.resp = some (.fault .pageFault a) := by
  obtain ⟨k, hk⟩ := s.slice_setClock left
  rw [advance_of_slice (x := { place := place, job := .read left got }) hk rfl] at h
  rw [advance_of_slice (x := { place := place, job := .read left [] }) hk rfl]
  simp only [State.move, Transfer.left] at h ⊢
  cases hr : s.readRun c (s.slice left).1 place with
  | noSuchByte => rw [hr] at h; cases h
  | fault a u =>
    rw [hr] at h
    cases h
    exact ⟨_, rfl, rfl, rfl, nofun, fun _ hf => hf⟩
  | done r u =>
    rw [hr] at h
    by_cases hl : left - (s.slice left).1 = 0
    · cases h.symm.trans (if_pos hl)
      refine ⟨_, if_pos hl, rfl, rfl, fun data hd => ?_, nofun⟩
      cases hd
      rfl
    · cases h.symm.trans (if_neg hl)
      exact ⟨_, if_neg hl, rfl, rfl, nofun, nofun⟩

/-- Settles O54: the access taken out of the context is one that is ready, and its first byte has a pointer or looks one up. -/
theorem accessGoesOn : Obligations.AccessGoesOn := by
  intro s c x hinv hx
  have hsound := (inv_iff_sound s).1 hinv
  obtain ⟨⟨hpos, hlt⟩, hplace, hbounds⟩ := (transferOk_iff s x).1 ((hsound.ctx c).transfer x hx)
  have hready : x.Ready (s.setTransfer c none) := ⟨hplace, hbounds, hlt.le⟩
  obtain ⟨t, u, he, hcache, htransfer, hends⟩ := advance_ends (hsound.setTransfer c (x := none) nofun) c hready
  rw [State.setTransfer_transfer_same] at htransfer
  have hall := (setTransfer_onlyCache s c none).trans hcache
  have hfault : (u.cpu c).faultAddr = (s.cpu c).faultAddr := congrArg Cpu.faultAddr hall.2.2.2.1
  refine ⟨t, (resume_of_transfer hx).trans he, ?frame, ?ends, fun b o blob hh hb hp hs => ?within, fun hh ha => ?start⟩
  case frame =>
    refine accessEnds.sameButAccess (u := u) ?_ hall
    exact hends.imp_right (Or.imp_right fun ⟨y, hy, _⟩ => ⟨y, hy⟩)
  case ends =>
    obtain ⟨r, rfl⟩ | ⟨a, rfl⟩ | ⟨y, rfl, hy⟩ := hends
    · exact .inl ⟨r, rfl, htransfer, hfault⟩
    · exact .inr (.inl ⟨_, rfl, by simpa [State.pageFault] using htransfer, by simp [State.pageFault]⟩)
    · exact .inr (.inr ⟨rfl, by simpa using hfault, y, u.park_transfer c y, hy⟩)
  case within =>
    obtain ⟨blob', hb', h0, hlen⟩ := hplace.2 b o hh
    cases hb.symm.trans hb'
    have hl : o.toNat + x.left ≤ blob.len := by unfold pageSize at hlen; omega
    obtain ⟨⟨addr, host⟩, job⟩ := x
    obtain rfl : host = some (b, o) := hh
    have hb2 : (s.setTransfer c none).hostBlob b = some blob := hb
    have hs2 := (slice_congr (s := s) (t := s.setTransfer c none) rfl _).trans hs
    refine ⟨fun left got hj => ?_, fun rest hj => ?_, fun base index shift reg left got hj => ?_⟩ <;> subst hj
    · have hw := advance_read_within hb2 h0 hl hplace.1 hp hs2 c got
      cases he.symm.trans hw
      exact ⟨rfl, State.slice_blobs _ _⟩
    · obtain ⟨k, v, hw, hst⟩ := advance_write_within hb2 h0 hl hp hs2 c
      cases he.symm.trans hw
      exact ⟨rfl, hst.bytes, hst.others⟩
    · have hw := advance_disp_within hb2 h0 hl hplace.1 hp hs2 c base index shift reg got
      cases he.symm.trans hw
      rfl
  case start =>
    obtain ⟨⟨addr, host⟩, job⟩ := x
    obtain rfl : host = none := hh
    have haddr : (BitVec.ofNat 32 addr).toNat = addr := (BitVec.toNat_ofNat addr 32).trans (Nat.mod_eq_of_lt hplace.1)
    have ha2 : ((s.setTransfer c none).attached c).isSome = true := by rwa [setTransfer_attached]
    refine ⟨fun left got hj => ?_, fun rest hj => ?_⟩ <;> subst hj
    · have hleft : (BitVec.ofNat 32 left).toNat = left := (BitVec.toNat_ofNat left 32).trans (Nat.mod_eq_of_lt hlt)
      rw [exec_tlbRead_advance ha2 (by rw [haddr, hleft]; exact hbounds), Place.start, haddr, hleft]
      exact advance_read_got he
    · rw [exec_tlbWrite_advance ha2 (by rw [haddr]; exact hbounds), Place.start, haddr]
      exact he

end Sys2Proof.Machine
end

section
/-! SUPPORT. Accesses through a cache that agrees with the page table (spec/10_state.md R41; spec/44_tlb.md R361–R366,
R371): of pages that can be accessed in place, every byte is served, where the page table says. -/

namespace Sys2Proof.Machine

/-! ### Agreement -/

theorem coherent_iff (s : State) (c : BitVec 32) (m : Handle) :
    s.coherent c m = true ↔ (s.tlb c).mem = some m ∧ mapAll (s.tlb c).slots (fun _ slot => s.slotCurrent m slot) = true := by
  simp [State.coherent]

/-- Whether a page is writable in place goes into its slot (R365). -/
def Pte.pageW (e : Pte) (page : BitVec 20) : Option (BitVec 20) :=
  if writable e.flags && !copyOnWrite e.flags then some page else none

theorem slotCurrent_iff (s : State) (m : Handle) (slot : Slot) :
    s.slotCurrent m slot = true ↔ ∃ e, s.pte m slot.page.toNat = some e ∧ slot.blob = e.blob ∧
      slot.off = (e.offset : Int) - slot.page.toNat * pageSize ∧ slot.pageW = e.pageW slot.page := by
  unfold State.slotCurrent Pte.pageW
  cases s.pte m slot.page.toNat <;> simp [and_assoc]

theorem slotCurrent_congr {s t : State} (h : t.mems = s.mems) (m : Handle) (slot : Slot) :
    t.slotCurrent m slot = s.slotCurrent m slot := by
  simp only [State.slotCurrent, pte_congr h]

theorem coherent_congr {s t : State} {c : BitVec 32} (ht : t.tlb c = s.tlb c) (hm : t.mems = s.mems) (m : Handle) :
    t.coherent c m = s.coherent c m := by
  simp only [State.coherent, ht, slotCurrent_congr hm]

/-- Only a context's cache, the blobs and the response may differ, and the cache still agrees with the page table. -/
structure Steady (c : BitVec 32) (m : Handle) (s t : State) : Prop where
  cache : onlyCache c s t
  mems : t.mems = s.mems
  draws : t.draws = s.draws
  coherent : t.coherent c m = true

theorem Steady.refl {c : BitVec 32} {m : Handle} {s : State} (h : s.coherent c m = true) : Steady c m s s :=
  ⟨.refl c s, rfl, rfl, h⟩

theorem Steady.trans {c : BitVec 32} {m : Handle} {s t u : State} (h : Steady c m s t) (g : Steady c m t u) : Steady c m s u :=
  ⟨h.cache.trans g.cache, g.mems.trans h.mems, g.draws.trans h.draws, g.coherent⟩

theorem setTlb_steady {s : State} {c : BitVec 32} {m : Handle} {v : Tlb} (hm : (s.tlb c).mem = some m) (hv : v.mem = some m)
    (hs : mapAll v.slots (fun _ slot => s.slotCurrent m slot) = true) : Steady c m s (s.setTlb c v) := by
  refine ⟨setTlb_onlyCache s c v (hv.trans hm.symm), rfl, rfl, (coherent_iff _ c m).2 ?_⟩
  rw [State.setTlb_tlb_same]
  exact ⟨hv, hs⟩

theorem genTest_steady {s : State} {c : BitVec 32} {m : Handle} (h : s.coherent c m = true) : Steady c m s (s.genTest c) := by
  have hm := ((coherent_iff s c m).1 h).1
  unfold State.genTest State.revalidate
  split
  · split
    · exact .refl h
    · split
      · exact .refl h
      · exact setTlb_steady hm hm rfl
  · exact .refl h

/-! ### Reaching an address -/

/-- A page can be accessed in place: it is read, or writable and not shared (R333, R334). -/
def Pte.inPlace (e : Pte) : Access → Prop
  | .read => True
  | .write => writable e.flags = true ∧ copyOnWrite e.flags = false

theorem lookup_eq_some {s : State} {c : BitVec 32} {p : Nat} {kind : Access} {slot : Slot}
    (h : s.lookup c p kind = some slot) :
    mapFind (s.tlb c).slots (tlbIndex s.params p) = some slot ∧ slot.hits p kind = true := by
  obtain ⟨slot', hf, hhit⟩ := Option.bind_eq_some_iff.1 h
  split at hhit <;> cases hhit
  next hk => exact ⟨hf, hk⟩

/-- A hit on a cache that agrees with the page table is served where the page's entry says (R364, R371). -/
theorem lookup_current {s : State} {c : BitVec 32} {m : Handle} (h : s.coherent c m = true) {addr : Nat} (ha : addr < 2 ^ 32)
    {kind : Access} {slot : Slot} (hl : s.lookup c (pageOf addr) kind = some slot) {e : Pte}
    (he : s.pte m (pageOf addr) = some e) :
    slot.blob = e.blob ∧ slot.off + addr = (e.offset + addr % pageSize : Nat) := by
  obtain ⟨hf, hhit⟩ := lookup_eq_some hl
  obtain ⟨e', he', hb, ho, hw⟩ := (slotCurrent_iff s m slot).1
    (mapAll_find (p := fun _ slot => s.slotCurrent m slot) ((coherent_iff s c m).1 h).2 hf)
  have hpage : slot.page = BitVec.ofNat 20 (pageOf addr) := by
    cases kind with
    | read => simpa [Slot.hits] using hhit
    | write =>
      have hsome : slot.pageW = some (BitVec.ofNat 20 (pageOf addr)) := by simpa [Slot.hits] using hhit
      rw [hsome, Pte.pageW] at hw
      split at hw
      · exact (Option.some.inj hw).symm
      · cases hw
  have hnat : slot.page.toNat = pageOf addr := by
    rw [hpage, BitVec.toNat_ofNat]
    exact Nat.mod_eq_of_lt (pageOf_lt ha)
  rw [hnat] at he' ho
  cases he.symm.trans he'
  refine ⟨hb, ?_⟩
  rw [ho]
  unfold pageOf pageSize
  omega

/-- A page that can be accessed in place is translated as it stands (R331, R333, R335). -/
theorem translate_inPlace {s : State} {m : Handle} {addr : Nat} {e : Pte} (he : s.pte m (pageOf addr) = some e)
    {kind : Access} (hk : e.inPlace kind) : s.translate m addr kind = (e.pointer addr, s) := by
  obtain ⟨sp, hs, -⟩ := pte_eq_some he
  have hmapped : s.translateMapped m addr kind e = (e.pointer addr, s) := by
    cases kind with
    | read => rfl
    | write => simp [State.translateMapped, hk.1, hk.2]
  simp [State.translate, hs, he, hmapped]

/-- The slot a miss fills agrees with the page table (R365). -/
theorem filledSlot_current {s : State} {m : Handle} {addr : Nat} (ha : addr < 2 ^ 32) {e : Pte}
    (he : s.pte m (pageOf addr) = some e) :
    s.slotCurrent m (filledSlot (pageOf addr) addr e.blob (e.offset + addr % pageSize) e.flags) = true := by
  have hpage : (BitVec.ofNat 20 (pageOf addr)).toNat = pageOf addr := by
    rw [BitVec.toNat_ofNat]
    exact Nat.mod_eq_of_lt (pageOf_lt ha)
  refine (slotCurrent_iff s m _).2 ⟨e, ?_, rfl, ?_, rfl⟩
  · simp only [filledSlot, hpage, he]
  · simp only [filledSlot, hpage]
    unfold pageOf pageSize
    omega

/-- Reaching an address of a page that can be accessed in place gives the pointer of its entry, and only the cache changes. -/
theorem reach_coherent {s : State} {c : BitVec 32} {m : Handle} (h : s.coherent c m = true) {addr : Nat} (ha : addr < 2 ^ 32)
    {e : Pte} (he : s.pte m (pageOf addr) = some e) {kind : Access} (hk : e.inPlace kind) :
    ∃ t, s.reach c addr kind = (.pointer e.blob (e.offset + addr % pageSize : Nat), t) ∧ Steady c m s t ∧
      sameStores s t := by
  have hg := genTest_steady h
  have hst := genTest_sameStores s c
  have he' : (s.genTest c).pte m (pageOf addr) = some e := by rwa [pte_congr hg.mems]
  obtain ⟨hmem, hslots⟩ := (coherent_iff _ c m).1 hg.coherent
  unfold State.reach
  simp only
  cases hl : (s.genTest c).lookup c (pageOf addr) kind with
  | some slot =>
    obtain ⟨hb, ho⟩ := lookup_current hg.coherent ha hl he'
    rw [← hb, ← ho]
    exact ⟨_, rfl, hg, hst⟩
  | none =>
    rw [hmem]
    simp only [translate_inPlace he' hk, Pte.pointer]
    refine ⟨_, rfl, hg.trans (setTlb_steady hmem hmem ?_), hst⟩
    exact mapAll_put hslots (filledSlot_current ha he')

/-! ### Accesses -/

/-- A place's host pointer, where it has one, is that of its address's entry. -/
def State.pointsAt (s : State) (m : Handle) (place : Place) : Prop :=
  ∀ b o, place.host = some (b, o) →
    ∃ e, s.pte m (pageOf place.addr) = some e ∧ b = e.blob ∧ o = (e.offset + place.addr % pageSize : Nat)

/-- The next byte's pointer is that of its address's entry. -/
theorem locate_coherent {s : State} {c : BitVec 32} {m : Handle} (h : s.coherent c m = true) {place : Place}
    (ha : place.addr < 2 ^ 32) (hp : s.pointsAt m place) {e : Pte} (he : s.pte m (pageOf place.addr) = some e)
    {kind : Access} (hk : e.inPlace kind) :
    ∃ t, s.locate c place kind = (.pointer e.blob (e.offset + place.addr % pageSize : Nat), t) ∧ Steady c m s t ∧
      sameStores s t := by
  unfold State.locate
  split
  · next b o hh =>
    obtain ⟨e', he', rfl, rfl⟩ := hp b o hh
    cases he.symm.trans he'
    exact ⟨s, rfl, .refl h, .refl s⟩
  · exact reach_coherent h ha he hk

/-- Within a page the pointer's next byte is the address's next byte. -/
theorem placeAfter_pointsAt {s : State} {m : Handle} {addr : Nat} (ha : addr < 2 ^ 32) {e : Pte}
    (he : s.pte m (pageOf addr) = some e) : s.pointsAt m (placeAfter addr e.blob (e.offset + addr % pageSize : Nat)) := by
  intro b o hh
  unfold placeAfter at hh ⊢
  simp only at hh ⊢
  split at hh
  · cases hh
  · next hne =>
    cases hh
    have hpage : pageOf ((addr + 1) % 2 ^ 32) = pageOf addr := by unfold pageOf pageSize at *; omega
    exact ⟨e, hpage ▸ he, rfl, by unfold pageSize at *; omega⟩

/-- The byte that an address names is there, since its entry is backed (R41). -/
theorem pte_byte {s : State} (h : Sound s) {m : Handle} {addr : Nat} {e : Pte} (he : s.pte m (pageOf addr) = some e) :
    ∃ blob, mapFind s.blobs e.blob = some blob ∧ e.offset + addr % pageSize < blob.len := by
  obtain ⟨blob, hb, hl⟩ := h.tables.counted.backed m _ e he
  exact ⟨blob, hb, lt_of_lt_of_le (Nat.add_lt_add_left (Nat.mod_lt addr (by decide)) _) hl⟩

theorem byteOf_congr {s t : State} (hm : t.mems = s.mems) (hb : t.blobs = s.blobs) (m : Handle) (addr : Nat) :
    t.byteOf m addr = s.byteOf m addr := by
  simp only [State.byteOf, State.byteAt, pte_congr hm, hb]

theorem pointsAt_congr {s t : State} (hm : t.mems = s.mems) {m : Handle} {place : Place} (h : s.pointsAt m place) :
    t.pointsAt m place := by
  simpa only [State.pointsAt, pte_congr hm] using h

/-- One byte of a mapped page is read as the page table says. -/
theorem readOne_coherent {s : State} (hs : Sound s) {c : BitVec 32} {m : Handle} (h : s.coherent c m = true) {place : Place}
    (ha : place.addr < 2 ^ 32) (hp : s.pointsAt m place) (hm : (s.pte m (pageOf place.addr)).isSome = true) :
    ∃ r t, s.readOne c place = .done r t ∧ Steady c m s t ∧ sameStores s t ∧ s.byteOf m place.addr = some r.1 ∧
      t.pointsAt m r.2 := by
  obtain ⟨e, he⟩ := Option.isSome_iff_exists.1 hm
  obtain ⟨t, hl, ht, hst⟩ := locate_coherent (kind := .read) h ha hp he trivial
  obtain ⟨blob, hb, hlen⟩ := pte_byte hs he
  have hhost : t.hostBlob e.blob = some blob := hostBlob_of_live (hst.2.1 ▸ hb)
  have hbyte := hostByte_of_hostBlob hhost (Int.natCast_nonneg (e.offset + place.addr % pageSize)) hlen
  have hone : s.readOne c place = .done (Memory.read blob.cells (e.offset + place.addr % pageSize),
      placeAfter place.addr e.blob (e.offset + place.addr % pageSize : Nat)) t := by
    simp only [State.readOne, hl, hbyte, Int.toNat_natCast]
  refine ⟨_, t, hone, ht, hst, ?_, pointsAt_congr ht.mems (placeAfter_pointsAt ha he)⟩
  simp [State.byteOf, State.byteAt, he, hb]

theorem covered_tail {s t : State} (hm : t.mems = s.mems) {m : Handle} {addr n : Nat} (hb : addr + (n + 1) ≤ 2 ^ 32)
    (h : s.covered m addr (n + 1)) : t.covered m ((addr + 1) % 2 ^ 32) n := by
  intro i hi
  rw [pte_congr hm, show (addr + 1) % 2 ^ 32 + i = addr + (i + 1) by omega]
  exact h (i + 1) (Nat.succ_lt_succ hi)

/-- A run of bytes of mapped pages is read as the page table says. -/
theorem readRun_coherent {s : State} (hs : Sound s) {c : BitVec 32} {m : Handle} (h : s.coherent c m = true) {n : Nat}
    {place : Place} (ho : s.placeOk place) (hp : s.pointsAt m place) (hb : place.addr + n ≤ 2 ^ 32)
    (hm : s.covered m place.addr n) :
    ∃ r t, s.readRun c n place = .done r t ∧ Steady c m s t ∧ sameStores s t ∧
      ∀ j, j < n → r.1[j]? = s.byteOf m (place.addr + j) := by
  induction n generalizing s place with
  | zero => exact ⟨_, s, rfl, .refl h, .refl s, fun j hj => absurd hj (Nat.not_lt_zero j)⟩
  | succ n ih =>
    obtain ⟨one, t, h1, ht, hst, hbyte, hnext⟩ := readOne_coherent hs h ho.1 hp (hm 0 (Nat.succ_pos n))
    have hsound := readOne_sound hs c ho
    rw [h1] at hsound
    obtain ⟨hts, hto, haddr⟩ := hsound
    obtain ⟨more, u, h2, hu, hsu, hbytes⟩ := ih hts ht.coherent hto hnext (by rw [haddr]; omega)
      (by rw [haddr]; exact covered_tail ht.mems hb hm)
    refine ⟨(one.1 :: more.1, more.2), u, ?_, ht.trans hu, hst.trans hsu, fun j hj => ?_⟩
    · simp only [State.readRun, h1, h2, Served.andThen]
    · cases j with
      | zero => exact hbyte.symm
      | succ j =>
        rw [List.getElem?_cons_succ, hbytes j (Nat.lt_of_succ_lt_succ hj), haddr, byteOf_congr hst.1 hst.2.1]
        congr 1
        omega

/-- A store through a host pointer leaves the cache and the page table alone. -/
theorem storeHost_steady {s t : State} {c : BitVec 32} {m : Handle} (h : s.coherent c m = true) {b : Handle}
    {o : Int} {v : Byte} (hw : s.storeHost b o v = some t) : Steady c m s t := by
  have hst := storeHost_stored hw
  have ht : t.tlb c = s.tlb c := by rw [State.tlb, State.tlb, State.ctx_congr hst.rest.2.1]
  exact ⟨.of_sameRest hst.rest c, hst.mems, hst.draws, (coherent_congr ht hst.mems m).trans h⟩

/-- A run of bytes of pages that are writable in place is written, and the page table stays. -/
theorem writeRun_coherent {s : State} (hs : Sound s) {c : BitVec 32} {m : Handle} (h : s.coherent c m = true)
    {data : List Byte} {place : Place} (ho : s.placeOk place) (hp : s.pointsAt m place)
    (hb : place.addr + data.length ≤ 2 ^ 32)
    (hm : ∀ j, j < data.length → ∃ e, s.pte m (pageOf (place.addr + j)) = some e ∧ e.inPlace .write) :
    ∃ next t, s.writeRun c data place = .done next t ∧ Steady c m s t := by
  induction data generalizing s place with
  | nil => exact ⟨place, s, rfl, .refl h⟩
  | cons v rest ih =>
    rw [List.length_cons] at hb
    obtain ⟨e, he, hk⟩ := hm 0 (by simp)
    obtain ⟨t, hl, ht, hst⟩ := locate_coherent h ho.1 hp he hk
    obtain ⟨blob, hbl, hlen⟩ := pte_byte hs he
    obtain ⟨u, hu⟩ : ∃ u, t.storeHost e.blob (e.offset + place.addr % pageSize : Nat) v = some u := by
      have hlive : mapFind t.blobs e.blob = some blob := hst.2.1 ▸ hbl
      unfold State.storeHost
      rw [hostBlob_of_live hlive, hlive]
      exact ⟨_, if_pos ⟨Int.natCast_nonneg _, hlen⟩⟩
    have hone : s.writeOne c place v =
        .done (placeAfter place.addr e.blob (e.offset + place.addr % pageSize : Nat)) u := by
      simp only [State.writeOne, hl, hu]
    have hsu := ht.trans (storeHost_steady ht.coherent hu)
    have hsound := writeOne_sound hs c ho v
    rw [hone] at hsound
    obtain ⟨hus, huo, haddr⟩ := hsound
    obtain ⟨last, w, hw, hsw⟩ := ih hus hsu.coherent huo (pointsAt_congr hsu.mems (placeAfter_pointsAt ho.1 he))
      (by rw [haddr]; omega) fun j hj => by
        rw [haddr, pte_congr hsu.mems, show (place.addr + 1) % 2 ^ 32 + j = place.addr + (j + 1) by omega]
        exact hm (j + 1) (by simpa using hj)
    exact ⟨last, w, by rw [State.writeRun, hone]; exact hw, hsu.trans hsw⟩

end Sys2Proof.Machine
end

section
/-! SUPPORT. Only an access leaves a command without a response (spec/30_encoding.md R112; spec/20_memory.md R75; log 5, log
15). -/

namespace Sys2Proof.Machine

/-- A response is given. -/
def Responded (t : State) : Prop := t.resp ≠ none

theorem responded_respond (s : State) (r : Response) : Responded (s.respond r) := nofun

theorem responded_fpuDone (s : State) (c : BitVec 32) (r : Fpu × Bool) (results : Results) :
    Responded (s.fpuDone c r results) := by
  unfold State.fpuDone
  split <;> exact responded_respond _ _

theorem responded_cpuDone (s : State) (c : BitVec 32) (u : Option Cpu) : Responded (s.cpuDone c u) := by
  unfold State.cpuDone
  split <;> exact responded_respond _ _

theorem responded_mapChecked (s : State) (m : Handle) (page count : Nat) (cells : Memory) (len : Nat) (flags : BitVec 7) :
    Responded (s.mapChecked m page count cells len flags) := by
  unfold State.mapChecked
  split <;> exact responded_respond _ _

/-- Every command but `TLB.READ`, `TLB.WRITE` and `DEC.MODRM` responds. -/
theorem exec_responded {i : Instr} (hi : opcode i ∉ [0x0500, 0x0501, 0x0700]) (s : State) : Ends Responded (exec i s) := by
  cases i
  case tlbRead | tlbWrite | decModRm => exact absurd (by simp [opcode]) hi
  case wiFromU64 | wiFromS64 | wiToU64 | wiToS64 | wiUcmp | wiScmp | wiClz | wiNot | wiAnd | wiOr | wiUadd | wiSadd | wiUsub
      | wiSsub | wiUmul | wiSmul | wiNeg | feSetRm | feGetRm | feFromI64 | feToI64 | feFromF64 | feToF64 | feAdd | feSub
      | feMul | feDiv | feMod | feRem | feLog2 | feSqrt | feScale | feIsNan | feIsInf | feIsZero | feIsDenormal
      | feIsSupported | feCmp | feLt | feEq | feNeg | feAbs | fpuInit | fpuLdCw | fpuGetSt | fpuSetSt | fpuStCw | fpuStSw
      | cpuGetReg32 | cpuGetReg16 | cpuGetReg8 | cpuGetEip | cpuGetXmm | cpuGetEflags | cpuGetFaultAddr | cpuSetReg32
      | cpuSetReg16 | cpuSetReg8 | cpuSetEip | cpuSetXmm | cpuRecord | cpuMaterialize | cpuExpand | cpuSetEflags =>
    exact responded_respond _ _
  case wiShl | wiShr =>
    simp only [exec, execWiShl, execWiShr]
    split <;> exact responded_respond _ _
  case wiUdiv | wiSdiv =>
    simp only [exec, execWiUdiv, execWiSdiv]
    split <;> exact responded_respond _ _
  case fpuLd | fpuSt | fpuPop | fpuLdI16 | fpuLdI32 | fpuLdI64 | fpuLdF32 | fpuLdF64 | fpuLdF80 | fpuConst1 | fpuConstL2T
      | fpuConstL2E | fpuConstPi | fpuConstLg2 | fpuConstLn2 | fpuConstZ | fpuStI16 | fpuStI32 | fpuStI64 | fpuStF32
      | fpuStF64 | fpuStF80 | fpuAdd | fpuSub | fpuMul | fpuDiv | fpuMod | fpuRem | fpuScale | fpuNeg | fpuAbs | fpuSqrt
      | fpuLog2 | fpuCom =>
    exact responded_fpuDone _ _ _ _
  case asmCreate =>
    simp only [exec, execAsmCreate]
    split <;> exact responded_respond _ _
  case asmRetain =>
    simp only [exec, execAsmRetain]
    split <;> exact responded_respond _ _
  case asmRelease =>
    simp only [exec, execAsmRelease]
    split
    · exact responded_respond _ _
    · split <;> exact responded_respond _ _
  case asmMap =>
    simp only [exec, execAsmMap]
    split
    · exact responded_respond _ _
    · split
      · exact responded_respond _ _
      · split
        · exact responded_respond _ _
        · exact responded_mapChecked _ _ _ _ _ _ _
  case asmMapAnon =>
    simp only [exec, execAsmMapAnon]
    split
    · exact responded_respond _ _
    · exact responded_mapChecked _ _ _ _ _ _ _
  case asmUnmap | asmSetProt =>
    simp only [exec, execAsmUnmap, execAsmSetProt]
    split
    · exact responded_respond _ _
    · split <;> exact responded_respond _ _
  case asmCow =>
    simp only [exec, execAsmCow]
    split
    · exact responded_respond _ _
    · split
      · exact responded_respond _ _
      · split <;> exact responded_respond _ _
  case asmFindHole =>
    simp only [exec, execAsmFindHole]
    split
    · exact responded_respond _ _
    · split <;> exact responded_respond _ _
  case asmTranslate =>
    simp only [exec, execAsmTranslate]
    split
    · exact responded_respond _ _
    · exact responded_respond _ _
    · trivial
  case tlbFlush | tlbRevalidate | tlbAttach =>
    simp only [exec, execTlbFlush, execTlbRevalidate, execTlbAttach]
    split <;> exact responded_respond _ _
  case cpuGetSeg | cpuGetFlag =>
    simp only [exec, execCpuGetSeg, execCpuGetFlag]
    split <;> exact responded_respond _ _
  case cpuSetSeg | cpuSetFlag => exact responded_cpuDone _ _ _
  case decEa =>
    simp only [exec, execDecEa]
    split
    · exact responded_respond _ _
    · split <;> exact responded_respond _ _

/-- A command that leaves no response is an access. -/
theorem access_of_resp_none {i : Instr} {s t : State} (he : exec i s = .next t) (hr : t.resp = none) :
    (∃ c addr n, i = .tlbRead c addr n) ∨ (∃ c addr data, i = .tlbWrite c addr data) ∨ ∃ c cursor, i = .decModRm c cursor := by
  by_contra hn
  exact (exec_responded (fun hi => hn (access_command hi)) s).of_next he hr

end Sys2Proof.Machine
end

section
/-! SUPPORT. An access that was stopped and goes on with nothing between ends as one that was not (spec/20_memory.md R75,
R92, R94; log 15). -/

namespace Sys2Proof.Machine

/-! ### Taking an access up again -/

theorem mapPut_self {α : Type} {l : List (Nat × α)} (hl : keysRising l = true) {n : Nat} {v : α} (h : mapFind l n = some v) :
    mapPut l n v = l := by
  refine map_ext (keysRising_put hl n v) hl fun j => ?_
  rw [mapFind_put]
  split
  · next hj => rw [hj, h]
  · rfl

/-- A context that is attached has been named (R20, R484). -/
theorem ctx_named {s : State} {c : BitVec 32} (h : (s.tlb c).mem ≠ none) : mapFind s.ctxs c.toNat = some (s.ctx c) := by
  cases hc : mapFind s.ctxs c.toNat with
  | none => exact absurd (by simp [State.tlb, State.ctx, hc, Context.reset, Tlb.reset]) h
  | some k => simp [State.ctx, hc]

theorem setCtx_self {s : State} {c : BitVec 32} (hs : Sound s) (h : (s.tlb c).mem ≠ none) : s.setCtx c (s.ctx c) = s := by
  unfold State.setCtx
  rw [mapPut_self hs.rising (ctx_named h)]

/-- Taking up an access that was left under way undoes leaving it, but for the response. -/
theorem park_setTransfer {s : State} {c : BitVec 32} (hs : Sound s) (h : (s.tlb c).mem ≠ none) (hn : s.transfer c = none)
    (x : Transfer) : (s.park c x).setTransfer c none = { s with resp := none } := by
  have hctx : (s.park c x).ctx c = { s.ctx c with transfer := some x } := State.setTransfer_ctx_same s c (some x)
  have hself : ({ s.ctx c with transfer := none } : Context) = s.ctx c := by rw [← hn]; rfl
  unfold State.setTransfer
  rw [hctx, hself]
  show { (s.setTransfer c (some x)).setCtx c (s.ctx c) with resp := none } = { s with resp := none }
  rw [State.setTransfer, setCtx_setCtx, setCtx_self hs h]

/-! ### Ends under different clocks -/

/-- The same state but for the scheduler's choices taken. -/
def sameButChoices (v w : State) : Prop :=
  ({ v with draws := { v.draws with sched := w.draws.sched, turns := w.draws.turns } } : State) = w

/-- A whole access ends alike under any two clocks. -/
theorem finish_clocks {c : BitVec 32} {z : Served Transfer} (ha : z.Answers) (hz : ∀ y u, z = .done y u → y.left = 0)
    (k j : Clock) :
    ∃ v w, finish c (z.mapState (·.setClock k)) = .next v ∧ finish c (z.mapState (·.setClock j)) = .next w ∧
      sameButChoices v w := by
  cases z with
  | noSuchByte => exact ha.elim
  | fault a u => exact ⟨_, _, rfl, rfl, rfl⟩
  | done y u => exact ⟨_, _, if_pos (hz y u rfl), if_pos (hz y u rfl), rfl⟩

/-- Let run to its end, an access moves all its bytes. -/
theorem advance_setClock_long (s : State) {k : Clock} (hk : k.sched = [2 ^ 32]) (c : BitVec 32) {x : Transfer}
    (hx : x.left ≤ 2 ^ 32) :
    ∃ j, (s.setClock k).advance c x = finish c ((s.move c x.left x).mapState (·.setClock j)) := by
  obtain ⟨j, hj⟩ := (s.setClock k).slice_setClock x.left
  have hall : ((s.setClock k).slice x.left).1 = x.left := State.slice_long hk hx
  refine ⟨j, ?_⟩
  rw [advance_eq_finish, hall, hj, ← move_setClock]
  rfl

/-- An access that is stopped and goes on at once ends as one let run to its end. -/
theorem advance_resumed {s t : State} (hs : Sound s) {c : BitVec 32} (hm : (s.tlb c).mem ≠ none) (hn : s.transfer c = none)
    {x : Transfer} (hx : x.Ready s) (he : s.advance c x = .next t) (hr : t.resp = none) {k : Clock} (hk : k.sched = [2 ^ 32]) :
    ∃ v w, (s.setClock k).advance c x = .next v ∧ t.alone.resume c = .next w ∧ sameButChoices v w := by
  obtain ⟨j, hj⟩ := s.slice_setClock x.left
  have hle := s.slice_le x.left
  have hmove := move_sound hs c hx hle
  have hcache := move_onlyCache s c (s.slice x.left).1 x
  have htransfer := move_transfer s c (s.slice x.left).1 x
  have hadd := move_add c (s.slice x.left).1 (x.left - (s.slice x.left).1) s x
  rw [Nat.add_sub_cancel' hle] at hadd
  rw [advance_of_slice hj rfl] at he
  cases hfirst : s.move c (s.slice x.left).1 x with
  | noSuchByte => rw [hfirst] at he; cases he
  | fault a u => rw [hfirst] at he; cases he; cases hr
  | done y u =>
    rw [hfirst] at he hmove hcache htransfer hadd
    have hleft := move_left c _ hfirst
    rw [← hleft] at hadd
    have hy : y.left ≠ 0 := fun h0 => by cases he.symm.trans (if_pos h0); cases hr
    cases he.symm.trans (if_neg hy)
    obtain ⟨hu, hready⟩ := hmove
    have hmem : (u.tlb c).mem ≠ none := by rw [hcache.2.2.2.2.2.2]; exact hm
    have htaken : ((u.setClock j).park c y).alone.resume c =
        (((u.park c y).setTransfer c none).setClock ⟨none, [2 ^ 32], j.turns⟩).advance c y :=
      resume_of_transfer ((u.setClock j).park_transfer c y)
    rw [park_setTransfer hu hmem (htransfer.trans hn)] at htaken
    obtain ⟨j1, h1⟩ := advance_setClock_long s hk c hx.short
    obtain ⟨j2, h2⟩ := advance_setClock_long u (k := ⟨none, [2 ^ 32], j.turns⟩) rfl c hready.short
    have hall : ∀ z w, u.move c y.left y = .done z w → z.left = 0 := fun z w hz => by
      rw [move_left c _ hz, Nat.sub_self]
    obtain ⟨v, w, hv, hw, hvw⟩ := finish_clocks (c := c) (move_answers hu c y.left hready.place) hall j1 j2
    rw [hadd] at h1
    exact ⟨v, w, h1.trans hv, htaken.trans (h2.trans hw), hvw⟩

/-! ### The decoder's fetch (R431, R439) -/

theorem exec_decModRm_advance {s u : State} {c cursor : BitVec 32} {x : Transfer} (ha : (s.attached c).isSome = true)
    (hd : s.decodeModRm c cursor = .done (.fetching x) u) : exec (.decModRm c cursor) s = u.advance c x := by
  simp only [exec, execDecModRm, Option.isNone_eq_false_iff.2 ha, hd]
  rfl

/-- Only the fetch of a displacement leaves `DEC.MODRM` without a response. -/
theorem exec_decModRm_resp_none {s t : State} {c cursor : BitVec 32} (he : exec (.decModRm c cursor) s = .next t)
    (hr : t.resp = none) :
    (s.attached c).isSome = true ∧ ∃ x u, s.decodeModRm c cursor = .done (.fetching x) u ∧ u.advance c x = .next t := by
  simp only [exec, execDecModRm] at he
  split at he
  · cases he; cases hr
  · next hn =>
    refine ⟨by simpa [Option.isSome_iff_ne_none] using hn, ?_⟩
    split at he
    · cases he; cases hr
    · next x u hd => exact ⟨x, u, hd, he⟩
    · cases he; cases hr
    · cases he

theorem mem_of_attached {s : State} {c : BitVec 32} (h : (s.attached c).isSome = true) : (s.tlb c).mem ≠ none := by
  intro hm
  simp [State.attached, hm] at h

/-- A command that is stopped and goes on at once ends as one let run to its end. -/
theorem exec_resumed {s t : State} {i : Instr} (hs : Sound s) (hn : s.transfer (contextOf i) = none)
    (he : exec i s = .next t) (hr : t.resp = none) :
    ∃ v w, exec i s.alone = .next v ∧ t.alone.resume (contextOf i) = .next w ∧ sameButChoices v w := by
  have halone : s.alone = s.setClock ⟨s.resp, [2 ^ 32], s.draws.turns⟩ := rfl
  obtain ⟨c, addr, n, rfl⟩ | ⟨c, addr, data, rfl⟩ | ⟨c, cursor, rfl⟩ := access_of_resp_none he hr
  · obtain hrefused | ⟨ha, hb⟩ := exec_tlbRead_cases s c addr n
    · cases he.symm.trans hrefused; cases hr
    · have ha' : (s.alone.attached c).isSome = true := ha
      rw [exec_tlbRead_advance ha hb] at he
      rw [exec_tlbRead_advance ha' hb, halone]
      have hready : Transfer.Ready s { place := .start addr, job := .read n.toNat [] } :=
        ⟨placeOk_start s addr, hb, n.isLt.le⟩
      exact advance_resumed hs (mem_of_attached ha) hn hready he hr rfl
  · obtain hrefused | ⟨ha, hb⟩ := exec_tlbWrite_cases s c addr data
    · cases he.symm.trans hrefused; cases hr
    · have ha' : (s.alone.attached c).isSome = true := ha
      rw [exec_tlbWrite_advance ha hb] at he
      rw [exec_tlbWrite_advance ha' hb, halone]
      have hready : Transfer.Ready s { place := .start addr, job := .write data } :=
        ⟨placeOk_start s addr, hb, (Nat.le_add_left _ _).trans hb⟩
      exact advance_resumed hs (mem_of_attached ha) hn hready he hr rfl
  · obtain ⟨ha, x, u, hd, he⟩ := exec_decModRm_resp_none he hr
    have hsound := decodeModRm_sound hs c cursor
    have hcache := decodeModRm_onlyCache s c cursor
    have htransfer := decodeModRm_transfer s c cursor
    rw [hd] at hsound hcache htransfer
    have hmem : (u.tlb c).mem ≠ none := by rw [hcache.2.2.2.2.2.2]; exact mem_of_attached ha
    have ha' : (s.alone.attached c).isSome = true := ha
    have hd' : s.alone.decodeModRm c cursor = .done (.fetching x) (u.setClock ⟨s.resp, [2 ^ 32], s.draws.turns⟩) := by
      rw [halone, decodeModRm_setClock, hd]
      rfl
    rw [exec_decModRm_advance ha' hd']
    exact advance_resumed hsound.1 hmem (htransfer.trans hn) (hsound.2 x rfl) he hr rfl

/-! ### Where an access is stopped -/

/-- A choice of the scheduler within an access is a stop after that byte. -/
theorem State.slice_of_sched {s : State} {k n : Nat} {rest : List Nat} (hs : s.draws.sched = k :: rest) (hn : k + 1 < n) :
    s.slice n = (k + 1, s.setClock ⟨s.resp, rest, s.draws.turns⟩) := by
  unfold State.slice State.drawSched
  rw [hs, if_neg (by omega)]
  simp only [min_eq_right hn.le]
  rfl

/-- A run of at least a byte ends without a host pointer exactly at the start of a page (R366). -/
theorem readRun_host {s t : State} {c : BitVec 32} {n : Nat} {place : Place} {r : List Byte × Place}
    (h : s.readRun c (n + 1) place = .done r t) : r.2.host = none ↔ r.2.addr % pageSize = 0 := by
  induction n generalizing s place r with
  | zero =>
    obtain ⟨one, u, h1, h⟩ := Served.done_of_andThen h
    cases h
    obtain ⟨b, o, hp⟩ := readOne_done h1
    rw [hp]
    exact placeAfter_host place.addr b o
  | succ n ih =>
    obtain ⟨one, u, h1, h⟩ := Served.done_of_andThen h
    obtain ⟨more, w, h2, h⟩ := Served.done_of_andThen h
    cases h
    exact ih (r := more) h2

theorem writeRun_host {s t : State} {c : BitVec 32} {data : List Byte} (hd : data ≠ []) {place next : Place}
    (h : s.writeRun c data place = .done next t) : next.host = none ↔ next.addr % pageSize = 0 := by
  induction data generalizing s place with
  | nil => exact absurd rfl hd
  | cons v rest ih =>
    obtain ⟨one, u, h1, h⟩ := Served.done_of_andThen h
    cases rest with
    | nil =>
      cases h
      obtain ⟨b, o, rfl⟩ := writeOne_done h1
      exact placeAfter_host place.addr b o
    | cons w more => exact ih (List.cons_ne_nil w more) h

/-- Leaving an access under way after it has only looked up and stored changes no more than an access may. -/
theorem Steady.park {s u : State} {c : BitVec 32} {m : Handle} (h : Steady c m s u) (r : Option Response) (rest : List Nat)
    (y : Transfer) : let t := (u.setClock ⟨r, rest, s.draws.turns⟩).park c y
    sameButAccess c s t ∧ t.draws = { s.draws with sched := rest } ∧ t.coherent c m = true := by
  have hcache : onlyCache c s (u.setClock ⟨r, rest, s.draws.turns⟩) := h.cache
  refine ⟨accessEnds.sameButAccess (.inr (.inr ⟨y, rfl⟩)) hcache, ?_, ?_⟩
  · show { u.draws with sched := rest, turns := s.draws.turns } = { s.draws with sched := rest }
    rw [h.draws]
  · exact (coherent_congr (s := u) (State.park_tlb _ c y) rfl m).trans h.coherent

theorem attached_of_coherent {s : State} {c : BitVec 32} {m : Handle} (h : s.coherent c m = true)
    (hm : (s.space m).isSome = true) : (s.attached c).isSome = true := by
  obtain ⟨sp, hs⟩ := Option.isSome_iff_exists.1 hm
  rw [attached_eq ((coherent_iff s c m).1 h).1 hs]
  rfl

theorem Place.eq_of_addr {place : Place} {addr : Nat} (h : place.addr = addr) :
    place = { addr := addr, host := place.host } := by rw [← h]

section
variable {s : State} {c addr : BitVec 32} {m : Handle} {k : Nat} {rest : List Nat} (hs : Sound s)
  (h : s.coherent c m = true) (hm : (s.space m).isSome = true) (hd : s.draws.sched = k :: rest)

include hs h hm hd

/-- A read of mapped pages is stopped after any byte but the last, with the bytes before it read. -/
theorem exec_tlbRead_stopped {n : BitVec 32} (hb : addr.toNat + n.toNat ≤ 2 ^ 32) (hc : s.covered m addr.toNat n.toNat)
    (hk : k + 1 < n.toNat) :
    ∃ u host got, exec (.tlbRead c addr n) s = .next ((u.setClock ⟨s.resp, rest, s.draws.turns⟩).park c
        { place := { addr := addr.toNat + (k + 1), host := host }, job := .read (n.toNat - (k + 1)) got }) ∧
      got.length = k + 1 ∧ (host = none ↔ (addr.toNat + (k + 1)) % 4096 = 0) ∧
      (∀ j, j < k + 1 → got[j]? = s.byteOf m (addr.toNat + j)) ∧ Steady c m s u ∧ sameStores s u := by
  have hslice := State.slice_of_sched hd hk
  obtain ⟨r, u, hrun, hu, hst, hbytes⟩ := readRun_coherent hs h (n := k + 1) (placeOk_start s addr) nofun
    (show addr.toNat + (k + 1) ≤ 2 ^ 32 by omega) fun i hi => hc i (by omega)
  have hmoved := readRun_sound hs c (k + 1) (placeOk_start s addr)
  rw [hrun] at hmoved
  obtain ⟨⟨-, -, haddr⟩, hlen⟩ := hmoved
  rw [Nat.mod_eq_of_lt (show addr.toNat + (k + 1) < 2 ^ 32 by omega)] at haddr
  have hhost := readRun_host hrun
  rw [haddr] at hhost
  refine ⟨u, r.2.host, r.1, ?_, hlen, hhost, hbytes, hu, hst⟩
  rw [exec_tlbRead_advance (attached_of_coherent h hm) hb, ← Place.eq_of_addr haddr]
  exact advance_stopped (x := { place := .start addr, job := .read n.toNat [] }) (congrArg Prod.snd hslice)
    (congrArg Prod.fst hslice) hk (move_of_readRun hrun)

/-- A write of pages that are writable in place is stopped likewise, with the bytes before written, as a write of those. -/
theorem exec_tlbWrite_stopped {data : List Byte} (hb : addr.toNat + data.length ≤ 2 ^ 32) (hk : k + 1 < data.length)
    (hc : ∀ j, j < data.length → ∃ e, s.pte m (pageOf (addr.toNat + j)) = some e ∧ e.inPlace .write) :
    ∃ u host j, exec (.tlbWrite c addr data) s = .next ((u.setClock ⟨s.resp, rest, s.draws.turns⟩).park c
        { place := { addr := addr.toNat + (k + 1), host := host }, job := .write (data.drop (k + 1)) }) ∧
      (host = none ↔ (addr.toNat + (k + 1)) % 4096 = 0) ∧ Steady c m s u ∧
      exec (.tlbWrite c addr (data.take (k + 1))) s.alone = .next ((u.setClock j).ok .none) := by
  have hslice := State.slice_of_sched hd hk
  have hlen : (data.take (k + 1)).length = k + 1 := List.length_take_of_le hk.le
  obtain ⟨next, u, hrun, hu⟩ := writeRun_coherent hs h (data := data.take (k + 1)) (placeOk_start s addr) nofun
    (show addr.toNat + _ ≤ 2 ^ 32 by omega) fun i hi => hc i (by omega)
  have hmoved := writeRun_sound hs c (data.take (k + 1)) (placeOk_start s addr)
  rw [hrun, hlen] at hmoved
  obtain ⟨-, -, haddr⟩ := hmoved
  rw [Nat.mod_eq_of_lt (show addr.toNat + (k + 1) < 2 ^ 32 by omega)] at haddr
  have hhost := writeRun_host (List.ne_nil_of_length_pos (by omega)) hrun
  rw [haddr] at hhost
  have ha := attached_of_coherent h hm
  have ha' : (s.alone.attached c).isSome = true := ha
  obtain ⟨j, hj⟩ := advance_setClock_long s (k := ⟨s.resp, [2 ^ 32], s.draws.turns⟩) rfl c
    (x := { place := .start addr, job := .write (data.take (k + 1)) }) (show (data.take (k + 1)).length ≤ _ by omega)
  have hwhole : s.writeRun c ((data.take (k + 1)).take (data.take (k + 1)).length) (.start addr) = .done next u := by
    rw [List.take_length, hrun]
  refine ⟨u, next.host, j, ?_, hhost, hu, ?_⟩
  · rw [exec_tlbWrite_advance ha hb, ← Place.eq_of_addr haddr]
    exact advance_stopped (x := { place := .start addr, job := .write data }) (congrArg Prod.snd hslice)
      (congrArg Prod.fst hslice) hk (move_of_writeRun hrun)
  · rw [exec_tlbWrite_advance ha' (by omega)]
    refine hj.trans ?_
    rw [Transfer.left, move_of_writeRun hwhole, List.drop_length]
    rfl

end

/-- Settles O53: the choice `k` stops the run after `k + 1` bytes, and what is left is a run that takes it up where it was. -/
theorem interruptedAccess : Obligations.InterruptedAccess := by
  refine ⟨fun s c addr n data m k rest hinv h hm hd => ?_, fun s t i hinv hn he hr =>
    exec_resumed ((inv_iff_sound s).1 hinv) hn he hr⟩
  have hs := (inv_iff_sound s).1 hinv
  refine ⟨fun hb hc hk => ?read, fun hb hk hc => ?write⟩
  case read =>
    obtain ⟨u, host, got, he, hlen, hhost, hbytes, hu, hmems, hblobs, hgraves⟩ :=
      exec_tlbRead_stopped hs h hm hd hb hc hk
    obtain ⟨hsame, hdraws, hcoh⟩ := hu.park s.resp rest _
    exact ⟨_, host, got, he, rfl, hlen, State.park_transfer _ c _, hhost, hbytes, hsame, hmems, hblobs, hgraves, hdraws, hcoh⟩
  case write =>
    obtain ⟨u, host, j, he, hhost, hu, hshort⟩ := exec_tlbWrite_stopped hs h hm hd hb hk hc
    obtain ⟨hsame, hdraws, hcoh⟩ := hu.park s.resp rest _
    exact ⟨_, _, host, he, rfl, State.park_transfer _ c _, hhost, hsame, hdraws, hcoh, hshort, rfl, rfl, rfl⟩

end Sys2Proof.Machine
end

section
/-! SUPPORT. The command packet read both ways (spec/30_encoding.md R110, R114, R133; log 1, log 4): the operation map knows the
listed codes only, each form reads back what the encoder writes, and a field wider than its width refuses the packet wherever the
form reads it. -/

namespace Sys2Proof

open Sys2Proof.Machine

/-! ### The operation map -/

theorem listedCode_of_operandForm {cmd : Nat} {form : BitVec 32 → Parse Instr} (h : operandForm cmd = some form) :
    listedCode cmd = true := by
  unfold operandForm at h
  split at h
  case h_124 => cases h -- the arm of the unlisted codes
  all_goals rfl

theorem operandForm_of_unlisted {cmd : Nat} (h : listedCode cmd = false) : operandForm cmd = none :=
  Option.eq_none_iff_forall_ne_some.2 fun _ hf => by simp [listedCode_of_operandForm hf] at h

theorem lt_of_listedCode {cmd : Nat} (h : listedCode cmd = true) : cmd < 65536 := by
  simp only [listedCode, Bool.or_eq_true, decide_eq_true_eq] at h
  omega

/-! ### Reading a packet back -/

/-- The form of a command's code reads its operand bytes back, field by field; only the runs of bytes of `ASM.MAP` and `TLB.WRITE`
need their length to fit the field before them. -/
theorem operandForm_reads_operandBytes (i : Instr) (rest : List Byte) (h : i.wf = true) :
    ∃ form, operandForm (opcode i) = some form ∧ form (contextOf i) (operandBytes i ++ rest) = .ok (i, rest) := by
  cases i
  case asmMap m page count host flags =>
    have hhost : host.wf = true := h
    exact ⟨_, rfl, by simp [operandBytes, Parse.andThen, Parse.hostMem_hostMemOf hhost]⟩
  case tlbWrite c addr data =>
    have hlen : data.length < 256 ^ 4 := by simpa [Instr.wf, dataWf] using h
    exact ⟨_, rfl, by simp [contextOf, operandBytes, Parse.andThen, Parse.counted_countedOf hlen]⟩
  all_goals exact ⟨_, rfl, by simp [contextOf, operandBytes, Parse.andThen]⟩

theorem decode_encode {i : Instr} (h : i.wf = true) (rest : List Byte) : decode (encode i ++ rest) = .ok i := by
  obtain ⟨form, hform, hread⟩ := operandForm_reads_operandBytes i rest h
  exact decode_encode_of (lt_of_listedCode (listedCode_of_operandForm hform)) hform hread

/-- Settles O2: each form reads back the fields that the encoder wrote for its command. -/
theorem decodeOfEncode : Obligations.DecodeOfEncode := fun _ rest h => decode_encode h rest

/-- Settles O1: each packet is the one the encoder writes for its command, so it is read back. -/
theorem writtenPacketsDecode : Obligations.WrittenPacketsDecode :=
  ⟨decode_encode (i := .wiClz 0x0123456789ABCDEFFEDCBA9876543210#128) rfl [],
    decode_encode (i := .feNeg 0x3FFF8000000000000000#80) rfl [],
    decode_encode (i := .fpuAdd 7 0 1) rfl [],
    decode_encode (i := .asmTranslate 1 0x08049123 .read) rfl [],
    decode_encode (i := .tlbRead 7 0x10000 4) rfl [],
    decode_encode (i := .cpuSetReg8 7 7 0x11) rfl [],
    decode_encode (i := .decModRm 7 0x1FFD) rfl []⟩

/-! ### Over-wide fields (R114; log 4) -/

/-- The bytes of a field are read as the number they hold, which is refused where it is too wide. -/
theorem Parse.field_leBytes (w v : Nat) (rest : List Byte) :
    Parse.field w (leBytes (fieldBytes w) v ++ rest) =
      if v % 256 ^ fieldBytes w < 2 ^ w then .ok (BitVec.ofNat w (v % 256 ^ fieldBytes w), rest)
      else .error .illegalOperand := by
  have hl : ¬ (leBytes (fieldBytes w) v ++ rest).length < fieldBytes w := by simp [leBytes_length]
  simp only [Parse.field, if_neg hl, take_leBytes, drop_leBytes, leNat_leBytes]

/-- An over-wide field refuses the packet, whatever would be read after it. -/
theorem Parse.field_andThen_wide {α : Type} {w v : Nat} {f : BitVec w → Parse α} {rest : List Byte}
    (hv : v < 256 ^ fieldBytes w) (h : 2 ^ w ≤ v) :
    (Parse.field w).andThen f (leBytes (fieldBytes w) v ++ rest) = .error .illegalOperand := by
  simp [Parse.andThen, Parse.field_leBytes, Nat.mod_eq_of_lt hv, Nat.not_lt.2 h]

/-- A field before refused bytes leaves the packet refused, whatever it holds itself. -/
theorem Parse.field_andThen_of_refused {α : Type} {w : Nat} {f : BitVec w → Parse α} {rest : List Byte} (v : Nat)
    (h : ∀ x, f x rest = .error .illegalOperand) :
    (Parse.field w).andThen f (leBytes (fieldBytes w) v ++ rest) = .error .illegalOperand := by
  simp only [Parse.andThen, Parse.field_leBytes]
  split_ifs
  · exact h _
  · rfl

/-- A reader that begins with fields of these widths: it refuses every packet in which one of them is over-wide. -/
def Parse.RefusesWide {α : Type} (widths : List Nat) (p : Parse α) : Prop :=
  ∀ (fields : List (Nat × Nat)) (more : List Byte), fields.map Prod.fst = widths →
    (∀ f ∈ fields, f.2 < 256 ^ fieldBytes f.1) → (∃ f ∈ fields, 2 ^ f.1 ≤ f.2) →
    p (rawFields fields ++ more) = .error .illegalOperand

theorem Parse.refusesWide_nil {α : Type} (p : Parse α) : p.RefusesWide [] := by
  intro fields more hw _ ⟨f, hf, _⟩
  simp [List.map_eq_nil_iff.1 hw] at hf

theorem Parse.RefusesWide.cons {α : Type} {w : Nat} {widths : List Nat} {f : BitVec w → Parse α}
    (h : ∀ x, (f x).RefusesWide widths) : ((Parse.field w).andThen f).RefusesWide (w :: widths) := by
  intro fields more hw hlt hwide
  obtain ⟨⟨w', v⟩, later, rfl, rfl, hlater⟩ := List.map_eq_cons_iff.1 hw
  obtain ⟨hv, hlt⟩ := List.forall_mem_cons.1 hlt
  rw [rawFields, List.append_assoc]
  obtain hwide | hwide := (List.exists_mem_cons_iff ..).1 hwide
  · exact Parse.field_andThen_wide hv hwide
  · exact Parse.field_andThen_of_refused v fun x => h x later more hlater hlt hwide

theorem Parse.refusesWide_args1 {w : Nat} (f : BitVec w → Instr) : (Parse.args1 f).RefusesWide [w] :=
  .cons fun _ => Parse.refusesWide_nil _

theorem Parse.refusesWide_args2 {v w : Nat} (f : BitVec v → BitVec w → Instr) : (Parse.args2 f).RefusesWide [v, w] :=
  .cons fun _ => Parse.refusesWide_args1 _

theorem Parse.andThen_assoc {α β γ : Type} (p : Parse α) (f : α → Parse β) (g : β → Parse γ) :
    (p.andThen f).andThen g = p.andThen fun a => (f a).andThen g := by
  funext bs
  simp only [Parse.andThen]
  cases p bs <;> rfl

/-- A truth value read first is a field of one bit read first. -/
theorem Parse.bit_andThen {α : Type} (f : Bool → Parse α) :
    Parse.bit.andThen f = (Parse.field 1).andThen fun b => f (b == 1#1) := Parse.andThen_assoc ..

theorem Parse.access_andThen {α : Type} (f : Access → Parse α) :
    Parse.access.andThen f = (Parse.field 1).andThen fun b => f (if b == 1#1 then .write else .read) :=
  Parse.andThen_assoc ..

theorem Parse.refusesWide_bit {α : Type} (f : Bool → Parse α) : (Parse.bit.andThen f).RefusesWide [1] := by
  rw [Parse.bit_andThen]
  exact .cons fun _ => Parse.refusesWide_nil _

theorem Parse.refusesWide_access {α : Type} (f : Access → Parse α) : (Parse.access.andThen f).RefusesWide [1] := by
  rw [Parse.access_andThen]
  exact .cons fun _ => Parse.refusesWide_nil _

theorem Parse.refusesWide_desc {α : Type} (f : Desc → Parse α) :
    (Parse.desc.andThen f).RefusesWide [1, 3, 4, 4, 2, 32] := by
  simp only [Parse.desc, Parse.bit_andThen, Parse.andThen_assoc]
  exact .cons fun _ => .cons fun _ => .cons fun _ => .cons fun _ => .cons fun _ => .cons fun _ => Parse.refusesWide_nil _

/-- Each form with a narrow field begins with the fields that `narrowFields` gives for its code. -/
theorem operandForm_refusesWide (cmd : Nat) :
    narrowFields cmd = [] ∨
      ∃ form, operandForm cmd = some form ∧ ∀ c, (form c).RefusesWide (narrowFields cmd) := by
  fun_cases narrowFields cmd
  next h => subst h; exact .inr ⟨_, rfl, fun _ => Parse.refusesWide_args1 _⟩
  next h => fin_cases h <;> exact .inr ⟨_, rfl, fun _ => Parse.refusesWide_args1 _⟩
  next h => fin_cases h <;> exact .inr ⟨_, rfl, fun _ => Parse.refusesWide_args2 _⟩
  next h => subst h; exact .inr ⟨_, rfl, fun _ => .cons fun _ => .cons fun _ => Parse.refusesWide_bit _⟩
  next h =>
    obtain rfl | rfl := h <;>
      exact .inr ⟨_, rfl, fun _ => .cons fun _ => .cons fun _ => .cons fun _ => .cons fun _ => Parse.refusesWide_nil _⟩
  next h =>
    subst h
    exact .inr ⟨_, rfl, fun _ => .cons fun _ => .cons fun _ => .cons fun _ => Parse.refusesWide_bit _⟩
  next h =>
    subst h
    exact .inr ⟨_, rfl, fun _ =>
      .cons fun _ => .cons fun _ => .cons fun _ => .cons fun _ => .cons fun _ => Parse.refusesWide_nil _⟩
  next h => subst h; exact .inr ⟨_, rfl, fun _ => .cons fun _ => .cons fun _ => Parse.refusesWide_access _⟩
  next h => subst h; exact .inr ⟨_, rfl, fun _ => Parse.refusesWide_args2 _⟩
  next h => obtain rfl | rfl := h <;> exact .inr ⟨_, rfl, fun _ => Parse.refusesWide_args2 _⟩
  next h => subst h; exact .inr ⟨_, rfl, fun _ => Parse.refusesWide_args2 _⟩
  next h => subst h; exact .inr ⟨_, rfl, fun _ => Parse.refusesWide_args2 _⟩
  next h => subst h; exact .inr ⟨_, rfl, fun _ => .cons fun _ => Parse.refusesWide_bit _⟩
  next h => subst h; exact .inr ⟨_, rfl, fun _ => Parse.refusesWide_desc _⟩
  next => exact .inl rfl

/-- The operands of `ASM.MAP` are refused for an over-wide page, host byte or flags; its other fields take any value. -/
theorem asmMap_refusesWide {m page count region : Nat} {bytes : List Byte} {flags : Byte} (more : List Byte)
    (hpage : page < 2 ^ 24) (hregion : region < 256) (hbytes : bytes.length < 2 ^ 64)
    (hwide : 2 ^ 20 ≤ page ∨ 2 ≤ region ∨ 128 ≤ flags.toNat) :
    ∃ form, operandForm 0x0403 = some form ∧
      ∀ c, form c (rawFields [(64, m), (20, page), (32, count), (1, region)] ++
        (leBytes 8 bytes.length ++ (bytes ++ flags :: more))) = .error .illegalOperand := by
  refine ⟨_, rfl, fun _ => ?_⟩
  simp only [rawFields, List.append_assoc, List.nil_append, Parse.hostMem, Parse.bit_andThen, Parse.andThen_assoc]
  refine Parse.field_andThen_of_refused m fun _ => ?_
  obtain hwide | hwide | hwide := hwide
  · exact Parse.field_andThen_wide hpage hwide
  · exact Parse.field_andThen_of_refused page fun _ => Parse.field_andThen_of_refused count fun _ =>
      Parse.field_andThen_wide hregion hwide
  · refine Parse.field_andThen_of_refused page fun _ => Parse.field_andThen_of_refused count fun _ =>
      Parse.field_andThen_of_refused region fun _ => ?_
    have hcounted : Parse.counted 8 (leBytes 8 bytes.length ++ (bytes ++ flags :: more)) = .ok (bytes, flags :: more) := by
      simpa [countedOf] using Parse.counted_countedOf (k := 8) hbytes (flags :: more)
    have hflags : flags :: more = leBytes (fieldBytes 7) flags.toNat ++ more := by simp [leBytes, fieldBytes]
    rw [Parse.andThen_ok hcounted, hflags]
    exact Parse.field_andThen_wide flags.isLt hwide

/-- A packet whose operands are refused after any context name is refused. -/
theorem decode_of_refused {b0 b1 : Byte} {name : Nat} {operands : List Byte} {form : BitVec 32 → Parse Instr}
    (hform : operandForm (b0.toNat + 256 * b1.toNat) = some form)
    (h : ∀ c, form c operands = .error .illegalOperand) :
    decode (b0 :: b1 :: (leBytes 4 name ++ operands)) = .error .illegalOperand := by
  have hcode : leNat [b0, b1] = b0.toNat + 256 * b1.toNat := rfl
  have hname : (Parse.field 32).andThen form (leBytes 4 name ++ operands) = .error .illegalOperand :=
    Parse.field_andThen_of_refused name h
  simp only [decode, hcode, hform, hname]

theorem decode_of_unlisted {b0 b1 : Byte} {tail : List Byte} (h : listedCode (b0.toNat + 256 * b1.toNat) = false) :
    decode (b0 :: b1 :: tail) = .error .illegalCommand := by
  have hcode : leNat [b0, b1] = b0.toNat + 256 * b1.toNat := rfl
  simp only [decode, hcode, operandForm_of_unlisted h]

theorem decode_of_wideField {b0 b1 : Byte} {name : Nat} {fields : List (Nat × Nat)} {more : List Byte}
    (hw : fields.map Prod.fst = narrowFields (b0.toNat + 256 * b1.toNat))
    (hlt : ∀ f ∈ fields, f.2 < 256 ^ fieldBytes f.1) (hwide : ∃ f ∈ fields, 2 ^ f.1 ≤ f.2) :
    decode (b0 :: b1 :: (leBytes 4 name ++ (rawFields fields ++ more))) = .error .illegalOperand := by
  obtain hnone | ⟨form, hform, hrefuses⟩ := operandForm_refusesWide (b0.toNat + 256 * b1.toNat)
  · obtain ⟨f, hf, -⟩ := hwide
    rw [List.map_eq_nil_iff.1 (hw.trans hnone)] at hf
    exact absurd hf List.not_mem_nil
  · exact decode_of_refused hform fun c => hrefuses c fields more hw hlt hwide

/-- Settles O3: the decoder refuses each of these packets, and the step answers what the decoder says. -/
theorem rejectedPackets : Obligations.RejectedPackets := by
  intro s u b0 b1 tail later hport hturn
  refine ⟨fun hcode => ?unlisted, fun name fields more htail hw hlt hwide => ?wide,
    fun name m page count region bytes flags more hcmd hpage hregion hbytes hwide htail => ?map⟩
  case unlisted => exact step_of_reject hturn hport (decode_of_unlisted hcode)
  case wide =>
    subst htail
    exact step_of_reject hturn hport (decode_of_wideField hw hlt hwide)
  case map =>
    subst htail
    obtain ⟨form, hform, hrefuses⟩ := asmMap_refusesWide more hpage hregion hbytes hwide
    exact step_of_reject hturn hport (decode_of_refused (hcmd ▸ hform) hrefuses)

end Sys2Proof
end

section
/-! SUPPORT. Restoring long division (spec/40_wide_integer.md R174): its invariant, kept by every iteration, and the
division it ends with. -/

namespace Sys2Proof.Machine

/-! ### Shifting one bit in -/

/-- A register shifted left by one, with a bit put in at the bottom, where nothing is shifted out. -/
theorem toNat_shiftIn {w : Nat} (x y : BitVec w) (hx : 2 * x.toNat < 2 ^ w) (hy : y.toNat < 2) :
    (x <<< 1 ||| y).toNat = 2 * x.toNat + y.toNat := by
  rw [BitVec.toNat_or, BitVec.toNat_shiftLeft, Nat.shiftLeft_eq, pow_one, Nat.mul_comm, Nat.mod_eq_of_lt hx]
  exact (Nat.two_pow_add_eq_or_of_lt (i := 1) hy x.toNat).symm

/-- The bit of the dividend that iteration `k + 1` takes. -/
def nextBit (a : Wide) (k : Nat) : Nat := a.toNat / 2 ^ (127 - k) % 2

theorem nextBit_lt (a : Wide) (k : Nat) : nextBit a k < 2 := Nat.mod_lt _ Nat.two_pos

/-- The next bit is the one at the top of the dividend register, which `k` iterations have shifted. -/
theorem toNat_topBit_shiftLeft (a : Wide) {k : Nat} (hk : k < 128) :
    (((a <<< k) >>> 127).setWidth 129).toNat = nextBit a k := by
  rw [BitVec.toNat_setWidth_of_le (by decide), BitVec.toNat_ushiftRight, Nat.shiftRight_eq_div_pow, nextBit,
    BitVec.toNat_shiftLeft, Nat.shiftLeft_eq]
  have hlow : 2 ^ 127 = 2 ^ k * 2 ^ (127 - k) := by rw [← pow_add, show k + (127 - k) = 127 by omega]
  have hall : 2 ^ 128 = 2 ^ k * (2 ^ (127 - k) * 2) := by rw [← Nat.mul_assoc, ← hlow, ← pow_succ]
  rw [hall, hlow, Nat.mul_comm a.toNat, Nat.mul_mod_mul_left, Nat.mul_div_mul_left _ _ (Nat.two_pow_pos k), Nat.mod_mul_right_div_self]

/-- The top `k + 1` bits of the dividend are the top `k` and the next one. -/
theorem topBits_succ (a : Wide) {k : Nat} (hk : k < 128) :
    a.toNat / 2 ^ (128 - (k + 1)) = 2 * (a.toNat / 2 ^ (128 - k)) + nextBit a k := by
  have hpow : 2 ^ (128 - k) = 2 ^ (127 - k) * 2 := by rw [← pow_succ, show 127 - k + 1 = 128 - k by omega]
  rw [show 128 - (k + 1) = 127 - k by omega, hpow, ← Nat.div_div_eq_div_mul, nextBit]
  exact (Nat.div_add_mod _ 2).symm

/-! ### The invariant -/

/-- R174's invariant after `k` iterations, with what the dividend register holds. -/
structure RestoringInvariant (a b : Wide) (k : Nat) (regs : Wide × BitVec 129 × Wide) : Prop where
  rem_lt : regs.2.1.toNat < b.toNat
  topBits : a.toNat / 2 ^ (128 - k) = regs.1.toNat * b.toNat + regs.2.1.toNat
  dividend : regs.2.2 = a <<< k

theorem restoringInvariant_init (a : Wide) {b : Wide} (hb : b ≠ 0#128) : RestoringInvariant a b 0 (0, 0, a) where
  rem_lt := Nat.pos_of_ne_zero (BitVec.toNat_ne.1 hb)
  topBits := by simpa using a.isLt
  dividend := by simp

/-- The remainder register with the top bit of the dividend register shifted in. -/
def shiftedRemainder (regs : Wide × BitVec 129 × Wide) : BitVec 129 :=
  (regs.2.1 <<< 1) ||| (regs.2.2 >>> 127).setWidth 129

theorem restoringStep_of_le {b : Wide} {regs : Wide × BitVec 129 × Wide} (h : b.setWidth 129 ≤ shiftedRemainder regs) :
    restoringStep b regs = (regs.1 <<< 1 ||| 1#128, shiftedRemainder regs - b.setWidth 129, regs.2.2 <<< 1) :=
  if_pos h

theorem restoringStep_of_not_le {b : Wide} {regs : Wide × BitVec 129 × Wide}
    (h : ¬ b.setWidth 129 ≤ shiftedRemainder regs) :
    restoringStep b regs = (regs.1 <<< 1, shiftedRemainder regs, regs.2.2 <<< 1) :=
  if_neg h

section
variable {a b : Wide} {k : Nat} {regs : Wide × BitVec 129 × Wide}

theorem RestoringInvariant.toNat_shiftedRemainder (h : RestoringInvariant a b k regs) (hk : k < 128) :
    (shiftedRemainder regs).toNat = 2 * regs.2.1.toNat + nextBit a k := by
  have hbit := toNat_topBit_shiftLeft a hk
  rw [← h.dividend] at hbit
  have hrem := h.rem_lt
  rw [shiftedRemainder, toNat_shiftIn _ _ (by omega) (hbit ▸ nextBit_lt a k), hbit]

/-- Nothing is shifted out of the quotient register: it holds at most the top `k` bits of the dividend. -/
theorem RestoringInvariant.two_mul_quotient_lt (h : RestoringInvariant a b k regs) (hk : k < 128) :
    2 * regs.1.toNat < 2 ^ 128 := by
  have hq : regs.1.toNat ≤ regs.1.toNat * b.toNat := Nat.le_mul_of_pos_right _ (Nat.zero_lt_of_lt h.rem_lt)
  have htop : a.toNat / 2 ^ (128 - (k + 1)) ≤ a.toNat := Nat.div_le_self ..
  rw [topBits_succ a hk, h.topBits] at htop
  omega

theorem RestoringInvariant.step (h : RestoringInvariant a b k regs) (hk : k < 128) :
    RestoringInvariant a b (k + 1) (restoringStep b regs) := by
  have hrem := h.rem_lt
  have hbit := nextBit_lt a k
  have hshifted := h.toNat_shiftedRemainder hk
  have hquot := h.two_mul_quotient_lt hk
  have hdivisor : (b.setWidth 129).toNat = b.toNat := BitVec.toNat_setWidth_of_le (by decide)
  have hfits_iff : b.setWidth 129 ≤ shiftedRemainder regs ↔ b.toNat ≤ 2 * regs.2.1.toNat + nextBit a k := by
    rw [BitVec.le_def, hdivisor, hshifted]
  have hdividend : regs.2.2 <<< 1 = a <<< (k + 1) := by rw [h.dividend, BitVec.shiftLeft_add]
  by_cases hfits : b.setWidth 129 ≤ shiftedRemainder regs
  · have hsub : (shiftedRemainder regs - b.setWidth 129).toNat = 2 * regs.2.1.toNat + nextBit a k - b.toNat := by
      rw [BitVec.toNat_sub_of_le hfits, hshifted, hdivisor]
    have hq : (regs.1 <<< 1 ||| 1#128).toNat = 2 * regs.1.toNat + 1 := toNat_shiftIn _ _ hquot (by decide)
    rw [restoringStep_of_le hfits]
    rw [hfits_iff] at hfits
    refine ⟨by rw [hsub]; omega, ?_, hdividend⟩
    rw [topBits_succ a hk, h.topBits, hq, hsub, Nat.add_mul, Nat.mul_assoc]
    omega
  · have hq : (regs.1 <<< 1).toNat = 2 * regs.1.toNat := by simpa using toNat_shiftIn regs.1 0#128 hquot (by decide)
    rw [restoringStep_of_not_le hfits]
    rw [hfits_iff] at hfits
    refine ⟨by rw [hshifted]; omega, ?_, hdividend⟩
    rw [topBits_succ a hk, h.topBits, hq, hshifted, Nat.mul_assoc]
    omega

end

/-- The last of the iterations, where the definition takes out the first. -/
theorem restoringSteps_succ (b : Wide) (n : Nat) (regs : Wide × BitVec 129 × Wide) :
    restoringSteps b (n + 1) regs = restoringStep b (restoringSteps b n regs) := by
  induction n generalizing regs with
  | zero => rfl
  | succ n ih => exact ih (restoringStep b regs)

theorem restoringInvariant_steps (a : Wide) {b : Wide} (hb : b ≠ 0#128) {k : Nat} (hk : k ≤ 128) :
    RestoringInvariant a b k (restoringSteps b k (0, 0, a)) := by
  induction k with
  | zero => exact restoringInvariant_init a hb
  | succ k ih =>
    rw [restoringSteps_succ]
    exact (ih (Nat.le_of_succ_le hk)).step hk

theorem restoringDivide_eq (a : Wide) {b : Wide} (hb : b ≠ 0#128) :
    restoringDivide a b = (a / b, a % b) := by
  -- with no bit of the dividend left, the invariant is Euclid's identity
  obtain ⟨hlt, htop, -⟩ := restoringInvariant_steps a hb le_rfl
  simp only [Nat.sub_self, pow_zero, Nat.div_one] at htop
  obtain ⟨hq, hr⟩ := (Nat.div_mod_unique (Nat.zero_lt_of_lt hlt)).2 ⟨by rw [Nat.add_comm, Nat.mul_comm, ← htop], hlt⟩
  simp only [restoringDivide, BitVec.udiv_def, BitVec.umod_def, hq, hr, BitVec.ofNat_toNat, BitVec.setWidth_eq]

theorem exec_wiUdiv_of_ne (a : Wide) {b : Wide} (hb : b ≠ 0#128) (s : State) :
    exec (.wiUdiv a b) s = .next (s.ok (.quotRem (a / b) (a % b))) := by
  rw [BitVec.udiv_def, BitVec.umod_def]
  exact if_neg hb

/-- Settles O18: the loop keeps R174's invariant, and after 128 iterations the invariant is Euclid's identity. -/
theorem restoringDivisionIsDivision : Obligations.RestoringDivisionIsDivision := by
  intro s a b hb
  refine ⟨?_, fun k hk => ?_⟩
  · rw [exec_wiUdiv_of_ne a hb, restoringDivide_eq a hb]
  · obtain ⟨hlt, htop, -⟩ := restoringInvariant_steps a hb hk
    exact ⟨hlt, htop⟩

end Sys2Proof.Machine
end


section
/-! SUPPORT. The results of the wide-integer commands (spec/40_wide_integer.md R152–R172) as numbers. -/

namespace Sys2Proof.Machine

/-! ### Integers as 128-bit patterns -/

theorem fitsWide_iff (x : Int) : fitsWide x = true ↔ -2 ^ 127 ≤ x ∧ x ≤ 2 ^ 127 - 1 := decide_eq_true_iff

/-- The overflow of a signed operation (R165, R167, R169). -/
theorem not_fitsWide_eq_false_iff (x : Int) : (!fitsWide x) = false ↔ -2 ^ 127 ≤ x ∧ x ≤ 2 ^ 127 - 1 := by
  rw [Bool.not_eq_false', fitsWide_iff]

theorem toInt_wide_bounds (a : Wide) : -2 ^ 127 ≤ a.toInt ∧ a.toInt ≤ 2 ^ 127 - 1 :=
  ⟨a.le_toInt, Int.le_sub_one_of_lt a.toInt_lt⟩

/-- The 128-bit pattern of an integer is the integer modulo 2^128. -/
theorem toNat_ofInt_wide (x : Int) : ((BitVec.ofInt 128 x).toNat : Int) = x % 2 ^ 128 := by
  rw [BitVec.toNat_ofInt, Int.toNat_of_nonneg (Int.emod_nonneg _ (by decide))]
  rfl

theorem toInt_ofInt_wide {x : Int} (hlo : -2 ^ 127 ≤ x) (hhi : x ≤ 2 ^ 127 - 1) : (BitVec.ofInt 128 x).toInt = x :=
  BitVec.toInt_ofInt_eq_self (by decide) hlo (Int.lt_of_le_sub_one hhi)

theorem ofInt_sub_wide (x y : Int) : BitVec.ofInt 128 (x - y) = BitVec.ofInt 128 x - BitVec.ofInt 128 y := by
  rw [Int.sub_eq_add_neg, BitVec.ofInt_add, BitVec.ofInt_neg, BitVec.sub_eq_add_neg]

theorem ofInt_toNat_wide (a : Wide) : BitVec.ofInt 128 (a.toNat : Int) = a := by
  rw [BitVec.ofInt_natCast, BitVec.ofNat_toNat, BitVec.setWidth_eq]

/-- The ones' complement of `a` is `-a - 1` (R159, R172). -/
theorem toInt_complement (a : Wide) : (~~~a).toInt = -a.toInt - 1 := by
  obtain ⟨hlo, hhi⟩ := toInt_wide_bounds a
  rw [← toInt_ofInt_wide (x := -a.toInt - 1) (by omega) (by omega), ofInt_sub_wide, BitVec.ofInt_neg, BitVec.ofInt_toInt,
    BitVec.neg_eq_not_add]
  exact congrArg BitVec.toInt (BitVec.add_sub_cancel ..).symm

/-! ### Narrowing (R154) -/

theorem highHalf_ne_zero_iff (a : Wide) : (a.extractLsb' 64 64 != 0#64) = true ↔ 2 ^ 64 ≤ a.toNat := by
  have hhigh : a.toNat / 2 ^ 64 < 2 ^ 64 := Nat.div_lt_of_lt_mul a.isLt
  rw [bne_iff_ne, BitVec.toNat_ne, BitVec.extractLsb'_toNat, Nat.shiftRight_eq_div_pow, Nat.mod_eq_of_lt hhigh,
    BitVec.toNat_zero, ne_eq, Nat.div_eq_zero_iff]
  omega

/-! ### Comparison and the leading-zero count (R156–R158) -/

theorem toInt_threeWay_of_lt {x y : Int} (h : x < y) : (threeWay x y).toInt = -1 := by
  rw [threeWay, if_pos h]
  rfl

theorem toInt_threeWay_of_eq {x y : Int} (h : x = y) : (threeWay x y).toInt = 0 := by
  rw [threeWay, if_neg h.not_lt, if_pos h]
  rfl

theorem toInt_threeWay_of_gt {x y : Int} (h : y < x) : (threeWay x y).toInt = 1 := by
  rw [threeWay, if_neg h.asymm, if_neg h.ne']
  rfl

theorem toNat_leadingZeros (a : Wide) : (BitVec.ofNat 8 (leadingZeros a)).toNat = leadingZeros a := by
  have hle : leadingZeros a ≤ 128 := by
    unfold leadingZeros
    split <;> omega
  rw [BitVec.toNat_ofNat, Nat.mod_eq_of_lt (by omega)]

/-- The bit below the leading zeros is the highest one set. -/
theorem highestBit_leadingZeros {a : Wide} (h : a ≠ 0#128) :
    leadingZeros a ≤ 127 ∧ a.getLsbD (127 - leadingZeros a) = true ∧
      ∀ j, 127 - leadingZeros a < j → a.getLsbD j = false := by
  have hne : a.toNat ≠ 0 := BitVec.toNat_ne.1 h
  have hlog : Nat.log2 a.toNat < 128 := (Nat.log2_lt hne).2 a.isLt
  have hcount : leadingZeros a = 127 - Nat.log2 a.toNat := if_neg h
  have hindex : 127 - leadingZeros a = Nat.log2 a.toNat := by omega
  rw [hindex]
  exact ⟨by omega, Nat.testBit_log2 hne, fun j hj => Nat.testBit_lt_two_pow ((Nat.log2_lt hne).1 hj)⟩

/-- Settles O14: each result by the law of its conversion, of the three-way compare, or of the highest set bit. -/
theorem wideConvertCompareCount : Obligations.WideConvertCompareCount := by
  intro s x a b
  refine ⟨⟨rfl, _, rfl, ?fromU64⟩, ⟨rfl, _, rfl, ?fromS64⟩, ⟨rfl, _, _, rfl, ?toU64, ?toU64ovf⟩,
    ⟨rfl, _, _, rfl, ?toS64, ?toS64ovf⟩, ⟨rfl, _, rfl, ?ucmp⟩, ⟨rfl, _, rfl, ?scmp⟩, ⟨rfl, _, rfl, ?clzZero, ?clz⟩⟩
  case fromU64 => exact BitVec.toNat_setWidth_of_le (by decide)
  case fromS64 => exact BitVec.toInt_signExtend_of_le (by decide)
  case toU64 | toS64 => exact BitVec.toNat_setWidth ..
  case toU64ovf => exact highHalf_ne_zero_iff a
  case toS64ovf => rw [Bool.not_eq_false', decide_eq_true_iff]
  case ucmp =>
    exact ⟨fun h => toInt_threeWay_of_lt (Int.ofNat_lt.2 h), fun h => toInt_threeWay_of_eq (congrArg _ h),
      fun h => toInt_threeWay_of_gt (Int.ofNat_lt.2 h)⟩
  case scmp => exact ⟨toInt_threeWay_of_lt, toInt_threeWay_of_eq, toInt_threeWay_of_gt⟩
  case clzZero =>
    rintro rfl
    rfl
  case clz =>
    rw [toNat_leadingZeros]
    exact highestBit_leadingZeros

/-! ### Shifts (R162, R163) -/

section
variable (s : State) (a : Wide) {n : BitVec 32}

theorem shiftCount_of_legal (h0 : 0 ≤ n.toInt) (h127 : n.toInt ≤ 127) : shiftCount n = some n.toNat :=
  if_neg (by omega)

theorem shiftCount_of_illegal (h : n.toInt < 0 ∨ 127 < n.toInt) : shiftCount n = none := if_pos h

theorem exec_wiShl_of_legal (h0 : 0 ≤ n.toInt) (h127 : n.toInt ≤ 127) :
    exec (.wiShl a n) s = .next (s.ok (.wide (a <<< n.toNat))) := by
  simp only [exec, execWiShl, shiftCount_of_legal h0 h127]

theorem exec_wiShr_of_legal (h0 : 0 ≤ n.toInt) (h127 : n.toInt ≤ 127) :
    exec (.wiShr a n) s = .next (s.ok (.wide (a >>> n.toNat))) := by
  simp only [exec, execWiShr, shiftCount_of_legal h0 h127]

theorem exec_wiShl_of_illegal (h : n.toInt < 0 ∨ 127 < n.toInt) :
    exec (.wiShl a n) s = .next (s.fail .illegalOperand) := by
  simp only [exec, execWiShl, shiftCount_of_illegal h]

theorem exec_wiShr_of_illegal (h : n.toInt < 0 ∨ 127 < n.toInt) :
    exec (.wiShr a n) s = .next (s.fail .illegalOperand) := by
  simp only [exec, execWiShr, shiftCount_of_illegal h]

end

/-- Settles O15: the bits by the library's rules; a shift's answer by whether its count is legal. -/
theorem wideBitsAndShifts : Obligations.WideBitsAndShifts := by
  intro s a b n
  refine ⟨⟨rfl, _, rfl, BitVec.toNat_not, toInt_complement a⟩, ⟨rfl, _, rfl, fun k _ => BitVec.getLsbD_and⟩,
    ⟨rfl, _, rfl, fun k _ => BitVec.getLsbD_or⟩, ⟨rfl, fun h0 h127 => ?shl, exec_wiShl_of_illegal s a⟩,
    ⟨rfl, fun h0 h127 => ?shr, exec_wiShr_of_illegal s a⟩⟩
  case shl => exact ⟨_, exec_wiShl_of_legal s a h0 h127, by rw [BitVec.toNat_shiftLeft, Nat.shiftLeft_eq]⟩
  case shr => exact ⟨_, exec_wiShr_of_legal s a h0 h127, by rw [BitVec.toNat_ushiftRight, Nat.shiftRight_eq_div_pow]⟩

/-! ### Results modulo 2^128 (R165–R167, R169, R172) -/

theorem toNat_add_signed (a b : Wide) : ((a + b).toNat : Int) = (a.toInt + b.toInt) % 2 ^ 128 := by
  rw [← toNat_ofInt_wide, BitVec.ofInt_add, BitVec.ofInt_toInt, BitVec.ofInt_toInt]

theorem toNat_sub_signed (a b : Wide) : ((a - b).toNat : Int) = (a.toInt - b.toInt) % 2 ^ 128 := by
  rw [← toNat_ofInt_wide, ofInt_sub_wide, BitVec.ofInt_toInt, BitVec.ofInt_toInt]

theorem toNat_mul_signed (a b : Wide) : ((a * b).toNat : Int) = a.toInt * b.toInt % 2 ^ 128 := by
  rw [← toNat_ofInt_wide, BitVec.ofInt_mul, BitVec.ofInt_toInt, BitVec.ofInt_toInt]

theorem toNat_sub_unsigned (a b : Wide) : ((a - b).toNat : Int) = ((a.toNat : Int) - b.toNat) % 2 ^ 128 := by
  rw [← toNat_ofInt_wide, ofInt_sub_wide, ofInt_toNat_wide, ofInt_toNat_wide]

theorem toInt_neg_wide {a : Wide} (h : a.toInt ≠ -2 ^ 127) : (-a).toInt = -a.toInt := by
  obtain ⟨hlo, hhi⟩ := toInt_wide_bounds a
  rw [← toInt_ofInt_wide (x := -a.toInt) (by omega) (by omega), BitVec.ofInt_neg, BitVec.ofInt_toInt]

/-- Negation overflows on the least value alone (R172). -/
theorem neg_overflows_iff (a : Wide) : (!fitsWide ((~~~a).toInt + 1)) = true ↔ a.toInt = -2 ^ 127 := by
  obtain ⟨hlo, hhi⟩ := toInt_wide_bounds a
  rw [Bool.not_eq_true', ← Bool.not_eq_true, fitsWide_iff, toInt_complement]
  omega

theorem exec_wiNeg (a : Wide) (s : State) :
    exec (.wiNeg a) s = .next (s.ok (.wideOvf (-a) (!fitsWide ((~~~a).toInt + 1)))) := by
  rw [BitVec.neg_eq_not_add]
  rfl

/-- Settles O16: each command answers the 128-bit pattern of the true result, and whether that result fits. -/
theorem wideArithmetic : Obligations.WideArithmetic := by
  intro s a b
  refine ⟨⟨rfl, _, _, rfl, BitVec.toNat_add .., decide_eq_true_iff⟩,
    ⟨rfl, _, _, rfl, toNat_add_signed a b, not_fitsWide_eq_false_iff _⟩,
    ⟨rfl, _, _, rfl, toNat_sub_unsigned a b, ?usubOvf⟩,
    ⟨rfl, _, _, rfl, toNat_sub_signed a b, not_fitsWide_eq_false_iff _⟩,
    ⟨rfl, _, _, rfl, BitVec.toNat_mul .., decide_eq_true_iff⟩,
    ⟨rfl, _, _, rfl, toNat_mul_signed a b, not_fitsWide_eq_false_iff _⟩,
    ⟨rfl, _, _, exec_wiNeg a s, BitVec.toNat_neg .., ?negValue, neg_overflows_iff a⟩⟩
  case usubOvf =>
    rw [decide_eq_true_iff]
    omega
  case negValue => exact fun h => toInt_neg_wide fun hmin => Bool.false_ne_true (h.symm.trans ((neg_overflows_iff a).2 hmin))

end Sys2Proof.Machine
end

section
/-! SUPPORT. Wide division (spec/40_wide_integer.md R170, R171): Euclid's identity and its bounds, and the one overflow of
the signed form. -/

namespace Sys2Proof.Machine

theorem exec_wiSdiv_of_ne (a : Wide) {b : Wide} (hb : b ≠ 0#128) (s : State) :
    exec (.wiSdiv a b) s =
      .next (s.ok (.quotRemOvf (BitVec.ofInt 128 (a.toInt.tdiv b.toInt)) (BitVec.ofInt 128 (a.toInt.tmod b.toInt))
        (a.toInt.tdiv b.toInt == 2 ^ 127))) := by
  rw [Int.tmod_def, Int.mul_comm b.toInt]
  exact if_neg hb

theorem natAbs_tmod_lt (x : Int) {y : Int} (hy : y ≠ 0) : (x.tmod y).natAbs < y.natAbs := by
  rw [Int.natAbs_tmod]
  exact Nat.mod_lt _ (Int.natAbs_pos.2 hy)

/-- A remainder that is not zero has the sign of the dividend. -/
theorem tmod_neg_iff {x y : Int} (h : x.tmod y ≠ 0) : x.tmod y < 0 ↔ x < 0 := by
  rw [← Int.sign_eq_neg_one_iff_neg, Int.sign_tmod, if_neg fun hdvd => h (Int.tmod_eq_zero_of_dvd hdvd),
    Int.sign_eq_neg_one_iff_neg]

section
variable {a b : Wide}

theorem toInt_wide_ne_zero (hb : b ≠ 0#128) : b.toInt ≠ 0 := fun h => hb (BitVec.toInt_inj.1 h)

/-- The remainder of a signed division is always representable. -/
theorem toInt_ofInt_tmod (a : Wide) (hb : b ≠ 0#128) :
    (BitVec.ofInt 128 (a.toInt.tmod b.toInt)).toInt = a.toInt.tmod b.toInt := by
  have hrem := natAbs_tmod_lt a.toInt (toInt_wide_ne_zero hb)
  obtain ⟨hlo, hhi⟩ := toInt_wide_bounds b
  exact toInt_ofInt_wide (by omega) (by omega)

/-- The quotient that does not fit comes from `MIN128 / -1` alone (R171). -/
theorem tdiv_eq_iff_overflow (a : Wide) (hb : b ≠ 0#128) :
    a.toInt.tdiv b.toInt = 2 ^ 127 ↔ a.toInt = -2 ^ 127 ∧ b.toInt = -1 := by
  constructor
  · intro hq
    have heuclid := Int.tdiv_mul_add_tmod a.toInt b.toInt
    have hrem := natAbs_tmod_lt a.toInt (toInt_wide_ne_zero hb)
    obtain ⟨hlo, hhi⟩ := toInt_wide_bounds a
    rw [hq] at heuclid
    omega
  · rintro ⟨ha, hb⟩
    rw [ha, hb]
    rfl

theorem toInt_ofInt_tdiv (h : a.toInt.tdiv b.toInt ≠ 2 ^ 127) :
    (BitVec.ofInt 128 (a.toInt.tdiv b.toInt)).toInt = a.toInt.tdiv b.toInt := by
  have hle := Int.natAbs_tdiv_le_natAbs a.toInt b.toInt
  obtain ⟨hlo, hhi⟩ := toInt_wide_bounds a
  exact toInt_ofInt_wide (by omega) (by omega)

end

/-- Settles O17: the unsigned form by `Nat`'s division, the signed one by `Int.tdiv` and its remainder. -/
theorem wideDivision : Obligations.WideDivision := by
  intro s a b
  refine ⟨rfl, rfl, fun hb => ⟨if_pos hb, if_pos hb⟩, fun hb => ⟨?unsigned, ?signed⟩⟩
  case unsigned =>
    refine ⟨_, _, exec_wiUdiv_of_ne a hb s, ?euclid, ?bound⟩
    case euclid => rw [BitVec.toNat_udiv, BitVec.toNat_umod, Nat.div_add_mod']
    case bound =>
      rw [BitVec.toNat_umod]
      exact Nat.mod_lt _ (Nat.pos_of_ne_zero (BitVec.toNat_ne.1 hb))
  case signed =>
    have hrem := toInt_ofInt_tmod a hb
    have hlt := natAbs_tmod_lt a.toInt (toInt_wide_ne_zero hb)
    refine ⟨_, _, _, exec_wiSdiv_of_ne a hb s, ?ovf, ?euclid, ?overflow, ?bound, ?sign⟩
    case ovf => rw [beq_iff_eq, tdiv_eq_iff_overflow a hb]
    case euclid =>
      intro hfits
      rw [toInt_ofInt_tdiv (by simpa using hfits), hrem, Int.tdiv_mul_add_tmod]
    case overflow =>
      intro hover
      rw [beq_iff_eq] at hover
      obtain ⟨-, hdivisor⟩ := (tdiv_eq_iff_overflow a hb).1 hover
      rw [hover, hrem]
      exact ⟨rfl, by omega⟩
    case bound =>
      rw [hrem, Int.abs_eq_natAbs, Int.abs_eq_natAbs]
      exact Int.ofNat_lt.2 hlt
    case sign =>
      rw [hrem]
      exact or_iff_not_imp_left.2 tmod_neg_iff

end Sys2Proof.Machine
end

section
/-! SUPPORT. The integer rounding of the model is R202's rational rounding (spec/41_float_engine.md): the exponent of a magnitude,
its floor and fraction in a unit, the rounded number of units, and the two comparisons with a power of two. -/

namespace Sys2Proof

open Sys2Proof.Machine

/-! ### Powers of two and binary logarithms -/

theorem zpow_two_pos (k : ℤ) : (0 : ℚ) < 2 ^ k := zpow_pos two_pos k

theorem int_log_two_eq {x : ℚ} {k : ℤ} (hlo : 2 ^ k ≤ x) (hhi : x < 2 ^ (k + 1)) : Int.log 2 x = k := by
  have hx : 0 < x := (zpow_two_pos k).trans_le hlo
  exact le_antisymm (Int.lt_add_one_iff.1 ((Int.lt_zpow_iff_log_lt one_lt_two hx).1 (by exact_mod_cast hhi)))
    ((Int.zpow_le_iff_le_log one_lt_two hx).1 (by exact_mod_cast hlo))

theorem zpow_le_iff_le_log {x : ℚ} (hx : 0 < x) (k : ℤ) : 2 ^ k ≤ x ↔ k ≤ Int.log 2 x := by
  exact_mod_cast Int.zpow_le_iff_le_log (b := 2) (R := ℚ) one_lt_two hx

theorem int_log_mul_zpow {x : ℚ} (hx : 0 < x) (k : ℤ) : Int.log 2 (x * 2 ^ k) = Int.log 2 x + k := by
  have hlo : 2 ^ Int.log 2 x ≤ x := (zpow_le_iff_le_log hx _).2 le_rfl
  have hhi : x < 2 ^ (Int.log 2 x + 1) := by exact_mod_cast Int.lt_zpow_succ_log_self (b := 2) one_lt_two x
  apply int_log_two_eq
  · rw [zpow_add₀ two_ne_zero]
    exact mul_le_mul_of_nonneg_right hlo (zpow_two_pos k).le
  · rw [add_right_comm, zpow_add₀ two_ne_zero]
    exact mul_lt_mul_of_pos_right hhi (zpow_two_pos k)

theorem int_log_natCast (n : ℕ) : Int.log 2 (n : ℚ) = Nat.log2 n := by
  rw [Int.log_natCast, Nat.log2_eq_log_two]

/-- `n · 2^q < 2^k`, read off the length of `n` (R202). -/
theorem belowPow_iff (n : ℕ) (q k : ℤ) : belowPow n q k = true ↔ (n : ℚ) * 2 ^ q < 2 ^ k := by
  by_cases h0 : n = 0
  · simp [belowPow, h0, zpow_two_pos k]
  · have hn : (0 : ℚ) < n := by positivity
    rw [← not_le, zpow_le_iff_le_log (mul_pos hn (zpow_two_pos q)), int_log_mul_zpow hn, int_log_natCast]
    simp [belowPow, h0, add_comm]

/-! ### The exponent of a magnitude (R202) -/

theorem Mag.value_pos {m : Mag} (hn : 0 < m.num) (hd : 0 < m.den) : 0 < m.value := by
  unfold Mag.value
  have := zpow_two_pos m.exp
  positivity

/-- The comparison by which `Mag.log2` chooses between the two possible exponents. -/
theorem zpow_le_div_iff {n d : ℕ} (hd : 0 < d) (k : ℤ) :
    (if 0 ≤ k then decide (d <<< k.toNat ≤ n) else decide (d ≤ n <<< (-k).toNat)) = true ↔ (2 : ℚ) ^ k ≤ n / d := by
  have hd' : (0 : ℚ) < d := by exact_mod_cast hd
  rw [le_div_iff₀ hd']
  split
  · next hk =>
    obtain ⟨j, rfl⟩ := Int.eq_ofNat_of_zero_le hk
    rw [decide_eq_true_iff, Int.toNat_natCast, Nat.shiftLeft_eq, zpow_natCast, mul_comm d]
    exact_mod_cast Iff.rfl
  · next hk =>
    obtain ⟨j, hj⟩ := Int.eq_ofNat_of_zero_le (show 0 ≤ -k by omega)
    obtain rfl : k = -j := by omega
    rw [decide_eq_true_iff, neg_neg, Int.toNat_natCast, Nat.shiftLeft_eq, zpow_neg, zpow_natCast,
      inv_mul_le_iff₀ (by positivity), mul_comm n]
    exact_mod_cast Iff.rfl

theorem Mag.log2_eq {m : Mag} (hn : 0 < m.num) (hd : 0 < m.den) : m.log2 = Int.log 2 m.value := by
  have hd' : (0 : ℚ) < m.den := by exact_mod_cast hd
  have hquot : (0 : ℚ) < m.num / m.den := div_pos (by exact_mod_cast hn) hd'
  have hhigh : (m.num : ℚ) / m.den < 2 ^ ((Nat.log2 m.num : ℤ) - Nat.log2 m.den + 1) := by
    rw [div_lt_iff₀ hd']
    calc (m.num : ℚ) < 2 ^ (Nat.log2 m.num + 1) := by exact_mod_cast Nat.lt_log2_self
      _ = 2 ^ ((Nat.log2 m.num : ℤ) - Nat.log2 m.den + 1) * 2 ^ Nat.log2 m.den := by
        rw [← zpow_natCast, ← zpow_natCast, ← zpow_add₀ two_ne_zero]; congr 1; push_cast; ring
      _ ≤ _ := by gcongr; exact_mod_cast Nat.log2_self_le hd.ne'
  have hlow : (2 : ℚ) ^ ((Nat.log2 m.num : ℤ) - Nat.log2 m.den - 1) ≤ m.num / m.den := by
    rw [le_div_iff₀ hd']
    calc (2 : ℚ) ^ ((Nat.log2 m.num : ℤ) - Nat.log2 m.den - 1) * m.den
        ≤ 2 ^ ((Nat.log2 m.num : ℤ) - Nat.log2 m.den - 1) * 2 ^ (Nat.log2 m.den + 1) := by
          gcongr; exact_mod_cast Nat.lt_log2_self.le
      _ = 2 ^ Nat.log2 m.num := by
        rw [← zpow_natCast, ← zpow_natCast, ← zpow_add₀ two_ne_zero]; congr 1; push_cast; ring
      _ ≤ m.num := by exact_mod_cast Nat.log2_self_le hn.ne'
  rw [Mag.value, int_log_mul_zpow hquot, Mag.log2]
  simp only [zpow_le_div_iff hd]
  split
  · next hreach => rw [int_log_two_eq hreach hhigh]
  · next hreach => rw [int_log_two_eq hlow (by simpa using hreach)]

/-! ### The rounded number of units (R202) -/

/-- The floor and the fraction of a magnitude in the unit `2^q` are those of one quotient of naturals. -/
theorem Mag.split_eq {m : Mag} (hd : 0 < m.den) (q : ℤ) : ∃ n d : ℕ, 0 < d ∧ m.value / 2 ^ q = n / d ∧
    m.split q = (n / d, fracOf (n % d) d) := by
  have hd' : (m.den : ℚ) ≠ 0 := by exact_mod_cast hd.ne'
  have hval : m.value / 2 ^ q = m.num / m.den * 2 ^ (m.exp - q) := by
    rw [Mag.value, zpow_sub₀ two_ne_zero, mul_div_assoc]
  rw [hval]
  unfold Mag.split
  by_cases hs : 0 ≤ m.exp - q
  · obtain ⟨k, hk⟩ := Int.eq_ofNat_of_zero_le hs
    refine ⟨m.num <<< k, m.den, hd, ?_, ?_⟩
    · rw [hk, zpow_natCast, Nat.shiftLeft_eq]
      push_cast
      ring
    · simp [hk]
  · obtain ⟨k, hk⟩ := Int.eq_ofNat_of_zero_le (show 0 ≤ -(m.exp - q) by omega)
    have hk' : m.exp - q = -k := by omega
    refine ⟨m.num, m.den <<< k, ?_, ?_, ?_⟩
    · rw [Nat.shiftLeft_eq]; positivity
    · rw [hk', zpow_neg, zpow_natCast, Nat.shiftLeft_eq]
      push_cast
      field_simp
    · simp only [if_neg hs, hk, Int.toNat_natCast]
      split
      · next h0 => simp [h0, fracOf]
      · next h0 =>
        split
        · next hshort =>
          have hlt : 2 * m.num < m.den <<< k :=
            calc 2 * m.num < 2 * 2 ^ (Nat.log2 m.num + 1) := Nat.mul_lt_mul_of_pos_left Nat.lt_log2_self two_pos
              _ = 2 ^ (Nat.log2 m.num + 2) := by ring
              _ ≤ 1 * 2 ^ k := by rw [one_mul]; exact Nat.pow_le_pow_right two_pos hshort
              _ ≤ m.den <<< k := by rw [Nat.shiftLeft_eq]; exact Nat.mul_le_mul_right _ hd
          rw [Nat.div_eq_of_lt (by omega), Nat.mod_eq_of_lt (by omega), fracOf, if_neg h0, if_pos hlt]
        · rfl

theorem div_sub_floor {n d : ℕ} (hd : 0 < d) : (n : ℚ) / d - (n / d : ℕ) = (n % d : ℕ) / d := by
  have hd' : (d : ℚ) ≠ 0 := by exact_mod_cast hd.ne'
  have h : (d : ℚ) * (n / d : ℕ) + (n % d : ℕ) = n := by exact_mod_cast Nat.div_add_mod n d
  rw [sub_eq_iff_eq_add, div_eq_iff hd', add_mul, div_mul_cancel₀ _ hd', ← h]
  ring

/-- `rint` on the floor and the fraction of a quotient is R202's `rint` of the quotient. -/
theorem rint_fracOf {n d : ℕ} (hd : 0 < d) (s : Bool) (rm : RMode) :
    rint (n / d) (fracOf (n % d) d) s rm = rintQ (n / d) s rm := by
  have hd' : (0 : ℚ) < d := by exact_mod_cast hd
  have hzero : ((n % d : ℕ) : ℚ) / d = 0 ↔ n % d = 0 := by rw [div_eq_zero_iff, Nat.cast_eq_zero]; simp [hd'.ne']
  have hhalf : ((n % d : ℕ) : ℚ) / d = 1 / 2 ↔ 2 * (n % d) = d := by
    rw [div_eq_div_iff hd'.ne' two_ne_zero, one_mul, mul_comm]
    exact_mod_cast Iff.rfl
  have habove : 1 / 2 < ((n % d : ℕ) : ℚ) / d ↔ d < 2 * (n % d) := by
    rw [div_lt_div_iff₀ two_pos hd', one_mul, mul_comm _ (2 : ℚ)]
    exact_mod_cast Iff.rfl
  unfold rintQ
  simp only [Nat.floor_div_eq_div, div_sub_floor hd, hzero, hhalf, habove]
  unfold fracOf
  split
  · rfl
  · next h0 =>
    split
    · next hlt => simp [rint, show ¬ d < 2 * (n % d) by omega, show ¬ 2 * (n % d) = d by omega]
    · next hlt =>
      split
      · next heq => simp [rint, heq, or_assoc]
      · next hne => simp [rint, show d < 2 * (n % d) by omega, hne, or_assoc]

/-- A rounded quotient is exact only where nothing was left over. -/
theorem fracOf_ne_exact_iff {n d : ℕ} (hd : 0 < d) (s : Bool) (rm : RMode) :
    (fracOf (n % d) d != .exact) = true ↔ (rintQ (n / d) s rm : ℚ) ≠ n / d := by
  have hd' : (d : ℚ) ≠ 0 := by exact_mod_cast hd.ne'
  have hfrac : (fracOf (n % d) d != .exact) = true ↔ n % d ≠ 0 := by
    unfold fracOf
    split <;> rename_i h <;> simp [h]
    repeat' split
    all_goals simp
  rw [hfrac, not_iff_not, ← rint_fracOf hd]
  constructor
  · intro h0
    have hfloor := div_sub_floor (n := n) hd
    rw [h0, Nat.cast_zero, zero_div, sub_eq_zero] at hfloor
    rw [h0, hfloor]
    rfl
  · intro h
    rw [eq_div_iff hd'] at h
    exact Nat.mod_eq_zero_of_dvd ⟨_, by rw [mul_comm]; exact_mod_cast h.symm⟩

/-- A magnitude in units of `2^q`, rounded by R202's `rint`. -/
theorem Mag.roundTo_eq {m : Mag} (hd : 0 < m.den) (q : ℤ) (s : Bool) (rm : RMode) : m.roundTo q s rm =
    (rintQ (m.value / 2 ^ q) s rm, decide ((rintQ (m.value / 2 ^ q) s rm : ℚ) ≠ m.value / 2 ^ q)) := by
  obtain ⟨n, d, hd0, hval, hsplit⟩ := Mag.split_eq hd q
  rw [Mag.roundTo, hsplit, hval]
  exact Prod.ext (rint_fracOf hd0 s rm) (Bool.eq_iff_iff.2 ((fracOf_ne_exact_iff hd0 s rm).trans decide_eq_true_iff.symm))

/-! ### The rounding function (R202) -/

/-- The magnitude that a rounded magnitude stands for; none is infinity. -/
def Rounded.value : Rounded → Option ℚ
  | .inf => none
  | .fin n q => some ((n : ℚ) * 2 ^ q)

theorem roundFmt_eq (p : ℕ) (emin emax : ℤ) (rm : RMode) (s : Bool) {m : Mag} (hn : 0 < m.num) (hd : 0 < m.den) :
    (roundFmt p emin emax rm s m).2 = (roundQ p emin emax rm s m.value).2 ∧
      (roundFmt p emin emax rm s m).1.value = (roundQ p emin emax rm s m.value).1 := by
  have hmax : ((2 ^ p - 1 : ℕ) : ℚ) = 2 ^ p - 1 := by rw [Nat.cast_sub Nat.one_le_two_pow]; simp
  have hinf : (rm == .nearest || rm == .up && !s || rm == .down && s) = true ↔
      rm = .nearest ∨ (rm = .up ∧ s = false) ∨ (rm = .down ∧ s = true) := by simp [or_assoc]
  unfold roundFmt roundQ
  simp only [Mag.log2_eq hn hd, Mag.roundTo_eq hd, Bool.not_eq_true', ← Bool.not_eq_true, belowPow_iff, not_lt, hinf]
  split
  · refine ⟨rfl, ?_⟩
    split
    · rfl
    · simp only [Rounded.value, hmax]
  · simp only [decide_eq_true_iff, Bool.and_eq_true, belowPow_iff, Rounded.value, and_self]

/-- Settles O29: the exponent, the two roundings and the two comparisons with a power of two agree one by one. -/
theorem roundingIsExact : Obligations.RoundingIsExact := by
  intro p emin emax rm s m _ _ hn hd
  obtain ⟨hflags, hvalue⟩ := roundFmt_eq p emin emax rm s hn hd
  refine ⟨hflags, hvalue ▸ ?_⟩
  cases (roundFmt p emin emax rm s m).1 <;> rfl

end Sys2Proof
end

section
/-! SUPPORT. The classes of an 80-bit pattern by its fields, the value of a finite one, and the pattern of the opposite sign
(spec/30_encoding.md R120, R121; spec/41_float_engine.md R201, R230). -/

namespace Sys2Proof

open Sys2Proof.Machine

/-! ### Fields (R120) -/

section
variable (v : F80)

theorem F80.expo_lt : v.expo < 2 ^ 15 := BitVec.isLt _

theorem F80.sig_lt : v.sig < 2 ^ 64 := BitVec.isLt _

theorem F80.intBit_iff : v.intBit = true ↔ 2 ^ 63 ≤ v.sig := by
  have hbit : v.intBit = (v.extractLsb' 0 64).getLsbD 63 := by simp [F80.intBit]
  rw [hbit]
  exact (Bool.eq_iff_iff.1 (BitVec.msb_eq_decide (v.extractLsb' 0 64))).trans decide_eq_true_iff

/-- The bits below the integer bit are the significand without it. -/
theorem F80.fraction_eq_zero_iff : v.extractLsb' 0 63 = 0#63 ↔ v.sig % 2 ^ 63 = 0 := by
  rw [← BitVec.toNat_inj, F80.sig, BitVec.extractLsb'_toNat, BitVec.extractLsb'_toNat,
    Nat.mod_mod_of_dvd _ (pow_dvd_pow 2 (by decide : 63 ≤ 64))]
  rfl

/-- A pattern is its three fields. -/
theorem F80.ext_fields {v w : F80} (hs : v.sgn = w.sgn) (he : v.expo = w.expo) (hg : v.sig = w.sig) : v = w := by
  have he' : v.extractLsb' 64 15 = w.extractLsb' 64 15 := BitVec.eq_of_toNat_eq he
  have hg' : v.extractLsb' 0 64 = w.extractLsb' 0 64 := BitVec.eq_of_toNat_eq hg
  apply BitVec.eq_of_getLsbD_eq
  intro k hk
  by_cases h64 : k < 64
  · simpa [h64] using congrArg (BitVec.getLsbD · k) hg'
  · by_cases h79 : k < 79
    · simpa [show k - 64 < 15 by omega, show 64 + (k - 64) = k by omega] using congrArg (BitVec.getLsbD · (k - 64)) he'
    · obtain rfl : k = 79 := by omega
      exact hs

/-! ### Classes (R121) -/

theorem F80.isZero_iff : v.isZero = true ↔ v.expo = 0 ∧ v.sig = 0 := by simp [F80.isZero]

theorem F80.isDenormal_iff : v.isDenormal = true ↔ v.expo = 0 ∧ v.sig ≠ 0 := by simp [F80.isDenormal]

theorem F80.isInf_iff : v.isInf = true ↔ v.expo = 32767 ∧ v.sig = 2 ^ 63 := by simp [F80.isInf]

theorem F80.isNan_iff : v.isNan = true ↔ v.expo = 32767 ∧ 2 ^ 63 < v.sig := by
  have := v.sig_lt
  simp only [F80.isNan, Bool.and_eq_true, bne_iff_ne, beq_iff_eq, F80.intBit_iff, ne_eq, F80.fraction_eq_zero_iff]
  omega

theorem F80.isUnsupported_iff : v.isUnsupported = true ↔ v.expo ≠ 0 ∧ v.sig < 2 ^ 63 := by
  simp [F80.isUnsupported, ← Bool.not_eq_true, F80.intBit_iff]

theorem F80.isNormal_iff : v.isNormal = true ↔ v.expo ≠ 0 ∧ v.expo ≠ 32767 ∧ 2 ^ 63 ≤ v.sig := by
  simp [F80.isNormal, F80.intBit_iff, and_assoc]

theorem F80.isFinite_iff : v.isFinite = true ↔ v.expo = 0 ∨ (v.expo ≠ 32767 ∧ 2 ^ 63 ≤ v.sig) := by
  simp only [F80.isFinite, Bool.or_eq_true, F80.isZero_iff, F80.isDenormal_iff, F80.isNormal_iff]
  omega

theorem F80.isSpecial_iff : v.isSpecial = true ↔ v.isUnsupported = true ∨ v.isNan = true := by simp [F80.isSpecial]

end

/-! ### One class at a time (R121) -/

theorem F80.classes_of_isUnsupported {a : F80} (h : a.isUnsupported = true) :
    a.isNan = false ∧ a.isInf = false ∧ a.isZero = false ∧ a.isFinite = false := by
  rw [F80.isUnsupported_iff] at h
  simp only [← Bool.not_eq_true, F80.isNan_iff, F80.isInf_iff, F80.isZero_iff, F80.isFinite_iff]
  omega

theorem F80.classes_of_isNan {a : F80} (h : a.isNan = true) :
    a.isUnsupported = false ∧ a.isInf = false ∧ a.isZero = false ∧ a.isFinite = false := by
  rw [F80.isNan_iff] at h
  simp only [← Bool.not_eq_true, F80.isUnsupported_iff, F80.isInf_iff, F80.isZero_iff, F80.isFinite_iff]
  omega

theorem F80.classes_of_isInf {a : F80} (h : a.isInf = true) :
    a.isUnsupported = false ∧ a.isNan = false ∧ a.isZero = false ∧ a.isFinite = false := by
  rw [F80.isInf_iff] at h
  simp only [← Bool.not_eq_true, F80.isUnsupported_iff, F80.isNan_iff, F80.isZero_iff, F80.isFinite_iff]
  omega

theorem F80.classes_of_isFinite {a : F80} (h : a.isFinite = true) :
    a.isUnsupported = false ∧ a.isNan = false ∧ a.isInf = false := by
  rw [F80.isFinite_iff] at h
  simp only [← Bool.not_eq_true, F80.isUnsupported_iff, F80.isNan_iff, F80.isInf_iff]
  omega

theorem F80.isQuiet_of_isNan {a : F80} (h : a.isNan = true) : a.isQuiet = a.getLsbD 62 := by rw [F80.isQuiet, h, Bool.true_and]

/-- An operand that is not screened out is an infinity or finite, and not both. -/
theorem F80.isFinite_eq_not_isInf {v : F80} (h : v.isSpecial = false) : v.isFinite = !v.isInf := by
  have := v.sig_lt
  rw [← Bool.not_eq_true, F80.isSpecial_iff, F80.isUnsupported_iff, F80.isNan_iff] at h
  rw [Bool.eq_iff_iff, Bool.not_eq_true', ← Bool.not_eq_true, F80.isFinite_iff, F80.isInf_iff]
  omega

theorem F80.isSpecial_of_isFinite {v : F80} (h : v.isFinite = true) : v.isSpecial = false := by
  rw [F80.isFinite_iff] at h
  rw [← Bool.not_eq_true, F80.isSpecial_iff, F80.isUnsupported_iff, F80.isNan_iff]
  omega

theorem F80.isInf_of_isFinite {v : F80} (h : v.isFinite = true) : v.isInf = false := by
  rw [F80.isFinite_iff] at h
  rw [← Bool.not_eq_true, F80.isInf_iff]
  omega

theorem F80.isFinite_of_isZero {v : F80} (h : v.isZero = true) : v.isFinite = true := by simp [F80.isFinite, h]

theorem F80.isInf_of_isZero {v : F80} (h : v.isZero = true) : v.isInf = false :=
  F80.isInf_of_isFinite (F80.isFinite_of_isZero h)

theorem F80.isDenormal_of_isZero {v : F80} (h : v.isZero = true) : v.isDenormal = false := by
  rw [← Bool.not_eq_true, F80.isDenormal_iff]
  exact fun hd => hd.2 ((F80.isZero_iff v).1 h).2

theorem F80.isDenormal_of_isInf {v : F80} (h : v.isInf = true) : v.isDenormal = false := by
  rw [F80.isInf_iff] at h
  rw [← Bool.not_eq_true, F80.isDenormal_iff]
  omega

theorem F80.isNormal_of_isFinite {v : F80} (h : v.isFinite = true) (hz : v.isZero = false) (hd : v.isDenormal = false) :
    v.isNormal = true := by
  simpa [F80.isFinite, hz, hd] using h

@[simp] theorem F80.inf_sgn (s : Bool) : (F80.inf s).sgn = s := F80.make_sgn ..

theorem F80.inf_isInf (s : Bool) : (F80.inf s).isInf = true := by
  rw [F80.isInf_iff, F80.inf, F80.make_expo, F80.make_sig]
  exact ⟨rfl, rfl⟩

theorem F80.zero_isZero (s : Bool) : (F80.zero s).isZero = true := by
  rw [F80.isZero_iff, F80.zero, F80.make_expo, F80.make_sig]
  exact ⟨rfl, rfl⟩

theorem F80.eq_inf {v : F80} (h : v.isInf = true) : v = F80.inf v.sgn := by
  obtain ⟨he, hg⟩ := (F80.isInf_iff v).1 h
  obtain ⟨he', hg'⟩ := (F80.isInf_iff _).1 (F80.inf_isInf v.sgn)
  exact F80.ext_fields (F80.inf_sgn _).symm (he.trans he'.symm) (hg.trans hg'.symm)

/-! ### Values (R201) -/

section
variable (v : F80)

theorem signQ_ne_zero (s : Bool) : signQ s ≠ 0 := by cases s <;> simp [signQ]

theorem abs_signQ (s : Bool) : |signQ s| = 1 := by cases s <;> simp [signQ]

theorem signQ_mul_self (s : Bool) : signQ s * signQ s = 1 := by cases s <;> simp [signQ]

theorem signQ_bne (s t : Bool) : signQ (s != t) = signQ s * signQ t := by cases s <;> cases t <;> simp [signQ]

theorem F80.val_eq : v.val = signQ v.sgn * (v.sig * 2 ^ v.unitExp) := by rw [F80.val, signQ, mul_assoc]

theorem F80.abs_val : |v.val| = v.sig * 2 ^ v.unitExp := by
  rw [F80.val_eq, abs_mul, abs_signQ, one_mul, abs_of_nonneg (by positivity)]

theorem F80.val_eq_signQ_abs : v.val = signQ v.sgn * |v.val| := by rw [F80.abs_val, ← F80.val_eq]

theorem F80.mag_value : v.mag.value = |v.val| := by simp [F80.mag, Mag.value, F80.abs_val]

theorem F80.val_eq_zero_iff : v.val = 0 ↔ v.sig = 0 := by
  rw [← abs_eq_zero, F80.abs_val, mul_eq_zero, Nat.cast_eq_zero, or_iff_left (zpow_two_pos _).ne']

theorem F80.unitExp_ge : -16445 ≤ v.unitExp := by unfold F80.unitExp; omega

end

theorem F80.unitExp_le {v : F80} (h : v.isFinite = true) : v.unitExp ≤ 16320 := by
  have := v.expo_lt
  rw [F80.isFinite_iff] at h
  unfold F80.unitExp
  omega

theorem F80.sig_eq_zero_iff {v : F80} (h : v.isFinite = true) : v.sig = 0 ↔ v.isZero = true := by
  rw [F80.isFinite_iff] at h
  rw [F80.isZero_iff]
  omega

theorem F80.val_eq_zero_iff_isZero {v : F80} (h : v.isFinite = true) : v.val = 0 ↔ v.isZero = true :=
  v.val_eq_zero_iff.trans (F80.sig_eq_zero_iff h)

theorem F80.sig_pos {v : F80} (h : v.isFinite = true) (hz : v.isZero = false) : 0 < v.sig :=
  Nat.pos_of_ne_zero fun h0 => Bool.false_ne_true (hz.symm.trans ((F80.sig_eq_zero_iff h).1 h0))

/-! ### The opposite sign (R230) -/

section
variable (v : F80)

theorem f80Neg_getLsbD {k : Nat} (hk : k < 80) : (f80Neg v).getLsbD k = (v.getLsbD k ^^ decide (k = 79)) := by
  rw [f80Neg, BitVec.getLsbD_xor, BitVec.getLsbD_twoPow]
  simp [hk, eq_comm]

theorem f80Neg_extract {n i : Nat} (hn : i + n ≤ 79) : (f80Neg v).extractLsb' i n = v.extractLsb' i n := by
  apply BitVec.eq_of_getLsbD_eq
  intro k hk
  have hne : i + k ≠ 79 := by omega
  simp [f80Neg_getLsbD v (show i + k < 80 by omega), hne]

@[simp] theorem f80Neg_sgn : (f80Neg v).sgn = !v.sgn := by
  rw [F80.sgn, F80.sgn, f80Neg_getLsbD v (by decide)]
  simp

@[simp] theorem f80Neg_expo : (f80Neg v).expo = v.expo := by rw [F80.expo, F80.expo, f80Neg_extract v (by decide)]

@[simp] theorem f80Neg_sig : (f80Neg v).sig = v.sig := by rw [F80.sig, F80.sig, f80Neg_extract v (by decide)]

@[simp] theorem f80Neg_isZero : (f80Neg v).isZero = v.isZero := by simp [F80.isZero]

@[simp] theorem f80Neg_isDenormal : (f80Neg v).isDenormal = v.isDenormal := by simp [F80.isDenormal]

@[simp] theorem f80Neg_isInf : (f80Neg v).isInf = v.isInf := by simp [F80.isInf]

@[simp] theorem f80Neg_isSpecial : (f80Neg v).isSpecial = v.isSpecial := by
  rw [Bool.eq_iff_iff]
  simp only [F80.isSpecial_iff, F80.isUnsupported_iff, F80.isNan_iff, f80Neg_expo, f80Neg_sig]

@[simp] theorem f80Neg_isFinite : (f80Neg v).isFinite = v.isFinite := by
  rw [Bool.eq_iff_iff]
  simp only [F80.isFinite_iff, f80Neg_expo, f80Neg_sig]

theorem f80Neg_val : (f80Neg v).val = -v.val := by
  have hsign : signQ (!v.sgn) = -signQ v.sgn := by cases v.sgn <;> simp [signQ]
  rw [F80.val_eq, F80.val_eq, f80Neg_sgn, f80Neg_sig, F80.unitExp, f80Neg_expo, hsign, neg_mul, F80.unitExp]

theorem f80Neg_of_isInf {v : F80} (h : v.isInf = true) : f80Neg v = F80.inf (!v.sgn) := by
  rw [F80.eq_inf (v := f80Neg v) (by rw [f80Neg_isInf, h]), f80Neg_sgn]

end

end Sys2Proof
end

section
/-! SUPPORT. Encoding a magnitude (spec/41_float_engine.md R203): the encoder of `n · 2^q` is the encoder of that rational,
rounding and encoding are R203's `fin`, and an encoded magnitude that fits has its own value. -/

namespace Sys2Proof

open Sys2Proof.Machine

/-! ### The encoder (R203) -/

theorem toBits_eq_floor (n : ℕ) {p : ℕ} (hp : 1 ≤ p) : toBits n p = ⌊(n : ℚ) * 2 ^ ((p : ℤ) - 1 - Nat.log2 n)⌋₊ := by
  unfold toBits
  split
  · next hlt =>
    rw [show (p : ℤ) - 1 - Nat.log2 n = (p - 1 - Nat.log2 n : ℕ) by omega, zpow_natCast, Nat.shiftLeft_eq]
    exact_mod_cast (Nat.floor_natCast (R := ℚ) _).symm
  · next hge =>
    rw [show (p : ℤ) - 1 - Nat.log2 n = -(Nat.log2 n - (p - 1) : ℕ) by omega, zpow_neg, zpow_natCast, ← div_eq_mul_inv,
      Nat.shiftRight_eq_div_pow]
    exact_mod_cast (Nat.floor_div_eq_div (K := ℚ) n (2 ^ (Nat.log2 n - (p - 1)))).symm

theorem lt_zpow_iff_log2_lt {n : ℕ} (h0 : n ≠ 0) (q k : ℤ) : (n : ℚ) * 2 ^ q < 2 ^ k ↔ q + Nat.log2 n < k := by
  rw [← belowPow_iff]
  simp [belowPow, h0]

theorem int_log_units {n : ℕ} (h0 : n ≠ 0) (q : ℤ) : Int.log 2 ((n : ℚ) * 2 ^ q) = q + Nat.log2 n := by
  rw [int_log_mul_zpow (by positivity), int_log_natCast, add_comm]

theorem floor_units (n : ℕ) {q u : ℤ} (h : u ≤ q) : ⌊(n : ℚ) * 2 ^ q / 2 ^ u⌋₊ = n <<< (q - u).toNat := by
  obtain ⟨j, hj⟩ := Int.eq_ofNat_of_zero_le (show 0 ≤ q - u by omega)
  rw [mul_div_assoc, ← zpow_sub₀ two_ne_zero, hj, Int.toNat_natCast, zpow_natCast, Nat.shiftLeft_eq]
  exact_mod_cast Nat.floor_natCast (R := ℚ) _

theorem F80.encFin_eq_encQ (s : Bool) (n : ℕ) {q : ℤ} (hq : -16445 ≤ q) :
    F80.encFin s n q = encQ s (some ((n : ℚ) * 2 ^ q)) := by
  unfold F80.encFin encQ
  by_cases h0 : n = 0
  · simp [h0]
  · have hne : (n : ℚ) * 2 ^ q ≠ 0 := by positivity
    simp only [if_neg h0, if_neg hne, lt_zpow_iff_log2_lt h0, int_log_units h0]
    split
    · rw [floor_units n hq, sub_neg_eq_add]
    · next hnormal =>
      obtain ⟨e, he⟩ := Int.eq_ofNat_of_zero_le (show 0 ≤ q + Nat.log2 n + 16383 by omega)
      have hscale : (n : ℚ) * 2 ^ q / 2 ^ (q + Nat.log2 n - 63) = n * 2 ^ (((64 : ℕ) : ℤ) - 1 - Nat.log2 n) := by
        rw [mul_div_assoc, ← zpow_sub₀ two_ne_zero]
        congr 2
        push_cast
        ring
      rw [hscale, ← toBits_eq_floor n (by decide), he, Int.toNat_natCast, BitVec.ofInt_natCast]

/-! ### Rounding and encoding (R203) -/

/-- What rounding delivers is a multiple of the least unit of the format. -/
theorem roundFmt_unit_ge {p : ℕ} {emin emax : ℤ} {rm : RMode} {s : Bool} {m : Mag} {n : ℕ} {q : ℤ} (h : emin ≤ emax)
    (hr : (roundFmt p emin emax rm s m).1 = .fin n q) : emin - p + 1 ≤ q := by
  unfold roundFmt at hr
  simp only at hr
  split at hr
  · split at hr
    · cases hr
    · cases hr; omega
  · cases hr; omega

theorem F80.enc_eq_encQ (s : Bool) {r : Rounded} (h : ∀ n q, r = .fin n q → -16445 ≤ q) : F80.enc s r = encQ s r.value := by
  cases r with
  | inf => rfl
  | fin n q => exact F80.encFin_eq_encQ s n (h n q rfl)

theorem F80.fin_eq_finQ (rm : RMode) (s : Bool) {m : Mag} {x : ℚ} (fl : Flags6) (hn : 0 < m.num) (hd : 0 < m.den)
    (hx : m.value = |x|) : F80.fin rm s m fl = finQ rm s x fl := by
  obtain ⟨hflags, hvalue⟩ := roundFmt_eq 64 (-16382) 16383 rm s hn hd
  have hunit : ∀ n q, (roundFmt 64 (-16382) 16383 rm s m).1 = .fin n q → -16445 ≤ q := fun _ _ h =>
    (by decide : (-16445 : ℤ) ≤ -16382 - (64 : ℕ) + 1).trans (roundFmt_unit_ge (by decide) h)
  have henc := F80.enc_eq_encQ s hunit
  rw [hvalue, hx] at henc
  rw [hx] at hflags
  exact Prod.ext henc (congrArg (fl ||| ·) hflags)

/-! ### The value of an encoded magnitude -/

/-- A magnitude of at most 64 bits, not finer than the least unit and below `2^16384`, is encoded exactly. -/
theorem F80.encFin_val_exact (s : Bool) {n : ℕ} {q : ℤ} (hn : n < 2 ^ 64) (hq : -16445 ≤ q) (hq' : q + Nat.log2 n ≤ 16383) :
    (F80.encFin s n q).val = signQ s * (n * 2 ^ q) := by
  by_cases h0 : n = 0
  · simp [F80.encFin, h0, F80.zero_val]
  by_cases hnormal : -16382 ≤ q + Nat.log2 n
  · rw [F80.encFin_val s h0 hn hnormal hq', mul_assoc]
  · obtain ⟨j, hj⟩ := Int.eq_ofNat_of_zero_le (show 0 ≤ q + 16445 by omega)
    have hlog : n < 2 ^ (Nat.log2 n + 1) := Nat.lt_log2_self
    have hfits : n * 2 ^ j < 2 ^ 64 :=
      calc n * 2 ^ j < 2 ^ (Nat.log2 n + 1) * 2 ^ j := Nat.mul_lt_mul_of_pos_right hlog (by positivity)
        _ = 2 ^ (Nat.log2 n + 1 + j) := (pow_add ..).symm
        _ ≤ 2 ^ 64 := Nat.pow_le_pow_right two_pos (by omega)
    have hunit : ((max (0#15).toNat 1 : ℕ) - 16446 : ℤ) = -16445 := by decide
    rw [F80.encFin, if_neg h0]
    simp only
    rw [if_pos (by omega), F80.make_val, hunit, hj, Int.toNat_natCast, Nat.shiftLeft_eq, BitVec.toNat_ofNat,
      Nat.mod_eq_of_lt hfits, show q = (j : ℤ) + -16445 by omega, zpow_add₀ two_ne_zero, zpow_natCast]
    simp only [Nat.cast_mul, Nat.cast_pow, Nat.cast_ofNat, mul_assoc]

end Sys2Proof
end

section
/-! SUPPORT. Operand screening (spec/41_float_engine.md R205): what it answers for each class of operands, what a screened
command leaves of the state, and that each of the nine commands is screened on its operands. -/

namespace Sys2Proof

open Sys2Proof.Machine

/-! ### The screen (R205) -/

section
variable (nan : F80) {ops : List F80}

theorem any_isSpecial (ops : List F80) : ops.any F80.isSpecial = (ops.any F80.isUnsupported || ops.any F80.isNan) := by
  induction ops with
  | nil => rfl
  | cons v ops ih =>
    rw [List.any_cons, List.any_cons, List.any_cons, ih, F80.isSpecial]
    ac_rfl

theorem screen_of_unsupported (h : ops.any F80.isUnsupported = true) : screen nan ops = .error (F80.dnan, flagI) := if_pos h

theorem screen_of_nan (h : ops.any F80.isUnsupported = false) (hnan : ops.any F80.isNan = true) :
    screen nan ops = .error (nan, if ops.any F80.isSignalling then flagI else 0) := by
  rw [screen, h, hnan]
  rfl

theorem screen_of_not_special (h : ops.any F80.isSpecial = false) : screen nan ops = .ok (denormalFlag ops) := by
  rw [any_isSpecial, Bool.or_eq_false_iff] at h
  rw [screen, h.1, h.2]
  rfl

theorem screen_pair {a b : F80} (ha : a.isSpecial = false) (hb : b.isSpecial = false) :
    screen nan [a, b] = .ok (denormalFlag [a, b]) := screen_of_not_special nan (by simp [ha, hb])

theorem screen_one {a : F80} (ha : a.isSpecial = false) : screen nan [a] = .ok (denormalFlag [a]) :=
  screen_of_not_special nan (by simp [ha])

end

theorem denormalFlag_neg (a b : F80) : denormalFlag [a, f80Neg b] = denormalFlag [a, b] := by simp [denormalFlag]

theorem denormalFlag_of_not_denormal {a : F80} (h : a.isDenormal = false) : denormalFlag [a] = 0 := by simp [denormalFlag, h]

/-- Subtraction screens `a` and `b`, and then adds the opposite of `b` (R217). -/
theorem f80Sub_eq_add_neg (nan : F80) (rm : RMode) {a b : F80} (ha : a.isSpecial = false) (hb : b.isSpecial = false) :
    f80Sub nan rm a b = f80Add nan rm a (f80Neg b) := by rw [f80Sub, screen_pair nan ha hb]

/-! ### Screened operations -/

/-- `op` is an operation that screens `ops`: the screen's answer is its own, and otherwise a set `D` stays set unless the
flags are the invalid ones (R205). -/
structure Screens (ops : List F80) (op : F80 → F80 × Flags6) : Prop where
  early : ∀ nan e, screen nan ops = .error e → op nan = e
  keepsD : ∀ nan, ops.any F80.isSpecial = false → (denormalFlag ops).getLsbD 1 = true →
    (op nan).2.getLsbD 1 = true ∨ (op nan).2 = flagI

section
variable (rm : RMode) (a b : F80)

theorem f80Add_screens : Screens [a, b] fun nan => f80Add nan rm a b where
  early nan e h := by rw [f80Add, h]
  keepsD nan hs hd := by
    simp only [f80Add, screen_of_not_special nan hs]
    split_ifs <;> simp [F80.fin, hd]

theorem f80Sub_screens : Screens [a, b] fun nan => f80Sub nan rm a b where
  early nan e h := by rw [f80Sub, h]
  keepsD nan hs hd := by
    obtain ⟨ha, hb⟩ : a.isSpecial = false ∧ b.isSpecial = false := by simpa using hs
    simp only [f80Sub_eq_add_neg nan rm ha hb]
    exact (f80Add_screens rm a (f80Neg b)).keepsD nan (by simpa using hs) (by rwa [denormalFlag_neg])

theorem f80Mul_screens : Screens [a, b] fun nan => f80Mul nan rm a b where
  early nan e h := by simp only [f80Mul, h]
  keepsD nan hs hd := by
    simp only [f80Mul, screen_of_not_special nan hs]
    split_ifs <;> simp [F80.fin, hd]

theorem f80Div_screens : Screens [a, b] fun nan => f80Div nan rm a b where
  early nan e h := by simp only [f80Div, h]
  keepsD nan hs hd := by
    simp only [f80Div, screen_of_not_special nan hs]
    split_ifs <;> simp [F80.fin, hd]

theorem f80Remainder_screens (nearest : Bool) : Screens [a, b] fun nan => f80Remainder nearest nan a b where
  early nan e h := by rw [f80Remainder, h]
  keepsD nan hs hd := by
    simp only [f80Remainder, screen_of_not_special nan hs]
    split_ifs <;> simp [hd]

theorem f80Sqrt_screens : Screens [a] fun nan => f80Sqrt nan rm a where
  early nan e h := by rw [f80Sqrt, h]
  keepsD nan hs hd := by
    simp only [f80Sqrt, screen_of_not_special nan hs]
    split_ifs <;> simp [F80.fin, hd]

theorem f80Log2_screens (mode : BitVec 2) : Screens [a] fun nan => f80Log2 nan mode a where
  early nan e h := by rw [f80Log2, h]
  keepsD nan hs hd := by
    simp only [f80Log2, screen_of_not_special nan hs]
    split_ifs <;> simp [hd]

theorem f80Scale_screens (n : ℤ) : Screens [a] fun nan => f80Scale nan rm a n where
  early nan e h := by rw [f80Scale, h]
  keepsD nan hs hd := by
    simp only [f80Scale, screen_of_not_special nan hs]
    split_ifs <;> simp [F80.fin, hd]

end

end Sys2Proof

namespace Sys2Proof.Machine

/-! ### Screened commands -/

theorem drawNan_isQuiet (s : State) : s.drawNan.1.isQuiet = true := by
  have hquiet : ∀ v : F80, (quietNan v).isQuiet = true := fun v => by
    unfold quietNan
    split
    · next h => exact h
    · decide
  unfold State.drawNan
  split
  · exact hquiet _
  · exact hquiet _

theorem screened_sameButDraws (s : State) (op : F80 → F80 × Flags6) : sameButDraws s (s.screened op) :=
  (drawNan_sameButDraws s).respond _

theorem screened_resp (s : State) (op : F80 → F80 × Flags6) :
    (s.screened op).resp = some (.ok (.f80Fl (op s.drawNan.1).1 (op s.drawNan.1).2)) := rfl

/-- The commands that R205 names are screened operations on their operands. -/
theorem exec_screened (s : State) {i : Instr} (h : screenedOperands i ≠ []) :
    ∃ op, exec i s = .next (s.screened op) ∧ Screens (screenedOperands i) op := by
  cases i
  case feAdd c a b => exact ⟨_, rfl, f80Add_screens _ a b⟩
  case feSub c a b => exact ⟨_, rfl, f80Sub_screens _ a b⟩
  case feMul c a b => exact ⟨_, rfl, f80Mul_screens _ a b⟩
  case feDiv c a b => exact ⟨_, rfl, f80Div_screens _ a b⟩
  case feMod a b => exact ⟨_, rfl, f80Remainder_screens a b false⟩
  case feRem a b => exact ⟨_, rfl, f80Remainder_screens a b true⟩
  case feSqrt c a => exact ⟨_, rfl, f80Sqrt_screens _ a⟩
  case feLog2 c a => exact ⟨_, rfl, f80Log2_screens a _⟩
  case feScale c a n => exact ⟨_, rfl, f80Scale_screens _ a _⟩
  all_goals exact absurd rfl h

/-- Settles O23: each of the nine commands is a screened operation, and the screen answers by the classes of its operands. -/
theorem operandScreening : Obligations.OperandScreening := by
  intro s i hi
  obtain ⟨op, hexec, hop⟩ := exec_screened s hi
  refine ⟨_, _, _, hexec, screened_resp s op, screened_sameButDraws s op, fun hu => ?_, fun hu hn => ?_, fun hs hd => ?_⟩
  · rw [hop.early _ _ (screen_of_unsupported _ hu)]
    exact ⟨rfl, rfl⟩
  · rw [hop.early _ _ (screen_of_nan _ hu hn)]
    exact ⟨drawNan_isQuiet s, rfl⟩
  · refine hop.keepsD _ hs ?_
    rw [denormalFlag, hd]
    rfl

end Sys2Proof.Machine
end

section
/-! SUPPORT. The arithmetic of the float engine on operands that pass the screen (spec/41_float_engine.md R206, R207, R216–R219,
R234): on finite operands the exact rational result, rounded and encoded once; with an infinity or a zero, the row of the rule. -/

namespace Sys2Proof

open Sys2Proof.Machine

/-! ### Finite operands -/

/-- A finite pattern's magnitude, counted in a unit not above its own. -/
theorem F80.shifted_mul_unit (v : F80) {u : ℤ} (h : u ≤ v.unitExp) :
    ((v.sig <<< (v.unitExp - u).toNat : ℕ) : ℚ) * 2 ^ u = |v.val| := by
  obtain ⟨j, hj⟩ := Int.eq_ofNat_of_zero_le (show 0 ≤ v.unitExp - u by omega)
  rw [F80.abs_val, hj, Int.toNat_natCast, Nat.shiftLeft_eq, show v.unitExp = j + u by omega, zpow_add₀ two_ne_zero,
    zpow_natCast]
  push_cast
  ring

/-- A finite pattern as an integer in a unit not above its own. -/
theorem F80.inUnits_mul_unit (v : F80) {u : ℤ} (h : u ≤ v.unitExp) : (v.inUnits u : ℚ) * 2 ^ u = v.val := by
  rw [v.val_eq_signQ_abs, ← v.shifted_mul_unit h, F80.inUnits]
  generalize v.sig <<< (v.unitExp - u).toNat = x
  cases v.sgn <;> simp [signQ]

theorem commonUnit_le_left (a b : F80) : commonUnit a b ≤ a.unitExp := min_le_left _ _

theorem commonUnit_le_right (a b : F80) : commonUnit a b ≤ b.unitExp := min_le_right _ _

section
variable (nan : F80) (rm : RMode) {a b : F80}

theorem f80Add_of_isFinite (ha : a.isFinite = true) (hb : b.isFinite = true) : f80Add nan rm a b =
    if a.val + b.val = 0 then (F80.zero (zeroSumSign rm a b), denormalFlag [a, b])
    else finQ rm (decide (a.val + b.val < 0)) (a.val + b.val) (denormalFlag [a, b]) := by
  have hunit : (0 : ℚ) < 2 ^ commonUnit a b := zpow_two_pos _
  have hsum : ((a.inUnits (commonUnit a b) + b.inUnits (commonUnit a b) : ℤ) : ℚ) * 2 ^ commonUnit a b = a.val + b.val := by
    rw [Int.cast_add, add_mul, a.inUnits_mul_unit (commonUnit_le_left a b),
      b.inUnits_mul_unit (commonUnit_le_right a b)]
  rw [f80Add, screen_pair nan (F80.isSpecial_of_isFinite ha) (F80.isSpecial_of_isFinite hb)]
  simp only [F80.isInf_of_isFinite ha, F80.isInf_of_isFinite hb, Bool.and_self, Bool.false_eq_true, if_false]
  generalize a.inUnits (commonUnit a b) + b.inUnits (commonUnit a b) = x at hsum ⊢
  have hzero : x = 0 ↔ a.val + b.val = 0 := by rw [← hsum, mul_eq_zero, or_iff_left hunit.ne', Int.cast_eq_zero]
  have hneg : x < 0 ↔ a.val + b.val < 0 := by
    rw [← hsum, ← not_le, ← not_le, mul_nonneg_iff_of_pos_right hunit, Int.cast_nonneg_iff]
  simp only [hzero, hneg]
  split
  · rfl
  · next h0 =>
    refine F80.fin_eq_finQ rm _ _ (Int.natAbs_pos.2 (mt hzero.1 h0)) one_pos ?_
    rw [Mag.value, Nat.cast_one, div_one, Nat.cast_natAbs, Int.cast_abs, ← hsum, abs_mul, abs_of_pos hunit]

theorem f80Sub_of_isFinite (ha : a.isFinite = true) (hb : b.isFinite = true) : f80Sub nan rm a b =
    if a.val - b.val = 0 then (F80.zero (zeroSumSign rm a (f80Neg b)), denormalFlag [a, b])
    else finQ rm (decide (a.val - b.val < 0)) (a.val - b.val) (denormalFlag [a, b]) := by
  rw [f80Sub_eq_add_neg nan rm (F80.isSpecial_of_isFinite ha) (F80.isSpecial_of_isFinite hb),
    f80Add_of_isFinite nan rm ha (by rwa [f80Neg_isFinite]), f80Neg_val, ← sub_eq_add_neg, denormalFlag_neg]

theorem f80Mul_of_isFinite (ha : a.isFinite = true) (hb : b.isFinite = true) (ha0 : a.isZero = false) (hb0 : b.isZero = false) :
    f80Mul nan rm a b = finQ rm (a.sgn != b.sgn) (a.val * b.val) (denormalFlag [a, b]) := by
  rw [f80Mul, screen_pair nan (F80.isSpecial_of_isFinite ha) (F80.isSpecial_of_isFinite hb)]
  simp only [F80.isInf_of_isFinite ha, F80.isInf_of_isFinite hb, ha0, hb0, Bool.and_self, Bool.or_self, Bool.false_eq_true,
    if_false]
  refine F80.fin_eq_finQ rm _ _ (Nat.mul_pos (F80.sig_pos ha ha0) (F80.sig_pos hb hb0)) one_pos ?_
  rw [abs_mul, F80.abs_val, F80.abs_val, Mag.value, Nat.cast_one, div_one, zpow_add₀ two_ne_zero]
  push_cast
  ring

theorem f80Div_of_isFinite (ha : a.isFinite = true) (hb : b.isFinite = true) (ha0 : a.isZero = false) (hb0 : b.isZero = false) :
    f80Div nan rm a b = finQ rm (a.sgn != b.sgn) (a.val / b.val) (denormalFlag [a, b]) := by
  rw [f80Div, screen_pair nan (F80.isSpecial_of_isFinite ha) (F80.isSpecial_of_isFinite hb)]
  simp only [F80.isInf_of_isFinite ha, F80.isInf_of_isFinite hb, ha0, hb0, Bool.and_self, Bool.or_self, Bool.false_eq_true,
    if_false]
  refine F80.fin_eq_finQ rm _ _ (F80.sig_pos ha ha0) (F80.sig_pos hb hb0) ?_
  rw [abs_div, F80.abs_val, F80.abs_val, Mag.value, zpow_sub₀ two_ne_zero, mul_div_mul_comm]

theorem f80Scale_of_isFinite (ha : a.isFinite = true) (ha0 : a.isZero = false) (n : ℤ) :
    f80Scale nan rm a n = finQ rm a.sgn (a.val * 2 ^ n) (denormalFlag [a]) := by
  rw [f80Scale, screen_one nan (F80.isSpecial_of_isFinite ha)]
  simp only [F80.isInf_of_isFinite ha, ha0, Bool.or_self, Bool.false_eq_true, if_false]
  refine F80.fin_eq_finQ rm _ _ (F80.sig_pos ha ha0) one_pos ?_
  rw [abs_mul, F80.abs_val, abs_of_pos (zpow_two_pos n), Mag.value, Nat.cast_one, div_one, zpow_add₀ two_ne_zero, mul_assoc]

end

/-! ### Rows with an infinity or a zero (R206, R216–R219, R234) -/

section
variable (nan : F80) (rm : RMode) {a b : F80} (ha : a.isSpecial = false) (hb : b.isSpecial = false)
include ha hb

theorem f80Add_inf_inf (hai : a.isInf = true) (hbi : b.isInf = true) :
    f80Add nan rm a b = if a.sgn = b.sgn then (a, denormalFlag [a, b]) else (F80.dnan, flagI) := by
  rw [f80Add, screen_pair nan ha hb]
  simp [hai, hbi]

theorem f80Add_inf_left (hai : a.isInf = true) (hbi : b.isInf = false) :
    f80Add nan rm a b = (a, denormalFlag [a, b]) := by
  rw [f80Add, screen_pair nan ha hb]
  simp [hai, hbi]

theorem f80Add_inf_right (hai : a.isInf = false) (hbi : b.isInf = true) :
    f80Add nan rm a b = (b, denormalFlag [a, b]) := by
  rw [f80Add, screen_pair nan ha hb]
  simp [hai, hbi]

theorem f80Sub_inf_inf (hai : a.isInf = true) (hbi : b.isInf = true) :
    f80Sub nan rm a b = if a.sgn = b.sgn then (F80.dnan, flagI) else (a, denormalFlag [a, b]) := by
  rw [f80Sub_eq_add_neg nan rm ha hb, f80Add_inf_inf nan rm ha (by rwa [f80Neg_isSpecial]) hai (by rwa [f80Neg_isInf]),
    f80Neg_sgn, denormalFlag_neg]
  cases a.sgn <;> cases b.sgn <;> rfl

theorem f80Sub_inf_left (hai : a.isInf = true) (hbi : b.isInf = false) :
    f80Sub nan rm a b = (a, denormalFlag [a, b]) := by
  rw [f80Sub_eq_add_neg nan rm ha hb, f80Add_inf_left nan rm ha (by rwa [f80Neg_isSpecial]) hai (by rwa [f80Neg_isInf]),
    denormalFlag_neg]

theorem f80Sub_inf_right (hai : a.isInf = false) (hbi : b.isInf = true) :
    f80Sub nan rm a b = (F80.inf (!b.sgn), denormalFlag [a, b]) := by
  rw [f80Sub_eq_add_neg nan rm ha hb, f80Add_inf_right nan rm ha (by rwa [f80Neg_isSpecial]) hai (by rwa [f80Neg_isInf]),
    denormalFlag_neg, f80Neg_of_isInf hbi]

/-- Multiplication with an infinity or a zero. -/
theorem f80Mul_row (h : a.isInf = true ∨ b.isInf = true ∨ a.isZero = true ∨ b.isZero = true) :
    f80Mul nan rm a b = if (a.isInf && b.isZero) || (a.isZero && b.isInf) then (F80.dnan, flagI)
      else (if a.isInf || b.isInf then F80.inf (a.sgn != b.sgn) else F80.zero (a.sgn != b.sgn), denormalFlag [a, b]) := by
  rw [f80Mul, screen_pair nan ha hb]
  simp only
  split
  · rfl
  · split
    · rfl
    · next hinf =>
      have hzero : (a.isZero || b.isZero) = true := by
        rw [Bool.or_eq_true] at hinf ⊢
        tauto
      rw [if_pos hzero]

/-- Division with an infinity or a zero. -/
theorem f80Div_row (h : a.isInf = true ∨ b.isInf = true ∨ a.isZero = true ∨ b.isZero = true) :
    f80Div nan rm a b = if (a.isInf && b.isInf) || (a.isZero && b.isZero) then (F80.dnan, flagI)
      else if a.isInf || b.isZero then (F80.inf (a.sgn != b.sgn), denormalFlag [a, b] ||| (if a.isInf then 0 else flagZ))
      else (F80.zero (a.sgn != b.sgn), denormalFlag [a, b]) := by
  rw [f80Div, screen_pair nan ha hb]
  simp only
  split
  · rfl
  · cases hai : a.isInf with
    | true => simp
    | false =>
      cases hbi : b.isInf with
      | true =>
        have hbz : b.isZero = false := by
          rw [← Bool.not_eq_true]
          exact fun hz => Bool.false_ne_true ((F80.isInf_of_isZero hz).symm.trans hbi)
        simp [hbz]
      | false =>
        cases hbz : b.isZero with
        | true => simp
        | false =>
          have haz : a.isZero = true := by simpa [hai, hbi, hbz] using h
          simp [haz]

end

theorem f80Scale_row (nan : F80) (rm : RMode) {a : F80} (n : ℤ) (h : a.isInf = true ∨ a.isZero = true)
    (ha : a.isSpecial = false) : f80Scale nan rm a n = (a, 0) := by
  have hd : denormalFlag [a] = 0 := denormalFlag_of_not_denormal (h.elim F80.isDenormal_of_isInf F80.isDenormal_of_isZero)
  have hrow : (a.isZero || a.isInf) = true := by rw [Bool.or_eq_true]; exact h.symm
  rw [f80Scale, screen_one nan ha, hd]
  exact if_pos hrow

end Sys2Proof

namespace Sys2Proof.Machine

/-! ### The commands -/

theorem roundMode_eq_down (m : BitVec 2) : (roundMode m == .down) = (m == 1#2) := by
  revert m
  decide

/-- A screened operation's response, from what the operation gives whatever the draw. -/
theorem screened_resp_of_eq (s : State) {op : F80 → F80 × Flags6} {r : F80 × Flags6} (h : ∀ nan, op nan = r) :
    (s.screened op).resp = some (.ok (.f80Fl r.1 r.2)) := by rw [screened_resp, h]

/-- Settles O24: on finite operands each operation is `finQ` of the exact rational result. -/
theorem exactThenRounded : Obligations.ExactThenRounded := by
  intro s c a b n ha hb
  refine ⟨⟨_, rfl, screened_sameButDraws .., fun h => ?_, fun h => ?_⟩,
    ⟨_, rfl, screened_sameButDraws .., fun h => ?_, fun h => ?_⟩,
    fun ha0 hb0 => ⟨⟨_, rfl, screened_sameButDraws .., ?_⟩, ⟨_, rfl, screened_sameButDraws .., ?_⟩⟩,
    fun ha0 => ⟨_, rfl, screened_sameButDraws .., ?_⟩⟩
  · exact screened_resp_of_eq s fun nan => (f80Add_of_isFinite nan _ ha hb).trans (if_neg h)
  · refine (screened_resp_of_eq s fun nan => (f80Add_of_isFinite nan _ ha hb).trans (if_pos h)).trans ?_
    rw [zeroSumSign, State.roundMode, roundMode_eq_down]
  · exact screened_resp_of_eq s fun nan => (f80Sub_of_isFinite nan _ ha hb).trans (if_neg h)
  · refine (screened_resp_of_eq s fun nan => (f80Sub_of_isFinite nan _ ha hb).trans (if_pos h)).trans ?_
    have hsigns : (a.sgn == !b.sgn) = (a.sgn != b.sgn) := by cases a.sgn <;> cases b.sgn <;> rfl
    rw [zeroSumSign, State.roundMode, roundMode_eq_down, f80Neg_isZero, f80Neg_sgn, hsigns]
  · exact screened_resp_of_eq s fun nan => f80Mul_of_isFinite nan _ ha hb ha0 hb0
  · exact screened_resp_of_eq s fun nan => f80Div_of_isFinite nan _ ha hb ha0 hb0
  · exact screened_resp_of_eq s fun nan => f80Scale_of_isFinite nan _ ha ha0 _

/-- Settles O25: each row by the lemma of its operation. -/
theorem infinityAndZeroRows : Obligations.InfinityAndZeroRows := by
  intro s c a b n ha hb
  refine ⟨fun h => ⟨_, _, _, rfl, screened_sameButDraws .., rfl, ?addBoth, ?addLeft, ?addRight⟩,
    fun h => ⟨_, _, _, rfl, screened_sameButDraws .., rfl, ?subBoth, ?subLeft, ?subRight⟩,
    fun h => ⟨⟨_, _, _, rfl, screened_sameButDraws .., rfl, ?mul⟩, ⟨_, _, _, rfl, screened_sameButDraws .., rfl, ?div⟩⟩,
    fun h => ⟨_, rfl, screened_sameButDraws .., screened_resp_of_eq s fun nan => f80Scale_row nan _ _ h ha⟩⟩
  case addBoth => exact fun hai hbi hs => Prod.ext_iff.1 ((f80Add_inf_inf _ _ ha hb hai hbi).trans (if_neg hs))
  case addLeft =>
    intro hai hs
    cases hbi : b.isInf with
    | true =>
      have hsgn : a.sgn = b.sgn := hs.resolve_left (by simp [hbi])
      exact Prod.ext_iff.1 ((f80Add_inf_inf _ _ ha hb hai hbi).trans (if_pos hsgn))
    | false => exact Prod.ext_iff.1 (f80Add_inf_left _ _ ha hb hai hbi)
  case addRight => exact fun hai => Prod.ext_iff.1 (f80Add_inf_right _ _ ha hb hai (h.resolve_left (by simp [hai])))
  case subBoth => exact fun hai hbi hs => Prod.ext_iff.1 ((f80Sub_inf_inf _ _ ha hb hai hbi).trans (if_pos hs))
  case subLeft =>
    intro hai hs
    cases hbi : b.isInf with
    | true =>
      have hsgn : a.sgn ≠ b.sgn := hs.resolve_left (by simp [hbi])
      exact Prod.ext_iff.1 ((f80Sub_inf_inf _ _ ha hb hai hbi).trans (if_neg hsgn))
    | false => exact Prod.ext_iff.1 (f80Sub_inf_left _ _ ha hb hai hbi)
  case subRight => exact fun hai => Prod.ext_iff.1 (f80Sub_inf_right _ _ ha hb hai (h.resolve_left (by simp [hai])))
  case mul =>
    split
    · next hinv => exact Prod.ext_iff.1 ((f80Mul_row _ _ ha hb h).trans (if_pos hinv))
    · next hval => exact Prod.ext_iff.1 ((f80Mul_row _ _ ha hb h).trans (if_neg hval))
  case div =>
    split
    · next hinv => exact Prod.ext_iff.1 ((f80Div_row _ _ ha hb h).trans (if_pos hinv))
    · next hval =>
      split
      · next hinf => exact Prod.ext_iff.1 ((f80Div_row _ _ ha hb h).trans ((if_neg hval).trans (if_pos hinf)))
      · next hzero => exact Prod.ext_iff.1 ((f80Div_row _ _ ha hb h).trans ((if_neg hval).trans (if_neg hzero)))

end Sys2Proof.Machine
end

section
/-! SUPPORT. The remainders (spec/41_float_engine.md R220, R221): in the operands' common unit both are integers, whose remainder
is bounded by the divisor and by the dividend, so that it is encoded exactly. -/

namespace Sys2Proof

open Sys2Proof.Machine

/-! ### The remainder of two naturals -/

/-- What is left of `x` after its quotient by `y`, in units of the two. -/
def wholeRemainder (nearest : Bool) (x y : ℕ) : ℤ := x - (quotient nearest x y * y : ℕ)

theorem wholeRemainder_truncated (x y : ℕ) : wholeRemainder false x y = (x % y : ℕ) := by
  have h := Nat.div_add_mod' x y
  simp only [wholeRemainder, quotient, Bool.false_eq_true, if_false]
  omega

/-- The nearest quotient is the floor, or where at least half is left, possibly one more. -/
theorem quotient_nearest_cases (x y : ℕ) :
    (quotient true x y = x / y ∧ 2 * (x % y) ≤ y) ∨ (quotient true x y = x / y + 1 ∧ y ≤ 2 * (x % y)) := by
  simp only [quotient, if_true, fracOf]
  split
  · next h0 => exact .inl ⟨rfl, by omega⟩
  · split
    · next hlt => exact .inl ⟨by simp [rint], hlt.le⟩
    · split
      · next heq =>
        by_cases hodd : x / y % 2 = 1
        · exact .inr ⟨by simp [rint, hodd], heq.ge⟩
        · exact .inl ⟨by simp [rint, hodd], heq.le⟩
      · next hne => exact .inr ⟨by simp [rint], by omega⟩

theorem wholeRemainder_nearest_cases (x y : ℕ) :
    (wholeRemainder true x y = (x % y : ℕ) ∧ 2 * (x % y) ≤ y) ∨
      (wholeRemainder true x y = (x % y : ℕ) - (y : ℤ) ∧ y ≤ 2 * (x % y)) := by
  have h := Nat.div_add_mod' x y
  unfold wholeRemainder
  obtain ⟨hq, hr⟩ | ⟨hq, hr⟩ := quotient_nearest_cases x y
  · exact .inl ⟨by rw [hq]; omega, hr⟩
  · exact .inr ⟨by rw [hq, Nat.add_mul, Nat.one_mul]; omega, hr⟩

theorem natAbs_wholeRemainder_le (nearest : Bool) (x : ℕ) {y : ℕ} (hy : 0 < y) :
    (wholeRemainder nearest x y).natAbs ≤ x ∧
      if nearest then 2 * (wholeRemainder nearest x y).natAbs ≤ y else (wholeRemainder nearest x y).natAbs < y := by
  have hlt := Nat.mod_lt x hy
  have hle := Nat.mod_le x y
  cases nearest with
  | false =>
    rw [wholeRemainder_truncated, Int.natAbs_natCast]
    exact ⟨hle, hlt⟩
  | true =>
    simp only [if_true]
    obtain ⟨hw, hr⟩ | ⟨hw, hr⟩ := wholeRemainder_nearest_cases x y <;> rw [hw] <;> omega

theorem natAbs_wholeRemainder_le_min (nearest : Bool) (x : ℕ) {y : ℕ} (hy : 0 < y) :
    (wholeRemainder nearest x y).natAbs ≤ min x y := by
  obtain ⟨hle, hbound⟩ := natAbs_wholeRemainder_le nearest x hy
  cases nearest with
  | false => exact le_min hle (le_of_lt hbound)
  | true =>
    have hhalf : 2 * (wholeRemainder true x y).natAbs ≤ y := hbound
    exact le_min hle (by omega)

/-! ### The rational quotients (R220, R221) -/

/-- The quotient that a remainder operation uses, over the rationals. -/
def quotientQ (nearest : Bool) (x : ℚ) : ℤ := if nearest then nearestQ x else truncQ x

theorem truncQ_signed (s : Bool) {w : ℚ} (hw : 0 < w) : (truncQ (signQ s * w) : ℚ) = signQ s * (⌊w⌋₊ : ℕ) := by
  have hfloor : (⌊w⌋ : ℚ) = (⌊w⌋₊ : ℕ) := by exact_mod_cast (Int.natCast_floor_eq_floor hw.le).symm
  cases s with
  | false => simp [signQ, truncQ, hw.le, hfloor]
  | true => simp [signQ, truncQ, not_le.2 hw, Int.ceil_neg, hfloor]

theorem nearestQ_signed (s : Bool) {w : ℚ} (hw : 0 < w) :
    (nearestQ (signQ s * w) : ℚ) = signQ s * rintQ w false .nearest := by
  cases s with
  | false => simp [signQ, nearestQ, hw.le]
  | true => simp [signQ, nearestQ, not_le.2 hw]

theorem quotientQ_signed (nearest s : Bool) {x y : ℕ} (hx : 0 < x) (hy : 0 < y) :
    (quotientQ nearest (signQ s * (x / y)) : ℚ) = signQ s * quotient nearest x y := by
  have hpos : (0 : ℚ) < x / y := by positivity
  cases nearest with
  | false => simp [quotientQ, quotient, truncQ_signed s hpos, Nat.floor_div_eq_div]
  | true => simp [quotientQ, quotient, nearestQ_signed s hpos, rint_fracOf hy]

/-! ### The remainder of two patterns -/

/-- `a − n·b`, for the quotient `n` of R220 or R221. -/
def exactRemainder (nearest : Bool) (a b : F80) : ℚ := a.val - quotientQ nearest (a.val / b.val) * b.val

theorem exactRemainder_eq (nearest : Bool) {a b : F80} {x y : ℕ} {u : ℤ} (hx : (x : ℚ) * 2 ^ u = |a.val|)
    (hy : (y : ℚ) * 2 ^ u = |b.val|) (hx0 : 0 < x) (hy0 : 0 < y) :
    exactRemainder nearest a b = signQ a.sgn * (wholeRemainder nearest x y * 2 ^ u) := by
  have hu : (2 : ℚ) ^ u ≠ 0 := (zpow_two_pos u).ne'
  have hsb := signQ_mul_self b.sgn
  have ha : a.val = signQ a.sgn * (x * 2 ^ u) := by rw [hx, ← a.val_eq_signQ_abs]
  have hb : b.val = signQ b.sgn * (y * 2 ^ u) := by rw [hy, ← b.val_eq_signQ_abs]
  have hquot : a.val / b.val = signQ (a.sgn != b.sgn) * (x / y) := by
    rw [ha, hb, signQ_bne, mul_div_mul_comm, mul_div_mul_right _ _ hu, div_eq_mul_inv, inv_eq_of_mul_eq_one_right hsb]
  rw [exactRemainder, hquot, quotientQ_signed nearest _ hx0 hy0, ha, hb, signQ_bne, wholeRemainder]
  push_cast
  linear_combination (-(signQ a.sgn * quotient nearest x y * y * 2 ^ u)) * hsb

theorem abs_exactRemainder (nearest : Bool) {a b : F80} {x y : ℕ} {u : ℤ} (hx : (x : ℚ) * 2 ^ u = |a.val|)
    (hy : (y : ℚ) * 2 ^ u = |b.val|) (hx0 : 0 < x) (hy0 : 0 < y) :
    |exactRemainder nearest a b| = (wholeRemainder nearest x y).natAbs * 2 ^ u := by
  rw [exactRemainder_eq nearest hx hy hx0 hy0, abs_mul, abs_signQ, one_mul, abs_mul, abs_of_pos (zpow_two_pos u),
    Nat.cast_natAbs, Int.cast_abs]

/-- A remainder is smaller than the divisor, and the nearest one at most half of it. -/
theorem exactRemainder_bound (nearest : Bool) {a b : F80} {x y : ℕ} {u : ℤ} (hx : (x : ℚ) * 2 ^ u = |a.val|)
    (hy : (y : ℚ) * 2 ^ u = |b.val|) (hx0 : 0 < x) (hy0 : 0 < y) :
    if nearest then |exactRemainder nearest a b| ≤ |b.val| / 2 else |exactRemainder nearest a b| < |b.val| := by
  have hu := zpow_two_pos u
  obtain ⟨-, hbound⟩ := natAbs_wholeRemainder_le nearest x hy0
  rw [abs_exactRemainder nearest hx hy hx0 hy0, ← hy]
  cases nearest with
  | false => exact mul_lt_mul_of_pos_right (by exact_mod_cast hbound) hu
  | true =>
    have hhalf : 2 * ((wholeRemainder true x y).natAbs : ℚ) ≤ y := by exact_mod_cast hbound
    have := mul_le_mul_of_nonneg_right hhalf hu.le
    simp only [if_true]
    linarith

theorem signQ_mul_natAbs (d : ℤ) : signQ (decide (d < 0)) * d.natAbs = d := by
  rw [Nat.cast_natAbs, Int.cast_abs]
  by_cases h : d < 0
  · rw [abs_of_neg (by exact_mod_cast h)]
    simp [signQ, h]
  · rw [abs_of_nonneg (by exact_mod_cast Int.not_lt.1 h)]
    simp [signQ, h]

theorem signQ_mul_neg_iff (s : Bool) {w : ℚ} (hw : 0 < w) : decide (signQ s * w < 0) = s := by
  cases s with
  | false => simp [signQ, hw.le]
  | true => simp [signQ, hw]

/-- A signed number of units is encoded exactly where its magnitude fits. -/
theorem encFin_units {s : Bool} {d u : ℤ} {r : ℚ} (hr : r = signQ s * (d * 2 ^ u)) (hd : d ≠ 0) (hfits : d.natAbs < 2 ^ 64)
    (hu : -16445 ≤ u) (hu' : u ≤ 16320) :
    r ≠ 0 ∧ (F80.encFin (s != decide (d < 0)) d.natAbs u).val = r ∧
      F80.encFin (s != decide (d < 0)) d.natAbs u = encQ (decide (r < 0)) (some |r|) := by
  have hlog : Nat.log2 d.natAbs < 64 := (Nat.log2_lt (Int.natAbs_ne_zero.2 hd)).2 hfits
  have hpos : (0 : ℚ) < d.natAbs * 2 ^ u := mul_pos (by exact_mod_cast Int.natAbs_pos.2 hd) (zpow_two_pos u)
  have hr' : r = signQ (s != decide (d < 0)) * (d.natAbs * 2 ^ u) := by
    rw [hr, signQ_bne, mul_assoc, ← mul_assoc (signQ (decide (d < 0))), signQ_mul_natAbs]
  have hneg : (s != decide (d < 0)) = decide (r < 0) := by rw [hr', signQ_mul_neg_iff _ hpos]
  have habs : |r| = d.natAbs * 2 ^ u := by rw [hr', abs_mul, abs_signQ, one_mul, abs_of_pos hpos]
  refine ⟨abs_pos.1 (habs ▸ hpos), ?_, ?_⟩
  · rw [F80.encFin_val_exact _ hfits hu (by omega), hr']
  · rw [F80.encFin_eq_encQ _ _ hu, hneg, habs]

theorem commonUnit_ge (a b : F80) : -16445 ≤ commonUnit a b := le_min a.unitExp_ge b.unitExp_ge

/-- One of two patterns keeps its significand in their common unit. -/
theorem min_shifted_lt (a b : F80) :
    min (a.sig <<< (a.unitExp - commonUnit a b).toNat) (b.sig <<< (b.unitExp - commonUnit a b).toNat) < 2 ^ 64 := by
  obtain h | h := min_choice a.unitExp b.unitExp
  · exact (min_le_left _ _).trans_lt (by simpa [commonUnit, h] using a.sig_lt)
  · exact (min_le_right _ _).trans_lt (by simpa [commonUnit, h] using b.sig_lt)

/-- The remainder of finite operands: exact, encoded as it is, and bounded by the divisor. -/
theorem f80Remainder_of_isFinite (nearest : Bool) (nan : F80) {a b : F80} (ha : a.isFinite = true) (hb : b.isFinite = true)
    (ha0 : a.isZero = false) (hb0 : b.isZero = false) :
    let d := exactRemainder nearest a b
    let r := if d = 0 then F80.zero a.sgn else encQ (decide (d < 0)) (some |d|)
    f80Remainder nearest nan a b = (r, denormalFlag [a, b]) ∧ r.val = d ∧
      if nearest then |d| ≤ |b.val| / 2 else |d| < |b.val| := by
  have hu : (0 : ℚ) < 2 ^ commonUnit a b := zpow_two_pos _
  have hx := a.shifted_mul_unit (commonUnit_le_left a b)
  have hy := b.shifted_mul_unit (commonUnit_le_right a b)
  have ha' : 0 < |a.val| := abs_pos.2 fun h => Bool.false_ne_true (ha0.symm.trans ((F80.val_eq_zero_iff_isZero ha).1 h))
  have hb' : 0 < |b.val| := abs_pos.2 fun h => Bool.false_ne_true (hb0.symm.trans ((F80.val_eq_zero_iff_isZero hb).1 h))
  have hmin := min_shifted_lt a b
  rw [f80Remainder, screen_pair nan (F80.isSpecial_of_isFinite ha) (F80.isSpecial_of_isFinite hb)]
  simp only [F80.isInf_of_isFinite ha, F80.isInf_of_isFinite hb, ha0, hb0, Bool.or_self, Bool.false_eq_true, if_false]
  generalize a.sig <<< (a.unitExp - commonUnit a b).toNat = x at hx hmin ⊢
  generalize b.sig <<< (b.unitExp - commonUnit a b).toNat = y at hy hmin ⊢
  have hx0 : 0 < x := by
    rw [← hx, mul_pos_iff_of_pos_right hu] at ha'
    exact_mod_cast ha'
  have hy0 : 0 < y := by
    rw [← hy, mul_pos_iff_of_pos_right hu] at hb'
    exact_mod_cast hb'
  have hd := exactRemainder_eq nearest hx hy hx0 hy0
  have hlimit := exactRemainder_bound nearest hx hy hx0 hy0
  have hfits := (natAbs_wholeRemainder_le_min nearest x hy0).trans_lt hmin
  rw [show (x : ℤ) - (quotient nearest x y * y : ℕ) = wholeRemainder nearest x y from rfl]
  generalize wholeRemainder nearest x y = w at hd hfits ⊢
  by_cases h0 : w = 0
  · have hd0 : exactRemainder nearest a b = 0 := by rw [hd, h0]; simp
    simp only [h0, hd0, if_true] at hlimit ⊢
    exact ⟨trivial, F80.zero_val _, hlimit⟩
  · have hunit := (commonUnit_le_left a b).trans (F80.unitExp_le ha)
    obtain ⟨hne, hval, henc⟩ := encFin_units hd h0 hfits (commonUnit_ge a b) hunit
    simp only [if_neg h0, if_neg hne]
    exact ⟨by rw [henc], henc ▸ hval, hlimit⟩

/-- A remainder with an infinite divisor or a zero dividend is the dividend (R220, R221). -/
theorem f80Remainder_of_dividend (nearest : Bool) (nan : F80) {a b : F80} (ha : a.isSpecial = false) (hb : b.isSpecial = false)
    (hai : a.isInf = false) (hbz : b.isZero = false) (h : b.isInf = true ∨ a.isZero = true) :
    f80Remainder nearest nan a b = (a, denormalFlag [a, b]) := by
  rw [f80Remainder, screen_pair nan ha hb]
  simp [hai, hbz, h]

/-- A remainder of an infinity, or by a zero, is invalid (R220, R221). -/
theorem f80Remainder_of_invalid (nearest : Bool) (nan : F80) {a b : F80} (ha : a.isSpecial = false) (hb : b.isSpecial = false)
    (h : a.isInf = true ∨ b.isZero = true) : f80Remainder nearest nan a b = (F80.dnan, flagI) := by
  rw [f80Remainder, screen_pair nan ha hb]
  simp [h]

theorem f80Remainder_flags (nearest : Bool) (nan : F80) {a b : F80} (ha : a.isSpecial = false) (hb : b.isSpecial = false)
    (hai : a.isInf = false) (hbz : b.isZero = false) : (f80Remainder nearest nan a b).2 = denormalFlag [a, b] := by
  rw [f80Remainder, screen_pair nan ha hb]
  simp only [hai, hbz, Bool.or_self, Bool.false_eq_true, if_false]
  split
  · rfl
  · split <;> rfl

end Sys2Proof

namespace Sys2Proof.Machine

/-- Settles O26: both remainders are `f80Remainder`, exact on finite operands, with the other rows by the lemmas above. -/
theorem remaindersAreExact : Obligations.RemaindersAreExact := by
  intro s a b ha hb
  refine ⟨_, _, _, _, _, _, rfl, screened_sameButDraws .., rfl, rfl, screened_sameButDraws .., rfl, fun h => ?invalid,
    fun hai hbz => ⟨?modFlags, ?remFlags, fun h => ?dividend, fun hbi haz => ?exact⟩⟩
  case invalid =>
    obtain ⟨hr, hfl⟩ := Prod.ext_iff.1 (f80Remainder_of_invalid false s.drawNan.1 ha hb h)
    obtain ⟨hq, hfm⟩ := Prod.ext_iff.1 (f80Remainder_of_invalid true s.drawNan.1 ha hb h)
    exact ⟨hr, hfl, hq, hfm⟩
  case dividend =>
    exact ⟨congrArg Prod.fst (f80Remainder_of_dividend false s.drawNan.1 ha hb hai hbz h),
      congrArg Prod.fst (f80Remainder_of_dividend true s.drawNan.1 ha hb hai hbz h)⟩
  case modFlags => exact f80Remainder_flags false s.drawNan.1 ha hb hai hbz
  case remFlags => exact f80Remainder_flags true s.drawNan.1 ha hb hai hbz
  case exact =>
    have ha' : a.isFinite = true := by rw [F80.isFinite_eq_not_isInf ha, hai]; rfl
    have hb' : b.isFinite = true := by rw [F80.isFinite_eq_not_isInf hb, hbi]; rfl
    obtain ⟨hmod, hmodVal, hmodLt⟩ := f80Remainder_of_isFinite false s.drawNan.1 ha' hb' haz hbz
    obtain ⟨hrem, hremVal, hremLe⟩ := f80Remainder_of_isFinite true s.drawNan.1 ha' hb' haz hbz
    have hr := congrArg Prod.fst hmod
    have hq := congrArg Prod.fst hrem
    exact ⟨(congrArg F80.val hr).trans hmodVal, hr, (congrArg F80.val hq).trans hremVal, hq, hmodLt, hremLe⟩

end Sys2Proof.Machine
end

section
/-! SUPPORT. The magnitude that is rounded for a square root (spec/41_float_engine.md R233): the integer root with a sticky half lies to
every coarser unit as the real root does. -/

namespace Sys2Proof

open Sys2Proof.Machine

/-! ### The integer root -/

theorem isqrtFrom_eq_sqrt (n : ℕ) (k r : ℕ) (hlo : r * r ≤ n) (hhi : n < (r + 2 ^ k) * (r + 2 ^ k)) :
    isqrtFrom n k r = Nat.sqrt n := by
  induction k generalizing r with
  | zero => exact Nat.eq_sqrt.2 ⟨hlo, hhi⟩
  | succ k ih =>
    rw [isqrtFrom, Nat.one_shiftLeft]
    split
    · next hle => exact ih _ hle (by rwa [add_assoc, ← two_mul, ← pow_succ'])
    · next hgt => exact ih _ hlo (Nat.lt_of_not_le hgt)

theorem isqrt_eq_sqrt {n : ℕ} (h : n < 2 ^ 208) : isqrt n = Nat.sqrt n :=
  isqrtFrom_eq_sqrt n 104 0 (Nat.zero_le n) (by simpa using h)

/-! ### Lying the same way to a grid -/

/-- A rational and a real lie the same way to every multiple of `2^u`. -/
def Tracks (u : ℤ) (x : ℚ) (y : ℝ) : Prop :=
  ∀ i : ℤ, ((i : ℚ) * 2 ^ u ≤ x ↔ (i : ℝ) * 2 ^ u ≤ y) ∧ (x ≤ (i : ℚ) * 2 ^ u ↔ y ≤ (i : ℝ) * 2 ^ u)

theorem Tracks.coarsen {u q : ℤ} {x : ℚ} {y : ℝ} (h : Tracks u x y) (hq : u ≤ q) : Tracks q x y := by
  intro i
  obtain ⟨j, hj⟩ := Int.eq_ofNat_of_zero_le (show 0 ≤ q - u by omega)
  obtain rfl : q = j + u := by omega
  have hi := h (i * 2 ^ j)
  push_cast at hi
  rwa [mul_assoc, mul_assoc, ← zpow_natCast, ← zpow_natCast, ← zpow_add₀ two_ne_zero, ← zpow_add₀ two_ne_zero] at hi

theorem Tracks.mul_zpow {x : ℚ} {y : ℝ} (h : Tracks 0 x y) (k : ℤ) : Tracks k (x * 2 ^ k) (y * 2 ^ k) := by
  intro i
  have hi := h i
  simp only [zpow_zero, mul_one] at hi
  rwa [mul_le_mul_iff_left₀ (zpow_two_pos k), mul_le_mul_iff_left₀ (zpow_two_pos k),
    mul_le_mul_iff_left₀ (zpow_pos two_pos k), mul_le_mul_iff_left₀ (zpow_pos two_pos k)]

theorem tracks_of_floor_ceil {x : ℚ} {y : ℝ} (hf : ⌊x⌋ = ⌊y⌋) (hc : ⌈x⌉ = ⌈y⌉) : Tracks 0 x y := by
  intro i
  simp only [zpow_zero, mul_one]
  rw [← Int.le_floor, ← Int.le_floor, ← Int.ceil_le, ← Int.ceil_le, hf, hc]
  exact ⟨Iff.rfl, Iff.rfl⟩

theorem floor_ceil_of_between {K : Type} [Field K] [LinearOrder K] [IsStrictOrderedRing K] [FloorRing K] {z : K} {r : ℕ}
    (hlo : (r : K) < z) (hhi : z < r + 1) : ⌊z⌋ = r ∧ ⌈z⌉ = r + 1 :=
  ⟨Int.floor_eq_iff.2 ⟨by exact_mod_cast hlo.le, by exact_mod_cast hhi⟩,
    Int.ceil_eq_iff.2 ⟨by push_cast; simpa using hlo, by push_cast; exact hhi.le⟩⟩

/-! ### The magnitude that is rounded (R233) -/

/-- The integer root, with a sticky half where it is not exact. -/
def stickyRoot (n : ℕ) : ℚ := if Nat.sqrt n * Nat.sqrt n = n then (Nat.sqrt n : ℚ) else Nat.sqrt n + 1 / 2

theorem tracks_stickyRoot (n : ℕ) : Tracks 0 (stickyRoot n) √(n : ℝ) := by
  unfold stickyRoot
  split
  · next hexact =>
    have hroot : √(n : ℝ) = Nat.sqrt n := by
      rw [Real.sqrt_eq_iff_mul_self_eq (by positivity) (by positivity)]
      exact_mod_cast hexact.symm
    rw [hroot]
    exact tracks_of_floor_ceil (by simp) (by simp)
  · next hinexact =>
    have hlo : (Nat.sqrt n : ℝ) < √(n : ℝ) := by
      rw [Real.lt_sqrt (by positivity), sq]
      exact_mod_cast lt_of_le_of_ne (Nat.sqrt_le n) hinexact
    have hhi : √(n : ℝ) < Nat.sqrt n + 1 := by
      rw [Real.sqrt_lt (by positivity) (by positivity), sq]
      exact_mod_cast Nat.lt_succ_sqrt n
    obtain ⟨hfloor, hceil⟩ := floor_ceil_of_between hlo hhi
    obtain ⟨hfloor', hceil'⟩ :=
      floor_ceil_of_between (z := (Nat.sqrt n : ℚ) + 1 / 2) (r := Nat.sqrt n) (by linarith) (by linarith)
    exact tracks_of_floor_ceil (hfloor'.trans hfloor.symm) (hceil'.trans hceil.symm)

theorem sqrtMag_value {n : ℕ} (h : n < 2 ^ 208) (k : ℤ) : (sqrtMag n (2 * k)).value = stickyRoot n * 2 ^ k := by
  unfold sqrtMag stickyRoot
  simp only [isqrt_eq_sqrt h, Int.mul_ediv_cancel_left k (two_ne_zero)]
  split
  · simp [Mag.value]
  · simp only [Mag.value, zpow_sub_one₀ (two_ne_zero (α := ℚ))]
    push_cast
    ring

theorem sqrt_mul_zpow (n : ℕ) (k : ℤ) : √((n : ℝ) * 2 ^ (2 * k)) = √(n : ℝ) * 2 ^ k := by
  rw [Real.sqrt_mul (by positivity), mul_comm 2 k, zpow_mul, zpow_ofNat, Real.sqrt_sq (by positivity)]

theorem tracks_sqrtMag {n : ℕ} (h : n < 2 ^ 208) (k : ℤ) :
    Tracks k (sqrtMag n (2 * k)).value √((n : ℝ) * 2 ^ (2 * k)) := by
  rw [sqrtMag_value h, sqrt_mul_zpow]
  exact (tracks_stickyRoot n).mul_zpow k

theorem sqrtMag_pos {n : ℕ} (e : ℤ) (h : 0 < n) (h' : n < 2 ^ 208): 0 < (sqrtMag n e).num ∧ 0 < (sqrtMag n e).den := by
  unfold sqrtMag
  simp only [isqrt_eq_sqrt h']
  split
  · exact ⟨Nat.sqrt_pos.2 h, one_pos⟩
  · exact ⟨Nat.succ_pos _, one_pos⟩

end Sys2Proof
end

section
/-! SUPPORT. The square root (spec/41_float_engine.md R202, R203, R233): rounding in the normal range, and that a rounded root is bettered
by no finite pattern. -/

namespace Sys2Proof

open Sys2Proof.Machine

/-! ### Rounding to an integer (R202) -/

theorem rintQ_zero_mode (x : ℚ) (s : Bool) : rintQ x s .zero = ⌊x⌋₊ := by simp [rintQ]

theorem rintQ_down (x : ℚ) : rintQ x false .down = ⌊x⌋₊ := by simp [rintQ]

theorem rintQ_up {x : ℚ} (hx : 0 ≤ x) : (rintQ x false .up : ℚ) - 1 < x ∧ x ≤ rintQ x false .up := by
  have hlo := Nat.floor_le hx
  have hhi := Nat.lt_floor_add_one x
  simp only [rintQ, sub_eq_zero]
  split
  · next heq => constructor <;> linarith
  · next hne =>
    have hlt := lt_of_le_of_ne hlo (Ne.symm hne)
    rw [if_pos (by simp)]
    push_cast
    constructor <;> linarith

theorem rintQ_nearest {x : ℚ} (hx : 0 ≤ x) (s : Bool) :
    (rintQ x s .nearest : ℚ) - 1 / 2 ≤ x ∧ x ≤ rintQ x s .nearest + 1 / 2 := by
  have hlo := Nat.floor_le hx
  have hhi := Nat.lt_floor_add_one x
  simp only [rintQ, sub_eq_zero]
  split
  · constructor <;> linarith
  · split
    · next hup =>
      have hhalf : 1 / 2 ≤ x - ⌊x⌋₊ := by
        obtain ⟨-, h | ⟨h, -⟩⟩ | ⟨h, -⟩ | ⟨h, -⟩ := hup
        · exact h.le
        · exact h.ge
        · cases h
        · cases h
      push_cast
      constructor <;> linarith
    · next hdown =>
      have hhalf : x - ⌊x⌋₊ ≤ 1 / 2 := not_lt.1 fun h => hdown (.inl ⟨trivial, .inl h⟩)
      constructor <;> linarith

theorem floor_le_rintQ (x : ℚ) (s : Bool) (rm : RMode) : ⌊x⌋₊ ≤ rintQ x s rm ∧ rintQ x s rm ≤ ⌊x⌋₊ + 1 := by
  simp only [rintQ]
  split
  · omega
  · split <;> omega

/-! ### Rounding in the normal range (R202, R203) -/

theorem rintQ_normal_bounds {x : ℚ} (hx : 0 < x) (s : Bool) (rm : RMode) :
    2 ^ 63 ≤ rintQ (x / 2 ^ (Int.log 2 x - 63)) s rm ∧ rintQ (x / 2 ^ (Int.log 2 x - 63)) s rm ≤ 2 ^ 64 := by
  have hu : (0 : ℚ) < 2 ^ (Int.log 2 x - 63) := zpow_two_pos _
  have hlo : ((2 ^ 63 : ℕ) : ℚ) ≤ x / 2 ^ (Int.log 2 x - 63) := by
    rw [le_div_iff₀ hu, Nat.cast_pow, ← zpow_natCast, Nat.cast_ofNat, ← zpow_add₀ two_ne_zero, zpow_le_iff_le_log hx]
    push_cast
    omega
  have hhi : x / 2 ^ (Int.log 2 x - 63) < ((2 ^ 64 : ℕ) : ℚ) := by
    rw [div_lt_iff₀ hu, Nat.cast_pow, ← zpow_natCast, Nat.cast_ofNat, ← zpow_add₀ two_ne_zero, ← not_le, zpow_le_iff_le_log hx]
    push_cast
    omega
  have hfloor := Nat.le_floor hlo
  have hfloor' := (Nat.floor_lt ((Nat.cast_nonneg _).trans hlo)).2 hhi
  obtain ⟨h1, h2⟩ := floor_le_rintQ (x / 2 ^ (Int.log 2 x - 63)) s rm
  omega

theorem log2_of_normal {n : ℕ} (h63 : 2 ^ 63 ≤ n) (h64 : n ≤ 2 ^ 64) : 63 ≤ Nat.log2 n ∧ Nat.log2 n ≤ 64 := by
  have h0 : n ≠ 0 := by omega
  exact ⟨(Nat.le_log2 h0).2 h63, Nat.lt_succ_iff.1 ((Nat.log2_lt h0).2 (by omega))⟩

/-- In the normal range rounding neither overflows nor is tiny. -/
theorem finQ_of_normal {x : ℚ} (rm : RMode) (s : Bool) (fl : Flags6) (hx : 0 < x) (hlo : -16382 ≤ Int.log 2 x)
    (hhi : Int.log 2 x < 16383) :
    let q := Int.log 2 x - 63
    let n := rintQ (x / 2 ^ q) s rm
    finQ rm s x fl = (encQ s (some ((n : ℚ) * 2 ^ q)), fl ||| if (n : ℚ) ≠ x / 2 ^ q then flagP else 0) := by
  obtain ⟨h63, h64⟩ := rintQ_normal_bounds hx s rm
  have hunit : Int.log 2 x - (64 : ℕ) + 1 = Int.log 2 x - 63 := by push_cast; ring
  simp only [finQ, roundQ, abs_of_pos hx, max_eq_left hlo, hunit]
  generalize rintQ (x / 2 ^ (Int.log 2 x - 63)) s rm = n at h63 h64 ⊢
  obtain ⟨hlog, hlog'⟩ := log2_of_normal h63 h64
  have h0 : n ≠ 0 := by omega
  have hbelow : ¬ (2 : ℚ) ^ ((16383 : ℤ) + 1) ≤ n * 2 ^ (Int.log 2 x - 63) := by
    rw [not_le, lt_zpow_iff_log2_lt h0]
    omega
  have htiny : ¬ (n * 2 ^ (Int.log 2 x - 63) : ℚ) < 2 ^ (-16382 : ℤ) := by
    rw [lt_zpow_iff_log2_lt h0]
    omega
  have hor : ∀ f : Flags6, f ||| 0 = f := fun f => BitVec.or_zero
  simp only [if_neg hbelow, htiny, false_and, if_false, hor]

theorem encQ_of_normal (s : Bool) {n : ℕ} {q : ℤ} (h63 : 2 ^ 63 ≤ n) (h64 : n ≤ 2 ^ 64) (hq : -16445 ≤ q) (hq' : q ≤ 16319) :
    (encQ s (some ((n : ℚ) * 2 ^ q))).val = signQ s * (n * 2 ^ q) ∧ (encQ s (some ((n : ℚ) * 2 ^ q))).isNormal = true ∧
      (encQ s (some ((n : ℚ) * 2 ^ q))).sgn = s := by
  obtain ⟨k, r, hk63, hk64, hr, hr', heq⟩ : ∃ (k : ℕ) (r : ℤ), 2 ^ 63 ≤ k ∧ k < 2 ^ 64 ∧ -16445 ≤ r ∧ r ≤ 16320 ∧
      (n : ℚ) * 2 ^ q = k * 2 ^ r := by
    obtain hlt | rfl := h64.lt_or_eq
    · exact ⟨n, q, h63, hlt, hq, by omega, rfl⟩
    · refine ⟨2 ^ 63, q + 1, le_rfl, by norm_num, by omega, by omega, ?_⟩
      rw [zpow_add_one₀ two_ne_zero]
      push_cast
      ring
  have h0 : k ≠ 0 := by omega
  obtain ⟨hlog, hlog'⟩ := log2_of_normal hk63 hk64.le
  have hlog64 : Nat.log2 k < 64 := (Nat.log2_lt h0).2 hk64
  rw [heq, ← F80.encFin_eq_encQ s k hr]
  obtain ⟨hfin, hden, hsgn⟩ := F80.encFin_isNormal s h0 hk64 (q := r) (by omega) (by omega)
  have hval := F80.encFin_val_exact s hk64 hr (by omega)
  refine ⟨hval, F80.isNormal_of_isFinite hfin ?_ hden, hsgn⟩
  rw [← Bool.not_eq_true, ← F80.val_eq_zero_iff_isZero hfin, hval]
  have := zpow_two_pos r
  exact mul_ne_zero (signQ_ne_zero s) (by positivity)

/-! ### No finite pattern is better (R233) -/

/-- Above `2^63` units a finite pattern is a whole number of them. -/
theorem F80.val_lt_or_multiple (v : F80) (q : ℤ) : v.val < 2 ^ 63 * 2 ^ q ∨ ∃ k : ℤ, v.val = k * 2 ^ q := by
  obtain h | h := lt_or_ge v.unitExp q
  · left
    have hsig : (v.sig : ℚ) < 2 ^ 64 := by exact_mod_cast v.sig_lt
    calc v.val ≤ |v.val| := le_abs_self _
      _ = v.sig * 2 ^ v.unitExp := v.abs_val
      _ < 2 ^ 64 * 2 ^ v.unitExp := mul_lt_mul_of_pos_right hsig (zpow_two_pos _)
      _ = 2 ^ 63 * 2 ^ (v.unitExp + 1) := by rw [zpow_add_one₀ two_ne_zero]; ring
      _ ≤ 2 ^ 63 * 2 ^ q := by gcongr; norm_num; omega
  · right
    exact ⟨v.inUnits q, (v.inUnits_mul_unit h).symm⟩

/-- The same over the reals. -/
theorem F80.real_val_lt_or_multiple (v : F80) (q : ℤ) :
    (v.val : ℝ) < 2 ^ 63 * 2 ^ q ∨ ∃ k : ℤ, (v.val : ℝ) = k * 2 ^ q := by
  obtain hlt | ⟨k, hk⟩ := v.val_lt_or_multiple q
  · left
    have := (Rat.cast_lt (K := ℝ)).2 hlt
    push_cast at this
    exact this
  · right
    exact ⟨k, by rw [hk]; push_cast; rfl⟩

section
variable {q : ℤ} {n : ℕ} {y : ℝ}

theorem nearest_not_bettered (hy : (2 : ℝ) ^ 63 * 2 ^ q ≤ y) (hlo : ((n : ℝ) - 1 / 2) * 2 ^ q ≤ y)
    (hhi : y ≤ ((n : ℝ) + 1 / 2) * 2 ^ q) (v : F80) : |(n : ℝ) * 2 ^ q - y| ≤ |(v.val : ℝ) - y| := by
  have hu : (0 : ℝ) < 2 ^ q := zpow_pos two_pos q
  have hmult : ∀ k : ℤ, |(n : ℝ) * 2 ^ q - y| ≤ |(k : ℝ) * 2 ^ q - y| := by
    intro k
    have hhalf : |(n : ℝ) * 2 ^ q - y| ≤ 1 / 2 * 2 ^ q := abs_le.2 ⟨by linarith, by linarith⟩
    obtain hlt | rfl | hgt := lt_trichotomy k n
    · have hk : (k : ℝ) + 1 ≤ n := by exact_mod_cast hlt
      have := mul_le_mul_of_nonneg_right hk hu.le
      rw [abs_sub_comm (k * 2 ^ q : ℝ)]
      exact hhalf.trans (le_trans (by linarith) (le_abs_self _))
    · simp
    · have hk : (n : ℝ) + 1 ≤ k := by exact_mod_cast hgt
      have := mul_le_mul_of_nonneg_right hk hu.le
      exact hhalf.trans (le_trans (by linarith) (le_abs_self _))
  obtain hlt | ⟨k, hk⟩ := v.real_val_lt_or_multiple q
  · refine (hmult (2 ^ 63)).trans ?_
    push_cast
    rw [abs_of_nonpos (by linarith), abs_of_nonpos (by linarith)]
    linarith
  · rw [hk]
    exact hmult k

theorem below_not_bettered (h63 : 2 ^ 63 ≤ n) (hhi : y < ((n : ℝ) + 1) * 2 ^ q) (v : F80) (hv : (v.val : ℝ) ≤ y) :
    (v.val : ℝ) ≤ n * 2 ^ q := by
  have hu : (0 : ℝ) < 2 ^ q := zpow_pos two_pos q
  obtain hlt | ⟨k, hk⟩ := v.real_val_lt_or_multiple q
  · have hn : (2 : ℝ) ^ 63 ≤ n := by exact_mod_cast h63
    exact hlt.le.trans (mul_le_mul_of_nonneg_right hn hu.le)
  · rw [hk] at hv ⊢
    have hkn : (k : ℝ) < n + 1 := lt_of_mul_lt_mul_right (hv.trans_lt hhi) hu.le
    exact mul_le_mul_of_nonneg_right (by exact_mod_cast Int.lt_add_one_iff.1 (by exact_mod_cast hkn)) hu.le

theorem above_not_bettered (hy : (2 : ℝ) ^ 63 * 2 ^ q ≤ y) (hlo : ((n : ℝ) - 1) * 2 ^ q < y) (v : F80)
    (hv : y ≤ (v.val : ℝ)) : (n : ℝ) * 2 ^ q ≤ v.val := by
  have hu : (0 : ℝ) < 2 ^ q := zpow_pos two_pos q
  obtain hlt | ⟨k, hk⟩ := v.real_val_lt_or_multiple q
  · exact absurd (hy.trans hv) (not_le.2 hlt)
  · rw [hk] at hv ⊢
    have hkn : (n : ℝ) - 1 < k := lt_of_mul_lt_mul_right (hlo.trans_le hv) hu.le
    exact mul_le_mul_of_nonneg_right (by exact_mod_cast Int.le_of_sub_one_lt (by exact_mod_cast hkn)) hu.le

end

/-! ### A rounded root -/

/-- `n` units of `2^q` are the rounding of `m`, which lies as `y` does to every half unit. -/
structure RoundsRoot (rm : RMode) (m : ℚ) (y : ℝ) (n : ℕ) (q : ℤ) : Prop where
  tracks : Tracks (q - 1) m y
  ge : 2 ^ 63 * 2 ^ q ≤ m
  units : n = rintQ (m / 2 ^ q) false rm

namespace RoundsRoot

variable {rm : RMode} {m : ℚ} {y : ℝ} {n : ℕ} {q : ℤ}

theorem tracks_units (h : RoundsRoot rm m y n q) : Tracks q m y := h.tracks.coarsen (by omega)

theorem root_ge (h : RoundsRoot rm m y n q) : (2 : ℝ) ^ 63 * 2 ^ q ≤ y := by
  have htracks := (h.tracks_units (2 ^ 63)).1
  rw [Int.cast_pow, Int.cast_pow, Int.cast_ofNat, Int.cast_ofNat] at htracks
  exact htracks.1 h.ge

theorem quotient_nonneg (h : RoundsRoot rm m y n q) : 0 ≤ m / 2 ^ q := by
  have hu := zpow_two_pos q
  have : 0 ≤ m := le_trans (by positivity) h.ge
  positivity

theorem exact_iff (h : RoundsRoot rm m y n q) : (n : ℚ) = m / 2 ^ q ↔ (n : ℝ) * 2 ^ q = y := by
  have htracks := h.tracks_units n
  rw [eq_div_iff (zpow_two_pos q).ne', le_antisymm_iff, le_antisymm_iff]
  exact_mod_cast and_congr htracks.1 htracks.2

theorem nearest (h : RoundsRoot .nearest m y n q) : ((n : ℝ) - 1 / 2) * 2 ^ q ≤ y ∧ y ≤ ((n : ℝ) + 1 / 2) * 2 ^ q := by
  have hround := rintQ_nearest h.quotient_nonneg false
  rw [← h.units, le_div_iff₀ (zpow_two_pos q), div_le_iff₀ (zpow_two_pos q)] at hround
  have hlo := (h.tracks (2 * n - 1)).1
  have hhi := (h.tracks (2 * n + 1)).2
  rw [zpow_sub_one₀ two_ne_zero, zpow_sub_one₀ two_ne_zero] at hlo hhi
  push_cast at hlo hhi
  constructor
  · linarith [hlo.1 (by linarith [hround.1])]
  · linarith [hhi.1 (by linarith [hround.2])]

theorem below (h : RoundsRoot rm m y n q) (hrm : rm = .down ∨ rm = .zero) :
    (n : ℝ) * 2 ^ q ≤ y ∧ y < ((n : ℝ) + 1) * 2 ^ q := by
  have hfloor : n = ⌊m / 2 ^ q⌋₊ := by
    rw [h.units]
    obtain rfl | rfl := hrm
    · exact rintQ_down _
    · exact rintQ_zero_mode _ _
  have hlo : (n : ℚ) * 2 ^ q ≤ m := (le_div_iff₀ (zpow_two_pos q)).1 (hfloor ▸ Nat.floor_le h.quotient_nonneg)
  have hhi : m < ((n : ℚ) + 1) * 2 ^ q := (div_lt_iff₀ (zpow_two_pos q)).1 (hfloor ▸ Nat.lt_floor_add_one _)
  have htracks := (h.tracks_units n).1
  have htracks' := (h.tracks_units (n + 1)).1
  push_cast at htracks htracks'
  exact ⟨htracks.1 hlo, not_le.1 (mt htracks'.2 (not_le.2 hhi))⟩

theorem above (h : RoundsRoot .up m y n q) : ((n : ℝ) - 1) * 2 ^ q < y ∧ y ≤ (n : ℝ) * 2 ^ q := by
  have hround := rintQ_up h.quotient_nonneg
  rw [← h.units, lt_div_iff₀ (zpow_two_pos q), div_le_iff₀ (zpow_two_pos q)] at hround
  have htracks := (h.tracks_units n).2
  have htracks' := (h.tracks_units (n - 1)).2
  push_cast at htracks htracks'
  exact ⟨not_le.1 (mt htracks'.2 (not_le.2 hround.1)), htracks.1 hround.2⟩

end RoundsRoot

/-! ### The operation (R233) -/

theorem stickyRoot_bounds {n : ℕ} (hlo : 2 ^ 134 ≤ n) (hhi : n < 2 ^ 208) :
    0 < stickyRoot n ∧ 67 ≤ Int.log 2 (stickyRoot n) ∧ Int.log 2 (stickyRoot n) < 104 := by
  have h67 : ((2 ^ 67 : ℕ) : ℚ) ≤ Nat.sqrt n := by exact_mod_cast Nat.le_sqrt.2 (show 2 ^ 67 * 2 ^ 67 ≤ n by simpa using hlo)
  have h104 : (Nat.sqrt n : ℚ) + 1 ≤ (2 ^ 104 : ℕ) := by
    exact_mod_cast Nat.sqrt_lt.2 (show n < 2 ^ 104 * 2 ^ 104 by simpa using hhi)
  have hroot : (Nat.sqrt n : ℚ) ≤ stickyRoot n ∧ stickyRoot n < Nat.sqrt n + 1 := by
    unfold stickyRoot
    split <;> constructor <;> linarith
  have hpos : 0 < stickyRoot n := lt_of_lt_of_le (by norm_num) (h67.trans hroot.1)
  refine ⟨hpos, (zpow_le_iff_le_log hpos 67).1 (by exact_mod_cast h67.trans hroot.1), ?_⟩
  rw [← not_le, ← zpow_le_iff_le_log hpos 104, not_le]
  exact_mod_cast hroot.2.trans_le h104

/-- A finite pattern's magnitude as the square of a power of two times a natural of at least 134 bits. -/
theorem F80.even_form {a : F80} (ha : a.isFinite = true) (ha0 : a.isZero = false) : ∃ (o : ℕ) (k : ℤ),
    (a.unitExp % 2).toNat = o ∧ a.unitExp - o - 134 = 2 * k ∧ -8290 ≤ k ∧ k ≤ 8093 ∧ 2 ^ 134 ≤ a.sig <<< (134 + o) ∧
      a.sig <<< (134 + o) < 2 ^ 208 ∧ |a.val| = (a.sig <<< (134 + o) : ℕ) * 2 ^ (2 * k) := by
  have hlo := a.unitExp_ge
  have hhi := F80.unitExp_le ha
  have hsig := a.sig_lt
  have hpos := F80.sig_pos ha ha0
  obtain ⟨o, k, ho, ho1, hk⟩ : ∃ (o : ℕ) (k : ℤ), (a.unitExp % 2).toNat = o ∧ o ≤ 1 ∧ a.unitExp - o - 134 = 2 * k :=
    ⟨_, (a.unitExp - (a.unitExp % 2).toNat - 134) / 2, rfl, by omega, by omega⟩
  refine ⟨o, k, ho, hk, by omega, by omega, ?_, ?_, ?_⟩
  · rw [Nat.shiftLeft_eq]
    calc 2 ^ 134 ≤ 2 ^ (134 + o) := Nat.pow_le_pow_right two_pos (by omega)
      _ ≤ a.sig * 2 ^ (134 + o) := Nat.le_mul_of_pos_left _ hpos
  · rw [Nat.shiftLeft_eq]
    calc a.sig * 2 ^ (134 + o) < 2 ^ 64 * 2 ^ (134 + o) := Nat.mul_lt_mul_of_pos_right hsig (by positivity)
      _ = 2 ^ (64 + (134 + o)) := (pow_add ..).symm
      _ ≤ 2 ^ 208 := Nat.pow_le_pow_right two_pos (by omega)
  · rw [F80.abs_val, Nat.shiftLeft_eq, Nat.cast_mul, Nat.cast_pow, Nat.cast_ofNat, mul_assoc, ← zpow_natCast,
      ← zpow_add₀ two_ne_zero]
    congr 2
    push_cast
    omega

/-- Of a positive finite operand, a magnitude that tracks the real root is rounded and encoded. -/
theorem f80Sqrt_of_positive (nan : F80) (rm : RMode) {a : F80} (ha : a.isFinite = true) (ha0 : a.isZero = false)
    (hs : a.sgn = false) : ∃ (m : ℚ) (n : ℕ) (q : ℤ), RoundsRoot rm m √(a.val : ℝ) n q ∧ -16445 ≤ q ∧ q ≤ 16319 ∧
      2 ^ 63 ≤ n ∧ n ≤ 2 ^ 64 ∧ f80Sqrt nan rm a =
        (encQ false (some ((n : ℚ) * 2 ^ q)), denormalFlag [a] ||| if (n : ℚ) ≠ m / 2 ^ q then flagP else 0) := by
  obtain ⟨o, k, ho, hk, hk1, hk2, hlo, hhi, habs⟩ := F80.even_form ha ha0
  have hval : a.val = (a.sig <<< (134 + o) : ℕ) * 2 ^ (2 * k) := by
    rw [← habs, a.val_eq_signQ_abs, hs]
    simp [signQ]
  have hroot : f80Sqrt nan rm a = F80.fin rm false (sqrtMag (a.sig <<< (134 + o)) (2 * k)) (denormalFlag [a]) := by
    rw [f80Sqrt, screen_one nan (F80.isSpecial_of_isFinite ha)]
    simp only [ha0, hs, F80.isInf_of_isFinite ha, Bool.false_eq_true, if_false, ho, hk]
  generalize a.sig <<< (134 + o) = N at hval hlo hhi hroot
  obtain ⟨hpos, h67, h104⟩ := stickyRoot_bounds hlo hhi
  have hm := sqrtMag_value hhi k
  have hm0 : 0 < (sqrtMag N (2 * k)).value := hm ▸ mul_pos hpos (zpow_two_pos k)
  have hlog : Int.log 2 (sqrtMag N (2 * k)).value = Int.log 2 (stickyRoot N) + k := by rw [hm, int_log_mul_zpow hpos]
  obtain ⟨hn, hd⟩ := sqrtMag_pos (2 * k) (by omega) hhi
  have htracks := tracks_sqrtMag hhi k
  have hcast : (a.val : ℝ) = (N : ℝ) * 2 ^ (2 * k) := by rw [hval]; push_cast; rfl
  rw [← hcast] at htracks
  rw [F80.fin_eq_finQ rm false _ hn hd (abs_of_pos hm0).symm] at hroot
  generalize (sqrtMag N (2 * k)).value = m at hm0 hlog htracks hroot
  obtain ⟨h63, h64⟩ := rintQ_normal_bounds hm0 false rm
  have hge : (2 : ℚ) ^ 63 * 2 ^ (Int.log 2 m - 63) ≤ m := by
    rw [← zpow_natCast, ← zpow_add₀ two_ne_zero, zpow_le_iff_le_log hm0]
    push_cast
    omega
  exact ⟨m, _, Int.log 2 m - 63, ⟨htracks.coarsen (by omega), hge, rfl⟩, by omega, by omega, h63, h64,
    hroot.trans (finQ_of_normal rm false _ hm0 (by omega) (by omega))⟩

theorem f80Sqrt_of_negative (nan : F80) (rm : RMode) {a : F80} (ha : a.isSpecial = false) (ha0 : a.isZero = false)
    (hs : a.sgn = true) : f80Sqrt nan rm a = (F80.dnan, flagI) := by
  rw [f80Sqrt, screen_one nan ha]
  simp [ha0, hs]

/-- A zero and the positive infinity are their own roots (R233). -/
theorem f80Sqrt_of_fixed (nan : F80) (rm : RMode) {a : F80} (ha : a.isSpecial = false)
    (h : a.isZero = true ∨ (a.isInf = true ∧ a.sgn = false)) : f80Sqrt nan rm a = (a, 0) := by
  have hd : denormalFlag [a] = 0 :=
    denormalFlag_of_not_denormal (h.elim F80.isDenormal_of_isZero fun h => F80.isDenormal_of_isInf h.1)
  rw [f80Sqrt, screen_one nan ha, hd]
  obtain hz | ⟨hi, hs⟩ := h
  · simp [hz]
  · simp [hi, hs]

end Sys2Proof

namespace Sys2Proof.Machine

/-- Settles O27: the rounded root is a whole number of units, next to which the real root lies as R202's `rint` says, and no finite
pattern lies closer. -/
theorem squareRootIsCorrectlyRounded : Obligations.SquareRootIsCorrectlyRounded := by
  intro s c a ha
  refine ⟨_, _, _, rfl, screened_sameButDraws .., rfl, ?zero, ?negative, ?infinite, ?positive⟩
  case zero => exact fun hz => Prod.ext_iff.1 (f80Sqrt_of_fixed _ _ ha (.inl hz))
  case negative => exact fun ha0 hs => Prod.ext_iff.1 (f80Sqrt_of_negative _ _ ha ha0 hs)
  case infinite => exact fun hi hs => Prod.ext_iff.1 (f80Sqrt_of_fixed _ _ ha (.inr ⟨hi, hs⟩))
  case positive =>
    intro hfin ha0 hs
    obtain ⟨m, n, q, hround, hq, hq', h63, h64, heq⟩ := f80Sqrt_of_positive s.drawNan.1 (s.roundMode c) hfin ha0 hs
    obtain ⟨hval, hnormal, hsgn⟩ := encQ_of_normal false h63 h64 hq hq'
    simp only [heq]
    generalize encQ false (some ((n : ℚ) * 2 ^ q)) = r at hval hnormal hsgn ⊢
    have hreal : (r.val : ℝ) = n * 2 ^ q := by
      rw [hval]
      simp [signQ]
    have hr0 : (0 : ℝ) ≤ r.val := by rw [hreal]; positivity
    have ha0' : (0 : ℝ) ≤ a.val := by
      rw [a.val_eq_signQ_abs, hs]
      simp [signQ]
    have hexact : (n : ℚ) = m / 2 ^ q ↔ r.val * r.val = a.val := by
      rw [hround.exact_iff, ← hreal, eq_comm, Real.sqrt_eq_iff_mul_self_eq ha0' hr0, eq_comm]
      exact_mod_cast Iff.rfl
    refine ⟨hnormal, hsgn, ?flags, ?nearest, ?below, ?above⟩
    case flags => simp only [ne_eq, hexact, ite_not]
    case nearest =>
      intro hrm v _
      have hmode : s.roundMode c = .nearest := by rw [State.roundMode, hrm]; rfl
      rw [hmode] at hround
      rw [hreal]
      exact nearest_not_bettered hround.root_ge hround.nearest.1 hround.nearest.2 v
    case below =>
      intro hrm
      have hmode : s.roundMode c = .down ∨ s.roundMode c = .zero := by
        rw [State.roundMode]
        exact hrm.imp (fun h => by rw [h]; rfl) fun h => by rw [h]; rfl
      obtain ⟨hlo, hhi⟩ := hround.below hmode
      rw [← hreal] at hlo
      refine ⟨hlo, fun v _ hv => ?_⟩
      have hbest := below_not_bettered h63 hhi v hv
      rw [← hreal] at hbest
      exact_mod_cast hbest
    case above =>
      intro hrm
      have hmode : s.roundMode c = .up := by rw [State.roundMode, hrm]; rfl
      rw [hmode] at hround
      obtain ⟨hlo, hhi⟩ := hround.above
      rw [← hreal] at hhi
      refine ⟨hhi, fun v _ hv => ?_⟩
      have hbest := above_not_bettered hround.root_ge hlo v hv
      rw [← hreal] at hbest
      exact_mod_cast hbest

end Sys2Proof.Machine
end

section
/-! SUPPORT. Conversions from and to a signed integer (spec/41_float_engine.md R208, R212, R213): the model's clamped rounding is the
rational one, and an integer comes back as it went. -/

namespace Sys2Proof

open Sys2Proof.Machine

theorem rintQ_natCast (n : ℕ) (s : Bool) (rm : RMode) : rintQ (n : ℚ) s rm = n := by simp [rintQ]

theorem signQ_cast (s : Bool) (n : ℕ) : (((if s then -1 else 1) * (n : ℤ) : ℤ) : ℚ) = signQ s * n := by
  cases s <;> simp [signQ]

theorem F80.signQ_mul_eq_val_iff (a : F80) (r : ℚ) : signQ a.sgn * r = a.val ↔ r = |a.val| :=
  ⟨fun h => mul_left_cancel₀ (signQ_ne_zero _) (h.trans a.val_eq_signQ_abs), fun h => by rw [h, ← a.val_eq_signQ_abs]⟩

/-- `to_int` is R213 over the rationals. -/
theorem f80ToInt_eq_toIntQ (n : ℕ) (rm : RMode) (a : F80) : f80ToInt n rm a = toIntQ n rm a := by
  have hround := Mag.roundTo_eq (m := a.mag) one_pos 0 a.sgn rm
  rw [F80.mag_value, zpow_zero, div_one] at hround
  have hinexact : decide ((rintQ |a.val| a.sgn rm : ℚ) ≠ |a.val|) = true ↔
      (((if a.sgn then -1 else 1) * (rintQ |a.val| a.sgn rm : ℤ) : ℤ) : ℚ) ≠ a.val := by
    rw [decide_eq_true_iff, signQ_cast, ne_eq, ne_eq, a.signQ_mul_eq_val_iff]
  have hsign : ∀ k : ℕ, (if a.sgn = true then -(k : ℤ) else k) = (if a.sgn = true then -1 else 1) * (k : ℤ) := by
    intro k
    cases a.sgn <;> simp
  unfold f80ToInt toIntQ
  simp only [hround, hsign, hinexact, Nat.cast_pow, Nat.cast_ofNat]
  rfl

theorem toIntQ_bounds (n : ℕ) (rm : RMode) (a : F80) :
    -2 ^ (n - 1) ≤ (toIntQ n rm a).1 ∧ (toIntQ n rm a).1 < 2 ^ (n - 1) := by
  have hpos : (0 : ℤ) < 2 ^ (n - 1) := by positivity
  unfold toIntQ
  simp only
  split_ifs <;> constructor <;> simp only <;> omega

/-- An integer that fits is converted to itself, whatever the mode. -/
theorem toIntQ_of_integer {n : ℕ} {a : F80} {x : ℤ} (rm : RMode) (ha : a.isFinite = true) (hx : a.val = x)
    (hlo : -2 ^ (n - 1) ≤ x) (hhi : x < 2 ^ (n - 1)) : toIntQ n rm a = (x, 0) := by
  have habs : |a.val| = (x.natAbs : ℚ) := by rw [hx, Nat.cast_natAbs, Int.cast_abs]
  have hval : ((if a.sgn then -1 else 1) * (rintQ |a.val| a.sgn rm : ℤ) : ℤ) = x := by
    have h : (((if a.sgn then -1 else 1) * (rintQ |a.val| a.sgn rm : ℤ) : ℤ) : ℚ) = x := by
      rw [signQ_cast, habs, rintQ_natCast, ← habs, ← a.val_eq_signQ_abs, hx]
    exact_mod_cast h
  unfold toIntQ
  simp only [F80.isSpecial_of_isFinite ha, F80.isInf_of_isFinite ha, hval, Bool.false_eq_true, if_false]
  rw [if_neg (by omega), if_neg (by omega), hx, if_neg (not_not.2 rfl)]

theorem f80OfInt_isNormal {x : ℤ} (h0 : x ≠ 0) (h : x.natAbs < 2 ^ 64) : (f80OfInt x).isNormal = true := by
  have hn : x.natAbs ≠ 0 := Int.natAbs_ne_zero.2 h0
  have hlog : Nat.log2 x.natAbs < 64 := (Nat.log2_lt hn).2 h
  obtain ⟨hfin, hden, -⟩ := F80.encFin_isNormal (decide (x < 0)) hn h (q := 0) (by omega) (by omega)
  have heq : f80OfInt x = F80.encFin (decide (x < 0)) x.natAbs 0 := if_neg h0
  rw [← heq] at hfin hden
  refine F80.isNormal_of_isFinite hfin ?_ hden
  rw [← Bool.not_eq_true, ← F80.val_eq_zero_iff_isZero hfin, f80OfInt_val h]
  exact_mod_cast h0

theorem f80OfInt_isFinite {x : ℤ} (h : x.natAbs < 2 ^ 64) : (f80OfInt x).isFinite = true := by
  by_cases h0 : x = 0
  · rw [h0]
    exact F80.isFinite_of_isZero (F80.zero_isZero false)
  · simp [F80.isFinite, f80OfInt_isNormal h0 h]

end Sys2Proof

namespace Sys2Proof.Machine

/-- Settles O19: the model's conversion is `toIntQ`, whose result fits 64 bits and gives an integer back. -/
theorem integerConversions : Obligations.IntegerConversions := by
  intro s c x a
  have hlo : -2 ^ 63 ≤ x.toInt := BitVec.le_toInt x
  have hhi : x.toInt < 2 ^ 63 := BitVec.toInt_lt
  have hfits : x.toInt.natAbs < 2 ^ 64 := by omega
  have hval := f80OfInt_val hfits
  have hexec : ∀ a, exec (.feToI64 c a) s =
      .next (s.ok (.u64Fl (BitVec.ofInt 64 (toIntQ 64 (s.roundMode c) a).1) (toIntQ 64 (s.roundMode c) a).2)) := fun a => by
    rw [← f80ToInt_eq_toIntQ]
    rfl
  refine ⟨rfl, rfl, ⟨f80OfInt x.toInt, rfl, hval, ?normal, ?roundTrip⟩, ⟨_, hexec a, ?clamped⟩⟩
  case normal =>
    split
    · next h0 => rw [h0]; rfl
    · next h0 => exact f80OfInt_isNormal (fun h => h0 (BitVec.toInt_inj.1 h)) hfits
  case roundTrip => rw [hexec, toIntQ_of_integer _ (f80OfInt_isFinite hfits) hval hlo hhi, BitVec.ofInt_toInt]
  case clamped =>
    obtain ⟨h1, h2⟩ := toIntQ_bounds 64 (s.roundMode c) a
    exact BitVec.toInt_ofInt_eq_self (by decide) h1 h2

end Sys2Proof.Machine
end

section
/-! SUPPORT. Host float formats (spec/30_encoding.md R122; spec/41_float_engine.md R208, R214, R215): the fields of an assembled
host pattern, the value they give, and that a rounded magnitude is stored as it is. -/

namespace Sys2Proof

open Sys2Proof.Machine

/-! ### Fields (R122) -/

section
variable {n : ℕ} (eb fb : ℕ) (w : BitVec n)

theorem hostExp_eq_extract : hostExp eb fb w.toNat = (w.extractLsb' fb eb).toNat := by
  rw [BitVec.extractLsb'_toNat, Nat.shiftRight_eq_div_pow, hostExp]

theorem hostFrac_eq_extract : hostFrac fb w.toNat = (w.extractLsb' 0 fb).toNat := by
  rw [BitVec.extractLsb'_toNat, Nat.shiftRight_zero, hostFrac]

theorem hostSign_eq_bit : hostSign eb fb w.toNat = w.getLsbD (eb + fb) := by
  rw [BitVec.getLsbD, Nat.testBit_eq_decide_div_mod_eq, hostSign]

end

/-- The fields of an assembled host pattern. -/
theorem host_fields_append {eb fb : ℕ} (s : Bool) (e : BitVec eb) (f : BitVec fb) :
    hostExp eb fb (BitVec.ofBool s ++ (e ++ f)).toNat = e.toNat ∧ hostFrac fb (BitVec.ofBool s ++ (e ++ f)).toNat = f.toNat ∧
      hostSign eb fb (BitVec.ofBool s ++ (e ++ f)).toNat = s := by
  have hlow := toNat_append_add e f
  have hword := toNat_append_add (BitVec.ofBool s) (e ++ f)
  have hexp : (BitVec.ofBool s ++ (e ++ f)).toNat = 2 ^ fb * (2 ^ eb * (BitVec.ofBool s).toNat + e.toNat) + f.toNat := by
    rw [hword, hlow, pow_add]
    ring
  refine ⟨?_, ?_, ?_⟩
  · rw [hostExp, hexp, Nat.mul_add_div (by positivity), Nat.div_eq_of_lt f.isLt, add_zero, Nat.mul_add_mod,
      Nat.mod_eq_of_lt e.isLt]
  · rw [hostFrac, hexp, Nat.mul_add_mod, Nat.mod_eq_of_lt f.isLt]
  · rw [hostSign, hword, mul_comm, Nat.mul_add_div (by positivity), Nat.div_eq_of_lt (e ++ f).isLt, add_zero]
    cases s <;> rfl

/-! ### Values (R122) -/

/-- The magnitude that a host exponent and fraction stand for. -/
def hostMag (eb fb e f : ℕ) : ℚ :=
  (if e = 0 then (f : ℚ) else 2 ^ fb + f) * 2 ^ ((max e 1 : ℕ) - (2 ^ (eb - 1) - 1) - fb : ℤ)

theorem hostMag_nonneg (eb fb e f : ℕ) : 0 ≤ hostMag eb fb e f := by
  unfold hostMag
  split <;> positivity

theorem hostVal_eq (eb fb w : ℕ) :
    hostVal eb fb w = signQ (hostSign eb fb w) * hostMag eb fb (hostExp eb fb w) (hostFrac fb w) := by
  rw [hostVal, hostMag, signQ, mul_assoc]

theorem abs_hostVal (eb fb w : ℕ) : |hostVal eb fb w| = hostMag eb fb (hostExp eb fb w) (hostFrac fb w) := by
  rw [hostVal_eq, abs_mul, abs_signQ, one_mul, abs_of_nonneg (hostMag_nonneg ..)]

/-- The significand of a host pattern, with its implicit bit. -/
def hostSig (fb e f : ℕ) : ℕ := if e = 0 then f else 2 ^ fb + f

theorem hostMag_eq (eb fb e f : ℕ) :
    hostMag eb fb e f = hostSig fb e f * 2 ^ ((max e 1 : ℕ) - (2 ^ (eb - 1) - 1) - fb : ℤ) := by
  unfold hostMag hostSig
  split <;> push_cast <;> rfl

theorem hostSig_lt {fb e f : ℕ} (hf : f < 2 ^ fb) : hostSig fb e f < 2 ^ (fb + 1) := by
  rw [pow_succ]
  unfold hostSig
  split <;> omega

/-- A finite host magnitude has one exponent and one fraction. -/
theorem hostMag_inj {eb fb e f e' f' : ℕ} (hf : f < 2 ^ fb) (hf' : f' < 2 ^ fb)
    (h : hostMag eb fb e f = hostMag eb fb e' f') : e = e' ∧ f = f' := by
  wlog hle : max e 1 ≤ max e' 1 generalizing e f e' f'
  · obtain ⟨he, hf⟩ := this hf' hf h.symm (by omega)
    exact ⟨he.symm, hf.symm⟩
  obtain ⟨j, hj⟩ := Nat.exists_eq_add_of_le hle
  have hunits : hostSig fb e f = hostSig fb e' f' * 2 ^ j := by
    have hexp : ((max e' 1 : ℕ) - (2 ^ (eb - 1) - 1) - fb : ℤ) = (max e 1 : ℕ) - (2 ^ (eb - 1) - 1) - fb + j := by
      rw [hj]; push_cast; ring
    rw [hostMag_eq, hostMag_eq, hexp, zpow_add₀ two_ne_zero, zpow_natCast, mul_comm (2 ^ _ : ℚ) (2 ^ j), ← mul_assoc] at h
    exact_mod_cast mul_right_cancel₀ (zpow_two_pos _).ne' h
  have hsame : j = 0 := by
    by_contra hj0
    have hlow : 2 ^ fb ≤ hostSig fb e' f' := by rw [hostSig, if_neg (by omega)]; omega
    have hhigh : hostSig fb e f < 2 * 2 ^ fb := by unfold hostSig; split <;> omega
    have htwo : 2 ≤ 2 ^ j := le_trans (by norm_num) (Nat.pow_le_pow_right two_pos (Nat.one_le_iff_ne_zero.2 hj0))
    have := Nat.mul_le_mul hlow htwo
    omega
  subst hsame
  unfold hostSig at hunits
  split at hunits <;> split at hunits <;> omega

/-! ### Rounding what is already representable (R202) -/

theorem roundQ_exact {p : ℕ} {emin emax : ℤ} (rm : RMode) (s : Bool) {n : ℕ} {q : ℤ} (h0 : n ≠ 0) (hn : n < 2 ^ p)
    (hq : emin - p + 1 ≤ q) (hmax : (n : ℚ) * 2 ^ q < 2 ^ (emax + 1)) :
    roundQ p emin emax rm s ((n : ℚ) * 2 ^ q) = (some ((n : ℚ) * 2 ^ q), 0) := by
  have hlog : Nat.log2 n < p := (Nat.log2_lt h0).2 hn
  have hpos : (0 : ℚ) < n * 2 ^ q := mul_pos (by positivity) (zpow_two_pos q)
  obtain ⟨j, hj⟩ := Int.eq_ofNat_of_zero_le (show 0 ≤ q - (max (Int.log 2 ((n : ℚ) * 2 ^ q)) emin - p + 1) by
    rw [int_log_units h0]; omega)
  have hunits : (n : ℚ) * 2 ^ q / 2 ^ (max (Int.log 2 ((n : ℚ) * 2 ^ q)) emin - p + 1) = (n * 2 ^ j : ℕ) := by
    rw [mul_div_assoc, ← zpow_sub₀ two_ne_zero, hj, zpow_natCast]
    push_cast
    rfl
  have hback : ((n * 2 ^ j : ℕ) : ℚ) * 2 ^ (max (Int.log 2 ((n : ℚ) * 2 ^ q)) emin - p + 1) = n * 2 ^ q := by
    rw [← hunits, div_mul_cancel₀ _ (zpow_two_pos _).ne']
  simp only [roundQ, hunits, rintQ_natCast, hback, if_neg (not_le.2 hmax)]
  simp

/-- A finite host magnitude is rounded to itself in its own format. -/
theorem roundQ_hostMag {eb fb e f : ℕ} (rm : RMode) (s : Bool) (heb : 2 ≤ eb) (he : e < 2 ^ eb - 1) (hf : f < 2 ^ fb)
    (h0 : hostMag eb fb e f ≠ 0) : roundQ (fb + 1) (2 - 2 ^ (eb - 1)) (2 ^ (eb - 1) - 1) rm s (hostMag eb fb e f) =
      (some (hostMag eb fb e f), 0) := by
  have heb2 : 2 ^ eb = 2 * 2 ^ (eb - 1) := by rw [← pow_succ']; congr 1; omega
  have htwo : 2 ≤ 2 ^ (eb - 1) := le_self_pow₀ (by decide) (by omega)
  have hcast : (2 : ℤ) ^ (eb - 1) = (2 ^ (eb - 1) : ℕ) := by push_cast; rfl
  rw [hostMag_eq] at h0 ⊢
  have hsig0 : hostSig fb e f ≠ 0 := fun h => h0 (by rw [h]; simp)
  refine roundQ_exact rm s hsig0 (hostSig_lt hf) ?_ ?_
  · rw [hcast]
    push_cast
    omega
  · have hlog : Nat.log2 (hostSig fb e f) < fb + 1 := (Nat.log2_lt hsig0).2 (hostSig_lt hf)
    rw [lt_zpow_iff_log2_lt hsig0, hcast]
    omega

/-- What rounding delivers has at most `p` bits' worth of units, and does not overflow. -/
theorem roundFmt_fin_bounds {p : ℕ} {emin emax : ℤ} {rm : RMode} {s : Bool} {m : Mag} {n : ℕ} {q : ℤ} (hn : 0 < m.num)
    (hd : 0 < m.den) (hr : (roundFmt p emin emax rm s m).1 = .fin n q) : n ≤ 2 ^ p ∧ (n : ℚ) * 2 ^ q < 2 ^ (emax + 1) := by
  have hm := Mag.value_pos hn hd
  unfold roundFmt at hr
  simp only [Mag.log2_eq hn hd, Mag.roundTo_eq hd] at hr
  split at hr
  · split at hr
    · cases hr
    · cases hr
      refine ⟨Nat.sub_le _ _, ?_⟩
      calc ((2 ^ p - 1 : ℕ) : ℚ) * 2 ^ (emax - p + 1) < (2 ^ p : ℕ) * 2 ^ (emax - p + 1) := by
            gcongr; exact Nat.sub_one_lt (by positivity)
        _ = 2 ^ (emax + 1) := by
            rw [Nat.cast_pow, ← zpow_natCast, Nat.cast_ofNat, ← zpow_add₀ two_ne_zero]; congr 1; ring
  · next hbelow =>
    cases hr
    refine ⟨?_, (belowPow_iff _ _ _).1 (by simpa using hbelow)⟩
    have hlt : m.value / 2 ^ (max (Int.log 2 m.value) emin - p + 1) < (2 ^ p : ℕ) := by
      rw [div_lt_iff₀ (zpow_two_pos _), Nat.cast_pow, ← zpow_natCast, Nat.cast_ofNat, ← zpow_add₀ two_ne_zero, ← not_le,
        zpow_le_iff_le_log hm]
      omega
    have hfloor := (Nat.floor_lt (div_nonneg hm.le (zpow_two_pos _).le)).2 hlt
    have hle := (floor_le_rintQ (m.value / 2 ^ (max (Int.log 2 m.value) emin - p + 1)) s rm).2
    omega

/-! ### Storing a rounded magnitude (R215) -/

theorem toBits_of_le {n p : ℕ} (h0 : n ≠ 0) (hn : n ≤ 2 ^ (p + 1)) :
    2 ^ p ≤ toBits n (p + 1) ∧ toBits n (p + 1) < 2 * 2 ^ p ∧ (toBits n (p + 1) : ℚ) * 2 ^ ((Nat.log2 n : ℤ) - p) = n := by
  have hlow : 2 ^ Nat.log2 n ≤ n := Nat.log2_self_le h0
  have hhigh : n < 2 ^ (Nat.log2 n + 1) := Nat.lt_log2_self
  unfold toBits
  split
  · next hlt =>
    obtain ⟨j, rfl⟩ := Nat.exists_eq_add_of_le (Nat.lt_succ_iff.1 hlt)
    have hj : Nat.log2 n + j + 1 - 1 - Nat.log2 n = j := by omega
    rw [hj, Nat.shiftLeft_eq]
    refine ⟨?_, ?_, ?_⟩
    · rw [pow_add]
      exact Nat.mul_le_mul_right _ hlow
    · rw [← pow_succ', add_right_comm, pow_add _ _ j]
      exact Nat.mul_lt_mul_of_pos_right hhigh (by positivity)
    · rw [show (Nat.log2 n : ℤ) - (Nat.log2 n + j : ℕ) = -j by push_cast; ring, zpow_neg, zpow_natCast]
      push_cast
      field_simp
  · next hge =>
    obtain rfl : n = 2 ^ (p + 1) :=
      le_antisymm hn ((Nat.pow_le_pow_right two_pos (by omega)).trans hlow)
    rw [Nat.log2_two_pow]
    have hshift : 2 ^ (p + 1) >>> (p + 1 - (p + 1 - 1)) = 2 ^ p := by
      rw [show p + 1 - (p + 1 - 1) = 1 by omega, Nat.shiftRight_eq_div_pow, pow_succ]
      simp
    rw [hshift]
    refine ⟨le_rfl, by have := Nat.two_pow_pos p; omega, ?_⟩
    rw [show ((p + 1 : ℕ) : ℤ) - p = 1 by push_cast; ring]
    push_cast
    ring

theorem hostFields_subnormal {eb fb n : ℕ} {q : ℤ} (h0 : n ≠ 0) (h : q + Nat.log2 n < 2 - (2 ^ (eb - 1) : ℕ)) :
    hostFields eb fb (.fin n q) = (0, BitVec.ofNat fb (n <<< (q - (2 - (2 ^ (eb - 1) : ℕ) - fb)).toNat)) := by
  have hunit : 1 - ((2 ^ (eb - 1) : ℕ) - 1 : ℤ) = 2 - (2 ^ (eb - 1) : ℕ) := by ring
  simp only [hostFields, hunit]
  rw [if_neg h0, if_pos h]

theorem hostFields_normal {eb fb n : ℕ} {q : ℤ} (h0 : n ≠ 0) (h : ¬ q + Nat.log2 n < 2 - (2 ^ (eb - 1) : ℕ)) :
    hostFields eb fb (.fin n q) =
      (BitVec.ofNat eb (q + Nat.log2 n + ((2 ^ (eb - 1) : ℕ) - 1)).toNat, BitVec.ofNat fb (toBits n (fb + 1))) := by
  have hunit : 1 - ((2 ^ (eb - 1) : ℕ) - 1 : ℤ) = 2 - (2 ^ (eb - 1) : ℕ) := by ring
  simp only [hostFields, hunit]
  rw [if_neg h0, if_neg h]

/-- The fields of a rounded magnitude are finite and have its value. -/
theorem hostFields_fin {eb fb : ℕ} (heb : 1 ≤ eb) {n : ℕ} {q : ℤ} (hn : n ≤ 2 ^ (fb + 1))
    (hq : 2 - (2 ^ (eb - 1) : ℕ) - fb ≤ q) (hmax : (n : ℚ) * 2 ^ q < 2 ^ ((2 ^ (eb - 1) : ℕ) : ℤ)) :
    (hostFields eb fb (.fin n q)).1.toNat ≠ 2 ^ eb - 1 ∧
      hostMag eb fb (hostFields eb fb (.fin n q)).1.toNat (hostFields eb fb (.fin n q)).2.toNat = n * 2 ^ q := by
  have heb2 : 2 ^ eb = 2 * 2 ^ (eb - 1) := by rw [← pow_succ']; congr 1; omega
  have hcast : (2 : ℤ) ^ (eb - 1) = (2 ^ (eb - 1) : ℕ) := by push_cast; rfl
  have hones : 1 ≤ 2 ^ (eb - 1) := Nat.one_le_two_pow
  have hzero : (0 : BitVec eb).toNat = 0 := rfl
  rw [hostMag, hcast]
  by_cases h0 : n = 0
  · subst h0
    have hfields : hostFields eb fb (.fin 0 q) = (0, 0) := rfl
    rw [hfields]
    simp only [hzero]
    exact ⟨by omega, by simp⟩
  rw [lt_zpow_iff_log2_lt h0] at hmax
  by_cases hsub : q + Nat.log2 n < 2 - (2 ^ (eb - 1) : ℕ)
  · rw [hostFields_subnormal h0 hsub]
    obtain ⟨j, hj⟩ := Int.eq_ofNat_of_zero_le (show 0 ≤ q - (2 - (2 ^ (eb - 1) : ℕ) - fb) by omega)
    have hfits : n * 2 ^ j < 2 ^ fb :=
      calc n * 2 ^ j < 2 ^ (Nat.log2 n + 1) * 2 ^ j := Nat.mul_lt_mul_of_pos_right Nat.lt_log2_self (by positivity)
        _ = 2 ^ (Nat.log2 n + 1 + j) := (pow_add ..).symm
        _ ≤ 2 ^ fb := Nat.pow_le_pow_right two_pos (by omega)
    simp only [hzero, if_true, hj, Int.toNat_natCast, Nat.shiftLeft_eq, BitVec.toNat_ofNat, Nat.mod_eq_of_lt hfits]
    refine ⟨by omega, ?_⟩
    rw [Nat.cast_mul, Nat.cast_pow, Nat.cast_ofNat, mul_assoc, ← zpow_natCast 2 j, ← zpow_add₀ two_ne_zero]
    congr 2
    omega
  · rw [hostFields_normal h0 hsub]
    obtain ⟨e, he⟩ := Int.eq_ofNat_of_zero_le (show 0 ≤ q + Nat.log2 n + ((2 ^ (eb - 1) : ℕ) - 1) by omega)
    obtain ⟨hlow, hhigh, hval⟩ := toBits_of_le h0 hn
    have hexp : (BitVec.ofNat eb e).toNat = e := by rw [BitVec.toNat_ofNat, Nat.mod_eq_of_lt (by omega)]
    have hfrac : 2 ^ fb + (BitVec.ofNat fb (toBits n (fb + 1))).toNat = toBits n (fb + 1) := by
      rw [BitVec.toNat_ofNat, Nat.mod_eq_sub_mod hlow, Nat.mod_eq_of_lt (by omega)]
      omega
    have hfrac' : (2 : ℚ) ^ fb + (BitVec.ofNat fb (toBits n (fb + 1))).toNat = toBits n (fb + 1) := by exact_mod_cast hfrac
    simp only [he, Int.toNat_natCast, hexp, if_neg (show e ≠ 0 by omega), hfrac']
    refine ⟨by omega, ?_⟩
    conv_rhs => rw [← hval, mul_assoc, ← zpow_add₀ two_ne_zero]
    congr 2
    omega

/-- The fields of what rounding delivered, an infinity among it. -/
theorem hostFields_roundFmt {eb fb : ℕ} (heb : 2 ≤ eb) (rm : RMode) (s : Bool) {m : Mag} (hn : 0 < m.num) (hd : 0 < m.den) :
    let f := hostFields eb fb (roundFmt (fb + 1) (2 - 2 ^ (eb - 1)) (2 ^ (eb - 1) - 1) rm s m).1
    let x := (roundFmt (fb + 1) (2 - 2 ^ (eb - 1)) (2 ^ (eb - 1) - 1) rm s m).1.value
    (x = none → f.1.toNat = 2 ^ eb - 1 ∧ f.2.toNat = 0) ∧
      ∀ v, x = some v → f.1.toNat ≠ 2 ^ eb - 1 ∧ hostMag eb fb f.1.toNat f.2.toNat = v := by
  have hcast : (2 : ℤ) ^ (eb - 1) = (2 ^ (eb - 1) : ℕ) := by push_cast; rfl
  have htwo : (2 : ℤ) ≤ 2 ^ (eb - 1) := le_self_pow₀ (by decide) (by omega)
  intro f x
  cases hr : (roundFmt (fb + 1) (2 - 2 ^ (eb - 1)) (2 ^ (eb - 1) - 1) rm s m).1 with
  | inf =>
    simp only [f, x, hr]
    exact ⟨fun _ => ⟨BitVec.toNat_allOnes, rfl⟩, nofun⟩
  | fin n q =>
    have hunit := roundFmt_unit_ge (show (2 : ℤ) - 2 ^ (eb - 1) ≤ 2 ^ (eb - 1) - 1 by linarith) hr
    obtain ⟨hbits, hmax⟩ := roundFmt_fin_bounds hn hd hr
    rw [sub_add_cancel, hcast] at hmax
    have hfields := hostFields_fin (Nat.le_of_succ_le heb) hbits (by push_cast at hunit ⊢; omega) hmax
    simp only [f, x, hr]
    refine ⟨nofun, fun v hv => ?_⟩
    cases hv
    exact hfields

/-- A finite operand is stored as R215 says: rounded once, and the result is a host pattern of that magnitude. -/
theorem finite_storesHost {eb fb : ℕ} (heb : 2 ≤ eb) (rm : RMode) {a : F80} (ha : a.isFinite = true) (ha0 : a.isZero = false)
    {r : Rounded × Flags6} (hr : r = roundFmt (fb + 1) (2 - 2 ^ (eb - 1)) (2 ^ (eb - 1) - 1) rm a.sgn a.mag) :
    storesHost eb fb rm a (BitVec.ofBool a.sgn ++ ((hostFields eb fb r.1).1 ++ (hostFields eb fb r.1).2)).toNat r.2 := by
  have hn : 0 < a.mag.num := F80.sig_pos ha ha0
  have hspecial := F80.isSpecial_of_isFinite ha
  rw [F80.isSpecial, Bool.or_eq_false_iff] at hspecial
  have hinf := F80.isInf_of_isFinite ha
  obtain ⟨hflags, hvalue⟩ := roundFmt_eq (fb + 1) (2 - 2 ^ (eb - 1)) (2 ^ (eb - 1) - 1) rm a.sgn hn one_pos
  have hfields := hostFields_roundFmt (fb := fb) heb rm a.sgn hn one_pos
  rw [← hr, F80.mag_value] at hflags hvalue
  rw [← hr, hvalue] at hfields
  obtain ⟨hnone, hsome⟩ := hfields
  obtain ⟨hexp, hfrac, hsign⟩ := host_fields_append a.sgn (hostFields eb fb r.1).1 (hostFields eb fb r.1).2
  unfold storesHost
  rw [hspecial.1, hspecial.2, hinf, ha0, abs_hostVal, hexp, hfrac, hsign]
  refine ⟨nofun, fun _ => rfl, nofun, nofun, nofun, fun _ _ => ⟨hflags, ?_⟩⟩
  split
  · next hx => exact hnone hx
  · next v hx => exact hsome v hx

end Sys2Proof
end

section
/-! SUPPORT. Conversions from and to host double precision (spec/41_float_engine.md R214, R215), and the round trip. -/

namespace Sys2Proof

open Sys2Proof.Machine

/-! ### Storing a double (R215) -/

/-- The conversion to a double is that of R215. -/
theorem f80ToF64_storesHost (rm : RMode) (a : F80) : storesHost 11 52 rm a (f80ToF64 rm a).1.toNat (f80ToF64 rm a).2 := by
  unfold f80ToF64
  split
  · next hu =>
    obtain ⟨hn, hi, hz, hf⟩ := F80.classes_of_isUnsupported hu
    unfold storesHost
    rw [hu, hn, hi, hz, hf]
    exact ⟨fun _ => ⟨rfl, rfl⟩, nofun, nofun, nofun, nofun, nofun⟩
  split
  · next hu hn =>
    obtain ⟨hu, hi, hz, hf⟩ := F80.classes_of_isNan hn
    obtain ⟨hexp, hfrac, hsign⟩ := host_fields_append a.sgn 0x7FF#11 (1#1 ++ a.extractLsb' 11 51 : BitVec 52)
    unfold storesHost
    rw [hu, hn, hi, hz, hf, F80.isQuiet_of_isNan hn]
    have hpayload := toNat_append_add 1#1 (a.extractLsb' 11 51)
    exact ⟨nofun, fun _ => hsign, fun _ => ⟨hexp, hfrac.trans hpayload, rfl⟩, nofun, nofun, nofun⟩
  split
  · next hi =>
    obtain ⟨hu, hn, hz, hf⟩ := F80.classes_of_isInf hi
    obtain ⟨hexp, hfrac, hsign⟩ := host_fields_append a.sgn 0x7FF#11 0#52
    unfold storesHost
    rw [hu, hn, hi, hz, hf]
    exact ⟨nofun, fun _ => hsign, nofun, fun _ => ⟨hexp, hfrac, rfl⟩, nofun, nofun⟩
  split
  · next hz =>
    obtain ⟨hu, hn, hi⟩ := F80.classes_of_isFinite (F80.isFinite_of_isZero hz)
    obtain ⟨hexp, hfrac, hsign⟩ := host_fields_append a.sgn 0#11 0#52
    unfold storesHost
    rw [hu, hn, hi, hz]
    exact ⟨nofun, fun _ => hsign, nofun, nofun, fun _ => ⟨hexp, hfrac, rfl⟩, fun _ => nofun⟩
  · next hu hn hi hz =>
    rw [Bool.not_eq_true] at hu hn hi hz
    have hspecial : a.isSpecial = false := by rw [F80.isSpecial, hu, hn]; rfl
    have hfin : a.isFinite = true := by rw [F80.isFinite_eq_not_isInf hspecial, hi]; rfl
    exact finite_storesHost (eb := 11) (fb := 52) (by decide) rm hfin hz rfl

/-! ### Loading a double (R214) -/

/-- A normal number's significand, from its fraction. -/
def normalSig64 (f : BitVec 52) : BitVec 64 := 1#1 ++ (f ++ 0#11)

/-- A NaN's significand, from its fraction. -/
def nanSig64 (f : BitVec 52) : BitVec 64 := 1#1 ++ (1#1 ++ (f.extractLsb' 0 51 ++ 0#11))

theorem normalSig64_toNat (f : BitVec 52) : (normalSig64 f).toNat = 2 ^ 63 + f.toNat * 2 ^ 11 := by
  have h := toNat_append_add (1#1) (f ++ 0#11)
  rw [toNat_append_add f 0#11] at h
  exact h.trans (by simp)

theorem nanSig64_toNat (f : BitVec 52) : (nanSig64 f).toNat = 2 ^ 63 + 2 ^ 62 + f.toNat % 2 ^ 51 * 2 ^ 11 := by
  have h := toNat_append_add (1#1) (1#1 ++ (f.extractLsb' 0 51 ++ 0#11))
  rw [toNat_append_add 1#1 (f.extractLsb' 0 51 ++ 0#11), toNat_append_add (f.extractLsb' 0 51) 0#11, BitVec.extractLsb'_toNat,
    Nat.shiftRight_zero] at h
  refine h.trans ?_
  simp only [BitVec.toNat_ofNat]
  omega

/-- A significand with its two upper bits set makes a quiet NaN, which carries the rest as its payload. -/
theorem F80.make_isQuiet (s : Bool) {g : BitVec 64} (hg : 2 ^ 63 + 2 ^ 62 ≤ g.toNat) :
    (F80.make s 0x7FFF#15 g).isQuiet = true ∧ ((F80.make s 0x7FFF#15 g).extractLsb' 0 62).toNat = g.toNat % 2 ^ 62 := by
  have hlt := g.isLt
  have hnan : (F80.make s 0x7FFF#15 g).isNan = true := by
    rw [F80.isNan_iff, F80.make_expo, F80.make_sig]
    exact ⟨rfl, by omega⟩
  constructor
  · rw [F80.isQuiet, hnan, Bool.true_and, F80.make_getLsbD, if_pos (by decide), BitVec.getLsbD, Nat.testBit_eq_decide_div_mod_eq,
      decide_eq_true_eq]
    omega
  · rw [F80.make_extract s _ _ (by decide), BitVec.extractLsb'_toNat, Nat.shiftRight_zero]

/-- A NaN assembled from a double's is quiet and carries its payload (R214). -/
theorem nan_f64 (s : Bool) (f : BitVec 52) : (F80.make s 0x7FFF#15 (nanSig64 f)).isQuiet = true ∧
    ((F80.make s 0x7FFF#15 (nanSig64 f)).extractLsb' 0 62).toNat = f.toNat % 2 ^ 51 * 2 ^ 11 := by
  have hsig := nanSig64_toNat f
  obtain ⟨hquiet, hpayload⟩ := F80.make_isQuiet s (g := nanSig64 f) (by omega)
  exact ⟨hquiet, hpayload.trans (by omega)⟩

/-- A subnormal double's magnitude is encoded as a normal number (R214). -/
theorem subnormal_f64 (s : Bool) {f : BitVec 52} (hf : f ≠ 0#52) :
    (F80.encFin s f.toNat (-1074)).isFinite = true ∧ (F80.encFin s f.toNat (-1074)).isDenormal = false ∧
      (F80.encFin s f.toNat (-1074)).sgn = s ∧ (F80.encFin s f.toNat (-1074)).val = signQ s * hostMag 11 52 0 f.toNat := by
  have hlt := f.isLt
  have h0 : f.toNat ≠ 0 := fun h => hf (BitVec.eq_of_toNat_eq h)
  have hlog : Nat.log2 f.toNat < 52 := (Nat.log2_lt h0).2 hlt
  have h64 : f.toNat < 2 ^ 64 := by omega
  obtain ⟨hfin, hden, hsgn⟩ := F80.encFin_isNormal (q := -1074) s h0 h64 (by omega) (by omega)
  exact ⟨hfin, hden, hsgn, F80.encFin_val_exact (q := -1074) s h64 (by omega) (by omega)⟩

/-- A normal double's fields, with the exponent biased anew (R214). -/
theorem normal_f64 (s : Bool) {e : BitVec 11} (f : BitVec 52) (he : e ≠ 0#11) :
    (F80.make s (BitVec.ofNat 15 (e.toNat + 15360)) (normalSig64 f)).isFinite = true ∧
      (F80.make s (BitVec.ofNat 15 (e.toNat + 15360)) (normalSig64 f)).isDenormal = false ∧
      (F80.make s (BitVec.ofNat 15 (e.toNat + 15360)) (normalSig64 f)).val = signQ s * hostMag 11 52 e.toNat f.toNat := by
  have hlt := e.isLt
  have h0 : e.toNat ≠ 0 := fun h => he (BitVec.eq_of_toNat_eq h)
  have hexp : (BitVec.ofNat 15 (e.toNat + 15360)).toNat = e.toNat + 15360 := by rw [BitVec.toNat_ofNat]; omega
  have hsig := normalSig64_toNat f
  have hunit : ((max (e.toNat + 15360) 1 : ℕ) - 16446 : ℤ) =
      ((max e.toNat 1 : ℕ) - (2 ^ (11 - 1) - 1) - (52 : ℕ) : ℤ) - (11 : ℕ) := by omega
  refine and_assoc.1 ⟨F80.make_isNormal (by omega) (by omega) (by omega), ?_⟩
  rw [F80.make_val, hexp, hsig, hostMag, if_neg h0, hunit, zpow_sub₀ two_ne_zero, zpow_natCast]
  push_cast
  field_simp
  ring

/-- The conversion from a double is that of R214. -/
theorem f80OfF64_loadsHost (w : BitVec 64) : loadsHost 11 52 w.toNat (f80OfF64 w).1 (f80OfF64 w).2 := by
  unfold loadsHost
  rw [hostVal_eq, hostExp_eq_extract, hostFrac_eq_extract, hostSign_eq_bit]
  unfold f80OfF64
  simp only
  generalize w.getLsbD (11 + 52) = s
  generalize w.extractLsb' 52 11 = e
  generalize w.extractLsb' 0 52 = f
  split
  · next hff =>
    subst hff
    split
    · next hf0 =>
      subst hf0
      exact ⟨F80.make_sgn .., fun _ _ => ⟨rfl, rfl⟩, fun _ h => absurd rfl h, fun h => absurd rfl h⟩
    · next hf0 =>
      have hfn : f.toNat ≠ 0 := fun h => hf0 (BitVec.eq_of_toNat_eq h)
      have hlt := f.isLt
      obtain ⟨hquiet, hpayload⟩ := nan_f64 s f
      have hbit : f.getLsbD 51 = true ↔ ¬ f.toNat < 2 ^ 51 := by
        rw [BitVec.getLsbD, Nat.testBit_eq_decide_div_mod_eq, decide_eq_true_eq]
        omega
      refine ⟨F80.make_sgn .., fun _ h => absurd h hfn, fun _ _ => ⟨hquiet, hpayload, ?_⟩, fun h => absurd rfl h⟩
      simp only [hbit, ite_not]
  · next hff =>
    have hen : e.toNat ≠ 2 ^ 11 - 1 := fun h => hff (BitVec.eq_of_toNat_eq h)
    split
    · next h0 =>
      subst h0
      split
      · next hf0 =>
        subst hf0
        have hz := F80.zero_isZero s
        refine ⟨F80.zero_sgn s, nofun, nofun, fun _ => ⟨F80.isFinite_of_isZero hz, F80.isDenormal_of_isZero hz, ?_, rfl⟩⟩
        rw [F80.zero_val]
        simp [hostMag]
      · next hf0 =>
        have hfn : f.toNat ≠ 0 := fun h => hf0 (BitVec.eq_of_toNat_eq h)
        obtain ⟨hfin, hden, hsgn, hval⟩ := subnormal_f64 s hf0
        exact ⟨hsgn, nofun, nofun, fun _ => ⟨hfin, hden, hval, (if_pos ⟨rfl, hfn⟩).symm⟩⟩
    · next h0 =>
      obtain ⟨hfin, hden, hval⟩ := normal_f64 s f h0
      exact ⟨F80.make_sgn .., fun h => absurd h hen, fun h => absurd h hen,
        fun _ => ⟨hfin, hden, hval, (if_neg fun h => h0 (BitVec.eq_of_toNat_eq h.1)).symm⟩⟩

/-! ### The round trip -/

/-- A double is its three fields. -/
theorem word64_eq_of_hostFields {v w : BitVec 64} (hs : hostSign 11 52 v.toNat = hostSign 11 52 w.toNat)
    (he : hostExp 11 52 v.toNat = hostExp 11 52 w.toNat) (hf : hostFrac 52 v.toNat = hostFrac 52 w.toNat) : v = w := by
  have hv := v.isLt
  have hw := w.isLt
  apply BitVec.eq_of_toNat_eq
  simp only [hostSign, hostExp, hostFrac, decide_eq_decide] at hs he hf
  omega

/-- A pattern that has the value of a finite double is stored as that double, whatever the mode. -/
theorem f80ToF64_of_val_eq (rm : RMode) {a : F80} {w : BitVec 64} (ha : a.isFinite = true) (hs : a.sgn = hostSign 11 52 w.toNat)
    (hw : hostExp 11 52 w.toNat ≠ 2047) (hval : a.val = hostVal 11 52 w.toNat) : f80ToF64 rm a = (w, 0) := by
  obtain ⟨-, hsign, -, -, hzero, hfinite⟩ := f80ToF64_storesHost rm a
  have hexp : hostExp 11 52 w.toNat < 2 ^ 11 := Nat.mod_lt _ (by decide)
  have hfrac : ∀ v : ℕ, hostFrac 52 v < 2 ^ 52 := fun v => Nat.mod_lt _ (by decide)
  have habs : |a.val| = hostMag 11 52 (hostExp 11 52 w.toNat) (hostFrac 52 w.toNat) := by rw [hval, abs_hostVal]
  have hstored : (f80ToF64 rm a).2 = 0 ∧ |hostVal 11 52 (f80ToF64 rm a).1.toNat| = |a.val| := by
    cases hz : a.isZero with
    | true =>
      obtain ⟨he, hf, hfl⟩ := hzero hz
      rw [abs_hostVal, he, hf, (F80.val_eq_zero_iff_isZero ha).2 hz]
      exact ⟨hfl, by simp [hostMag]⟩
    | false =>
      have h0 : |a.val| ≠ 0 := abs_ne_zero.2 fun h => Bool.false_ne_true (hz.symm.trans ((F80.val_eq_zero_iff_isZero ha).1 h))
      have hexact := roundQ_hostMag rm a.sgn (by decide) (show _ < 2 ^ 11 - 1 by omega) (hfrac w.toNat) (habs ▸ h0)
      rw [← habs] at hexact
      have hstores := hfinite ha hz
      simp only [hexact] at hstores
      exact ⟨hstores.1, hstores.2.2⟩
  obtain ⟨hfl, hv⟩ := hstored
  rw [habs, abs_hostVal] at hv
  obtain ⟨he, hf⟩ := hostMag_inj (hfrac _) (hfrac _) hv
  exact Prod.ext (word64_eq_of_hostFields ((hsign (F80.classes_of_isFinite ha).1).trans hs) he hf) hfl

theorem f80ToF64_of_isInf (rm : RMode) {w : BitVec 64} (he : hostExp 11 52 w.toNat = 2047) (hf : hostFrac 52 w.toNat = 0) :
    f80ToF64 rm (F80.inf (hostSign 11 52 w.toNat)) = (w, 0) := by
  obtain ⟨-, hsign, -, hinf, -, -⟩ := f80ToF64_storesHost rm (F80.inf (hostSign 11 52 w.toNat))
  have hi := F80.inf_isInf (hostSign 11 52 w.toNat)
  obtain ⟨he', hf', hfl⟩ := hinf hi
  exact Prod.ext (word64_eq_of_hostFields ((hsign (F80.classes_of_isInf hi).1).trans (F80.inf_sgn _)) (he'.trans he.symm)
    (hf'.trans hf.symm)) hfl

end Sys2Proof

namespace Sys2Proof.Machine

/-- Settles O20: a double is loaded as its value, and a value that is a double's is stored as that double. -/
theorem doubleConversions : Obligations.DoubleConversions := by
  intro s c w a
  have hload := f80OfF64_loadsHost w
  refine ⟨rfl, rfl, ⟨_, _, rfl, hload, fun hnan => ?_⟩, ⟨_, _, rfl, f80ToF64_storesHost _ a⟩⟩
  obtain ⟨hsign, hinf, -, hfinite⟩ := hload
  have hback : f80ToF64 (s.roundMode c) (f80OfF64 w).1 = (w, 0) := by
    by_cases he : hostExp 11 52 w.toNat = 2047
    · have hf : hostFrac 52 w.toNat = 0 := not_not.1 fun h => hnan ⟨he, h⟩
      rw [(hinf he hf).1]
      exact f80ToF64_of_isInf _ he hf
    · obtain ⟨hfin, -, hval, -⟩ := hfinite he
      exact f80ToF64_of_val_eq _ hfin hsign he hval
  have hexec : exec (.feToF64 c (f80OfF64 w).1) s = .next (s.ok (.u64Fl (f80ToF64 (s.roundMode c) (f80OfF64 w).1).1
    (f80ToF64 (s.roundMode c) (f80OfF64 w).1).2)) := rfl
  rw [hexec, hback]

end Sys2Proof.Machine
end

section
/-! SUPPORT. Classes, signs and comparison (spec/41_float_engine.md R222–R231): the classes by the bits of the pattern, and the order
of two operands by their ranks or by their values. -/

namespace Sys2Proof

open Sys2Proof.Machine

/-! ### Classes and signs by bits (R121, R230, R231) -/

section
variable (a : F80)

theorem F80.expo_eq_iff (e : BitVec 15) : a.expo = e.toNat ↔ a.extractLsb' 64 15 = e := BitVec.toNat_inj

theorem F80.sig_eq_iff (g : BitVec 64) : a.sig = g.toNat ↔ a.extractLsb' 0 64 = g := BitVec.toNat_inj

theorem F80.isNan_iff_bits : a.isNan = true ↔
    a.extractLsb' 64 15 = 0x7FFF#15 ∧ a.getLsbD 63 = true ∧ a.extractLsb' 0 63 ≠ 0#63 := by
  rw [← a.expo_eq_iff]
  simp [F80.isNan, F80.intBit, and_assoc]

theorem F80.isInf_iff_bits : a.isInf = true ↔
    a.extractLsb' 64 15 = 0x7FFF#15 ∧ a.extractLsb' 0 64 = 0x8000000000000000#64 := by
  rw [← a.expo_eq_iff, ← a.sig_eq_iff]
  simp [F80.isInf]

theorem F80.isDenormal_iff_bits : a.isDenormal = true ↔ a.extractLsb' 64 15 = 0#15 ∧ a.extractLsb' 0 64 ≠ 0#64 := by
  rw [← a.expo_eq_iff, ne_eq, ← a.sig_eq_iff]
  exact a.isDenormal_iff

theorem F80.isZero_iff_bits : a.isZero = true ↔ a.extractLsb' 0 79 = 0#79 := by
  have hfields : (a.extractLsb' 0 79).toNat = a.expo * 2 ^ 64 + a.sig := by
    simp only [F80.expo, F80.sig, BitVec.extractLsb'_toNat, Nat.shiftRight_eq_div_pow]
    omega
  rw [a.isZero_iff, ← BitVec.toNat_inj, hfields, BitVec.toNat_ofNat]
  omega

theorem F80.isSupported_iff_bits : (!a.isUnsupported) = true ↔ ¬ (a.extractLsb' 64 15 ≠ 0#15 ∧ a.getLsbD 63 = false) := by
  rw [ne_eq, ← a.expo_eq_iff, Bool.not_eq_true', ← Bool.not_eq_true]
  simp [F80.isUnsupported, F80.intBit]

theorem f80Abs_getLsbD {k : Nat} (hk : k < 80) : (f80Abs a).getLsbD k = (a.getLsbD k && decide (k ≠ 79)) := by
  rw [f80Abs, BitVec.getLsbD_and, BitVec.getLsbD_not, BitVec.getLsbD_twoPow]
  simp [hk, eq_comm]

end

/-! ### Order (R227) -/

theorem orderOf_of_lt {x y : ℤ} (h : x < y) : orderOf x y = .lt := if_pos h

theorem orderOf_of_eq {x y : ℤ} (h : x = y) : orderOf x y = .eq := (if_neg (by omega)).trans (if_pos h)

theorem orderOf_of_gt {x y : ℤ} (h : y < x) : orderOf x y = .gt := (if_neg (by omega)).trans (if_neg (by omega))

/-- The integer by which a comparison orders `a` against `b`: its rank, or its number of common units. -/
def compareKey (a b : F80) (v : F80) : ℤ := if a.isInf || b.isInf then v.infRank else v.inUnits (commonUnit a b)

section
variable {a b : F80}

theorem f80Cmp_of_not_special (ha : a.isSpecial = false) (hb : b.isSpecial = false) :
    f80Cmp a b = (orderOf (compareKey a b a) (compareKey a b b), denormalFlag [a, b]) := by
  rw [F80.isSpecial, Bool.or_eq_false_iff] at ha hb
  have hflag : denormalFlag [a, b] = if a.isDenormal || b.isDenormal then flagD else 0 := by simp [denormalFlag]
  unfold f80Cmp compareKey
  rw [ha.1, ha.2, hb.1, hb.2, if_neg (by decide), hflag]
  cases a.isInf || b.isInf <;> rfl

theorem f80Cmp_of_special (h : a.isSpecial = true ∨ b.isSpecial = true) : f80Cmp a b = (.unordered,
    if a.isUnsupported || b.isUnsupported || a.isSignalling || b.isSignalling then flagI else 0) := by
  unfold f80Cmp
  refine if_pos ?_
  simp only [F80.isSpecial, Bool.or_eq_true] at h ⊢
  tauto

theorem lessThan_iff_key : a.lessThan b ↔ compareKey a b a < compareKey a b b := by
  unfold F80.lessThan compareKey
  split
  · rfl
  · rw [← a.inUnits_mul_unit (commonUnit_le_left a b), ← b.inUnits_mul_unit (commonUnit_le_right a b),
      mul_lt_mul_iff_left₀ (zpow_two_pos _), Int.cast_lt]

theorem sameValue_iff_key : a.sameValue b ↔ compareKey a b a = compareKey a b b := by
  unfold F80.sameValue compareKey
  split
  · rfl
  · rw [← a.inUnits_mul_unit (commonUnit_le_left a b), ← b.inUnits_mul_unit (commonUnit_le_right a b),
      mul_left_inj' (zpow_two_pos _).ne', Int.cast_inj]

theorem compareKey_comm (a b v : F80) : compareKey a b v = compareKey b a v := by
  unfold compareKey commonUnit
  rw [Bool.or_comm, min_comm]

theorem greaterThan_iff_key : b.lessThan a ↔ compareKey a b b < compareKey a b a := by
  rw [lessThan_iff_key, compareKey_comm b a b, compareKey_comm b a a]

end

end Sys2Proof

namespace Sys2Proof.Machine

/-- Settles O21: each class by its bits, and the two sign commands bit by bit. -/
theorem classesAndSigns : Obligations.ClassesAndSigns := by
  intro s a
  refine ⟨⟨rfl, _, rfl, a.isNan_iff_bits⟩, ⟨rfl, _, rfl, a.isInf_iff_bits⟩, ⟨rfl, _, rfl, a.isZero_iff_bits⟩,
    ⟨rfl, _, rfl, a.isDenormal_iff_bits⟩, ⟨rfl, _, rfl, a.isSupported_iff_bits⟩, ⟨rfl, _, rfl, f80Neg_sgn a, fun k hk => ?_⟩,
    ⟨rfl, _, rfl, ?_, fun k hk => ?_⟩⟩
  · rw [f80Neg_getLsbD a (by omega), decide_eq_false (by omega), Bool.xor_false]
  · rw [f80Abs_getLsbD a (by decide)]
    simp
  · rw [f80Abs_getLsbD a (by omega), decide_eq_true (by omega), Bool.and_true]

/-- Settles O22: the three commands answer the order of the operands' keys, which is that of their values. -/
theorem floatComparison : Obligations.FloatComparison := by
  intro s a b
  refine ⟨rfl, rfl, rfl, _, _, _, _, rfl, rfl, rfl, fun h => ?_, fun ha hb => ?_⟩
  · rw [f80Cmp_of_special h]
    exact ⟨rfl, rfl, rfl, rfl⟩
  · rw [f80Cmp_of_not_special ha hb]
    refine ⟨rfl, fun h => ?_, fun h => ?_, fun h => ?_⟩
    · rw [orderOf_of_lt (lessThan_iff_key.1 h)]
      exact ⟨rfl, rfl, rfl⟩
    · rw [orderOf_of_eq (sameValue_iff_key.1 h)]
      exact ⟨rfl, rfl, rfl⟩
    · rw [orderOf_of_gt (greaterThan_iff_key.1 h)]
      exact ⟨rfl, rfl, rfl⟩

end Sys2Proof.Machine
end

section
/-! SUPPORT. The base-2 logarithm (spec/41_float_engine.md R232): which operands are powers of two, and the rows of the rule. -/

namespace Sys2Proof

open Sys2Proof.Machine

/-- A positive value is a power of two where its significand is one, and the exponent is then that of its highest bit. -/
theorem F80.val_eq_zpow_iff {a : F80} (hs : a.sgn = false) (h0 : 0 < a.sig) (k : ℤ) :
    a.val = 2 ^ k ↔ a.sig = 1 <<< Nat.log2 a.sig ∧ k = a.unitExp + Nat.log2 a.sig := by
  have hval : a.val = a.sig * 2 ^ a.unitExp := by
    rw [a.val_eq, hs]
    simp [signQ]
  rw [hval, Nat.one_shiftLeft]
  constructor
  · intro h
    have hk : k = a.unitExp + Nat.log2 a.sig := by
      rw [← int_log_units h0.ne', h]
      exact_mod_cast (Int.log_zpow (R := ℚ) one_lt_two k).symm
    refine ⟨?_, hk⟩
    rw [hk, zpow_add₀ two_ne_zero, mul_comm, mul_right_inj' (zpow_two_pos _).ne', zpow_natCast] at h
    exact_mod_cast h
  · rintro ⟨hsig, rfl⟩
    rw [zpow_add₀ two_ne_zero, zpow_natCast, mul_comm]
    congr 1
    exact_mod_cast hsig

section
variable (nan : F80) (rm : BitVec 2) {a : F80}

theorem f80Log2_of_isZero (hz : a.isZero = true) : f80Log2 nan rm a = (F80.inf true, flagZ) := by
  rw [f80Log2, screen_one nan (F80.isSpecial_of_isFinite (F80.isFinite_of_isZero hz)),
    denormalFlag_of_not_denormal (F80.isDenormal_of_isZero hz)]
  simp [hz]

theorem f80Log2_of_negative (ha : a.isSpecial = false) (hz : a.isZero = false) (hs : a.sgn = true) :
    f80Log2 nan rm a = (F80.dnan, flagI) := by
  rw [f80Log2, screen_one nan ha]
  simp [hz, hs]

theorem f80Log2_of_isInf (ha : a.isSpecial = false) (hi : a.isInf = true) (hs : a.sgn = false) :
    f80Log2 nan rm a = (F80.inf false, 0) := by
  rw [f80Log2, screen_one nan ha, denormalFlag_of_not_denormal (F80.isDenormal_of_isInf hi)]
  simp [(F80.classes_of_isInf hi).2.2.1, hi, hs]

/-- Of a positive finite operand, the exponent where it is a power of two, and the open parameter elsewhere. -/
theorem f80Log2_of_positive (ha : a.isFinite = true) (hz : a.isZero = false) (hs : a.sgn = false) : f80Log2 nan rm a =
    if a.sig = 1 <<< Nat.log2 a.sig then (f80OfInt (a.unitExp + Nat.log2 a.sig), denormalFlag [a])
    else ((Config.feLog2 a rm).1, denormalFlag [a] ||| (Config.feLog2 a rm).2) := by
  rw [f80Log2, screen_one nan (F80.isSpecial_of_isFinite ha)]
  simp [hz, hs, F80.isInf_of_isFinite ha]

end

end Sys2Proof

namespace Sys2Proof.Machine

/-- Settles O28: the rows one by one; the exponent of a power of two is an integer that is converted exactly. -/
theorem logarithmRows : Obligations.LogarithmRows := by
  intro s c a ha
  refine ⟨_, _, _, rfl, screened_sameButDraws .., rfl, fun hz => Prod.ext_iff.1 (f80Log2_of_isZero _ _ hz),
    fun hz hs => Prod.ext_iff.1 (f80Log2_of_negative _ _ ha hz hs), fun hi hs => Prod.ext_iff.1 (f80Log2_of_isInf _ _ ha hi hs),
    fun hfin hz hs => ?positive⟩
  have hrow := f80Log2_of_positive s.drawNan.1 (s.rm c) hfin hz hs
  have hsig := F80.sig_pos hfin hz
  refine ⟨fun k hk => ?power, fun hk => ?other⟩
  case power =>
    obtain ⟨hpow, hexp⟩ := (F80.val_eq_zpow_iff hs hsig k).1 hk
    have hlog : Nat.log2 a.sig < 64 := (Nat.log2_lt hsig.ne').2 a.sig_lt
    have hlow := a.unitExp_ge
    have hhigh := F80.unitExp_le hfin
    have hfits : k.natAbs < 2 ^ 64 := by omega
    rw [if_pos hpow, ← hexp] at hrow
    simp only [hrow]
    exact ⟨f80OfInt_val hfits, trivial, fun h0 => by rw [h0]; rfl, fun h0 => f80OfInt_isNormal h0 hfits⟩
  case other =>
    have hpow : ¬ a.sig = 1 <<< Nat.log2 a.sig := fun h => hk _ ((F80.val_eq_zpow_iff hs hsig _).2 ⟨h, rfl⟩)
    exact Prod.ext_iff.1 (hrow.trans (if_neg hpow))

end Sys2Proof.Machine
end

section
/-! SUPPORT. The rounding mode, the control word and the status word (spec/41_float_engine.md R210, R211; spec/42_fpu_stack.md
R297–R299). -/

namespace Sys2Proof.Machine

/-- `f` with another control word, and the summary bit of its status word recomputed (R297). -/
def Fpu.withControl (f : Fpu) (v : BitVec 16) : Fpu := ({ f with cw := v } : Fpu).withSummary

theorem Fpu.withControl_summary (f : Fpu) (v : BitVec 16) :
    (f.withControl v).sw.getLsbD 7 = (f.excFlags &&& ~~~(v.extractLsb' 0 6) != 0#6) :=
  (Fpu.withSummary_sw _ 7 (by decide)).trans (if_pos rfl)

theorem Fpu.withControl_sw_of_ne (f : Fpu) (v : BitVec 16) {k : Nat} (hk : k ≠ 7) :
    (f.withControl v).sw.getLsbD k = f.sw.getLsbD k := by
  by_cases h16 : k < 16
  · exact (Fpu.withSummary_sw _ k h16).trans (if_neg hk)
  · rw [BitVec.getLsbD_of_ge _ _ (by omega), BitVec.getLsbD_of_ge _ _ (by omega)]

theorem exec_fpuLdCw (s : State) (c : BitVec 32) (v : BitVec 16) : exec (.fpuLdCw c v) s =
    .next (((s.setFpu c ((s.fpu c).withControl v)).setRm c (v.extractLsb' 10 2)).ok .none) := rfl

/-- Settles O36: each command's writes are read back field by field. -/
theorem modeControlAndStatus : Obligations.ModeControlAndStatus := by
  refine ⟨⟨rfl, rfl, rfl, rfl⟩, fun s c v m => ⟨rfl, rfl, ?setRm, rfl, rfl, rfl, rfl, ?ldCw, rfl, rfl⟩⟩
  case setRm =>
    have hframe : sameOutside c s ((s.setRm c m).ok .none) :=
      ⟨rfl, rfl, rfl, rfl, rfl, fun _ hd => s.setRm_ctx_other m hd⟩
    exact ⟨_, rfl, rfl, s.setRm_rm_same c m, hframe, rfl, s.setRm_cpu_same c m, s.setRm_fpu_same c m, s.setRm_tlb_same c m,
      s.setRm_transfer_same c m⟩
  case ldCw =>
    have hframe : sameOutside c s (((s.setFpu c ((s.fpu c).withControl v)).setRm c (v.extractLsb' 10 2)).ok .none) :=
      ⟨rfl, rfl, rfl, rfl, rfl, fun _ hd => (State.setRm_ctx_other _ _ hd).trans (State.setFpu_ctx_other _ _ hd)⟩
    have hfpu := (State.setRm_fpu_same _ c (v.extractLsb' 10 2)).trans (s.setFpu_fpu_same c ((s.fpu c).withControl v))
    refine ⟨_, exec_fpuLdCw s c v, rfl, hframe, rfl, (State.setRm_cpu_same ..).trans (State.setFpu_cpu_same ..),
      (State.setRm_tlb_same ..).trans (State.setFpu_tlb_same ..),
      (State.setRm_transfer_same ..).trans (State.setFpu_transfer_same ..), congrArg Fpu.cw hfpu, State.setRm_rm_same ..,
      (congrArg Fpu.fpr hfpu :), (congrArg Fpu.tag hfpu :), ?summary, fun k hk => ?otherBits⟩
    case summary => exact (congrArg (fun f => f.sw.getLsbD 7) hfpu).trans (Fpu.withControl_summary _ v)
    case otherBits => exact (congrArg (fun f => f.sw.getLsbD k) hfpu).trans (Fpu.withControl_sw_of_ne _ v hk)

end Sys2Proof.Machine
end

section
/-! SUPPORT. How a command that reads stack slots ends (spec/10_state.md R33–R35; spec/42_fpu_stack.md R261, R262, R283): the
slots read, and what the writeback does to the FPU whose flags are added. -/

namespace Sys2Proof.Machine

/-! ### Reading slots (R262) -/

theorem Fpu.Faulted.top {f g : Fpu} {fault : Option Bool} (h : f.Faulted g fault) : g.top = f.top :=
  top_eq_of_sw fun k h1 h2 => by rw [h.bits k (by omega), if_neg (by omega), if_neg (by omega)]

theorem Fpu.emptyFlag_append (f : Fpu) (xs ys : List (BitVec 3)) :
    f.emptyFlag (xs ++ ys) = f.emptyFlag xs ||| f.emptyFlag ys := by
  unfold Fpu.emptyFlag
  rw [List.all_append]
  cases xs.all f.valid <;> cases ys.all f.valid <;> rfl

/-- Reading one slot more: the value and the flag are those of the FPU before any read, and the underflow is that of all the
slots read. -/
theorem Fpu.Faulted.rd {f g : Fpu} {slots : List (BitVec 3)} (h : f.Faulted g (f.underflow slots)) (i : BitVec 3) :
    (g.rd i).value = f.slotValue i ∧ (g.rd i).flags = f.emptyFlag [i] ∧
      f.Faulted (g.rd i).fpu (f.underflow (slots ++ [i])) := by
  obtain ⟨hst, hvalid⟩ := slot_congr h.fpr h.tag h.top i
  rw [Fpu.rd_eq, hvalid, hst]
  cases hv : f.valid i with
  | true =>
    have hall : f.underflow (slots ++ [i]) = f.underflow slots := by simp [Fpu.underflow, hv]
    rw [hall]
    exact ⟨by simp [Fpu.slotValue, hv], by simp [Fpu.emptyFlag, hv], h⟩
  | false =>
    have hall : f.underflow (slots ++ [i]) = some false := by simp [Fpu.underflow, hv]
    rw [hall]
    exact ⟨by simp [Fpu.slotValue, hv], by simp [Fpu.emptyFlag, hv], h.stackFault false⟩

theorem Fpu.rd_pair (f : Fpu) (i j : BitVec 3) :
    (f.rd i).value = f.slotValue i ∧ ((f.rd i).fpu.rd j).value = f.slotValue j ∧
      (f.rd i).flags ||| ((f.rd i).fpu.rd j).flags = f.emptyFlag [i, j] ∧
      f.Faulted ((f.rd i).fpu.rd j).fpu (f.underflow [i, j]) := by
  obtain ⟨hvalue, hflags, hmarks⟩ := f.rd_faulted i
  obtain ⟨hvalue', hflags', hmarks'⟩ := hmarks.rd j
  exact ⟨hvalue, hvalue', by rw [hflags, hflags', ← Fpu.emptyFlag_append]; rfl, hmarks'⟩

/-! ### Writing back (R261) -/

/-- Of the status word `g` differs from `f` in `TOP` only, and not in the control word. -/
structure Fpu.StatusKept (f g : Fpu) : Prop where
  cw : g.cw = f.cw
  bits : ∀ k, k < 16 → ¬ (11 ≤ k ∧ k < 14) → g.sw.getLsbD k = f.sw.getLsbD k

theorem Fpu.setSt_statusKept (f : Fpu) (i : BitVec 3) (v : F80) (valid : Bool) : f.StatusKept (f.setSt i v valid) :=
  ⟨rfl, fun _ _ _ => rfl⟩

theorem Fpu.free_setTop_statusKept (f : Fpu) (i t : BitVec 3) : f.StatusKept ((f.free i).setTop t) :=
  ⟨rfl, fun k hk hn => (Fpu.setTop_sw _ t k hk).trans (if_neg hn)⟩

theorem Fpu.slotWritten_setSt {f g : Fpu} (h : f.regsKept g) (i : BitVec 3) (v : F80) : f.slotWritten (g.setSt i v true) i v := by
  obtain ⟨hfpr, htag, htop⟩ := h
  have hslot := g.setSt_slot i v true
  refine ⟨htop, (hslot i).1.trans (if_pos rfl), (hslot i).2.trans (if_pos rfl), fun j hj => ?_⟩
  obtain ⟨hst, hvalid⟩ := slot_congr hfpr htag htop j
  exact ⟨(hslot j).1.trans ((if_neg hj).trans hst), (hslot j).2.trans ((if_neg hj).trans hvalid)⟩

/-- How a command ends whose operation found the FPU `g` and finishes with a writeback `w` that keeps the status word. -/
theorem finish_ends {s : State} {c : BitVec 32} {g : Fpu} {fault : Option Bool} {w : Fpu → Fpu} {writeback : Fpu → Fpu → Prop}
    (h : (s.fpu c).Faulted g fault) (fl : Flags6) (results : Results) (hw : ∀ x : Fpu, x.StatusKept (w x))
    (hdone : ∀ x, (s.fpu c).regsKept x → (s.fpu c).codesKept (w x) → writeback (s.fpu c) (w x)) :
    fpuEnds c s (s.fpuDone c (g.finish fl w) results) fl fault results writeback := by
  obtain ⟨hmarks, hregs, hcodes⟩ := h.addFlags fl
  have hany : g.anyUnmasked fl = (s.fpu c).anyUnmasked fl := Fpu.anyUnmasked_congr h.cw fl
  cases hu : (s.fpu c).anyUnmasked fl with
  | true =>
    rw [Fpu.finish_raises w (hany.trans hu)]
    exact fpuDone_ends results hu.symm hmarks (fun _ => ⟨hregs, hcodes⟩) nofun
  | false =>
    rw [Fpu.finish_completes w (hany.trans hu)]
    obtain ⟨hcw, hbits⟩ := hw (g.addFlags fl)
    obtain ⟨h8, h10, h14⟩ := hcodes
    refine fpuDone_ends results hu.symm (Fpu.marked_of_bits hmarks hcw fun k hk => hbits k (by omega) (by omega)) nofun
      fun _ => hdone _ hregs ⟨?_, ?_, ?_⟩
    · exact (hbits 8 (by omega) (by omega)).trans h8
    · exact (hbits 10 (by omega) (by omega)).trans h10
    · exact (hbits 14 (by omega) (by omega)).trans h14

end Sys2Proof.Machine
end

section
/-! SUPPORT. Stack movement and the raw commands (spec/42_fpu_stack.md R264, R266–R269). -/

namespace Sys2Proof.Machine

/-- The FPU after `FPU.INIT` (R264): every slot empty, the words at their initial values, the registers as they were. -/
def Fpu.initialized (f : Fpu) : Fpu := { f with tag := Vector.replicate 8 false, sw := 0x0000#16, cw := 0x037F#16 }

theorem exec_fpuInit (s : State) (c : BitVec 32) :
    exec (.fpuInit c) s = .next (((s.setFpu c (s.fpu c).initialized).setRm c 0#2).ok .none) := rfl

theorem Fpu.initialized_valid (f : Fpu) (j : BitVec 3) : f.initialized.valid j = false := Vector.getElem_replicate _

/-- What `FPU.POP` writes back (R267): the old slots move one nearer to the top, and the old `ST(0)` is empty. -/
theorem Fpu.popped_slots {f g : Fpu} (h : f.regsKept g) :
    let p := (g.free 0#3).setTop (g.top + 1#3)
    p.top = f.top + 1#3 ∧ p.valid 7#3 = false ∧ p.fpr = f.fpr ∧
      ∀ j : BitVec 3, j ≠ 0#3 → p.valid (j - 1#3) = f.valid j := by
  obtain ⟨hfpr, htag, htop⟩ := h
  have hmoved : ∀ j : BitVec 3, ((g.free 0#3).setTop (g.top + 1#3)).valid (j - 1#3) = if j = 0#3 then false else f.valid j := by
    intro j
    have hindex : g.top + 1#3 + (j - 1#3) - (g.free 0#3).top = j := by
      rw [Fpu.free_top]
      bv_omega
    rw [(Fpu.setTop_slot _ _ _).2, hindex, (g.free_slot 0#3 j).2, (slot_congr hfpr htag htop j).2]
  exact ⟨by rw [Fpu.setTop_top, htop], hmoved 0#3, hfpr, fun j hj => (hmoved j).trans (if_neg hj)⟩

/-- `FPU.ST` (R266). -/
theorem fpuSt_ends (s : State) (c : BitVec 32) (i : BitVec 3) :
    fpuEnds c s (s.fpuDone c ((s.fpu c).move i) .none) ((s.fpu c).emptyFlag [0#3]) ((s.fpu c).underflow [0#3]) .none
      fun f g => f.codesKept g ∧ f.slotWritten g i (f.slotValue 0#3) := by
  obtain ⟨hvalue, hflags, hmarks⟩ := (s.fpu c).rd_faulted 0#3
  rw [← hflags]
  exact finish_ends hmarks _ .none (fun x => x.setSt_statusKept ..) fun x hregs hcodes =>
    ⟨hcodes, hvalue ▸ Fpu.slotWritten_setSt hregs i _⟩

/-- `FPU.POP` (R267). -/
theorem fpuPop_ends (s : State) (c : BitVec 32) :
    fpuEnds c s (s.fpuDone c (s.fpu c).pop .none) ((s.fpu c).emptyFlag [0#3]) ((s.fpu c).underflow [0#3]) .none
      fun f g => f.codesKept g ∧ g.top = f.top + 1#3 ∧ g.valid 7#3 = false ∧ g.fpr = f.fpr ∧
        ∀ j : BitVec 3, j ≠ 0#3 → g.valid (j - 1#3) = f.valid j := by
  obtain ⟨-, hflags, hmarks⟩ := (s.fpu c).rd_faulted 0#3
  rw [← hflags]
  exact finish_ends hmarks _ .none (fun x => x.free_setTop_statusKept ..) fun x hregs hcodes =>
    ⟨hcodes, Fpu.popped_slots hregs⟩

/-- Settles O31: `FPU.ST` and `FPU.POP` end as a read of `ST(0)` does; the others write or read the FPU as it is. -/
theorem stackMovement : Obligations.StackMovement := by
  intro s c i v valid
  refine ⟨?init, ⟨_, rfl, State.fpuDone_draws .., fpuSt_ends s c i⟩, ⟨_, rfl, State.fpuDone_draws .., fpuPop_ends s c⟩, rfl,
    ?setSt⟩
  case init =>
    have hframe : sameOutside c s (((s.setFpu c (s.fpu c).initialized).setRm c 0#2).ok .none) :=
      ⟨rfl, rfl, rfl, rfl, rfl, fun _ hd => (State.setRm_ctx_other _ _ hd).trans (State.setFpu_ctx_other _ _ hd)⟩
    have hfpu := (State.setRm_fpu_same _ c 0#2).trans (s.setFpu_fpu_same c (s.fpu c).initialized)
    exact ⟨_, exec_fpuInit s c, rfl, hframe, rfl, (State.setRm_cpu_same ..).trans (State.setFpu_cpu_same ..),
      (State.setRm_tlb_same ..).trans (State.setFpu_tlb_same ..),
      (State.setRm_transfer_same ..).trans (State.setFpu_transfer_same ..), State.setRm_rm_same .., congrArg Fpu.cw hfpu,
      congrArg Fpu.sw hfpu, (congrArg Fpu.fpr hfpu :),
      fun j => (congrArg (Fpu.valid · j) hfpu).trans ((s.fpu c).initialized_valid j)⟩
  case setSt =>
    have hframe : sameButFpu c s ((s.setFpu c ((s.fpu c).setSt i v valid)).ok .none) :=
      ⟨⟨rfl, rfl, rfl, rfl, rfl, fun _ hd => State.setFpu_ctx_other _ _ hd⟩, State.setFpu_cpu_same .., State.setFpu_rm_same ..,
        State.setFpu_tlb_same .., State.setFpu_transfer_same ..⟩
    have hfpu : ((s.setFpu c ((s.fpu c).setSt i v valid)).ok .none).fpu c = (s.fpu c).setSt i v valid := State.setFpu_fpu_same ..
    have hslot := (s.fpu c).setSt_slot i v valid
    refine ⟨_, rfl, rfl, hframe, rfl, ?_⟩
    rw [hfpu]
    exact ⟨rfl, rfl, (hslot i).1.trans (if_pos rfl), (hslot i).2.trans (if_pos rfl),
      fun j hj => ⟨(hslot j).1.trans (if_neg hj), (hslot j).2.trans (if_neg hj)⟩⟩

end Sys2Proof.Machine
end

section
/-! SUPPORT. The store conversions (spec/30_encoding.md R122; spec/41_float_engine.md R208, R213, R215; spec/42_fpu_stack.md
R277–R282): each class of an operand in a host format of any width, and how a store ends. -/

namespace Sys2Proof

open Sys2Proof.Machine

/-! ### The rows of R215, in every host format -/

section
variable {eb k : ℕ} (rm : RMode) {a : F80} {e : BitVec eb}

theorem unsupported_storesHost {fb w : ℕ} (ha : a.isUnsupported = true) (hw : w = 2 ^ (eb + fb + 1) - 2 ^ (fb - 1)) :
    storesHost eb fb rm a w flagI := by
  obtain ⟨hn, hi, hz, hf⟩ := F80.classes_of_isUnsupported ha
  unfold storesHost
  rw [ha, hn, hi, hz, hf]
  exact ⟨fun _ => ⟨hw, rfl⟩, nofun, nofun, nofun, nofun, nofun⟩

/-- A NaN becomes the quiet NaN with the upper bits of its payload. -/
theorem nan_storesHost (ha : a.isNan = true) (he : e.toNat = 2 ^ eb - 1) :
    storesHost eb (1 + k) rm a (BitVec.ofBool a.sgn ++ (e ++ (1#1 ++ a.extractLsb' (63 - (1 + k)) k))).toNat
      (if a.getLsbD 62 then 0 else flagI) := by
  obtain ⟨hu, hi, hz, hf⟩ := F80.classes_of_isNan ha
  obtain ⟨hexp, hfrac, hsign⟩ := host_fields_append a.sgn e (1#1 ++ a.extractLsb' (63 - (1 + k)) k)
  have hpayload := toNat_append_add 1#1 (a.extractLsb' (63 - (1 + k)) k)
  unfold storesHost
  rw [hu, ha, hi, hz, hf, F80.isQuiet_of_isNan ha, Nat.add_sub_cancel_left]
  exact ⟨nofun, fun _ => hsign, fun _ => ⟨hexp.trans he, hfrac.trans (hpayload.trans (by simp)), rfl⟩, nofun, nofun, nofun⟩

theorem inf_storesHost (ha : a.isInf = true) (he : e.toNat = 2 ^ eb - 1) :
    storesHost eb k rm a (BitVec.ofBool a.sgn ++ (e ++ 0#k)).toNat 0 := by
  obtain ⟨hu, hn, hz, hf⟩ := F80.classes_of_isInf ha
  obtain ⟨hexp, hfrac, hsign⟩ := host_fields_append a.sgn e 0#k
  unfold storesHost
  rw [hu, hn, ha, hz, hf]
  exact ⟨nofun, fun _ => hsign, nofun, fun _ => ⟨hexp.trans he, hfrac.trans (by simp), rfl⟩, nofun, nofun⟩

theorem zero_storesHost (ha : a.isZero = true) :
    storesHost eb k rm a (BitVec.ofBool a.sgn ++ (0#eb ++ 0#k)).toNat 0 := by
  obtain ⟨hu, hn, hi⟩ := F80.classes_of_isFinite (F80.isFinite_of_isZero ha)
  obtain ⟨hexp, hfrac, hsign⟩ := host_fields_append a.sgn 0#eb 0#k
  unfold storesHost
  rw [hu, hn, hi, ha]
  exact ⟨nofun, fun _ => hsign, nofun, nofun, fun _ => ⟨hexp.trans (by simp), hfrac.trans (by simp), rfl⟩, fun _ => nofun⟩

end

/-- The conversion to a single is that of R208. -/
theorem f80ToF32_storesHost (rm : RMode) (a : F80) : storesHost 8 23 rm a (f80ToF32 rm a).1.toNat (f80ToF32 rm a).2 := by
  unfold f80ToF32
  split
  · next hu => exact unsupported_storesHost rm hu rfl
  split
  · next hn => exact nan_storesHost (eb := 8) (k := 22) rm hn rfl
  split
  · next hi => exact inf_storesHost (eb := 8) (k := 23) rm hi rfl
  split
  · next hz => exact zero_storesHost (eb := 8) (k := 23) rm hz
  · next hu hn hi hz =>
    rw [Bool.not_eq_true] at hu hn hi hz
    have hspecial : a.isSpecial = false := by rw [F80.isSpecial, hu, hn]; rfl
    have hfin : a.isFinite = true := by rw [F80.isFinite_eq_not_isInf hspecial, hi]; rfl
    exact finite_storesHost (eb := 8) (fb := 23) (by decide) rm hfin hz rfl

/-- What a store of an integer delivers reads back as the converted integer. -/
theorem toInt_ofInt_f80ToInt {n : ℕ} (hn : 0 < n) (rm : RMode) (a : F80) :
    (BitVec.ofInt n (f80ToInt n rm a).1).toInt = (f80ToInt n rm a).1 := by
  rw [f80ToInt_eq_toIntQ]
  obtain ⟨hlo, hhi⟩ := toIntQ_bounds n rm a
  exact BitVec.toInt_ofInt_eq_self hn hlo hhi

end Sys2Proof

namespace Sys2Proof.Machine

/-- How a store ends whose conversion gives `fl` and delivers `results` of the value of `ST(0)`. -/
theorem store_ends (s : State) (c : BitVec 32) (fl : F80 → Flags6) (results : F80 → Results) :
    fpuEnds c s (s.fpuDone c ((s.fpu c).store fl) (results ((s.fpu c).rd 0#3).value))
      (fl ((s.fpu c).slotValue 0#3) ||| (s.fpu c).emptyFlag [0#3]) ((s.fpu c).underflow [0#3])
      (results ((s.fpu c).slotValue 0#3)) fun f g => f.regsKept g ∧ f.codesKept g := by
  obtain ⟨hvalue, hflags, hmarks⟩ := (s.fpu c).rd_faulted 0#3
  rw [← hvalue, ← hflags]
  exact finish_ends hmarks _ _ (fun x => ⟨rfl, fun _ _ _ => rfl⟩) fun x hregs hcodes => ⟨hregs, hcodes⟩

/-- Settles O32: every store ends as `store_ends` says, and its conversion is the spec's. -/
theorem storeConversions : Obligations.StoreConversions := by
  intro s c a ends
  simp only [← f80ToInt_eq_toIntQ]
  have ended : ∀ (fl : F80 → Flags6) (results : F80 → Results),
      ends (s.fpuDone c ((s.fpu c).store fl) (results ((s.fpu c).rd 0#3).value)) (fl a) (results a) := fun fl results =>
    ⟨State.fpuDone_draws .., store_ends s c fl results⟩
  have integer : ∀ n, 0 < n → (BitVec.ofInt n (f80ToInt n (s.roundMode c) a).1).toInt = (f80ToInt n (s.roundMode c) a).1 :=
    fun n hn => toInt_ofInt_f80ToInt hn _ a
  exact ⟨⟨_, _, rfl, integer 16 (by decide), ended _ fun v => .u16 (BitVec.ofInt 16 (f80ToInt 16 (s.roundMode c) v).1)⟩,
    ⟨_, _, rfl, integer 32 (by decide), ended _ fun v => .u32 (BitVec.ofInt 32 (f80ToInt 32 (s.roundMode c) v).1)⟩,
    ⟨_, _, rfl, integer 64 (by decide), ended _ fun v => .u64 (BitVec.ofInt 64 (f80ToInt 64 (s.roundMode c) v).1)⟩,
    ⟨_, _, _, rfl, f80ToF32_storesHost _ a, ended _ fun v => .u32 (f80ToF32 (s.roundMode c) v).1⟩,
    ⟨_, _, _, rfl, f80ToF64_storesHost _ a, ended _ fun v => .u64 (f80ToF64 (s.roundMode c) v).1⟩,
    ⟨_, rfl, ended (fun _ => 0) .f80⟩⟩

end Sys2Proof.Machine
end

section
/-! SUPPORT. Arithmetic on stack slots (spec/42_fpu_stack.md R283–R293): the float engine's operation on the slots'
values, with the flags and faults of reading them. -/

namespace Sys2Proof.Machine

/-! ### Operations on slots (R283) -/

/-- A binary operation writes its first slot with what it gives on the slots' values. -/
theorem binary_ends (s : State) (c : BitVec 32) (dst src : BitVec 3) (op : F80 → F80 → F80 × Flags6) :
    let r := op ((s.fpu c).slotValue dst) ((s.fpu c).slotValue src)
    fpuEnds c s (s.fpuDone c ((s.fpu c).binary dst src op) .none) (r.2 ||| (s.fpu c).emptyFlag [dst, src])
      ((s.fpu c).underflow [dst, src]) .none fun f g => f.codesKept g ∧ f.slotWritten g dst r.1 := by
  obtain ⟨hdst, hsrc, hflags, hmarks⟩ := (s.fpu c).rd_pair dst src
  simp only [← hdst, ← hsrc, ← hflags, ← BitVec.or_assoc]
  exact finish_ends hmarks _ .none (fun x => x.setSt_statusKept ..) fun x hregs hcodes =>
    ⟨hcodes, Fpu.slotWritten_setSt hregs dst _⟩

theorem unary_ends (s : State) (c : BitVec 32) (dst : BitVec 3) (op : F80 → F80 × Flags6) :
    let r := op ((s.fpu c).slotValue dst)
    fpuEnds c s (s.fpuDone c ((s.fpu c).unary dst op) .none) (r.2 ||| (s.fpu c).emptyFlag [dst])
      ((s.fpu c).underflow [dst]) .none fun f g => f.codesKept g ∧ f.slotWritten g dst r.1 := by
  obtain ⟨hdst, hflags, hmarks⟩ := (s.fpu c).rd_faulted dst
  rw [← hdst, ← hflags]
  exact finish_ends hmarks _ .none (fun x => x.setSt_statusKept ..) fun x hregs hcodes =>
    ⟨hcodes, Fpu.slotWritten_setSt hregs dst _⟩

/-- A draw beforehand plays no part in how a command ends. -/
theorem fpuEnds_of_sameButDraws {c : BitVec 32} {s u t : State} {fl : Flags6} {fault : Option Bool} {results : Results}
    {writeback : Fpu → Fpu → Prop} (h : sameButDraws s u) (hends : fpuEnds c u t fl fault results writeback) :
    fpuEnds c s t fl fault results writeback := by
  rw [← h]
  exact hends

theorem State.drawNan_fpu (s : State) (c : BitVec 32) : s.drawNan.2.fpu c = s.fpu c := congrArg Context.fpu (s.drawNan_ctx c)

/-- The screened commands, with the NaN drawn first (log 9). -/
theorem fpuBinary_ends (s : State) (c : BitVec 32) (dst src : BitVec 3) (op : F80 → F80 → F80 → F80 × Flags6) :
    let r := op s.drawNan.1 ((s.fpu c).slotValue dst) ((s.fpu c).slotValue src)
    fpuEnds c s (s.fpuBinary c dst src op) (r.2 ||| (s.fpu c).emptyFlag [dst, src])
      ((s.fpu c).underflow [dst, src]) .none fun f g => f.codesKept g ∧ f.slotWritten g dst r.1 := by
  have hends := binary_ends s.drawNan.2 c dst src (op s.drawNan.1)
  rw [s.drawNan_fpu c] at hends
  exact fpuEnds_of_sameButDraws (drawNan_sameButDraws s) hends

theorem fpuUnary_ends (s : State) (c : BitVec 32) (dst : BitVec 3) (op : F80 → F80 → F80 × Flags6) :
    let r := op s.drawNan.1 ((s.fpu c).slotValue dst)
    fpuEnds c s (s.fpuUnary c dst op) (r.2 ||| (s.fpu c).emptyFlag [dst])
      ((s.fpu c).underflow [dst]) .none fun f g => f.codesKept g ∧ f.slotWritten g dst r.1 := by
  have hends := unary_ends s.drawNan.2 c dst (op s.drawNan.1)
  rw [s.drawNan_fpu c] at hends
  exact fpuEnds_of_sameButDraws (drawNan_sameButDraws s) hends

/-! ### Arithmetic (R283–R293) -/

/-- `i` and `twin` are one operation, on the slots `slots` of context `c` and on their values: a screened one of two slots or of
one, or an unscreened one, which draws nothing. -/
inductive SlotOperation (s : State) (c : BitVec 32) (dst : BitVec 3) : List (BitVec 3) → Instr → Instr → Prop where
  | binary {i twin : Instr} (src : BitVec 3) (op : F80 → F80 → F80 → F80 × Flags6)
      (hi : exec i s = .next (s.fpuBinary c dst src op))
      (htwin : exec twin s = .next (s.screened fun nan => op nan ((s.fpu c).slotValue dst) ((s.fpu c).slotValue src))) :
      SlotOperation s c dst [dst, src] i twin
  | unary {i twin : Instr} (op : F80 → F80 → F80 × Flags6) (hi : exec i s = .next (s.fpuUnary c dst op))
      (htwin : exec twin s = .next (s.screened fun nan => op nan ((s.fpu c).slotValue dst))) :
      SlotOperation s c dst [dst] i twin
  | unscreened {i twin : Instr} (op : F80 → F80)
      (hi : exec i s = .next (s.fpuDone c ((s.fpu c).unary dst fun a => (op a, 0)) .none))
      (htwin : exec twin s = .next (s.ok (.f80 (op ((s.fpu c).slotValue dst))))) :
      SlotOperation s c dst [dst] i twin

theorem slotOperation_of_feTwin {s : State} {i twin : Instr} {c : BitVec 32} {dst : BitVec 3} {slots : List (BitVec 3)}
    (h : s.feTwin i = some (c, dst, slots, twin)) : SlotOperation s c dst slots i twin := by
  cases i <;> cases h
  case fpuAdd => exact .binary _ _ rfl rfl
  case fpuSub => exact .binary _ _ rfl rfl
  case fpuMul => exact .binary _ _ rfl rfl
  case fpuDiv => exact .binary _ _ rfl rfl
  case fpuMod => exact .binary _ _ rfl rfl
  case fpuRem => exact .binary _ _ rfl rfl
  case fpuNeg => exact .unscreened _ rfl rfl
  case fpuAbs => exact .unscreened _ rfl rfl
  case fpuSqrt => exact .unary _ rfl rfl
  case fpuLog2 => exact .unary _ rfl rfl

/-- Settles O33: whichever operation the two commands are, it ends as a write of the slot with what it gives on the values. -/
theorem stackArithmetic : Obligations.StackArithmetic := by
  intro s i twin c dst slots h
  cases slotOperation_of_feTwin h with
  | binary src op hi htwin =>
    exact ⟨_, _, _, _, _, htwin, rfl, rfl, hi, State.fpuDone_draws .., fpuBinary_ends s c dst src op⟩
  | unary op hi htwin => exact ⟨_, _, _, _, _, htwin, rfl, rfl, hi, State.fpuDone_draws .., fpuUnary_ends s c dst op⟩
  | unscreened op hi htwin =>
    exact ⟨_, _, _, _, _, htwin, rfl, rfl, hi, State.fpuDone_draws .., unary_ends s c dst fun a => (op a, 0)⟩

end Sys2Proof.Machine
end

section
/-! SUPPORT. `FPU.SCALE` (spec/42_fpu_stack.md R294): the clamped scaling operand as a rational, and the rows of the rule. -/

namespace Sys2Proof

open Sys2Proof.Machine

theorem Mag.split_fst {m : Mag} (hd : 0 < m.den) (q : ℤ) : (m.split q).1 = ⌊m.value / 2 ^ q⌋₊ := by
  obtain ⟨n, d, -, hvalue, hsplit⟩ := Mag.split_eq hd q
  rw [hsplit, hvalue, Nat.floor_div_eq_div]

theorem truncQ_val (b : F80) : truncQ b.val = if b.sgn then -(⌊|b.val|⌋₊ : ℤ) else ⌊|b.val|⌋₊ := by
  obtain h0 | hpos := (abs_nonneg b.val).eq_or_lt
  · rw [← h0, abs_eq_zero.1 h0.symm]
    simp [truncQ]
  · have hsigned := truncQ_signed b.sgn hpos
    rw [← F80.val_eq_signQ_abs] at hsigned
    cases hs : b.sgn with
    | false =>
      simp only [hs, signQ, Bool.false_eq_true, if_false, one_mul] at hsigned ⊢
      exact_mod_cast hsigned
    | true =>
      simp only [hs, signQ, if_true, neg_one_mul] at hsigned ⊢
      exact_mod_cast hsigned

/-- The scaling operand is the truncated value, clamped (R294). -/
theorem scaleOperand_eq (b : F80) : scaleOperand b = max (-2 ^ 31) (min (truncQ b.val) (2 ^ 31 - 1)) := by
  rw [truncQ_val, ← b.mag_value, ← div_one b.mag.value, ← zpow_zero (2 : ℚ), ← Mag.split_fst one_pos 0]
  rfl

section
variable (nan : F80) (rm : RMode) {a b : F80}

theorem f80ScaleBy_early {e : F80 × Flags6} (h : screen nan [a, b] = .error e) : f80ScaleBy nan rm a b = e := by
  rw [f80ScaleBy, h]

theorem f80ScaleBy_of_isInf (ha : a.isSpecial = false) (hb : b.isInf = true) : f80ScaleBy nan rm a b =
    if b.sgn then (if a.isInf then (F80.dnan, flagI) else (F80.zero a.sgn, 0))
    else if a.isZero then (F80.dnan, flagI) else (F80.inf a.sgn, 0) := by
  obtain ⟨hu, hn, -, -⟩ := F80.classes_of_isInf hb
  rw [f80ScaleBy, screen_pair nan ha (by rw [F80.isSpecial, hu, hn]; rfl), hb]
  cases b.sgn <;> rfl

theorem f80ScaleBy_of_isFinite (ha : a.isSpecial = false) (hb : b.isFinite = true) : f80ScaleBy nan rm a b =
    ((f80Scale nan rm a (scaleOperand b)).1, (f80Scale nan rm a (scaleOperand b)).2 ||| denormalFlag [b]) := by
  rw [f80ScaleBy, screen_pair nan ha (F80.isSpecial_of_isFinite hb), F80.isInf_of_isFinite hb]
  cases hd : b.isDenormal <;> simp [denormalFlag, hd]

end

end Sys2Proof

namespace Sys2Proof.Machine

/-- Settles O34: a binary operation on slots, whose result is that of the row the operands' classes choose. -/
theorem stackScaling : Obligations.StackScaling := by
  intro s c dst src a b
  refine ⟨rfl, _, _, _, rfl, fpuBinary_ends s c dst src _, ?unsupported, ?nan, ?above, ?below, ?finite⟩
  case unsupported =>
    intro h
    rw [f80ScaleBy_early _ _ (screen_of_unsupported _ (by simpa using h))]
    exact ⟨rfl, rfl⟩
  case nan =>
    intro ha hb h
    rw [f80ScaleBy_early _ _ (screen_of_nan _ (by simp [a, b, ha, hb]) (by simpa using h))]
    exact ⟨drawNan_isQuiet s, by simp [a, b]⟩
  case above =>
    intro ha hb hs
    rw [f80ScaleBy_of_isInf _ _ ha hb, hs]
    split
    · exact ⟨rfl, rfl⟩
    · exact ⟨rfl, rfl⟩
  case below =>
    intro ha hb hs
    rw [f80ScaleBy_of_isInf _ _ ha hb, hs]
    split
    · exact ⟨rfl, rfl⟩
    · exact ⟨rfl, rfl⟩
  case finite =>
    intro ha hb
    have hn : (BitVec.ofInt 32 (scaleOperand b)).toInt = scaleOperand b := by
      rw [scaleOperand_eq]
      exact BitVec.toInt_ofInt_eq_self (by decide) (by omega) (by omega)
    have hrow := f80ScaleBy_of_isFinite s.drawNan.1 (s.roundMode c) ha hb
    refine ⟨BitVec.ofInt 32 (scaleOperand b), _, (f80Scale s.drawNan.1 (s.roundMode c) a (scaleOperand b)).2,
      hn.trans (scaleOperand_eq b), rfl, ?_, congrArg Prod.snd hrow⟩
    rw [screened_resp, hn, congrArg Prod.fst hrow]

end Sys2Proof.Machine
end

section
/-! SUPPORT. `FPU.COM` (spec/42_fpu_stack.md R295): the writeback of the condition codes, and how the command ends. -/

namespace Sys2Proof.Machine

/-- The condition codes by the code of the outcome (R126, R295). -/
theorem Fpu.setCodes_codes (f : Fpu) (o : Order) : (f.setCodes o).sw.getLsbD 14 = (o.code == 2#2 || o.code == 3#2) ∧
    (f.setCodes o).sw.getLsbD 10 = (o.code == 3#2) ∧ (f.setCodes o).sw.getLsbD 8 = (o.code == 1#2 || o.code == 3#2) ∧
    (f.setCodes o).sw.getLsbD 9 = false := by
  have hbits := f.setCodes_sw o
  rw [hbits 14 (by decide), hbits 10 (by decide), hbits 8 (by decide), hbits 9 (by decide)]
  cases o <;> exact ⟨rfl, rfl, rfl, rfl⟩

/-- No other bit is written. -/
theorem Fpu.setCodes_kept (f : Fpu) (o : Order) {k : Nat} (hk : k < 8 ∨ 10 < k ∧ k < 14 ∨ k = 15) :
    (f.setCodes o).sw.getLsbD k = f.sw.getLsbD k := by
  rw [Fpu.setCodes_sw f o k (by omega), if_neg (by omega), if_neg (by omega), if_neg (by omega), if_neg (by omega)]

theorem Order.code_eq_three_iff (o : Order) : o.code = 3#2 ↔ o = .unordered := by cases o <;> decide

theorem fpuDone_sameButFpu (s : State) (c : BitVec 32) (r : Fpu × Bool) (results : Results) :
    sameButFpu c s (s.fpuDone c r results) :=
  ⟨⟨State.fpuDone_params .., State.fpuDone_mems .., State.fpuDone_blobs .., State.fpuDone_graves .., State.fpuDone_port ..,
    fun _ hd => State.fpuDone_ctx_other s r results hd⟩, State.fpuDone_cpu_same .., State.fpuDone_rm_same ..,
    State.fpuDone_tlb_same .., (congrArg Context.transfer (State.fpuDone_ctx_same s c r results) :)⟩

/-- The comparison (R295) as its flags and its writeback, over the FPU that the reads of the slots leave. -/
theorem Fpu.compare_eq (f : Fpu) (x y : BitVec 3) :
    ∃ g, f.Faulted g (f.underflow [x, y]) ∧ f.compare x y =
      let r := f80Cmp (f.slotValue x) (f.slotValue y)
      g.finish (r.2 ||| (if r.1.code = 3#2 then flagI else 0) ||| f.emptyFlag [x, y]) fun g => g.setCodes r.1 := by
  obtain ⟨hx, hy, hflags, hmarks⟩ := f.rd_pair x y
  refine ⟨_, hmarks, ?_⟩
  simp only [← hx, ← hy, ← hflags, ← BitVec.or_assoc, Order.code_eq_three_iff]
  rfl

/-- How a command ends whose operation found a faulted FPU and writes condition codes (R261, R295): marked as always, but for
`C1`, which the writeback clears. -/
theorem setCodes_ends {s : State} {c : BitVec 32} {g : Fpu} {fault : Option Bool} (h : (s.fpu c).Faulted g fault) (fl : Flags6)
    (o : Order) :
    let t := s.fpuDone c (g.finish fl fun x => x.setCodes o) .none
    let f := s.fpu c
    let r := t.fpu c
    f.regsKept r ∧ r.cw = f.cw ∧ r.excFlags = f.excFlags ||| fl ∧ r.sw.getLsbD 6 = (f.sw.getLsbD 6 || fault.isSome) ∧
      r.sw.getLsbD 7 = f.anyUnmasked (f.excFlags ||| fl) ∧ r.sw.getLsbD 15 = f.sw.getLsbD 15 ∧
      if f.anyUnmasked fl then
        t.resp = some (.fault .floatError 0#32) ∧ f.codesKept r ∧ r.sw.getLsbD 9 = fault.getD (f.sw.getLsbD 9)
      else t.resp = some (.ok .none) ∧ r.sw.getLsbD 14 = (o.code == 2#2 || o.code == 3#2) ∧
        r.sw.getLsbD 10 = (o.code == 3#2) ∧ r.sw.getLsbD 8 = (o.code == 1#2 || o.code == 3#2) ∧ r.sw.getLsbD 9 = false := by
  obtain ⟨⟨hexc, h6, h7, h9, h15, hcw⟩, hregs, hcodes⟩ := h.addFlags fl
  have hany : g.anyUnmasked fl = (s.fpu c).anyUnmasked fl := Fpu.anyUnmasked_congr h.cw fl
  simp only [State.fpuDone_fpu_same, fpuDone_resp]
  cases hu : (s.fpu c).anyUnmasked fl with
  | true =>
    rw [Fpu.finish_raises _ (hany.trans hu)]
    exact ⟨hregs, hcw, hexc, h6, h7, h15, rfl, hcodes, h9⟩
  | false =>
    rw [Fpu.finish_completes _ (hany.trans hu)]
    have hkept := fun k hk => (g.addFlags fl).setCodes_kept o (k := k) hk
    obtain ⟨hfpr, htag, htop⟩ := hregs
    exact ⟨⟨hfpr, htag, (Fpu.setCodes_top ..).trans htop⟩, hcw,
      ((excFlags_eq_iff _ _).2 fun k hk => hkept k (by omega)).trans hexc, (hkept 6 (by omega)).trans h6,
      (hkept 7 (by omega)).trans h7, (hkept 15 (by omega)).trans h15, rfl, Fpu.setCodes_codes _ o⟩

/-- Settles O35: the command's comparison is that of `FE.CMP`, and it ends as a writeback of condition codes does. -/
theorem stackComparison : Obligations.StackComparison := by
  intro s c x y
  obtain ⟨g, hfault, hcompare⟩ := (s.fpu c).compare_eq x y
  refine ⟨rfl, _, _, _, rfl, rfl, State.fpuDone_draws .., fpuDone_sameButFpu .., ?_⟩
  rw [hcompare]
  exact setCodes_ends hfault _ _

end Sys2Proof.Machine
end

section
/-! SUPPORT. What the helpers of spec/43_address_space.md R336 leave alone: the counters, owners and locks of the spaces, the spaces
not named, the bytes of every blob, the draws; and that entries with the same bytes read the same. -/

namespace Sys2Proof.Machine

/-! ### Bytes that stay (R42) -/

/-- Every blob that a pointer could reach still has its bytes and its length. -/
def keepsBytes (s t : State) : Prop :=
  ∀ b x, s.hostBlob b = some x → ∃ y, t.hostBlob b = some y ∧ y.cells = x.cells ∧ y.len = x.len

theorem keepsBytes.refl (s : State) : keepsBytes s s := fun _ x h => ⟨x, h, rfl, rfl⟩

theorem keepsBytes.trans {s t u : State} (h : keepsBytes s t) (g : keepsBytes t u) : keepsBytes s u := by
  intro b x hx
  obtain ⟨y, hy, hyc, hyl⟩ := h b x hx
  obtain ⟨z, hz, hzc, hzl⟩ := g b y hy
  exact ⟨z, hz, hzc.trans hyc, hzl.trans hyl⟩

theorem keepsBytes_of_eq {s t : State} (hb : t.blobs = s.blobs) (hg : t.graves = s.graves) : keepsBytes s t :=
  fun _ x h => ⟨x, by simpa [State.hostBlob, hb, hg] using h, rfl, rfl⟩

/-- Where every blob stays reachable, and what is reachable has the bytes it had, the bytes are kept. -/
theorem keepsBytes_of_keepsHost {s t : State} (h : keepsHost s t)
    (hback : ∀ b y, t.hostBlob b = some y → ∃ x, s.hostBlob b = some x ∧ y.cells = x.cells ∧ y.len = x.len) :
    keepsBytes s t := by
  intro b x hx
  obtain ⟨y, hy, -⟩ := h b x hx
  obtain ⟨x', hx', hc, hl⟩ := hback b y hy
  cases hx.symm.trans hx'
  exact ⟨y, hy, hc, hl⟩

theorem incRef_keepsBytes (s : State) (b : Handle) : keepsBytes s (s.incRef b) :=
  keepsBytes_of_keepsHost (incRef_keepsHost s b) fun _ _ => hostBlob_eq_of_incRef

theorem decRef_keepsBytes (s : State) (b : Handle) : keepsBytes s (s.decRef b) :=
  keepsBytes_of_keepsHost (decRef_keepsHost s b) fun _ _ => hostBlob_eq_of_decRef

theorem bump_keepsBytes (s : State) (m : Handle) : keepsBytes s (s.bump m) :=
  keepsBytes_of_eq (bump_blobs s m).1 (bump_blobs s m).2

theorem newBlob_keepsBytes (s : State) (cells : Memory) (len : Nat) : keepsBytes s (s.newBlob cells len).2 := by
  intro b x hx
  obtain ⟨hlive, hdead⟩ := newBlob_free s cells len
  have hne : b ≠ (s.newBlob cells len).1 := by
    rintro rfl
    simp [State.hostBlob, hlive, hdead] at hx
  refine ⟨x, ?_, rfl, rfl⟩
  unfold State.hostBlob at hx ⊢
  rwa [newBlob_find, if_neg hne, newBlob_graves]

/-- Entries of the same page of a blob read the same, whatever their flags. -/
theorem byteOf_of_entry {s t : State} (hs : Counted s) (ht : Counted t) (h : keepsBytes s t) {x y : Handle} {a a' : Nat} {e : Pte}
    {f : BitVec 7} (he : s.pte x (pageOf a) = some e) (he' : t.pte y (pageOf a') = some { e with flags := f })
    (ha : a' % pageSize = a % pageSize) : t.byteOf y a' = s.byteOf x a := by
  obtain ⟨old, hold, -⟩ := hs.backed x _ e he
  obtain ⟨new, hnew, -⟩ := ht.backed y _ _ he'
  obtain ⟨kept, hkept, hcells, -⟩ := h e.blob old (hostBlob_of_live hold)
  cases hkept.symm.trans (hostBlob_of_live hnew)
  simp [State.byteOf, State.byteAt, he, he', hold, hnew, hcells, ha]

/-- A page that keeps its entry keeps its bytes. -/
theorem byteOf_of_kept {s t : State} (hs : Counted s) (ht : Counted t) (h : keepsBytes s t) {x : Handle} {a : Nat}
    (he : t.pte x (pageOf a) = s.pte x (pageOf a)) : t.byteOf x a = s.byteOf x a := by
  cases hp : s.pte x (pageOf a) with
  | none => simp [State.byteOf, hp, he]
  | some e => exact byteOf_of_entry hs ht h hp (f := e.flags) (he.trans hp) rfl

theorem bytesKept_of_entriesKept {s t : State} (hs : Counted s) (ht : Counted t) (h : keepsBytes s t)
    {changed : Handle → Nat → Bool} (he : s.entriesKept t changed) : s.bytesKept t changed :=
  fun x a ha => byteOf_of_kept hs ht h (he x (pageOf a) ha)

/-- A blob is live exactly where an entry names it (R42, R44). -/
theorem TablesBut.live_iff {s : State} (h : Tables s) (b : Handle) : (mapFind s.blobs b).isSome = true ↔ 1 ≤ s.pteCount b := by
  constructor
  · intro hb
    obtain ⟨blob, hf⟩ := Option.isSome_iff_exists.1 hb
    rw [← h.counted.count b blob hf]
    exact h.named b blob (by simp) hf
  · intro hc
    by_contra hb
    rw [pteCount_zero h.counted (by simpa using hb)] at hc
    omega

theorem sameRest.sameContexts {s t : State} (h : sameRest s t) : sameContexts s t :=
  ⟨h.1, h.2.2, State.ctx_congr h.2.1⟩

/-- The draw of `OOM` changes the draws alone (R337). -/
theorem State.drawOom_eq (s : State) : ∃ d, s.drawOom.2 = { s with draws := d } := by
  unfold State.drawOom
  split <;> exact ⟨_, rfl⟩

/-! ### The spaces (R43) -/

/-- Only the entries of the spaces `names` may differ, and the counters of the spaces `grows` are one higher. -/
structure Respaced (names grows : Handle → Bool) (s t : State) : Prop where
  tables : s.spacesKept t grows
  others : ∀ x, names x = false → t.space x = s.space x

/-- No counter grows. -/
def noGrowth : Handle → Bool := fun _ => false

theorem Respaced.of_mems {s t : State} (names : Handle → Bool) (h : t.mems = s.mems) : Respaced names noGrowth s t :=
  ⟨fun x => by rw [space_congr h]; rfl, fun x _ => space_congr h x⟩

theorem Respaced.trans {names grows : Handle → Bool} {s t u : State} (h : Respaced names noGrowth s t)
    (g : Respaced names grows t u) : Respaced names grows s u := by
  refine ⟨fun x => ?_, fun x hx => (g.others x hx).trans (h.others x hx)⟩
  have hst := h.tables x
  rw [g.tables x]
  cases hs : s.space x <;> cases ht : t.space x <;> simp [hs, ht, noGrowth] at hst
  · rfl
  · simp [hst]

theorem Respaced.mono {names names' grows : Handle → Bool} {s t : State} (h : Respaced names grows s t)
    (hn : ∀ x, names x = true → names' x = true) : Respaced names' grows s t :=
  ⟨h.tables, fun x hx => h.others x (by by_contra hc; simp [hn x (by simpa using hc)] at hx)⟩

/-- A change of one space's entries. -/
theorem Respaced.of_space {s t : State} {m : Handle} {f : Space → Space}
    (ht : ∀ x, t.space x = if x = m then (s.space m).map f else s.space x)
    (hf : ∀ sp, (f sp).gen = sp.gen ∧ (f sp).refcount = sp.refcount ∧ (f sp).lock = sp.lock) :
    Respaced (· == m) noGrowth s t := by
  refine ⟨fun x => ?_, fun x hx => by rw [ht, if_neg (by simpa using hx)]⟩
  rw [ht]
  split
  · next hx => subst hx; cases s.space x <;> simp [hf, noGrowth]
  · rfl

/-- One more count of a space after the change of some. -/
theorem Respaced.bump {names grows : Handle → Bool} {s t : State} (h : Respaced names grows s t) {m : Handle}
    (hn : names m = true) (hg : grows m = false) : Respaced names (fun x => x == m || grows x) s (t.bump m) := by
  refine ⟨fun x => ?_, fun x hx => ?_⟩
  · have hst := h.tables x
    rw [bump_space]
    by_cases hx : x = m
    · subst hx
      cases hs : s.space x <;> cases ht : t.space x <;> simp [hs, ht, hg] at hst ⊢
      exact hst
    · rw [if_neg hx, hst]
      simp [hx]
  · rw [bump_space, if_neg (by rintro rfl; simp [hn] at hx), h.others x hx]

/-- What changes of entries keep: all but the entries of the spaces `names`, and the counts of the blobs. -/
structure Remapped (names : Handle → Bool) (s t : State) : Prop where
  spaces : Respaced names noGrowth s t
  bytes : keepsBytes s t
  draws : t.draws = s.draws

theorem Remapped.refl (names : Handle → Bool) (s : State) : Remapped names s s := ⟨.of_mems names rfl, .refl s, rfl⟩

theorem Remapped.trans {names : Handle → Bool} {s t u : State} (h : Remapped names s t) (g : Remapped names t u) :
    Remapped names s u :=
  ⟨h.spaces.trans g.spaces, h.bytes.trans g.bytes, g.draws.trans h.draws⟩

theorem Remapped.mono {names names' : Handle → Bool} {s t : State} (h : Remapped names s t)
    (hn : ∀ x, names x = true → names' x = true) : Remapped names' s t :=
  ⟨h.spaces.mono hn, h.bytes, h.draws⟩

theorem incRef_draws (s : State) (b : Handle) : (s.incRef b).draws = s.draws := by
  unfold State.incRef
  split <;> rfl

theorem decRef_draws (s : State) (b : Handle) : (s.decRef b).draws = s.draws := by
  unfold State.decRef
  split
  · rfl
  · split <;> rfl

theorem putPte_draws (s : State) (m : Handle) (p : Nat) (e : Pte) : (s.putPte m p e).draws = s.draws := by
  unfold State.putPte
  split <;> rfl

theorem bump_draws (s : State) (m : Handle) : (s.bump m).draws = s.draws := by
  unfold State.bump
  split <;> rfl

theorem putPte_remapped (s : State) (m : Handle) (p : Nat) (e : Pte) : Remapped (· == m) s (s.putPte m p e) :=
  ⟨.of_space (putPte_space s m p e) fun _ => ⟨rfl, rfl, rfl⟩,
    keepsBytes_of_eq (putPte_blobs s m p e).1 (putPte_blobs s m p e).2, putPte_draws s m p e⟩

theorem install_remapped (s : State) (m : Handle) (p : Nat) (e : Pte) : Remapped (· == m) s (s.install m p e) :=
  (putPte_remapped s m p e).trans ⟨.of_mems _ (incRef_mems _ _), incRef_keepsBytes _ _, incRef_draws _ _⟩

theorem remove_remapped (s : State) (m : Handle) (p : Nat) : Remapped (· == m) s (s.remove m p) := by
  cases he : s.pte m p with
  | none => rw [remove_of_none he]; exact .refl _ s
  | some e =>
    obtain ⟨sp, hs, hp⟩ := pte_eq_some he
    refine ⟨.of_space (remove_space s m p) fun _ => ⟨rfl, rfl, rfl⟩, ?_, ?_⟩ <;> rw [remove_of_entry hs hp]
    · exact (keepsBytes_of_eq (t := s.setSpace m _) rfl rfl).trans (decRef_keepsBytes _ _)
    · exact decRef_draws _ _

theorem replace_remapped (s : State) (m : Handle) (p : Nat) (e : Pte) : Remapped (· == m) s (s.replace m p e) :=
  (remove_remapped s m p).trans (install_remapped _ m p e)

theorem protectPage_remapped (s : State) (m : Handle) (flags : BitVec 7) (p : Nat) :
    Remapped (· == m) s (s.protectPage m flags p) := by
  unfold State.protectPage
  split
  · exact .refl _ s
  · exact putPte_remapped _ _ _ _

/-- The two spaces of a sharing. -/
def either (m m2 : Handle) : Handle → Bool := fun x => x == m || x == m2

theorem sharePage_remapped (s : State) (m : Handle) (p : Nat) (m2 : Handle) (p2 : Nat) :
    Remapped (either m m2) s (s.sharePage m p m2 p2) := by
  have hm : ∀ x, (x == m) = true → either m m2 x = true := fun x h => by simp [either, h]
  have hm2 : ∀ x, (x == m2) = true → either m m2 x = true := fun x h => by simp [either, h]
  unfold State.sharePage
  split
  · exact .refl _ s
  · exact (((remove_remapped _ _ _).mono hm2).trans ((putPte_remapped _ _ _ _).mono hm)).trans
      ((install_remapped _ _ _ _).mono hm2)

theorem forPages_remapped {names : Handle → Bool} {f : Nat → State → State} (h : ∀ k s, Remapped names s (f k s)) (n : Nat)
    (s : State) : Remapped names s (forPages f n s) := by
  induction n with
  | zero => exact .refl _ s
  | succ n ih => exact ih.trans (h n _)

theorem foldl_remove_remapped (m : Handle) (ps : List Nat) (s : State) :
    Remapped (· == m) s (ps.foldl (fun u p => u.remove m p) s) := by
  induction ps generalizing s with
  | nil => exact .refl _ s
  | cons p ps ih => exact (remove_remapped s m p).trans (ih _)

/-- A counted change of one space's entries (R340). -/
theorem Remapped.counted {s t : State} {m : Handle} (h : Remapped (· == m) s t) :
    Respaced (· == m) (· == m) s (t.bump m) := by
  have hb := h.spaces.bump (m := m) (by simp) rfl
  simpa [noGrowth] using hb

/-! ### Entries over a range -/

theorem inRange_iff (page count p : Nat) : inRange page count p = true ↔ page ≤ p ∧ p < page + count := by
  simp [inRange]

/-- Changing the entries of a range one page at a time, each from its own old entry, changes the range's entries and no other. -/
theorem forPages_pte {f : Nat → State → State} {m : Handle} {page : Nat} {g : Nat → Option Pte → Option Pte}
    (hspace : ∀ k u x, ((f k u).space x).isSome = (u.space x).isSome)
    (hf : ∀ k u x p, (u.space m).isSome = true →
      (f k u).pte x p = if x = m ∧ p = page + k then g k (u.pte m p) else u.pte x p)
    {s : State} (hm : (s.space m).isSome = true) (n : Nat) (x : Handle) (p : Nat) :
    (forPages f n s).pte x p =
      if x = m ∧ inRange page n p = true then g (p - page) (s.pte m p) else s.pte x p := by
  induction n generalizing x p with
  | zero => rw [if_neg (by rw [inRange_iff]; omega)]; rfl
  | succ n ih =>
    have hmn : ((forPages f n s).space m).isSome = true := (forPages_space_isSome (fun k u => hspace k u m) n s).trans hm
    simp only [inRange_iff] at ih ⊢
    refine (hf n _ x p hmn).trans ?_
    by_cases hp : x = m ∧ p = page + n
    · obtain ⟨rfl, rfl⟩ := hp
      rw [if_pos ⟨rfl, rfl⟩, ih, if_neg (by omega), if_pos ⟨rfl, by omega⟩, Nat.add_sub_cancel_left]
    · rw [if_neg hp, ih]
      by_cases hr : x = m ∧ page ≤ p ∧ p < page + n
      · rw [if_pos hr, if_pos ⟨hr.1, hr.2.1, by omega⟩]
      · rw [if_neg hr, if_neg]
        rintro ⟨rfl, hle, hlt⟩
        have hne : p ≠ page + n := fun he => hp ⟨rfl, he⟩
        exact hr ⟨rfl, hle, by omega⟩

/-- A change of a range's entries keeps every other entry. -/
theorem entriesKept_of_range {s t : State} {m : Handle} {page count : Nat} {g : Nat → Option Pte → Option Pte}
    (h : ∀ x p, t.pte x p = if x = m ∧ inRange page count p = true then g (p - page) (s.pte m p) else s.pte x p) :
    s.entriesKept t fun x p => x == m && inRange page count p := by
  intro x p hc
  rw [h, if_neg]
  rintro ⟨rfl, hr⟩
  simp [hr] at hc

end Sys2Proof.Machine
end

section
/-! SUPPORT. Mapping a fresh blob over a range (spec/43_address_space.md R324, R325, R336): the entries, the blob with a reference a
page, the bytes, and what stays. -/

namespace Sys2Proof.Machine

/-- A fresh blob is mapped over a range, and everything else is as before. -/
structure MapsFresh (s t : State) (m : Handle) (page count : Nat) (b : Handle) (cells : Memory) (len : Nat)
    (flags : BitVec 7) : Prop where
  fresh : mapFind s.blobs b = none
  blob : mapFind t.blobs b = some { cells := cells, len := len, refcount := count }
  entries : ∀ k, k < count → t.pte m (page + k) = some { blob := b, offset := k * pageSize, flags := flags }
  kept : s.entriesKept t fun x p => x == m && inRange page count p
  bytes : s.bytesKept t fun x p => x == m && inRange page count p
  spaces : s.spacesKept t (· == m)
  rest : sameContexts s t

theorem MapsFresh.counts {s t : State} {m : Handle} {page count : Nat} {b : Handle} {cells : Memory} {len : Nat}
    {flags : BitVec 7} (h : MapsFresh s t m page count b cells len flags) :
    (mapFind t.blobs b).map (fun x => (x.len, x.refcount)) = some (len, count) := by
  rw [h.blob]
  rfl

/-- The range's bytes are the blob's. -/
theorem MapsFresh.byte {s t : State} {m : Handle} {page count : Nat} {b : Handle} {cells : Memory} {len : Nat}
    {flags : BitVec 7} (h : MapsFresh s t m page count b cells len flags) {k : Nat} (hk : k < count * pageSize) :
    t.byteOf m (page * pageSize + k) = some (Memory.read cells k) := by
  have hpage : pageOf (page * pageSize + k) = page + k / pageSize := by unfold pageOf pageSize; omega
  have he := h.entries (k / pageSize) (Nat.div_lt_of_lt_mul (by rwa [Nat.mul_comm]))
  simp [State.byteOf, State.byteAt, hpage, he, h.blob, Nat.div_add_mod']

section
variable {s : State} {m : Handle} {p page : Nat} {b : Handle} {cells : Memory} {len : Nat}

/-- Replacing a page by one of a blob that the old entry does not name counts one reference more. -/
theorem replace_find_self {e : Pte} {blob : Blob} (hold : ∀ old, s.pte m p = some old → old.blob ≠ e.blob)
    (hb : mapFind s.blobs e.blob = some blob) :
    mapFind (s.replace m p e).blobs e.blob = some { blob with refcount := blob.refcount + 1 } := by
  unfold State.replace State.install
  rw [incRef_find, if_pos rfl, (putPte_blobs _ m p e).1, remove_find_other hold, hb]
  rfl

theorem mapPages_pte (hm : (s.space m).isSome = true) (flags : BitVec 7) (n : Nat) (x : Handle) (q : Nat) :
    (forPages (mapPage m page b flags) n s).pte x q =
      if x = m ∧ inRange page n q = true then some { blob := b, offset := (q - page) * pageSize, flags := flags }
      else s.pte x q := by
  refine forPages_pte (g := fun k _ => some { blob := b, offset := k * pageSize, flags := flags })
    (fun k u x => replace_space_isSome u m _ _ x) (fun k u x q hu => ?_) hm n x q
  obtain ⟨sp, hs⟩ := Option.isSome_iff_exists.1 hu
  refine (replace_pte u m (page + k) _ x q).trans ?_
  rw [hs]
  rfl

theorem mapPages_find (hm : (s.space m).isSome = true) (hold : ∀ q e, s.pte m q = some e → e.blob ≠ b) {refs : Nat}
    (hb : mapFind s.blobs b = some { cells := cells, len := len, refcount := refs }) (flags : BitVec 7) (n : Nat) :
    mapFind (forPages (mapPage m page b flags) n s).blobs b = some { cells := cells, len := len, refcount := refs + n } := by
  induction n with
  | zero => exact hb
  | succ n ih =>
    refine replace_find_self (e := { blob := b, offset := n * pageSize, flags := flags }) (fun old ho => ?_) ih
    rw [mapPages_pte hm, if_neg (by rw [inRange_iff]; omega)] at ho
    exact hold _ old ho

theorem mapBlob_respaced (s : State) (m : Handle) (page count : Nat) (cells : Memory) (len : Nat) (flags : BitVec 7) :
    Respaced (· == m) (· == m) s (s.mapBlob m page count cells len flags).2 :=
  (Respaced.of_mems _ (newBlob_mems s cells len)).trans
    (forPages_remapped (fun _ _ => replace_remapped _ _ _ _) count _).counted

theorem mapBlob_keepsBytes (s : State) (m : Handle) (page count : Nat) (cells : Memory) (len : Nat) (flags : BitVec 7) :
    keepsBytes s (s.mapBlob m page count cells len flags).2 :=
  ((newBlob_keepsBytes s cells len).trans (forPages_remapped (fun _ _ => replace_remapped _ _ _ _) count _).bytes).trans
    (bump_keepsBytes _ m)

theorem mapBlob_pte (hm : (s.space m).isSome = true) (count : Nat) (flags : BitVec 7) (x : Handle) (q : Nat) :
    (s.mapBlob m page count cells len flags).2.pte x q =
      if x = m ∧ inRange page count q = true then
        some { blob := (s.mapBlob m page count cells len flags).1, offset := (q - page) * pageSize, flags := flags }
      else s.pte x q :=
  (bump_pte (forPages (mapPage m page (s.newBlob cells len).1 flags) count (s.newBlob cells len).2) m x q).trans
    (mapPages_pte (s := (s.newBlob cells len).2) hm flags count x q)

theorem mapBlob_maps {count : Nat} {flags : BitVec 7} (h : Tables s) (hv : rangeValid page count = true)
    (hm : (s.space m).isSome = true) (hl : count * pageSize ≤ len)
    (hc : ({ cells := cells, len := len, refcount := 0 } : Blob).cellsOk = true) :
    MapsFresh s (s.mapBlob m page count cells len flags).2 m page count (s.mapBlob m page count cells len flags).1 cells len
      flags := by
  have hr := mapBlob_retabled (page := page) flags hv hm hl hc
  have hfree := (newBlob_free s cells len).1
  have hkept : s.entriesKept (s.mapBlob m page count cells len flags).2 _ :=
    entriesKept_of_range (g := fun k _ => some { blob := _, offset := k * pageSize, flags := flags })
      (mapBlob_pte hm count flags)
  refine ⟨hfree, ?blob, fun k hk => ?entry, hkept, ?bytes, (mapBlob_respaced s m page count cells len flags).tables,
    hr.rest.sameContexts⟩
  case blob =>
    have hf := mapPages_find (s := (s.newBlob cells len).2) (page := page) hm
      (fun q e he => h.counted.blob_ne_free he hfree) (newBlob_self s cells len) flags count
    rw [Nat.zero_add] at hf
    exact (congrArg (mapFind · _) (bump_blobs _ m).1).trans hf
  case entry =>
    rw [mapBlob_pte hm, if_pos ⟨rfl, (inRange_iff _ _ _).2 (by omega)⟩, Nat.add_sub_cancel_left]
  case bytes =>
    exact bytesKept_of_entriesKept h.counted (hr.tables h).counted (mapBlob_keepsBytes s m page count cells len flags) hkept

/-- The end of the two mapping commands, where the allocation does not fail. -/
theorem mapChecked_of_room (ho : s.drawOom.1 = false) (count : Nat) (flags : BitVec 7) :
    s.mapChecked m page count cells len flags =
      (s.drawOom.2.mapBlob m page count cells len flags).2.ok (.handle (s.drawOom.2.mapBlob m page count cells len flags).1) := by
  simp [State.mapChecked, ho]

/-- The same after the draw of the allocation. -/
theorem mapBlob_drawn {count : Nat} (h : Tables s) (hv : rangeValid page count = true) (hm : (s.space m).isSome = true)
    (hl : count * pageSize ≤ len) (hc : ({ cells := cells, len := len, refcount := 0 } : Blob).cellsOk = true)
    (flags : BitVec 7) :
    ∃ b t, s.drawOom.2.mapBlob m page count cells len flags = (b, t) ∧ Tables t ∧
      MapsFresh s t m page count b cells len flags := by
  obtain ⟨d, hdraw⟩ := s.drawOom_eq
  rw [hdraw]
  have hd : Tables { s with draws := d } := h.of_eq rfl rfl rfl
  obtain ⟨hfresh, hblob, hentries, hkept, hbytes, hspaces, hrest⟩ := mapBlob_maps (flags := flags) hd hv hm hl hc
  have ht := (mapBlob_retabled (s := { s with draws := d }) (page := page) flags hv hm hl hc).tables hd
  exact ⟨_, _, rfl, ht, hfresh, hblob, hentries, hkept, hbytes, hspaces, hrest⟩

theorem mapChecked_maps {count : Nat} (h : Tables s) (hv : rangeValid page count = true) (hm : (s.space m).isSome = true)
    (ho : s.drawOom.1 = false) (hl : count * pageSize ≤ len)
    (hc : ({ cells := cells, len := len, refcount := 0 } : Blob).cellsOk = true) (flags : BitVec 7) :
    ∃ b t, s.mapChecked m page count cells len flags = t.ok (.handle b) ∧ MapsFresh s t m page count b cells len flags := by
  obtain ⟨b, t, hr, -, hmap⟩ := mapBlob_drawn h hv hm hl hc flags
  exact ⟨b, t, by rw [mapChecked_of_room ho, hr], hmap⟩

end

/-! ### The two commands -/

section
variable {s : State} {m : BitVec 64} {page : BitVec 20} {count : BitVec 32} (hv : rangeValid page.toNat count.toNat = true)
  (hm : (s.space m.toNat).isSome = true)

include hv hm

theorem exec_asmMap_region {bytes : List Byte} (hl : count.toNat * pageSize ≤ bytes.length) (flags : BitVec 7) :
    exec (.asmMap m page count (.region bytes) flags) s =
      .next (s.mapChecked m.toNat page.toNat count.toNat (cellsFrom 0 bytes) bytes.length flags) := by
  simp [exec, execAsmMap, hv, Option.isSome_iff_ne_none.1 hm, Nat.not_lt.2 hl]

theorem exec_asmMapAnon (flags : BitVec 7) :
    exec (.asmMapAnon m page count flags) s =
      .next (s.mapChecked m.toNat page.toNat count.toNat [] (count.toNat * pageSize) (flags ||| 0x40#7)) := by
  simp [exec, execAsmMapAnon, hv, Option.isSome_iff_ne_none.1 hm, setBit, pAnonBit]
  rfl

end

/-- Settles O38: both commands end by mapping a fresh blob, of the region's bytes or of zeros. -/
theorem mappingInstallsRange : Obligations.MappingInstallsRange := by
  intro s m page count flags hinv hv hm ho
  have h := ((inv_iff_sound s).1 hinv).tables
  refine ⟨fun bytes hl => ?map, ?mapAnon⟩
  case map =>
    obtain ⟨b, t, ht, hmap⟩ := mapChecked_maps h hv hm ho hl (cellsOk_region bytes 0) flags
    have hexec := exec_asmMap_region hv hm hl flags
    rw [ht] at hexec
    refine ⟨_, b, hexec, rfl, hmap.fresh, hmap.counts, hmap.entries, fun k hk => ?_, hmap.kept, hmap.bytes, hmap.spaces,
      hmap.rest⟩
    have hlt : k < bytes.length := lt_of_lt_of_le hk hl
    refine (hmap.byte hk).trans ?_
    rw [cellsFrom_read, dif_pos ⟨Nat.zero_le k, hlt⟩]
    exact (List.getElem?_eq_getElem hlt).symm
  case mapAnon =>
    obtain ⟨b, t, ht, hmap⟩ := mapChecked_maps h hv hm ho (Nat.le_refl _) (cellsOk_zeros _ 0) (flags ||| 0x40#7)
    have hexec := exec_asmMapAnon hv hm flags
    rw [ht] at hexec
    exact ⟨_, b, hexec, rfl, hmap.fresh, hmap.counts, hmap.entries, fun k hk => hmap.byte hk, hmap.kept, hmap.bytes,
      hmap.spaces, hmap.rest⟩

end Sys2Proof.Machine
end

section
/-! SUPPORT. Copy-on-write sharing (spec/43_address_space.md R329): the entries of both ranges, the bytes, and the counters. -/

namespace Sys2Proof.Machine

/-- The entry of a shared page, on both sides. -/
def Pte.shared (e : Pte) : Pte := { e with flags := sharedFlags e.flags }

theorem sharedFlags_getLsbD (flags : BitVec 7) {j : Nat} (hj : j < 7) :
    (sharedFlags flags).getLsbD j = if j = 4 then true else if j = 5 then false else flags.getLsbD j := by
  unfold sharedFlags pCowBit pCompiledBit
  rw [setBit_getLsbD _ _ _ _ hj, setBit_getLsbD _ _ _ _ hj]
  split
  · next h5 => subst h5; rfl
  · rfl

section
variable {s : State} {m m2 : Handle} {page page2 : Nat}

/-- Sharing a page: the destination gets the source's entry where there is one, and the source's entry is marked. -/
theorem sharePage_pte {p p2 : Nat} (hm2 : (s.space m2).isSome = true) (x : Handle) (y : Nat) :
    (s.sharePage m p m2 p2).pte x y =
      if x = m2 ∧ y = p2 then ((s.pte m p).map Pte.shared).or (s.pte m2 p2)
      else if x = m ∧ y = p then (s.pte m p).map Pte.shared else s.pte x y := by
  unfold State.sharePage
  cases he : s.pte m p with
  | none =>
    simp only [Option.map_none, Option.none_or]
    split
    · next h => rw [h.1, h.2]
    · split
      · next h => rw [h.1, h.2, he]
      · rfl
  | some e =>
    obtain ⟨sp, hs, -⟩ := pte_eq_some he
    have hsource : ((s.remove m2 p2).space m).isSome = true := by rw [remove_space_isSome, hs]; rfl
    have hdest : (((s.remove m2 p2).putPte m p e.shared).space m2).isSome = true := by
      rw [putPte_space_isSome, remove_space_isSome]
      exact hm2
    obtain ⟨spm, hspm⟩ := Option.isSome_iff_exists.1 hsource
    obtain ⟨spd, hspd⟩ := Option.isSome_iff_exists.1 hdest
    show (((s.remove m2 p2).putPte m p e.shared).install m2 p2 e.shared).pte x y = _
    rw [install_pte, hspd, putPte_pte, hspm, remove_pte]
    split
    · rfl
    · split <;> rfl

/-- Sharing the pages of a range. -/
abbrev State.sharePages (s : State) (m : Handle) (page : Nat) (m2 : Handle) (page2 n : Nat) : State :=
  forPages (fun k u => u.sharePage m (page + k) m2 (page2 + k)) n s

/-- What the entries are once the first `n` pages are shared, where the ranges have no page in common. -/
structure Shared (s t : State) (m : Handle) (page : Nat) (m2 : Handle) (page2 n : Nat) : Prop where
  source : ∀ k, k < n → t.pte m (page + k) = (s.pte m (page + k)).map Pte.shared
  dest : ∀ k, k < n → t.pte m2 (page2 + k) = ((s.pte m (page + k)).map Pte.shared).or (s.pte m2 (page2 + k))
  kept : ∀ x p, ¬(x = m ∧ inRange page n p = true) → ¬(x = m2 ∧ inRange page2 n p = true) → t.pte x p = s.pte x p

theorem sharePages_shared (hm2 : (s.space m2).isSome = true) {count : Nat}
    (hapart : m = m2 → ∀ j k, j < count → k < count → page + j ≠ page2 + k) (n : Nat) (hn : n ≤ count) :
    Shared s (s.sharePages m page m2 page2 n) m page m2 page2 n := by
  induction n with
  | zero => exact ⟨nofun, nofun, fun _ _ _ _ => rfl⟩
  | succ n ih =>
    obtain ⟨hsource, hdest, hkept⟩ := ih (by omega)
    set t := s.sharePages m page m2 page2 n
    have hmt : (t.space m2).isSome = true :=
      (forPages_space_isSome (fun k u => sharePage_space_isSome u m _ m2 _ m2) n s).trans hm2
    have hpte := sharePage_pte (m := m) (p := page + n) (p2 := page2 + n) hmt
    simp only [inRange_iff] at hkept
    have hs : t.pte m (page + n) = s.pte m (page + n) := by
      refine hkept m _ (by omega) fun ⟨he, hle, hlt⟩ => ?_
      exact hapart he n (page + n - page2) hn (by omega) (by omega)
    have hd : t.pte m2 (page2 + n) = s.pte m2 (page2 + n) := by
      refine hkept m2 _ (fun ⟨he, hle, hlt⟩ => ?_) (by omega)
      exact hapart he.symm (page2 + n - page) n (by omega) hn (by omega)
    rw [hs, hd] at hpte
    refine ⟨fun k hk => (hpte m (page + k)).trans ?source, fun k hk => (hpte m2 (page2 + k)).trans ?dest,
      fun x p h1 h2 => (hpte x p).trans ?kept⟩
    case source =>
      rw [if_neg fun h => hapart h.1 k n (by omega) hn h.2]
      obtain hlt | rfl := Nat.lt_succ_iff_lt_or_eq.1 hk
      · rw [if_neg (by omega), hsource k hlt]
      · rw [if_pos ⟨rfl, rfl⟩]
    case dest =>
      obtain hlt | rfl := Nat.lt_succ_iff_lt_or_eq.1 hk
      · rw [if_neg (by omega), if_neg fun h => hapart h.1.symm n k hn (by omega) h.2.symm, hdest k hlt]
      · rw [if_pos ⟨rfl, rfl⟩]
    case kept =>
      rw [inRange_iff] at h1 h2
      rw [if_neg (fun hp : x = m2 ∧ p = page2 + n => h2 ⟨hp.1, by omega⟩),
        if_neg (fun hp : x = m ∧ p = page + n => h1 ⟨hp.1, by omega⟩)]
      exact hkept x p (fun ⟨hx, hp⟩ => h1 ⟨hx, by omega⟩) fun ⟨hx, hp⟩ => h2 ⟨hx, by omega⟩

theorem shareRange_pte (s : State) (m : Handle) (page count : Nat) (m2 : Handle) (page2 : Nat) (x : Handle) (p : Nat) :
    (s.shareRange m page count m2 page2).pte x p = (s.sharePages m page m2 page2 count).pte x p := by
  unfold State.shareRange
  simp only
  split
  · exact bump_pte _ m x p
  · exact (bump_pte _ m2 x p).trans (bump_pte _ m x p)

theorem shareRange_shared (hm2 : (s.space m2).isSome = true) {count : Nat}
    (hapart : m = m2 → ∀ j k, j < count → k < count → page + j ≠ page2 + k) :
    Shared s (s.shareRange m page count m2 page2) m page m2 page2 count := by
  have h := sharePages_shared hm2 hapart count (Nat.le_refl _)
  constructor <;> simp only [shareRange_pte]
  · exact h.source
  · exact h.dest
  · exact h.kept

/-- Only the entries before matter. -/
theorem Shared.of_mems {u t : State} {count : Nat} (h : Shared u t m page m2 page2 count) (hm : u.mems = s.mems) :
    Shared s t m page m2 page2 count := by
  obtain ⟨hsource, hdest, hkept⟩ := h
  simp only [pte_congr hm] at hsource hdest hkept
  exact ⟨hsource, hdest, hkept⟩

/-- Both counters grow, once where the spaces are one (R329, R340). -/
theorem shareRange_respaced (s : State) (m : Handle) (page count : Nat) (m2 : Handle) (page2 : Nat) :
    Respaced (either m m2) (either m m2) s (s.shareRange m page count m2 page2) := by
  have hp := (forPages_remapped (fun k u => sharePage_remapped u m (page + k) m2 (page2 + k)) count s).spaces
  have hb := hp.bump (m := m) (by simp [either]) rfl
  unfold State.shareRange
  simp only
  split
  · next he =>
    have hg : (fun x => x == m || noGrowth x) = either m m2 := funext fun x => by simp [either, noGrowth, he]
    exact hg ▸ hb
  · next he =>
    have hg : (fun x => x == m2 || (x == m || noGrowth x)) = either m m2 :=
      funext fun x => by simp [either, noGrowth, Bool.or_comm]
    exact hg ▸ hb.bump (m := m2) (by simp [either]) (by simpa [noGrowth] using he)

theorem shareRange_keepsBytes (s : State) (m : Handle) (page count : Nat) (m2 : Handle) (page2 : Nat) :
    keepsBytes s (s.shareRange m page count m2 page2) := by
  have hp := (forPages_remapped (fun k u => sharePage_remapped u m (page + k) m2 (page2 + k)) count s).bytes
  unfold State.shareRange
  simp only
  split
  · exact hp.trans (bump_keepsBytes _ m)
  · exact (hp.trans (bump_keepsBytes _ m)).trans (bump_keepsBytes _ m2)

end

/-- Sharing, where the operands are good. -/
theorem exec_asmCow {s : State} {m m2 : BitVec 64} {page page2 : BitVec 20} {count : BitVec 32}
    (hv : rangeValid page.toNat count.toNat = true) (hv2 : rangeValid page2.toNat count.toNat = true)
    (hm : (s.space m.toNat).isSome = true) (hm2 : (s.space m2.toNat).isSome = true)
    (hapart : ¬(m = m2 ∧ page.toNat < page2.toNat + count.toNat ∧ page2.toNat < page.toNat + count.toNat)) :
    exec (.asmCow m page count m2 page2) s =
      if s.drawOom.1 = true then .next (s.drawOom.2.fail .outOfMemory)
      else .next ((s.drawOom.2.shareRange m.toNat page.toNat count.toNat m2.toNat page2.toNat).ok
        (.u32 (BitVec.ofNat 32 (s.mappedCount m.toNat page.toNat count.toNat)))) := by
  have hoverlap : ¬(m = m2 ∧ rangesOverlap page.toNat page2.toNat count.toNat = true) := by simpa [rangesOverlap] using hapart
  simp only [exec, execAsmCow]
  rw [if_neg (by simp [hv, hv2, Option.isSome_iff_ne_none.1 hm, Option.isSome_iff_ne_none.1 hm2]), if_neg hoverlap]

/-- A page's address has the page's index. -/
theorem pageOf_address {p o : Nat} (ho : o < 4096) : pageOf (p * 4096 + o) = p := by
  unfold pageOf pageSize
  omega

/-- Settles O41: the shared entries name the source's page, whose bytes stay. -/
theorem sharingInstallsBoth : Obligations.SharingInstallsBoth := by
  intro s m m2 page page2 count hinv hv hv2 hm hm2 ho hapart
  have h := ((inv_iff_sound s).1 hinv).tables
  have hne : m.toNat = m2.toNat → ∀ j k, j < count.toNat → k < count.toNat → page.toNat + j ≠ page2.toNat + k := by
    intro he j k hj hk hjk
    exact hapart ⟨BitVec.eq_of_toNat_eq he, by omega, by omega⟩
  have hm2d : (s.drawOom.2.space m2.toNat).isSome = true := by rwa [space_congr s.drawOom_mems]
  set t := s.drawOom.2.shareRange m.toNat page.toNat count.toNat m2.toNat page2.toNat
  have hr : Retabled s t := (drawOom_retabled s).trans
    (shareRange_retabled hm2d ((rangeValid_iff _ _).1 hv2).2 fun k hk hc => hne hc.1 k k hk hk hc.2)
  have ht := hr.tables h
  have hbytes : keepsBytes s t := (keepsBytes_of_eq (by simp) (by simp)).trans (shareRange_keepsBytes _ _ _ _ _ _)
  have hspaces : Respaced (either m.toNat m2.toNat) _ s t :=
    (Respaced.of_mems _ s.drawOom_mems).trans (shareRange_respaced _ _ _ _ _ _)
  obtain ⟨hsource, hdest, hkept⟩ : Shared s t _ _ _ _ _ := (shareRange_shared hm2d hne).of_mems s.drawOom_mems
  refine ⟨t.ok _, (exec_asmCow hv hv2 hm hm2 hapart).trans (if_neg (by simp [ho])), ?resp, fun k hk => ⟨fun hnone => ?unmapped, fun e he => ?mapped⟩,
    fun x p hc => ?kept, fun x a hc => ?bytes, hspaces.tables, hr.rest.sameContexts⟩
  case resp => rw [List.countP_eq_length_filter]; rfl
  case unmapped =>
    have hs := hsource k hk
    have hd := hdest k hk
    rw [hnone] at hs hd
    exact ⟨hs, hd⟩
  case mapped =>
    have hs := hsource k hk
    have hd := hdest k hk
    rw [he] at hs hd
    refine ⟨sharedFlags e.flags, fun j hj => sharedFlags_getLsbD _ hj, hs, hd, fun o hlt => ⟨?_, ?_⟩⟩
    · exact byteOf_of_entry h.counted ht.counted hbytes (by rwa [pageOf_address hlt]) (by rw [pageOf_address hlt]; exact hs) rfl
    · exact byteOf_of_entry h.counted ht.counted hbytes (by rwa [pageOf_address hlt]) (by rw [pageOf_address hlt]; exact hd)
        (by simp [pageSize])
  case kept =>
    simp only [Bool.or_eq_false_iff] at hc
    exact hkept x p (by simpa using hc.1) (by simpa using hc.2)
  case bytes =>
    have hdest' : ¬(x = m2.toNat ∧ inRange page2.toNat count.toNat (pageOf a) = true) := by simpa using hc
    by_cases hx : x = m.toNat ∧ inRange page.toNat count.toNat (pageOf a) = true
    · obtain ⟨rfl, hr⟩ := hx
      obtain ⟨hle, hlt⟩ := (inRange_iff _ _ _).1 hr
      have hs := hsource (pageOf a - page.toNat) (by omega)
      rw [Nat.add_sub_cancel' hle] at hs
      cases he : s.pte m.toNat (pageOf a) with
      | none => exact byteOf_of_kept h.counted ht.counted hbytes (by rw [hs, he]; rfl)
      | some e => exact byteOf_of_entry h.counted ht.counted hbytes he (f := sharedFlags e.flags) (by rw [hs, he]; rfl) rfl
    · exact byteOf_of_kept h.counted ht.counted hbytes (hkept x (pageOf a) hx hdest')

end Sys2Proof.Machine
end

section
/-! SUPPORT. Translation (spec/43_address_space.md R331–R335): an equation per case, the first mapped page above one that is not, and
that duplication and growth each map a fresh blob over one page. -/

namespace Sys2Proof.Machine

theorem drawOom_sameButDraws (s : State) : sameButDraws s s.drawOom.2 := by
  unfold State.drawOom
  split <;> rfl

section
variable {s t : State} {m p addr : Nat} {kind : Access} {e : Pte}

/-! ### The cases of a translation -/

theorem translate_of_mapped (he : s.pte m (pageOf addr) = some e) :
    s.translate m addr kind = s.translateMapped m addr kind e := by
  obtain ⟨sp, hs, -⟩ := pte_eq_some he
  simp [State.translate, hs, he]

theorem translate_of_grown (hm : (s.space m).isSome = true) (hp : s.pte m (pageOf addr) = none)
    (hg : s.grow m (pageOf addr) = (.ok e, t)) : s.translate m addr kind = t.translateMapped m addr kind e := by
  simp [State.translate, Option.isSome_iff_ne_none.1 hm, hp, hg]

theorem translate_of_not_grown (hm : (s.space m).isSome = true) (hp : s.pte m (pageOf addr) = none) {f : Failure}
    (hg : s.grow m (pageOf addr) = (.error f, t)) : s.translate m addr kind = (.fail f, t) := by
  simp [State.translate, Option.isSome_iff_ne_none.1 hm, hp, hg]

theorem translateMapped_of_inPlace (s : State) (m addr : Nat) (hk : e.inPlace kind) :
    s.translateMapped m addr kind e = (e.pointer addr, s) := by
  cases kind with
  | read => rfl
  | write => simp [State.translateMapped, hk.1, hk.2]

theorem translateMapped_of_readOnly (s : State) (m addr : Nat) (hw : writable e.flags = false) :
    s.translateMapped m addr .write e = (.fail .noTranslation, s) := by
  simp [State.translateMapped, hw]

/-- A write to a shared page is a duplication (R333, R334). -/
theorem translateMapped_of_shared (hw : writable e.flags = true) (hc : copyOnWrite e.flags = true) {e2 : Pte}
    (hd : s.duplicate m (pageOf addr) e = (some (.ok e2), t)) :
    s.translateMapped m addr .write e = (e2.pointer addr, t) := by
  simp [State.translateMapped, hw, hc, hd]

theorem translateMapped_of_not_duplicated (hw : writable e.flags = true) (hc : copyOnWrite e.flags = true) {f : Failure}
    (hd : s.duplicate m (pageOf addr) e = (some (.error f), t)) :
    s.translateMapped m addr .write e = (.fail f, t) := by
  simp [State.translateMapped, hw, hc, hd]

end

section
variable {s t : State} {m : BitVec 64} {addr : BitVec 32} {kind : Access}

theorem exec_asmTranslate_ok {b : Handle} {o : Nat} {f : BitVec 7}
    (h : s.translate m.toNat addr.toNat kind = (.ok b o f, t)) :
    exec (.asmTranslate m addr kind) s = .next (t.ok (.pointer b o f)) := by
  simp [exec, execAsmTranslate, h]

theorem exec_asmTranslate_fail {f : Failure} (h : s.translate m.toNat addr.toNat kind = (.fail f, t)) :
    exec (.asmTranslate m addr kind) s = .next (t.fail f) := by
  simp [exec, execAsmTranslate, h]

end

/-- Settles O43: the page is accessed in place, or refused as it stands. -/
theorem translationOfMappedPage : Obligations.TranslationOfMappedPage := by
  intro s m addr e he
  have ht := fun kind => translate_of_mapped (kind := kind) (addr := addr.toNat) he
  refine ⟨exec_asmTranslate_ok ?_, fun hw hc => exec_asmTranslate_ok ?_, fun hw => exec_asmTranslate_fail ?_⟩
  · exact (ht .read).trans (translateMapped_of_inPlace s _ _ trivial)
  · exact (ht .write).trans (translateMapped_of_inPlace s _ _ ⟨hw, hc⟩)
  · exact (ht .write).trans (translateMapped_of_readOnly s _ _ hw)

/-! ### One page of a fresh blob -/

theorem inRange_one (p q : Nat) : inRange p 1 q = (q == p) := by
  rw [Bool.eq_iff_iff, inRange_iff, beq_iff_eq]
  omega

theorem rangeValid_one {p : Nat} (h : p < numPages) : rangeValid p 1 = true :=
  (rangeValid_iff p 1).2 ⟨Nat.le_refl 1, h⟩

/-- Duplication maps the copy over the page (R334). -/
theorem duplicate_of_room {s : State} {m : Handle} {p : Nat} {e : Pte} {old : Blob} (ho : s.drawOom.1 = false)
    (hb : mapFind s.blobs e.blob = some old) (hl : e.offset + pageSize ≤ old.len) :
    let r := s.drawOom.2.mapBlob m p 1 (pageCells old.cells e.offset) pageSize (setBit e.flags pCowBit false)
    s.duplicate m p e = (some (.ok { blob := r.1, offset := 0, flags := setBit e.flags pCowBit false }), r.2) := by
  simp [State.duplicate, ho, hb, hl, State.mapBlob, forPages]

theorem duplicate_of_oom {s : State} (m : Handle) (p : Nat) (e : Pte) (ho : s.drawOom.1 = true) :
    s.duplicate m p e = (some (.error .outOfMemory), s.drawOom.2) := by
  simp [State.duplicate, ho]

/-- Growth maps zeros over the page (R332). -/
theorem grow_of_room {s : State} {m : Handle} {p : Nat} {above : Pte}
    (ha : (s.space m).bind (fun sp => nextAbove sp.pages p) = some above) (hg : growsDown above.flags = true)
    (ho : s.drawOom.1 = false) (hp : s.pte m p = none) :
    let r := s.drawOom.2.mapBlob m p 1 [] pageSize grownFlags
    s.grow m p = (.ok { blob := r.1, offset := 0, flags := grownFlags }, r.2) := by
  have hnone : (s.drawOom.2.newBlob [] pageSize).2.pte m p = none := by
    rw [pte_congr ((newBlob_mems _ _ _).trans s.drawOom_mems)]
    exact hp
  simp [State.grow, ha, hg, ho, State.mapBlob, forPages, State.replace, remove_of_none hnone]

theorem grow_of_oom {s : State} {m : Handle} {p : Nat} {above : Pte}
    (ha : (s.space m).bind (fun sp => nextAbove sp.pages p) = some above) (hg : growsDown above.flags = true)
    (ho : s.drawOom.1 = true) : s.grow m p = (.error .outOfMemory, s.drawOom.2) := by
  simp [State.grow, ha, hg, ho]

/-- Where nothing is above, or what is does not grow down, no page is made. -/
theorem grow_of_not_growsDown {s : State} {m : Handle} {p : Nat}
    (ha : ∀ above, (s.space m).bind (fun sp => nextAbove sp.pages p) = some above → growsDown above.flags = false) :
    s.grow m p = (.error .noTranslation, s) := by
  unfold State.grow
  split
  · rfl
  · next above h => rw [ha above h]; rfl

section
variable {s t : State} {m : Handle} {p : Nat} {b : Handle} {cells : Memory} {flags : BitVec 7}
  (h : MapsFresh s t m p 1 b cells pageSize flags)

include h

theorem MapsFresh.entry : t.pte m p = some { blob := b, offset := 0, flags := flags } := h.entries 0 Nat.one_pos

theorem MapsFresh.pageKept : s.entriesKept t fun x q => x == m && q == p := by
  simpa only [inRange_one] using h.kept

theorem MapsFresh.pageBytes : s.bytesKept t fun x q => x == m && q == p := by
  simpa only [inRange_one] using h.bytes

/-- The page's bytes are the blob's. -/
theorem MapsFresh.pageByte {a : Nat} (ha : pageOf a = p) : t.byteOf m a = some (Memory.read cells (a % pageSize)) := by
  have hsplit : p * pageSize + a % pageSize = a := by rw [← ha, pageOf, Nat.div_add_mod']
  have hlt : a % pageSize < 1 * pageSize := by rw [Nat.one_mul]; exact Nat.mod_lt a (by decide)
  rw [← h.byte hlt, hsplit]

end

/-! ### Duplication -/

/-- Settles O44: the copy is a fresh blob's page with the bytes of the old one. -/
theorem writeDuplicatesSharedPage : Obligations.WriteDuplicatesSharedPage := by
  intro s m addr e hinv he hw hc
  replace he : s.pte m.toNat (pageOf addr.toNat) = some e := he
  have h := ((inv_iff_sound s).1 hinv).tables
  have htranslate := translate_of_mapped (kind := .write) he
  refine ⟨fun ho => ?oom, fun ho => ?room⟩
  case oom =>
    refine ⟨_, exec_asmTranslate_fail (htranslate.trans ?_), rfl, (drawOom_sameButDraws s).respond _⟩
    exact translateMapped_of_not_duplicated hw hc (duplicate_of_oom _ _ e ho)
  case room =>
    obtain ⟨old, hb, hl⟩ := h.counted.backed m.toNat _ e he
    have hcells := h.counted.cells e.blob old (hostBlob_of_live hb)
    obtain ⟨sp, hs, -⟩ := pte_eq_some he
    obtain ⟨b, t, hr, ht, hmap⟩ := mapBlob_drawn h (rangeValid_one (pageOf_lt addr.isLt)) (by rw [hs]; rfl)
      (Nat.one_mul _).le (cellsOk_page hcells e.offset 0) (setBit e.flags pCowBit false)
    have hd := duplicate_of_room (m := m.toNat) (p := pageOf addr.toNat) ho hb hl
    rw [hr] at hd
    have hexec := exec_asmTranslate_ok (htranslate.trans (translateMapped_of_shared hw hc hd))
    rw [Nat.zero_add] at hexec
    refine ⟨_, b, _, hexec, rfl, fun j hj => setBit_getLsbD _ _ _ _ hj, hmap.fresh, hmap.counts, hmap.entry,
      fun x p g hg hgb => ?only, hmap.pageKept, fun x a => ?bytes, hmap.spaces, hmap.rest, ht.live_iff e.blob⟩
    case only =>
      by_contra hne
      have hsame : t.pte x p = s.pte x p := hmap.pageKept x p (by simpa [pageOf, pageSize] using hne)
      exact h.counted.blob_ne_free (hsame.symm.trans hg) hmap.fresh hgb
    case bytes =>
      by_cases hx : x = m.toNat ∧ pageOf a = pageOf addr.toNat
      · obtain ⟨rfl, ha⟩ := hx
        refine (hmap.pageByte ha).trans ?_
        rw [pageCells_read ((Blob.cellsOk_iff old).1 hcells).1 _ _ (Nat.mod_lt a (by decide))]
        simp [State.byteOf, State.byteAt, ha, he, hb]
      · exact hmap.pageBytes x a (by simpa using hx)

/-! ### Growth -/

/-- The first mapped page above one is what the search finds (R332). -/
theorem nextAbove_eq_some {pages : List (Nat × Pte)} (hr : keysRising pages = true) {p q : Nat} {above : Pte} (hpq : p < q)
    (hq : mapFind pages q = some above) (hgap : ∀ j, p < j → j < q → mapFind pages j = none) :
    nextAbove pages p = some above := by
  induction pages with
  | nil => cases hq
  | cons x rest ih =>
    obtain ⟨j, w⟩ := x
    obtain ⟨hlt, hrest⟩ := (keysRising_cons j w rest).1 hr
    unfold nextAbove
    rw [List.find?_cons]
    by_cases hj : p < j
    · have hqj : q = j := by
        by_contra hne
        rw [mapFind, if_neg hne] at hq
        have hjq : j < q := hlt _ (mapFind_mem hq)
        have hnone := hgap j hj hjq
        simp [mapFind] at hnone
      rw [mapFind, if_pos hqj] at hq
      simpa [hj] using hq
    · rw [mapFind, if_neg (by omega)] at hq
      have hfound := ih hrest hq fun k hk hkq => by
        have hnone := hgap k hk hkq
        rwa [mapFind, if_neg (by omega)] at hnone
      simpa [hj, nextAbove] using hfound

theorem nextAbove_eq_none {pages : List (Nat × Pte)} (hr : keysRising pages = true) {p : Nat}
    (h : ∀ q, p < q → mapFind pages q = none) : nextAbove pages p = none := by
  unfold nextAbove
  rw [Option.map_eq_none_iff, List.find?_eq_none]
  intro x hx
  have hf : mapFind pages x.1 = some x.2 := mapFind_of_mem hr hx
  by_contra hlt
  rw [h x.1 (by simpa using hlt)] at hf
  cases hf

theorem grownFlags_inPlace : writable grownFlags = true ∧ copyOnWrite grownFlags = false := by decide

/-- A grown page can be read and written in place. -/
theorem grown_inPlace (b : Handle) (kind : Access) : ({ blob := b, offset := 0, flags := grownFlags } : Pte).inPlace kind := by
  cases kind with
  | read => trivial
  | write => exact grownFlags_inPlace

/-- Settles O45: the page found above decides, and the page made is a fresh blob of zeros. -/
theorem stackGrowth : Obligations.StackGrowth := by
  intro s m addr kind hinv hm hp
  replace hp : s.pte m.toNat (pageOf addr.toNat) = none := hp
  have h := ((inv_iff_sound s).1 hinv).tables
  obtain ⟨sp, hs⟩ := Option.isSome_iff_exists.1 hm
  have hrising := h.counted.pages _ sp hs
  have hfind : ∀ q, s.pte m.toNat q = mapFind sp.pages q := fun q => pte_of_space hs
  have habove : (s.space m.toNat).bind (fun sp => nextAbove sp.pages (pageOf addr.toNat)) =
      nextAbove sp.pages (pageOf addr.toNat) := by rw [hs]; rfl
  have refused : (∀ above, nextAbove sp.pages (pageOf addr.toNat) = some above → growsDown above.flags = false) →
      exec (.asmTranslate m addr kind) s = .next (s.fail .noTranslation) := fun hno =>
    exec_asmTranslate_fail (translate_of_not_grown hm hp (grow_of_not_growsDown (habove ▸ hno)))
  refine ⟨fun hnone => refused ?none, fun q above hq hab hgap => ?above⟩
  case none =>
    have hno : nextAbove sp.pages (pageOf addr.toNat) = none :=
      nextAbove_eq_none hrising fun q hq => (hfind q).symm.trans (hnone q hq)
    rw [hno]
    exact nofun
  case above =>
    have hnext := nextAbove_eq_some hrising hq ((hfind q).symm.trans hab) fun j hj hjq => (hfind j).symm.trans (hgap j hj hjq)
    refine ⟨fun hg => refused fun above' hab' => ?fixed, fun hg ho => ?oom, fun hg ho => ?room⟩
    case fixed =>
      cases hnext.symm.trans hab'
      exact hg
    case oom =>
      exact ⟨_, exec_asmTranslate_fail (translate_of_not_grown hm hp (grow_of_oom (habove.trans hnext) hg ho)), rfl,
        (drawOom_sameButDraws s).respond _⟩
    case room =>
      obtain ⟨b, t, hr, -, hmap⟩ := mapBlob_drawn h (rangeValid_one (pageOf_lt addr.isLt)) hm (Nat.one_mul _).le
        (cellsOk_zeros pageSize 0) grownFlags
      have hgrow := grow_of_room (habove.trans hnext) hg ho hp
      rw [hr] at hgrow
      have hexec := exec_asmTranslate_ok ((translate_of_grown (kind := kind) hm hp hgrow).trans
        (translateMapped_of_inPlace t _ _ (grown_inPlace b kind)))
      rw [Nat.zero_add] at hexec
      exact ⟨_, b, hexec, rfl, hmap.fresh, hmap.counts, hmap.entry, fun o hlt => hmap.pageByte (pageOf_address hlt),
        hmap.pageKept, hmap.pageBytes, hmap.spaces, hmap.rest⟩

end Sys2Proof.Machine
end

section
/-! SUPPORT. Address spaces made, retained and released, and ranges unmapped and protected (spec/43_address_space.md R321–R323, R326,
R327). -/

namespace Sys2Proof.Machine

/-! ### Unmapping and protecting a range -/

theorem allMapped_iff (s : State) (m : Handle) (page count : Nat) :
    s.allMapped m page count = true ↔ ∀ k, k < count → (s.pte m (page + k)).isSome = true := by
  simp [State.allMapped]

theorem unmapPages_pte {s : State} {m : Handle} (hm : (s.space m).isSome = true) (page n : Nat) (x : Handle) (p : Nat) :
    (forPages (fun k u => u.remove m (page + k)) n s).pte x p =
      if x = m ∧ inRange page n p = true then none else s.pte x p :=
  forPages_pte (g := fun _ _ => none) (fun _ u x => remove_space_isSome u m _ x) (fun _ u x p _ => remove_pte u m _ x p) hm n x p

/-- An entry with its three protection bits replaced (R327). -/
def Pte.protect (flags : BitVec 7) (e : Pte) : Pte := { e with flags := Machine.protect e.flags flags }

theorem protect_getLsbD (old new : BitVec 7) {j : Nat} (hj : j < 7) :
    (protect old new).getLsbD j = if j ≤ 2 then new.getLsbD j else old.getLsbD j := by
  have hkeep : (0x78#7).getLsbD j = decide (¬j ≤ 2) := by interval_cases j <;> rfl
  have htake : (0x07#7).getLsbD j = decide (j ≤ 2) := by interval_cases j <;> rfl
  rw [protect, BitVec.getLsbD_or, BitVec.getLsbD_and, BitVec.getLsbD_and, hkeep, htake]
  by_cases h : j ≤ 2 <;> simp [h]

theorem protectPage_pte (s : State) (m : Handle) (flags : BitVec 7) (p : Nat) (x : Handle) (y : Nat) :
    (s.protectPage m flags p).pte x y =
      if x = m ∧ y = p then (s.pte m p).map (Pte.protect flags) else s.pte x y := by
  unfold State.protectPage
  split
  · next he =>
    split
    · next h => rw [h.1, h.2, he]; rfl
    · rfl
  · next e he =>
    obtain ⟨sp, hs, -⟩ := pte_eq_some he
    rw [putPte_pte, hs, he]
    rfl

theorem protectPage_space_isSome (s : State) (m : Handle) (flags : BitVec 7) (p : Nat) (x : Handle) :
    ((s.protectPage m flags p).space x).isSome = (s.space x).isSome := by
  unfold State.protectPage
  split
  · rfl
  · exact putPte_space_isSome _ _ _ _ _

theorem protectPages_pte {s : State} {m : Handle} (hm : (s.space m).isSome = true) (flags : BitVec 7) (page n : Nat)
    (x : Handle) (p : Nat) :
    (forPages (fun k u => u.protectPage m flags (page + k)) n s).pte x p =
      if x = m ∧ inRange page n p = true then (s.pte m p).map (Pte.protect flags) else s.pte x p := by
  refine forPages_pte (g := fun _ => Option.map (Pte.protect flags))
    (fun _ u x => protectPage_space_isSome u m flags _ x) (fun k u x p _ => ?_) hm n x p
  rw [protectPage_pte]
  split
  · next h => rw [h.2]
  · rfl

/-- What each page's change leaves, the change of a range leaves. -/
theorem forPages_keeps {α : Type} {f : Nat → State → State} (view : State → α) (h : ∀ k u, view (f k u) = view u) (n : Nat)
    (s : State) : view (forPages f n s) = view s := by
  induction n with
  | zero => rfl
  | succ n ih => exact (h n _).trans ih

theorem protectPage_blobs (s : State) (m : Handle) (flags : BitVec 7) (p : Nat) :
    (s.protectPage m flags p).blobs = s.blobs ∧ (s.protectPage m flags p).graves = s.graves := by
  unfold State.protectPage
  split
  · exact ⟨rfl, rfl⟩
  · exact putPte_blobs _ _ _ _

/-- Where the blobs stay, an entry of the same page of a blob reads the same, whatever its flags. -/
theorem byteOf_of_samePage {s t : State} (hb : t.blobs = s.blobs) {x : Handle} {a : Nat}
    (he : (t.pte x (pageOf a)).map (fun e => (e.blob, e.offset)) = (s.pte x (pageOf a)).map fun e => (e.blob, e.offset)) :
    t.byteOf x a = s.byteOf x a := by
  unfold State.byteOf State.byteAt
  rw [hb]
  cases hs : s.pte x (pageOf a) <;> cases ht : t.pte x (pageOf a) <;> simp [hs, ht] at he ⊢
  rw [he.1, he.2]

section
variable {s : State} {m : BitVec 64} {page : BitVec 20} {count : BitVec 32} (hv : rangeValid page.toNat count.toNat = true)
  (hm : (s.space m.toNat).isSome = true)

include hv hm

theorem exec_asmUnmap {force : Bool}
    (hf : force = true ∨ ∀ k, k < count.toNat → (s.pte m.toNat (page.toNat + k)).isSome = true) :
    exec (.asmUnmap m page count force) s =
      .next (((forPages (fun k u => u.remove m.toNat (page.toNat + k)) count.toNat s).bump m.toNat).ok .none) := by
  have hmapped : (!force && !s.allMapped m.toNat page.toNat count.toNat) = false := by
    rcases hf with rfl | hf
    · rfl
    · rw [(allMapped_iff s _ _ _).2 hf, Bool.not_true, Bool.and_false]
  simp [exec, execAsmUnmap, hv, Option.isSome_iff_ne_none.1 hm, hmapped]

theorem exec_asmSetProt (flags : BitVec 7)
    (hf : ∀ k, k < count.toNat → (s.pte m.toNat (page.toNat + k)).isSome = true) :
    exec (.asmSetProt m page count flags) s =
      .next (((forPages (fun k u => u.protectPage m.toNat flags (page.toNat + k)) count.toNat s).bump m.toNat).ok .none) := by
  simp [exec, execAsmSetProt, hv, Option.isSome_iff_ne_none.1 hm, (allMapped_iff s _ _ _).2 hf]

end

/-- Settles O39: the range's entries are removed one after the other, and the blobs that no entry names go. -/
theorem unmappingRemovesRange : Obligations.UnmappingRemovesRange := by
  intro s m page count force hinv hv hm hf
  have h := ((inv_iff_sound s).1 hinv).tables
  have hpages := forPages_remapped (fun k u => remove_remapped u m.toNat (page.toNat + k)) count.toNat s
  have hr : Retabled s _ := (forPages_retabled (fun k u => remove_retabled u m.toNat (page.toNat + k)) count.toNat s).trans
    (bump_retabled _ m.toNat)
  have hpte : ∀ x p, State.pte _ x p = _ := fun x p =>
    (bump_pte _ m.toNat x p).trans (unmapPages_pte hm page.toNat count.toNat x p)
  have hkept := entriesKept_of_range (g := fun _ _ => none) hpte
  refine ⟨_, exec_asmUnmap hv hm hf, rfl, fun k hk => (hpte _ _).trans (if_pos ⟨rfl, (inRange_iff _ _ _).2 (by omega)⟩), hkept,
    ?bytes, hpages.counted.tables, (bump_draws _ _).trans hpages.draws, hr.rest.sameContexts, (hr.tables h).live_iff⟩
  case bytes =>
    exact bytesKept_of_entriesKept h.counted (hr.tables h).counted (hpages.bytes.trans (bump_keepsBytes _ _)) hkept

/-- Settles O40: an entry's page of its blob is not touched, so every byte reads as before. -/
theorem protectionReplacesThreeBits : Obligations.ProtectionReplacesThreeBits := by
  intro s m page count flags hv hm hf
  have hpages := forPages_remapped (fun k u => protectPage_remapped u m.toNat flags (page.toNat + k)) count.toNat s
  have hr : Retabled s _ :=
    (forPages_retabled (fun k u => protectPage_retabled u m.toNat flags (page.toNat + k)) count.toNat s).trans
      (bump_retabled _ m.toNat)
  have hblobs := forPages_keeps (fun u => (u.blobs, u.graves))
    (fun k u => Prod.ext (protectPage_blobs u m.toNat flags (page.toNat + k)).1
      (protectPage_blobs u m.toNat flags (page.toNat + k)).2) count.toNat s
  have hbump := bump_blobs (forPages (fun k u => u.protectPage m.toNat flags (page.toNat + k)) count.toNat s) m.toNat
  have hlive := hbump.1.trans (congrArg Prod.fst hblobs)
  have hpte : ∀ x p, State.pte _ x p = _ := fun x p =>
    (bump_pte _ m.toNat x p).trans (protectPages_pte hm flags page.toNat count.toNat x p)
  refine ⟨_, exec_asmSetProt hv hm flags hf, rfl, fun k e hk he => ?entry,
    entriesKept_of_range (g := fun _ => Option.map (Pte.protect flags)) hpte, fun x a => ?byte, hlive,
    hbump.2.trans (congrArg Prod.snd hblobs), hpages.counted.tables, (bump_draws _ _).trans hpages.draws,
    hr.rest.sameContexts⟩
  case entry =>
    refine ⟨protect e.flags flags, ?_, fun j hj => protect_getLsbD _ _ hj⟩
    refine (hpte _ _).trans ((if_pos ⟨rfl, (inRange_iff _ _ _).2 (by omega)⟩).trans ?_)
    rw [he]
    rfl
  case byte =>
    refine byteOf_of_samePage hlive ((congrArg _ (hpte x (pageOf a))).trans ?_)
    split
    · next h => rw [h.1, Option.map_map]; rfl
    · rfl

/-! ### Spaces (R321–R323) -/

theorem exec_asmCreate_of_oom {s : State} (ho : s.drawOom.1 = true) :
    exec .asmCreate s = .next (s.drawOom.2.fail .outOfMemory) := by
  simp [exec, execAsmCreate, ho]

theorem exec_asmCreate_of_room {s : State} (ho : s.drawOom.1 = false) :
    exec .asmCreate s = .next ((s.drawOom.2.freshMem.2.setSpace s.drawOom.2.freshMem.1
      { pages := [], gen := 0, refcount := 1, lock := .free }).ok (.handle s.drawOom.2.freshMem.1)) := by
  simp [exec, execAsmCreate, ho]

/-- Unmapping a space's own pages and taking it out leaves every other space. -/
theorem destroy_space (s : State) (m x : Handle) : (s.destroy m).space x = if x = m then none else s.space x := by
  unfold State.destroy
  split
  · next hs =>
    split
    · next hx => rw [hx, hs]
    · rfl
  · next sp hs =>
    refine (mapFind_del _ m x).trans ?_
    split
    · rfl
    · next hx => exact (foldl_remove_remapped m _ s).spaces.others x (by simpa using hx)

theorem destroy_keeps (s : State) (m : Handle) : keepsBytes s (s.destroy m) ∧ (s.destroy m).draws = s.draws := by
  unfold State.destroy
  split
  · exact ⟨.refl s, rfl⟩
  · next sp hs =>
    have hr := foldl_remove_remapped m (mapKeys sp.pages) s
    exact ⟨hr.bytes.trans (keepsBytes_of_eq rfl rfl), hr.draws⟩

section
variable {s : State} {m : BitVec 64}

theorem exec_asmRetain_of_space {sp : Space} (hs : s.space m.toNat = some sp) :
    exec (.asmRetain m) s = .next ((s.setSpace m.toNat { sp with refcount := sp.refcount + 1 }).ok .none) := by
  simp [exec, execAsmRetain, hs]

theorem exec_asmRelease_of_shared {sp : Space} (hs : s.space m.toNat = some sp) (hr : 1 < sp.refcount) :
    exec (.asmRelease m) s = .next ((s.setSpace m.toNat { sp with refcount := sp.refcount - 1 }).ok (.u1 false)) := by
  simp [exec, execAsmRelease, hs, Nat.not_le.2 hr]

theorem exec_asmRelease_of_last {sp : Space} (hs : s.space m.toNat = some sp) (hr : sp.refcount ≤ 1) :
    exec (.asmRelease m) s = .next ((s.destroy m.toNat).ok (.u1 true)) := by
  simp [exec, execAsmRelease, hs, hr]

end

/-- Settles O37: a space comes under a free handle, its owners are counted, and with the last one it goes. -/
theorem spaceLifecycle : Obligations.SpaceLifecycle := by
  intro s m hinv
  have h := ((inv_iff_sound s).1 hinv).tables
  have owners : ∀ n x, x ≠ m.toNat → ∀ sp : Space, (s.setSpace m.toNat { sp with refcount := n }).space x = s.space x :=
    fun n x hx sp => by rw [setSpace_space, if_neg hx]
  refine ⟨fun ho => ?create, fun ho => ?oom, fun hs => ?absent, fun sp hs => ⟨?retain, fun hr => ?release, fun hr => ?last⟩⟩
  case create =>
    have hspace : ∀ x, s.drawOom.2.space x = s.space x := space_congr s.drawOom_mems
    have hexec := exec_asmCreate_of_room ho
    refine ⟨_, _, hexec, rfl, (hspace _).symm.trans (freshMem_free _), freshMem_not_attached s.drawOom.2,
      (setSpace_space _ _ _ _).trans (if_pos rfl), fun x hx => ?_, s.drawOom_blobs, s.drawOom_graves,
      ((execAsmCreate_retabled s).of_next hexec).rest.sameContexts⟩
    exact ((setSpace_space _ _ _ x).trans (if_neg hx)).trans (hspace x)
  case oom => exact ⟨_, exec_asmCreate_of_oom ho, rfl, (drawOom_sameButDraws s).respond _⟩
  case absent => constructor <;> simp [exec, execAsmRetain, execAsmRelease, hs]
  case retain =>
    exact ⟨_, exec_asmRetain_of_space hs, rfl, (setSpace_space _ _ _ _).trans (if_pos rfl), fun x hx => owners _ x hx sp, rfl, rfl,
      rfl, rfl, rfl, fun _ => rfl⟩
  case release =>
    exact ⟨_, exec_asmRelease_of_shared hs hr, rfl, (setSpace_space _ _ _ _).trans (if_pos rfl), fun x hx => owners _ x hx sp, rfl,
      rfl, rfl, rfl, rfl, fun _ => rfl⟩
  case last =>
    have hd := destroy_retabled s m.toNat
    obtain ⟨hbytes, hdraws⟩ := destroy_keeps s m.toNat
    have hspace := destroy_space s m.toNat
    refine ⟨_, exec_asmRelease_of_last hs hr.le, rfl, (hspace _).trans (if_pos rfl), fun x hx => (hspace x).trans (if_neg hx), hdraws,
      hd.rest.sameContexts, (hd.tables h).live_iff, fun x a hx => ?_⟩
    refine byteOf_of_kept h.counted (hd.tables h).counted hbytes ?_
    simp only [State.pte, hspace, if_neg hx]

end Sys2Proof.Machine
end

section
/-! SUPPORT. Hole search (spec/43_address_space.md R330), and what the mapping commands refuse (R320, R324–R329, R337, R339). -/

namespace Sys2Proof.Machine

/-! ### Hole search -/

theorem holeAt_iff (pages : List (Nat × Pte)) (low high n q : Nat) :
    holeAt pages low high n q = true ↔ low < q ∧ q + n ≤ high + 1 ∧ ∀ j, j < n → mapFind pages (q + j) = none := by
  have hpages : (∀ e ∈ pages, e.1 < q ∨ q + n ≤ e.1) ↔ ∀ j, j < n → mapFind pages (q + j) = none := by
    simp only [mapFind_eq_none_iff, mapKeys, List.mem_map, not_exists, not_and]
    constructor
    · intro h j hj e he hk
      have := h e he
      omega
    · intro h e he
      by_contra hc
      exact h (e.1 - q) (by omega) e he (by omega)
  rw [holeAt, Bool.and_eq_true, decide_eq_true_iff, List.all_eq_true, and_assoc]
  simp only [decide_eq_true_eq, hpages]

/-- The search answers the highest hole: it ends at the upper bound or below a mapped page, so it is tried. -/
theorem findHole_eq_some {pages : List (Nat × Pte)} {low high n q : Nat} (hq : holeAt pages low high n q = true)
    (hmax : ∀ r, holeAt pages low high n r = true → r ≤ q) : findHole pages low high n = some q := by
  obtain ⟨hlow, hhigh, hfree⟩ := (holeAt_iff pages low high n q).1 hq
  have hend : q + n = high + 1 ∨ q + n ∈ mapKeys pages := by
    by_contra hc
    obtain ⟨hbound, hkey⟩ := not_or.1 hc
    have hnext : holeAt pages low high n (q + 1) = true := by
      refine (holeAt_iff pages low high n (q + 1)).2 ⟨by omega, by omega, fun j hj => ?_⟩
      by_cases hlast : j + 1 = n
      · rw [show q + 1 + j = q + n by omega]
        exact (mapFind_eq_none_iff pages _).2 hkey
      · rw [show q + 1 + j = q + (j + 1) by omega]
        exact hfree (j + 1) (by omega)
    exact absurd (hmax (q + 1) hnext) (by omega)
  refine List.max?_eq_some_iff.2 ⟨?_, fun r hr => ?_⟩
  · refine List.mem_filterMap.2 ⟨q + n, by simpa using hend, ?_⟩
    rw [Nat.add_sub_cancel, if_pos ⟨Nat.le_add_left n q, hq⟩]
  · obtain ⟨e, -, he⟩ := List.mem_filterMap.1 hr
    split at he <;> cases he
    next h => exact hmax _ h.2

theorem findHole_eq_none {pages : List (Nat × Pte)} {low high n : Nat} (h : ∀ r, holeAt pages low high n r = false) :
    findHole pages low high n = none := by
  rw [findHole, List.max?_eq_none_iff, List.filterMap_eq_nil_iff]
  intro e _
  simp [h]

/-- The search runs on a space that is there, for one page at least. -/
theorem exec_asmFindHole {s : State} {m : BitVec 64} {n : BitVec 32} {sp : Space} (hs : s.space m.toNat = some sp)
    (hn : n ≠ 0#32) {o : Option Nat} (ho : findHole sp.pages s.params.holeLow s.params.holeHigh n.toNat = o) :
    exec (.asmFindHole m n) s = .next (s.ok (.u32 ((o.map (BitVec.ofNat 32)).getD s.params.badPage.val))) := by
  subst ho
  simp only [exec, execAsmFindHole, hs, if_neg hn]
  cases findHole sp.pages s.params.holeLow s.params.holeHigh n.toNat <;> rfl

/-- Settles O42: the statement's holes are the model's, and the highest is found. -/
theorem holeIsHighest : Obligations.HoleIsHighest := by
  intro s m n
  refine ⟨rfl, fun h => ?refused, fun hm hn => ?search⟩
  case refused =>
    rcases h with h | rfl
    · simp [exec, execAsmFindHole, h]
    · cases hs : s.space m.toNat <;> simp [exec, execAsmFindHole, hs]
  case search =>
    obtain ⟨sp, hs⟩ := Option.isSome_iff_exists.1 hm
    have hpos : 0 < n.toNat := Nat.pos_of_ne_zero fun h => hn (BitVec.eq_of_toNat_eq h)
    intro hole
    have hiff : ∀ q, hole q ↔ holeAt sp.pages s.params.holeLow s.params.holeHigh n.toNat q = true := by
      intro q
      have hbound : q + n.toNat - 1 ≤ s.params.holeHigh ↔ q + n.toNat ≤ s.params.holeHigh + 1 := by omega
      simp only [hole, holeAt_iff, pte_of_space hs, hbound]
    refine ⟨fun q hq hmax => ?_, fun hno => ⟨_, ?_, rfl, s.params.badPage.property⟩⟩
    · exact exec_asmFindHole hs hn (findHole_eq_some ((hiff q).1 hq) fun r hr => hmax r ((hiff r).2 hr))
    · exact exec_asmFindHole hs hn (findHole_eq_none fun r => by simpa using fun hr => hno r ((hiff r).2 hr))

/-! ### Refusals -/

/-- A command that its allocation stops changes the draws and the response alone. -/
theorem stopped_of_drawOom {i : Instr} {s : State} (h : exec i s = .next (s.drawOom.2.fail .outOfMemory)) :
    ∃ t, exec i s = .next t ∧ t.resp = some (.fail .outOfMemory) ∧ sameButDraws s t :=
  ⟨_, h, rfl, (drawOom_sameButDraws s).respond _⟩

theorem mapChecked_of_oom {s : State} (ho : s.drawOom.1 = true) (m : Handle) (page count : Nat) (cells : Memory) (len : Nat)
    (flags : BitVec 7) : s.mapChecked m page count cells len flags = s.drawOom.2.fail .outOfMemory := by
  simp [State.mapChecked, ho]

/-- Settles O46: each test of the commands comes before those that the statement names after it. -/
theorem mappingRefusals : Obligations.MappingRefusals := by
  intro s m m2 page page2 count host flags force addr kind bad oom
  refine ⟨fun hbad => ?bad, fun hbad => ?pair, fun hs => ?translate, fun hgood => ?good⟩
  case bad =>
    have hrefused : (!rangeValid page.toNat count.toNat || (s.space m.toNat).isNone) = true := by
      rcases hbad with h | h <;> simp [h]
    have hrefused2 : (!rangeValid page.toNat count.toNat || !rangeValid page2.toNat count.toNat || (s.space m.toNat).isNone ||
        (s.space m2.toNat).isNone) = true := by
      rcases hbad with h | h <;> simp [h]
    exact ⟨if_pos hrefused, if_pos hrefused, if_pos hrefused, if_pos hrefused, if_pos hrefused2⟩
  case pair =>
    simp only [exec, execAsmCow]
    rcases hbad with h | h | h
    · rw [if_pos (by simp [h])]
    · rw [if_pos (by simp [h])]
    · split
      · rfl
      · rw [if_pos (by simpa [rangesOverlap] using h)]
  case translate => exact exec_asmTranslate_fail (by simp [State.translate, hs])
  case good =>
    obtain ⟨hv, hm⟩ : rangeValid page.toNat count.toNat = true ∧ (s.space m.toNat).isSome = true := by
      simpa [bad, Option.isSome_iff_ne_none] using hgood
    have hpass : ¬(!rangeValid page.toNat count.toNat || (s.space m.toNat).isNone) = true := by
      simp [hv, Option.isSome_iff_ne_none.1 hm]
    refine ⟨if_neg hpass, fun bytes hl => ?short, fun ⟨k, hk, hnone⟩ => ?unmapped,
      fun ho => ⟨?anon, fun bytes hl => ?map, fun hv2 hm2 hapart => ?cow⟩⟩
    case short => exact (if_neg hpass).trans (if_pos hl)
    case unmapped =>
      have hall : s.allMapped m.toNat page.toNat count.toNat = false := by
        rw [← Bool.not_eq_true, allMapped_iff]
        intro h
        simpa [hnone] using h k hk
      exact ⟨(if_neg hpass).trans (if_pos (by rw [hall]; rfl)), (if_neg hpass).trans (if_pos (by rw [hall]; rfl))⟩
    case anon =>
      refine stopped_of_drawOom ((exec_asmMapAnon hv hm flags).trans ?_)
      rw [mapChecked_of_oom ho]
    case map =>
      refine stopped_of_drawOom ((exec_asmMap_region hv hm hl flags).trans ?_)
      rw [mapChecked_of_oom ho]
    case cow =>
      exact stopped_of_drawOom ((exec_asmCow hv hv2 hm hm2 hapart).trans (if_pos ho))

end Sys2Proof.Machine
end

section
/-! SUPPORT. The generation counter (spec/10_state.md R43; spec/43_address_space.md R340): how far each command moves it, and that a
translation moves it exactly where it changes the page. -/

namespace Sys2Proof.Machine

/-! ### Counters that only grow (R43) -/

/-- Every space is still there, its counter has not gone back, and it has grown where an entry changed. -/
def Grown (s t : State) : Prop :=
  ∀ m sp, s.space m = some sp → ∃ tp, t.space m = some tp ∧ sp.gen ≤ tp.gen ∧ (tp.pages ≠ sp.pages → sp.gen < tp.gen)

theorem Grown.of_mems {s t : State} (h : t.mems = s.mems) : Grown s t :=
  fun m sp hs => ⟨sp, (space_congr h m).trans hs, Nat.le_refl _, fun hne => absurd rfl hne⟩

theorem Grown.trans {s t u : State} (h : Grown s t) (g : Grown t u) : Grown s u := by
  intro m sp hs
  obtain ⟨tp, ht, hle, hlt⟩ := h m sp hs
  obtain ⟨up, hu, hle', hlt'⟩ := g m tp ht
  refine ⟨up, hu, hle.trans hle', fun hne => ?_⟩
  by_cases hp : tp.pages = sp.pages
  · exact lt_of_le_of_lt hle (hlt' (by rwa [hp]))
  · exact lt_of_lt_of_le (hlt hp) hle'

theorem Respaced.gen_eq {names grows : Handle → Bool} {s t : State} (h : Respaced names grows s t) {m : Handle} {sp tp : Space}
    (hs : s.space m = some sp) (ht : t.space m = some tp) : tp.gen = if grows m then sp.gen + 1 else sp.gen := by
  have hm := h.tables m
  rw [hs, ht] at hm
  exact (Prod.ext_iff.1 (Option.some.inj hm)).1

/-- Where only the counted spaces may differ, the counters tell. -/
theorem Respaced.grown {names : Handle → Bool} {s t : State} (h : Respaced names names s t) : Grown s t := by
  intro m sp hs
  cases hn : names m with
  | false => exact ⟨sp, (h.others m hn).trans hs, Nat.le_refl _, fun hne => absurd rfl hne⟩
  | true =>
    obtain ⟨tp, ht⟩ : ∃ tp, t.space m = some tp := by
      have hm := h.tables m
      rw [hs] at hm
      obtain ⟨tp, ht, -⟩ := Option.map_eq_some_iff.1 hm
      exact ⟨tp, ht⟩
    have hgen := h.gen_eq hs ht
    rw [hn, if_pos rfl] at hgen
    exact ⟨tp, ht, by omega, fun _ => by omega⟩

/-! ### A translation that changes its page (R332, R334) -/

/-- The entry of a page has changed, no other space has, and the change is counted. -/
structure Repaged (m : Handle) (p : Nat) (s t : State) : Prop where
  spaces : Respaced (· == m) (· == m) s t
  changed : t.pte m p ≠ s.pte m p

theorem Repaged.after {s u t : State} {m : Handle} {p : Nat} (hm : u.mems = s.mems) (h : Repaged m p u t) : Repaged m p s t :=
  ⟨(Respaced.of_mems _ hm).trans h.spaces, by rw [← pte_congr hm]; exact h.changed⟩

/-- A page of a fresh blob is another page than before, where the old one is of a blob that is there. -/
theorem mapBlob_repaged {s : State} {m : Handle} (hm : (s.space m).isSome = true) {p : Nat}
    (hold : ∀ e, s.pte m p = some e → (mapFind s.blobs e.blob).isSome = true) (cells : Memory) (len : Nat) (flags : BitVec 7) :
    Repaged m p s (s.mapBlob m p 1 cells len flags).2 := by
  refine ⟨mapBlob_respaced s m p 1 cells len flags, fun he => ?_⟩
  rw [mapBlob_pte hm, if_pos ⟨rfl, by simp [inRange_one]⟩] at he
  have hlive := hold _ he.symm
  have hfree : mapFind s.blobs (s.mapBlob m p 1 cells len flags).1 = none := (newBlob_free s cells len).1
  rw [hfree] at hlive
  cases hlive

/-- The same after the draw of the allocation. -/
theorem mapBlob_drawn_repaged {s : State} {m : Handle} (hm : (s.space m).isSome = true) {p : Nat}
    (hold : ∀ e, s.pte m p = some e → (mapFind s.blobs e.blob).isSome = true) (cells : Memory) (len : Nat) (flags : BitVec 7) :
    Repaged m p s (s.drawOom.2.mapBlob m p 1 cells len flags).2 := by
  refine (mapBlob_repaged ?_ (fun e he => ?_) cells len flags).after s.drawOom_mems
  · rwa [space_congr s.drawOom_mems]
  · rw [s.drawOom_blobs]
    exact hold e (by rwa [pte_congr s.drawOom_mems] at he)

theorem duplicate_repaged {s : State} {m : Handle} {p : Nat} {e : Pte} (he : s.pte m p = some e) :
    (s.duplicate m p e).2.mems = s.mems ∨
      ∃ e2, (s.duplicate m p e).1 = some (.ok e2) ∧ Repaged m p s (s.duplicate m p e).2 := by
  cases ho : s.drawOom.1 with
  | true => rw [duplicate_of_oom m p e ho]; exact .inl s.drawOom_mems
  | false =>
    cases hb : mapFind s.blobs e.blob with
    | none => left; simp [State.duplicate, ho, hb]
    | some old =>
      by_cases hl : e.offset + pageSize ≤ old.len
      · obtain ⟨sp, hs, -⟩ := pte_eq_some he
        rw [duplicate_of_room ho hb hl]
        refine .inr ⟨_, rfl, mapBlob_drawn_repaged (by rw [hs]; rfl) (fun e' he' => ?_) _ _ _⟩
        cases he.symm.trans he'
        rw [hb]
        rfl
      · left; simp [State.duplicate, ho, hb, hl]

theorem grow_repaged {s : State} {m : Handle} {p : Nat} (hm : (s.space m).isSome = true) (hp : s.pte m p = none) :
    (∃ f, (s.grow m p).1 = .error f ∧ (s.grow m p).2.mems = s.mems) ∨
      ∃ b, (s.grow m p).1 = .ok { blob := b, offset := 0, flags := grownFlags } ∧ Repaged m p s (s.grow m p).2 := by
  by_cases hno : ∀ above, (s.space m).bind (fun sp => nextAbove sp.pages p) = some above → growsDown above.flags = false
  · rw [grow_of_not_growsDown hno]
    exact .inl ⟨_, rfl, rfl⟩
  · obtain ⟨above, ha, hg⟩ : ∃ above, (s.space m).bind (fun sp => nextAbove sp.pages p) = some above ∧
        growsDown above.flags = true := by simpa using hno
    cases ho : s.drawOom.1 with
    | true => rw [grow_of_oom ha hg ho]; exact .inl ⟨_, rfl, s.drawOom_mems⟩
    | false =>
      rw [grow_of_room ha hg ho hp]
      exact .inr ⟨_, rfl, mapBlob_drawn_repaged hm (fun e he => by rw [hp] at he; cases he) _ _ _⟩

theorem translateMapped_repaged {s : State} {m : Handle} {addr : Nat} {kind : Access} {e : Pte}
    (he : s.pte m (pageOf addr) = some e) :
    (s.translateMapped m addr kind e).2.mems = s.mems ∨
      (∃ e2 : Pte, (s.translateMapped m addr kind e).1 = e2.pointer addr) ∧
        Repaged m (pageOf addr) s (s.translateMapped m addr kind e).2 := by
  by_cases hk : e.inPlace kind
  · rw [translateMapped_of_inPlace s m addr hk]
    exact .inl rfl
  · cases kind with
    | read => exact absurd trivial hk
    | write =>
      cases hw : writable e.flags with
      | false => rw [translateMapped_of_readOnly s m addr hw]; exact .inl rfl
      | true =>
        have hc : copyOnWrite e.flags = true := by
          by_contra hc
          exact hk ⟨hw, by simpa using hc⟩
        have hd := duplicate_repaged he
        rcases hr : s.duplicate m (pageOf addr) e with ⟨_ | f | e2, t⟩ <;> rw [hr] at hd
        · refine .inl ?_
          simp only [State.translateMapped, hw, hc, hr, if_true]
          exact hd.resolve_right fun ⟨_, h, _⟩ => nomatch h
        · rw [translateMapped_of_not_duplicated hw hc hr]
          exact .inl (hd.resolve_right fun ⟨_, h, _⟩ => nomatch h)
        · rw [translateMapped_of_shared hw hc hr]
          exact hd.imp_right fun ⟨_, _, h⟩ => ⟨⟨e2, rfl⟩, h⟩

/-- A translation leaves the page tables, or answers a pointer into a page that it has changed and counted. -/
theorem translate_repaged (s : State) (m : Handle) (addr : Nat) (kind : Access) :
    (s.translate m addr kind).2.mems = s.mems ∨
      (∃ e : Pte, (s.translate m addr kind).1 = e.pointer addr) ∧ Repaged m (pageOf addr) s (s.translate m addr kind).2 := by
  cases hs : s.space m with
  | none => left; simp [State.translate, hs]
  | some sp =>
    have hm : (s.space m).isSome = true := by rw [hs]; rfl
    cases hp : s.pte m (pageOf addr) with
    | some e => rw [translate_of_mapped hp]; exact translateMapped_repaged hp
    | none =>
      rcases hg : s.grow m (pageOf addr) with ⟨_ | _, t⟩ <;> have hr := grow_repaged hm hp <;> rw [hg] at hr
      · rw [translate_of_not_grown hm hp hg]
        exact .inl (hr.resolve_right (fun ⟨_, h, _⟩ => nomatch h)).choose_spec.2
      · obtain ⟨b, h, hpage⟩ := hr.resolve_left fun ⟨_, h, _⟩ => nomatch h
        cases h
        rw [translate_of_grown hm hp hg, translateMapped_of_inPlace t m addr (grown_inPlace b kind)]
        exact .inr ⟨⟨_, rfl⟩, hpage⟩

/-! ### Accesses through a cache -/

theorem translate_grown (s : State) (m : Handle) (addr : Nat) (kind : Access) : Grown s (s.translate m addr kind).2 := by
  obtain h | ⟨-, h⟩ := translate_repaged s m addr kind
  · exact .of_mems h
  · exact h.spaces.grown

theorem reach_grown (s : State) (c : BitVec 32) (addr : Nat) (kind : Access) : Grown s (s.reach c addr kind).2 := by
  have hg : Grown s (s.genTest c) := .of_mems (genTest_sameStores s c).1
  unfold State.reach
  simp only
  split
  · exact hg
  · split
    · exact hg
    · next m _ =>
      have ht := hg.trans (translate_grown (s.genTest c) m addr kind)
      split <;> next heq => rw [heq] at ht; exact ht

theorem storeHost_grown {s t : State} {b : Handle} {o : Int} {v : Byte} (h : s.storeHost b o v = some t) : Grown s t :=
  .of_mems (storeHost_stored h).mems

theorem advance_grown (s : State) (c : BitVec 32) (x : Transfer) : Ends (Grown s) (s.advance c x) := by
  have hs : Grown s (s.slice x.left).2 := .of_mems (s.slice_mems _)
  have hm := move_ends (R := Grown) (c := c) (fun s => .of_mems rfl) (fun _ _ _ h g => h.trans g)
    (fun s addr kind => reach_grown s c addr kind) (fun _ _ _ _ _ h => storeHost_grown h) (s.slice x.left).2
    (s.slice x.left).1 x
  unfold State.advance
  split
  · next heq =>
    rw [heq] at hm
    split <;> exact hs.trans hm
  · next heq => rw [heq] at hm; exact hs.trans hm
  · trivial

theorem access_grown {i : Instr} (hi : opcode i ∈ [0x0500, 0x0501, 0x0700]) (s : State) : Ends (Grown s) (exec i s) := by
  have refused : Grown s (s.fail .illegalOperand) := .of_mems rfl
  obtain ⟨c, addr, n, rfl⟩ | ⟨c, addr, data, rfl⟩ | ⟨c, cursor, rfl⟩ := access_command hi
  · simp only [exec, execTlbRead]
    split
    · exact refused
    · exact advance_grown s c _
  · simp only [exec, execTlbWrite]
    split
    · exact refused
    · exact advance_grown s c _
  · have hd := decodeModRm_ends (R := Grown) (c := c) (fun s => .of_mems rfl) (fun _ _ _ h g => h.trans g)
      (fun s addr => reach_grown s c addr .read) s cursor
    simp only [exec, execDecModRm]
    split
    · exact refused
    · split <;> rename_i heq
      · rw [heq] at hd; exact hd
      · rw [heq] at hd; exact (advance_grown _ c _).mono fun _ h => Grown.trans hd h
      · rw [heq] at hd; exact hd
      · trivial

/-- Outside unit ASM only an access can move a counter. -/
theorem exec_grown {i : Instr} (hu : unitOf i ≠ 4) (s : State) : Ends (Grown s) (exec i s) := by
  by_cases hi : opcode i ∈ [0x0500, 0x0501, 0x0700]
  · exact access_grown hi s
  · refine (exec_effect i s).mono fun t ht => ?_
    obtain hb | ⟨k, hw, -⟩ | ⟨h4, -⟩ | ⟨h, -⟩ := ht
    · exact .of_mems hb.port_core.2.mems
    · exact .of_mems hw.rest.2.mems
    · exact absurd h4 hu
    · exact absurd h hi

/-! ### The commands of unit ASM (R340) -/

/-- The spaces there before and after have the same counter and the same entries. -/
def sameTables (s t : State) : Prop :=
  ∀ m sp tp, s.space m = some sp → t.space m = some tp → tp.gen = sp.gen ∧ tp.pages = sp.pages

theorem sameTables_of_mems {s t : State} (h : t.mems = s.mems) : sameTables s t := by
  intro m sp tp hs ht
  cases hs.symm.trans ((space_congr h m).symm.trans ht)
  exact ⟨rfl, rfl⟩

/-- A space replaced by one with the same counter and entries. -/
theorem sameTables_setSpace {s : State} {m : Handle} {sp sp2 : Space} (hs : s.space m = some sp)
    (h : sp2.gen = sp.gen ∧ sp2.pages = sp.pages) : sameTables s (s.setSpace m sp2) := by
  intro x xp tp hx ht
  rw [setSpace_space] at ht
  split at ht
  · next he =>
    cases ht
    rw [he] at hx
    cases hs.symm.trans hx
    exact h
  · cases hx.symm.trans ht
    exact ⟨rfl, rfl⟩

/-- How a command of unit ASM moves the counters. -/
inductive Tallied (i : Instr) (s t : State) : Prop
  | refused (f : Failure) (ht : t.resp = some (.fail f)) (h : t.mems = s.mems)
  | kept (r : Results) (ht : t.resp = some (.ok r)) (hi : ∀ x, bumps i x = false) (h : sameTables s t)
  | mutated (r : Results) (ht : t.resp = some (.ok r)) (hi : opcode i ≠ 0x0409) (h : Respaced (bumps i) (bumps i) s t)
  | paged (m : Handle) (p : Nat) (r : Results) (ht : t.resp = some (.ok r)) (hi : opcode i = 0x0409) (h : Repaged m p s t)

theorem Tallied.fail (i : Instr) (s : State) (f : Failure) : Tallied i s (s.fail f) := .refused f rfl rfl

theorem mapChecked_tallied {i : Instr} {s : State} {m : Handle} (hi : opcode i ≠ 0x0409) (hb : bumps i = (· == m))
    (page count : Nat) (cells : Memory) (len : Nat) (flags : BitVec 7) :
    Tallied i s (s.mapChecked m page count cells len flags) := by
  cases ho : s.drawOom.1 with
  | true => rw [mapChecked_of_oom ho]; exact .refused _ rfl s.drawOom_mems
  | false =>
    rw [mapChecked_of_room ho]
    have hr := (Respaced.of_mems (· == m) s.drawOom_mems).trans (mapBlob_respaced s.drawOom.2 m page count cells len flags)
    exact .mutated _ rfl hi (by rw [hb]; exact ⟨hr.tables, hr.others⟩)

theorem execAsmMap_tallied (m : BitVec 64) (page : BitVec 20) (count : BitVec 32) (host : HostMem) (flags : BitVec 7)
    (s : State) : Ends (Tallied (.asmMap m page count host flags) s) (execAsmMap m page count host flags s) := by
  unfold execAsmMap
  split
  · exact .fail _ s _
  · split
    · exact .fail _ s _
    · split
      · exact .fail _ s _
      · exact mapChecked_tallied (by simp [opcode]) rfl _ _ _ _ _

theorem execAsmMapAnon_tallied (m : BitVec 64) (page : BitVec 20) (count : BitVec 32) (flags : BitVec 7) (s : State) :
    Ends (Tallied (.asmMapAnon m page count flags) s) (execAsmMapAnon m page count flags s) := by
  unfold execAsmMapAnon
  split
  · exact .fail _ s _
  · exact mapChecked_tallied (by simp [opcode]) rfl _ _ _ _ _

theorem execAsmUnmap_tallied (m : BitVec 64) (page : BitVec 20) (count : BitVec 32) (force : Bool) (s : State) :
    Ends (Tallied (.asmUnmap m page count force) s) (execAsmUnmap m page count force s) := by
  have hr := (forPages_remapped (fun k u => remove_remapped u m.toNat (page.toNat + k)) count.toNat s).counted
  unfold execAsmUnmap
  split
  · exact .fail _ s _
  · split
    · exact .fail _ s _
    · exact .mutated _ rfl (by simp [opcode]) ⟨hr.tables, hr.others⟩

theorem execAsmSetProt_tallied (m : BitVec 64) (page : BitVec 20) (count : BitVec 32) (flags : BitVec 7) (s : State) :
    Ends (Tallied (.asmSetProt m page count flags) s) (execAsmSetProt m page count flags s) := by
  have hr := (forPages_remapped (fun k u => protectPage_remapped u m.toNat flags (page.toNat + k)) count.toNat s).counted
  unfold execAsmSetProt
  split
  · exact .fail _ s _
  · split
    · exact .fail _ s _
    · exact .mutated _ rfl (by simp [opcode]) ⟨hr.tables, hr.others⟩

theorem execAsmCow_tallied (m : BitVec 64) (page : BitVec 20) (count : BitVec 32) (m2 : BitVec 64) (page2 : BitVec 20)
    (s : State) : Ends (Tallied (.asmCow m page count m2 page2) s) (execAsmCow m page count m2 page2 s) := by
  have hr := (Respaced.of_mems _ s.drawOom_mems).trans
    (shareRange_respaced s.drawOom.2 m.toNat page.toNat count.toNat m2.toNat page2.toNat)
  unfold execAsmCow
  split
  · exact .fail _ s _
  · split
    · exact .fail _ s _
    · split
      · exact .refused _ rfl s.drawOom_mems
      · exact .mutated _ rfl (by simp [opcode]) ⟨hr.tables, hr.others⟩

theorem execAsmTranslate_tallied (m : BitVec 64) (addr : BitVec 32) (kind : Access) (s : State) :
    Ends (Tallied (.asmTranslate m addr kind) s) (execAsmTranslate m addr kind s) := by
  have hr := translate_repaged s m.toNat addr.toNat kind
  unfold execAsmTranslate
  split <;> rename_i heq <;> rw [heq] at hr
  · obtain h | ⟨-, h⟩ := hr
    · exact .kept _ rfl (fun _ => rfl) (sameTables_of_mems h)
    · exact .paged m.toNat _ _ rfl rfl ⟨⟨h.spaces.tables, h.spaces.others⟩, h.changed⟩
  · exact .refused _ rfl (hr.resolve_right fun ⟨⟨_, h⟩, _⟩ => nomatch h)
  · trivial

theorem execAsmCreate_tallied (s : State) : Ends (Tallied .asmCreate s) (execAsmCreate s) := by
  unfold execAsmCreate
  split
  · exact .refused _ rfl s.drawOom_mems
  · refine .kept _ rfl (fun _ => rfl) fun x xp tp hx ht => ?_
    have hold : s.drawOom.2.space x = some xp := (space_congr s.drawOom_mems x).trans hx
    have hne : x ≠ s.drawOom.2.freshMem.1 := by
      rintro rfl
      rw [freshMem_free] at hold
      cases hold
    have hnew := ((setSpace_space _ _ _ x).trans (if_neg hne)).symm.trans ht
    cases hold.symm.trans hnew
    exact ⟨rfl, rfl⟩

theorem execAsmRetain_tallied (m : BitVec 64) (s : State) : Ends (Tallied (.asmRetain m) s) (execAsmRetain m s) := by
  unfold execAsmRetain
  split
  · exact .fail _ s _
  · next sp hs => exact .kept _ rfl (fun _ => rfl) (sameTables_setSpace hs ⟨rfl, rfl⟩)

theorem execAsmRelease_tallied (m : BitVec 64) (s : State) : Ends (Tallied (.asmRelease m) s) (execAsmRelease m s) := by
  unfold execAsmRelease
  split
  · exact .fail _ s _
  · next sp hs =>
    split
    · refine .kept _ rfl (fun _ => rfl) fun x xp tp hx ht => ?_
      have hd := (destroy_space s m.toNat x).symm.trans ht
      split at hd
      · cases hd
      · cases hx.symm.trans hd
        exact ⟨rfl, rfl⟩
    · exact .kept _ rfl (fun _ => rfl) (sameTables_setSpace hs ⟨rfl, rfl⟩)

theorem execAsmFindHole_tallied (m : BitVec 64) (n : BitVec 32) (s : State) :
    Ends (Tallied (.asmFindHole m n) s) (execAsmFindHole m n s) := by
  unfold execAsmFindHole
  split
  · exact .fail _ s _
  · split
    · exact .fail _ s _
    · exact .kept _ rfl (fun _ => rfl) (sameTables_of_mems rfl)

theorem exec_tallied {i : Instr} (hu : unitOf i = 4) (s : State) : Ends (Tallied i s) (exec i s) := by
  cases i
  case asmCreate => exact execAsmCreate_tallied s
  case asmRetain m => exact execAsmRetain_tallied m s
  case asmRelease m => exact execAsmRelease_tallied m s
  case asmMap m page count host flags => exact execAsmMap_tallied m page count host flags s
  case asmMapAnon m page count flags => exact execAsmMapAnon_tallied m page count flags s
  case asmUnmap m page count force => exact execAsmUnmap_tallied m page count force s
  case asmSetProt m page count flags => exact execAsmSetProt_tallied m page count flags s
  case asmCow m page count m2 page2 => exact execAsmCow_tallied m page count m2 page2 s
  case asmFindHole m n => exact execAsmFindHole_tallied m n s
  case asmTranslate m addr kind => exact execAsmTranslate_tallied m addr kind s
  all_goals exact absurd hu (by simp [unitOf, opcode])

/-- How far a counter moves: not at all on a failure, and on success as R340 says. -/
theorem Tallied.moves {i : Instr} {s t : State} (h : Tallied i s t) {m : Handle} {sp tp : Space} (hs : s.space m = some sp)
    (ht : t.space m = some tp) :
    sp.gen ≤ tp.gen ∧ (tp.pages ≠ sp.pages → sp.gen < tp.gen) ∧ (∀ f, t.resp = some (.fail f) → tp.gen = sp.gen) ∧
      ∀ r, t.resp = some (.ok r) → tp.gen = sp.gen +
        if opcode i = 0x0409 then (if tp.pages = sp.pages then 0 else 1) else if bumps i m then 1 else 0 := by
  cases h with
  | refused f hf h =>
    obtain ⟨hgen, hpages⟩ := sameTables_of_mems h m sp tp hs ht
    exact ⟨hgen.ge, fun hne => absurd hpages hne, fun _ _ => hgen, fun r hr => (nomatch hf.symm.trans hr)⟩
  | kept r hr hi h =>
    obtain ⟨hgen, hpages⟩ := h m sp tp hs ht
    refine ⟨hgen.ge, fun hne => absurd hpages hne, fun _ _ => hgen, fun _ _ => ?_⟩
    simp [hpages, hi, hgen]
  | mutated r hr hi h =>
    have hgen := h.gen_eq hs ht
    refine ⟨by rw [hgen]; split <;> omega, fun hne => ?_, fun f hf => (nomatch hr.symm.trans hf), fun _ _ => ?_⟩
    · cases hb : bumps i m with
      | true => rw [hgen, hb, if_pos rfl]; exact Nat.lt_succ_self _
      | false =>
        cases hs.symm.trans ((h.others m hb).symm.trans ht)
        exact absurd rfl hne
    · rw [hgen, if_neg hi]
      split <;> rfl
  | paged x p r hr hi h =>
    have hgen := h.spaces.gen_eq hs ht
    have hiff : tp.pages = sp.pages ↔ m ≠ x := by
      constructor
      · rintro hp rfl
        exact h.changed (by rw [pte_of_space hs, pte_of_space ht, hp])
      · intro hne
        cases hs.symm.trans ((h.spaces.others m (by simpa using hne)).symm.trans ht)
        rfl
    refine ⟨by rw [hgen]; split <;> omega, fun hne => ?_, fun f hf => (nomatch hr.symm.trans hf), fun _ _ => ?_⟩
    · have hmx : m = x := by simpa [hiff] using hne
      rw [hgen, if_pos (by simpa using hmx)]
      exact Nat.lt_succ_self _
    · rw [hgen, if_pos hi]
      by_cases hmx : m = x <;> simp [hiff, hmx]

/-- Settles O10: unit ASM moves the counters as R340 says, and elsewhere an access moves them with its translations. -/
theorem generationCounter : Obligations.GenerationCounter := by
  intro s t i he
  refine ⟨fun m sp tp hs ht => ?_, fun h hi hr => ?_⟩
  · by_cases hu : unitOf i = 4
    · obtain ⟨hle, hlt, hfail, hok⟩ := ((exec_tallied hu s).of_next he).moves hs ht
      exact ⟨hle, hlt, fun _ => hfail, fun _ => hok⟩
    · obtain ⟨tp', ht', hle, hlt⟩ := (exec_grown hu s).of_next he m sp hs
      cases ht.symm.trans ht'
      exact ⟨hle, hlt, fun h4 => absurd h4 hu, fun h4 => absurd h4 hu⟩
  · subst hi
    cases ho : s.drawOom.1 with
    | true =>
      cases (exec_asmCreate_of_oom ho).symm.trans he
      cases hr
    | false =>
      cases (exec_asmCreate_of_room ho).symm.trans he
      cases hr
      exact (congrArg _ ((setSpace_space _ _ _ _).trans (if_pos rfl)) :)

end Sys2Proof.Machine
end

section
/-! SUPPORT. Cache maintenance (spec/44_tlb.md R360, R368–R370; spec/70_reset_and_hazards.md R503): what writing a cache leaves
alone, and that a context without a live space is refused. -/

namespace Sys2Proof.Machine

/-- Writing a cache and answering changes nothing else. -/
theorem setTlb_ok_sameButTlb (s : State) (c : BitVec 32) (v : Tlb) (r : Results) : sameButTlb c s ((s.setTlb c v).ok r) :=
  ⟨⟨rfl, rfl, rfl, rfl, rfl, fun _ hd => State.setTlb_ctx_other s v hd⟩, rfl, by simp, by simp, by simp, by simp⟩

/-- A cache that is emptied keeps its attachment (R368). -/
theorem emptyTlb_tlb {s : State} {c : BitVec 32} {m : Handle} (hm : (s.tlb c).mem = some m) (gen : Nat) :
    (s.emptyTlb c gen).tlb c = { mem := some m, gen := gen, slots := [] } := by
  simp [State.emptyTlb, hm]

/-! ### A context attached to a live space -/

section
variable {s : State} {c : BitVec 32} {m : Handle} {sp : Space} (ha : s.attached c = some (m, sp))

include ha

theorem exec_tlbFlush_of_attached : exec (.tlbFlush c) s = .next ((s.emptyTlb c sp.gen).ok .none) := by
  simp only [exec, execTlbFlush, ha]

theorem exec_tlbRevalidate_of_moved (hg : sp.gen ≠ (s.tlb c).gen) :
    exec (.tlbRevalidate c) s = .next ((s.emptyTlb c sp.gen).ok (.u1 true)) := by
  have hstale : s.stale c = true := by simp [State.stale, ha, hg]
  simp [exec, execTlbRevalidate, State.revalidate, hstale, ha, hg]

theorem exec_tlbRevalidate_of_current (hg : sp.gen = (s.tlb c).gen) :
    exec (.tlbRevalidate c) s = .next (s.ok (.u1 false)) := by
  simp [exec, execTlbRevalidate, State.revalidate, State.stale, ha, hg]

end

/-! ### A context without a live space -/

/-- Every command that looks at the attachment first is refused (R503; log 25). -/
theorem exec_refused_of_detached {s : State} {c : BitVec 32} (ha : s.attached c = none) :
    exec (.tlbFlush c) s = .next (s.fail .illegalOperand) ∧ exec (.tlbRevalidate c) s = .next (s.fail .illegalOperand) ∧
      (∀ addr n, exec (.tlbRead c addr n) s = .next (s.fail .illegalOperand)) ∧
      (∀ addr data, exec (.tlbWrite c addr data) s = .next (s.fail .illegalOperand)) ∧
      (∀ cursor, exec (.decModRm c cursor) s = .next (s.fail .illegalOperand)) ∧
      ∀ desc, exec (.decEa c desc) s = .next (s.fail .illegalOperand) := by
  refine ⟨?_, ?_, fun _ _ => ?_, fun _ _ => ?_, fun _ => ?_, fun _ => ?_⟩ <;>
    simp [exec, execTlbFlush, execTlbRevalidate, execTlbRead, execTlbWrite, execDecModRm, execDecEa, ha]

theorem attached_eq_none {s : State} {c : BitVec 32} (h : ∀ m, (s.tlb c).mem = some m → s.space m = none) :
    s.attached c = none := by
  cases hm : (s.tlb c).mem with
  | none => simp [State.attached, hm]
  | some m => simp [State.attached, hm, h m hm]

/-- Settles O55: each command by whether the cache has a live space, and what emptying it leaves alone. -/
theorem cacheMaintenance : Obligations.CacheMaintenance := by
  intro s c m
  refine ⟨fun h sp hm hsp => ?live, fun hdead => exec_refused_of_detached (attached_eq_none hdead), fun hm => ?gone,
    fun sp hsp => ?attach⟩
  case live =>
    have ha := attached_eq hm hsp
    exact ⟨⟨_, exec_tlbFlush_of_attached ha, rfl, setTlb_ok_sameButTlb s c _ _, emptyTlb_tlb hm sp.gen⟩,
      fun hg => ⟨_, exec_tlbRevalidate_of_moved ha hg, rfl, setTlb_ok_sameButTlb s c _ _, emptyTlb_tlb hm sp.gen⟩,
      exec_tlbRevalidate_of_current ha⟩
  case gone => simp only [exec, execTlbAttach, hm]
  case attach =>
    refine ⟨_, ?_, rfl, setTlb_ok_sameButTlb s c { mem := some m.toNat, gen := sp.gen, slots := [] } .none,
      State.setTlb_tlb_same s c _⟩
    simp only [exec, execTlbAttach, hsp]

end Sys2Proof.Machine
end

section
/-! SUPPORT. A read on a cache that agrees with the page table answers the bytes that the page table gives (spec/20_memory.md
R73; spec/44_tlb.md R362, R364–R366). -/

namespace Sys2Proof.Machine

theorem setClock_draws {s u : State} (h : u.draws = s.draws) (k : Clock) : (u.setClock k).draws = (s.setClock k).draws := by
  simp only [State.setClock, h]

/-- After lookups only, and under another clock, only a context's cache differs. -/
theorem Steady.sameButTlb {s u : State} {c : BitVec 32} {m : Handle} (h : Steady c m s u) (hst : sameStores s u)
    (ht : u.transfer c = s.transfer c) (k : Clock) (r : Results) : sameButTlb c (s.setClock k) ((u.setClock k).ok r) := by
  obtain ⟨hparams, hport, hctx, hcpu, hfpu, hrm, -⟩ := h.cache
  exact ⟨⟨hparams, hst.1, hst.2.1, hst.2.2, hport, hctx⟩, setClock_draws h.draws k, hcpu, hfpu, hrm, ht⟩

/-- Settles O47: the run is that of the page table's bytes, and the scheduler gives all of it. -/
theorem readReturnsMemory : Obligations.ReadReturnsMemory := by
  intro s c addr n m hinv h hm hb hc hslice
  obtain ⟨k, hk⟩ := s.slice_setClock n.toNat
  obtain ⟨r, u, hrun, hu, hst, hbytes⟩ := readRun_coherent ((inv_iff_sound s).1 hinv) h (placeOk_start s addr) nofun hb hc
  have hmove := move_of_readRun (left := n.toNat) (got := []) hrun
  have htransfer := move_transfer s c n.toNat { place := .start addr, job := .read n.toNat [] }
  rw [hmove] at htransfer
  have hexec := (exec_tlbRead_advance (attached_of_coherent h hm) hb).trans (advance_whole hk hslice hmove)
  rw [hk]
  exact ⟨_, r.1, hexec, rfl, readRun_length c _ hrun, hbytes, hu.sameButTlb hst htransfer k _, hu.coherent⟩

end Sys2Proof.Machine
end

section
/-! SUPPORT. A write of pages that are writable in place, on a cache that agrees with the page table, stores its bytes where the
page table places them and nowhere else (spec/44_tlb.md R363–R366). -/

namespace Sys2Proof.Machine

theorem location_of_pte {s : State} {m : Handle} {addr : Nat} {e : Pte} (he : s.pte m (pageOf addr) = some e) :
    s.location m addr = some (e.blob, e.offset + addr % pageSize) := by
  simp [State.location, he]

theorem byteOf_of_location {s : State} {m : Handle} {addr : Nat} {b : Handle} {o : Nat} (h : s.location m addr = some (b, o)) :
    s.byteOf m addr = s.byteAt b o := by
  obtain ⟨e, he, hbo⟩ := Option.map_eq_some_iff.1 h
  cases hbo
  simp [State.byteOf, he]

theorem location_congr {s t : State} (hm : t.mems = s.mems) (m : Handle) (addr : Nat) :
    t.location m addr = s.location m addr := by
  simp only [State.location, pte_congr hm]

/-- Bytes are stored where the page table places an access: at each place the last of them, elsewhere nothing. -/
structure Placed (m : Handle) (addr : Nat) (data : List Byte) (s t : State) : Prop where
  mems : t.mems = s.mems
  graves : t.graves = s.graves
  bytes : ∀ k, k < data.length →
    (∀ j, k < j → j < data.length → s.location m (addr + j) ≠ s.location m (addr + k)) → t.byteOf m (addr + k) = data[k]?
  others : ∀ b o, (∀ k, k < data.length → s.location m (addr + k) ≠ some (b, o)) → t.byteAt b o = s.byteAt b o

theorem Placed.nil (m : Handle) (addr : Nat) (s : State) : Placed m addr [] s s where
  mems := rfl
  graves := rfl
  bytes k hk := absurd hk (Nat.not_lt_zero k)
  others _ _ _ := rfl

/-- A byte stored first stays unless a later one has its place. -/
theorem Placed.cons {m : Handle} {addr : Nat} {v : Byte} {rest : List Byte} {s t u : State} (h : Placed m addr [v] s t)
    (g : Placed m (addr + 1) rest t u) (hm : (s.location m addr).isSome = true) : Placed m addr (v :: rest) s u where
  mems := g.mems.trans h.mems
  graves := g.graves.trans h.graves
  bytes k hk hlast := by
    have hshift : ∀ j, addr + 1 + j = addr + (j + 1) := fun j => by omega
    cases k with
    | zero =>
      obtain ⟨⟨b, o⟩, hl⟩ := Option.isSome_iff_exists.1 hm
      have ht : t.location m (addr + 0) = some (b, o) := (location_congr h.mems m addr).trans hl
      have hkept : u.byteAt b o = t.byteAt b o := g.others b o fun j hj => by
        rw [location_congr h.mems, hshift, ← hl]
        exact hlast (j + 1) (Nat.succ_pos j) (Nat.succ_lt_succ hj)
      have hbyte := h.bytes 0 Nat.one_pos fun j hj hj1 => absurd hj1 (by rw [List.length_singleton]; omega)
      rw [byteOf_of_location ((location_congr g.mems m _).trans ht), hkept, ← byteOf_of_location ht]
      exact hbyte
    | succ k =>
      rw [← hshift]
      refine g.bytes k (Nat.lt_of_succ_lt_succ hk) fun j hj hjl => ?_
      rw [location_congr h.mems, location_congr h.mems, hshift, hshift]
      exact hlast (j + 1) (Nat.succ_lt_succ hj) (Nat.succ_lt_succ hjl)
  others b o hne := by
    refine (g.others b o fun k hk => ?_).trans (h.others b o fun k hk => ?_)
    · rw [location_congr h.mems, Nat.add_right_comm]
      exact hne (k + 1) (Nat.succ_lt_succ hk)
    · exact hne k (Nat.lt_of_lt_of_le hk (by simp))

/-- Storing through the pointer of an address's entry places the byte. -/
theorem Stored.placed {s t : State} {m : Handle} {addr : Nat} {e : Pte} {v : Byte}
    (h : Stored s t e.blob (e.offset + addr % pageSize) [v]) (he : s.pte m (pageOf addr) = some e)
    (hlive : (mapFind s.blobs e.blob).isSome = true) : Placed m addr [v] s t where
  mems := h.mems
  graves := h.graves
  bytes k hk _ := by
    obtain rfl : k = 0 := by simpa using hk
    exact (byteOf_of_location ((location_congr h.mems m _).trans (location_of_pte he))).trans (h.bytes hlive 0 hk)
  others b o hne := by
    refine h.others b o ?_
    by_contra hcon
    refine hne 0 Nat.one_pos ((location_of_pte he).trans ?_)
    simp only [List.length_singleton, not_or, not_lt] at hcon
    obtain ⟨hb, ho, ho'⟩ := hcon
    rw [show o = e.offset + addr % pageSize by omega, not_not.1 hb]

/-- Lookups before a store place nothing. -/
theorem Placed.after {m : Handle} {addr : Nat} {data : List Byte} {s t u : State} (hst : sameStores s t)
    (h : Placed m addr data t u) : Placed m addr data s u where
  mems := h.mems.trans hst.1
  graves := h.graves.trans hst.2.2
  bytes k hk hlast := h.bytes k hk (by simpa only [location_congr hst.1] using hlast)
  others b o hne := by
    have hbyte : t.byteAt b o = s.byteAt b o := by simp only [State.byteAt, hst.2.1]
    exact (h.others b o (by simpa only [location_congr hst.1] using hne)).trans hbyte

/-- One byte of a page that is writable in place is written where the page table places it. -/
theorem writeOne_placed {s : State} (hs : Sound s) {c : BitVec 32} {m : Handle} (h : s.coherent c m = true) {place : Place}
    (ho : s.placeOk place) (hp : s.pointsAt m place) {e : Pte} (he : s.pte m (pageOf place.addr) = some e)
    (hk : e.inPlace .write) (v : Byte) :
    ∃ next t, s.writeOne c place v = .done next t ∧ Steady c m s t ∧ t.pointsAt m next ∧ Placed m place.addr [v] s t := by
  obtain ⟨t, hl, ht, hst⟩ := locate_coherent h ho.1 hp he hk
  have hgood := (locate_sound hs c ho .write).2
  rw [hl] at hgood
  obtain ⟨u, hu⟩ := holdsPage_storeHost (hgood _ _ rfl) v
  have hsu := ht.trans (storeHost_steady ht.coherent hu)
  obtain ⟨blob, hb, -⟩ := pte_byte hs he
  have hplaced : Placed m place.addr [v] t u :=
    (storeHost_stored hu).placed (by rwa [pte_congr ht.mems]) (by rw [hst.2.1, hb]; rfl)
  exact ⟨_, u, by simp only [State.writeOne, hl, hu], hsu, pointsAt_congr hsu.mems (placeAfter_pointsAt ho.1 he),
    hplaced.after hst⟩

/-- A run of bytes of pages that are writable in place is written where the page table places them. -/
theorem writeRun_placed {s : State} (hs : Sound s) {c : BitVec 32} {m : Handle} (h : s.coherent c m = true)
    {data : List Byte} {place : Place} (ho : s.placeOk place) (hp : s.pointsAt m place)
    (hb : place.addr + data.length ≤ 2 ^ 32)
    (hm : ∀ j, j < data.length → ∃ e, s.pte m (pageOf (place.addr + j)) = some e ∧ e.inPlace .write) :
    ∃ next t, s.writeRun c data place = .done next t ∧ Steady c m s t ∧ Placed m place.addr data s t := by
  induction data generalizing s place with
  | nil => exact ⟨place, s, rfl, .refl h, .nil m place.addr s⟩
  | cons v rest ih =>
    rw [List.length_cons] at hb
    obtain ⟨e, he, hk⟩ : ∃ e, s.pte m (pageOf place.addr) = some e ∧ e.inPlace .write := hm 0 (Nat.succ_pos _)
    obtain ⟨next, t, h1, ht, hnext, hone⟩ := writeOne_placed hs h ho hp he hk v
    have hsound := writeOne_sound hs c ho v
    rw [h1] at hsound
    obtain ⟨hts, hto, haddr⟩ := hsound
    cases rest with
    | nil => exact ⟨next, t, by rw [State.writeRun, h1]; rfl, ht, hone⟩
    | cons w more =>
      rw [List.length_cons] at hb
      rw [Nat.mod_eq_of_lt (by omega)] at haddr
      obtain ⟨last, u, h2, hu, hmore⟩ := ih hts ht.coherent hto hnext (by rw [haddr, List.length_cons]; omega) fun j hj => by
        rw [haddr, pte_congr ht.mems, Nat.add_right_comm]
        exact hm (j + 1) (Nat.succ_lt_succ hj)
      rw [haddr] at hmore
      exact ⟨last, u, by rw [State.writeRun, h1]; exact h2, ht.trans hu,
        hone.cons hmore (by rw [location_of_pte he]; rfl)⟩

/-- Settles O48: the run places its bytes one after the other, and the scheduler gives all of it. -/
theorem writeStoresBytes : Obligations.WriteStoresBytes := by
  intro s c addr data m hinv h hm hb hpages hslice
  obtain ⟨k, hk⟩ := s.slice_setClock data.length
  obtain ⟨next, u, hrun, hu, hplaced⟩ := writeRun_placed ((inv_iff_sound s).1 hinv) h (placeOk_start s addr) nofun hb hpages
  have hmove := move_of_writeRun (k := data.length) (rest := data) (by rw [List.take_length, hrun])
  have htransfer := move_transfer s c data.length { place := .start addr, job := .write data }
  rw [hmove] at htransfer
  have hexec := (exec_tlbWrite_advance (attached_of_coherent h hm) hb).trans (advance_whole hk hslice hmove)
  obtain ⟨hparams, -, hctx, hcpu, hfpu, hrm, -⟩ := hu.cache
  rw [hk]
  exact ⟨_, hexec, rfl, hplaced.bytes, hplaced.others, hplaced.mems, hplaced.graves, hparams, setClock_draws hu.draws k, hcpu,
    hfpu, hrm, htransfer, hctx, hu.coherent⟩

end Sys2Proof.Machine
end

section
/-! SUPPORT. Translation and the contexts play no part in each other (spec/43_address_space.md R331–R336): every operation of a
translation commutes with replacing the contexts, and changes the entry of one page at most. -/

namespace Sys2Proof.Machine

/-- The state with other contexts. -/
def State.withCtxs (s : State) (l : List (Nat × Context)) : State := { s with ctxs := l }

section
variable (s : State) (l : List (Nat × Context)) (m : Handle) (p : Nat) (e : Pte) (addr : Nat) (kind : Access)

/-! ### The stores -/

theorem drawOom_withCtxs : (s.withCtxs l).drawOom = (s.drawOom.1, s.drawOom.2.withCtxs l) := by
  have hd : (s.withCtxs l).draws = s.draws := rfl
  unfold State.drawOom
  rw [hd]
  cases s.draws.oom <;> rfl

theorem install_withCtxs : (s.withCtxs l).install m p e = (s.install m p e).withCtxs l := by
  have hput : (s.withCtxs l).putPte m p e = (s.putPte m p e).withCtxs l := by
    have hs : (s.withCtxs l).space m = s.space m := rfl
    unfold State.putPte
    rw [hs]
    cases s.space m <;> rfl
  have hb : ((s.putPte m p e).withCtxs l).blobs = (s.putPte m p e).blobs := rfl
  unfold State.install State.incRef
  rw [hput, hb]
  cases mapFind (s.putPte m p e).blobs e.blob <;> rfl

theorem decRef_withCtxs (b : Handle) : (s.withCtxs l).decRef b = (s.decRef b).withCtxs l := by
  have hb : (s.withCtxs l).blobs = s.blobs := rfl
  unfold State.decRef
  rw [hb]
  cases mapFind s.blobs b with
  | none => rfl
  | some blob => simp only; split <;> rfl

theorem remove_withCtxs : (s.withCtxs l).remove m p = (s.remove m p).withCtxs l := by
  have hs : (s.withCtxs l).space m = s.space m := rfl
  unfold State.remove
  rw [hs]
  cases s.space m with
  | none => rfl
  | some sp =>
    simp only
    cases mapFind sp.pages p with
    | none => rfl
    | some old => exact decRef_withCtxs (s.setSpace m _) l old.blob

theorem bump_withCtxs : (s.withCtxs l).bump m = (s.bump m).withCtxs l := by
  have hs : (s.withCtxs l).space m = s.space m := rfl
  unfold State.bump
  rw [hs]
  cases s.space m <;> rfl

theorem newBlob_withCtxs (cells : Memory) (len : Nat) :
    (s.withCtxs l).newBlob cells len = ((s.newBlob cells len).1, (s.newBlob cells len).2.withCtxs l) := rfl

/-! ### Translation -/

theorem grow_withCtxs : (s.withCtxs l).grow m p = ((s.grow m p).1, (s.grow m p).2.withCtxs l) := by
  have hs : (s.withCtxs l).space m = s.space m := rfl
  unfold State.grow
  rw [hs, drawOom_withCtxs]
  cases (s.space m).bind fun sp => nextAbove sp.pages p with
  | none => rfl
  | some above =>
    simp only [newBlob_withCtxs, install_withCtxs, bump_withCtxs]
    split
    · split <;> rfl
    · rfl

theorem duplicate_withCtxs : (s.withCtxs l).duplicate m p e = ((s.duplicate m p e).1, (s.duplicate m p e).2.withCtxs l) := by
  have hb : (s.withCtxs l).blobs = s.blobs := rfl
  unfold State.duplicate State.replace
  rw [hb, drawOom_withCtxs]
  simp only [newBlob_withCtxs, remove_withCtxs, install_withCtxs, bump_withCtxs]
  split
  · rfl
  · cases mapFind s.blobs e.blob with
    | none => rfl
    | some old => simp only; split <;> rfl

theorem translateMapped_withCtxs : (s.withCtxs l).translateMapped m addr kind e =
    ((s.translateMapped m addr kind e).1, (s.translateMapped m addr kind e).2.withCtxs l) := by
  unfold State.translateMapped
  cases kind with
  | read => rfl
  | write =>
    simp only [duplicate_withCtxs]
    split
    · split
      · rcases s.duplicate m (pageOf addr) e with ⟨_ | _ | _, t⟩ <;> rfl
      · rfl
    · rfl

theorem translate_withCtxs : (s.withCtxs l).translate m addr kind =
    ((s.translate m addr kind).1, (s.translate m addr kind).2.withCtxs l) := by
  have hs : (s.withCtxs l).space m = s.space m := rfl
  have hp : (s.withCtxs l).pte m (pageOf addr) = s.pte m (pageOf addr) := rfl
  unfold State.translate
  rw [hs, hp, grow_withCtxs]
  split
  · rfl
  · cases s.pte m (pageOf addr) with
    | some e => exact translateMapped_withCtxs s l m e addr kind
    | none =>
      rcases s.grow m (pageOf addr) with ⟨_ | e, t⟩
      · rfl
      · exact translateMapped_withCtxs t l m e addr kind

theorem storeHost_withCtxs (b : Handle) (off : Int) (v : Byte) :
    (s.withCtxs l).storeHost b off v = (s.storeHost b off v).map (·.withCtxs l) := by
  have hh : (s.withCtxs l).hostBlob b = s.hostBlob b := rfl
  have hb : (s.withCtxs l).blobs = s.blobs := rfl
  unfold State.storeHost
  rw [hh, hb]
  cases s.hostBlob b with
  | none => rfl
  | some blob =>
    simp only
    split
    · cases mapFind s.blobs b <;> rfl
    · rfl

end

/-! ### The other pages -/

section
variable {s : State} {m x : Handle} {p q : Nat} (hq : q ≠ p)

include hq

theorem grow_pte_other : (s.grow m p).2.pte x q = s.pte x q := by
  unfold State.grow
  split
  · rfl
  · split
    · split
      · exact pte_congr s.drawOom_mems x q
      · rw [bump_pte, install_pte, if_neg fun h => hq h.2, pte_congr (newBlob_mems _ _ _), pte_congr s.drawOom_mems]
    · rfl

theorem duplicate_pte_other (e : Pte) : (s.duplicate m p e).2.pte x q = s.pte x q := by
  unfold State.duplicate
  split
  · exact pte_congr s.drawOom_mems x q
  · split
    · rfl
    · split
      · rw [bump_pte, replace_pte, if_neg fun h => hq h.2, pte_congr (newBlob_mems _ _ _), pte_congr s.drawOom_mems]
      · rfl

end

theorem translateMapped_pte_other {s : State} {m x : Handle} {addr q : Nat} (hq : q ≠ pageOf addr) (kind : Access) (e : Pte) :
    (s.translateMapped m addr kind e).2.pte x q = s.pte x q := by
  have hd := duplicate_pte_other (s := s) (m := m) (x := x) hq e
  unfold State.translateMapped
  cases kind with
  | read => rfl
  | write =>
    simp only
    split
    · split
      · split <;> next heq => rw [heq] at hd; exact hd
      · rfl
    · rfl

/-- A translation changes the entry of its own page at most. -/
theorem translate_pte_other {s : State} {m x : Handle} {addr q : Nat} (hq : q ≠ pageOf addr) (kind : Access) :
    (s.translate m addr kind).2.pte x q = s.pte x q := by
  have hg := grow_pte_other (s := s) (m := m) (x := x) hq
  unfold State.translate
  split
  · rfl
  · split
    · exact translateMapped_pte_other hq kind _
    · split
      · next heq => rw [heq] at hg; exact hg
      · next heq => rw [heq] at hg; exact (translateMapped_pte_other hq kind _).trans hg

end Sys2Proof.Machine
end

section
/-! SUPPORT. On a cache that agrees with the page table, reaching an address ends as translating it does, whether it hits or
misses, and the cache still agrees (spec/44_tlb.md R361–R367, R371). -/

namespace Sys2Proof.Machine

/-- What a lookup that misses makes of a translation (R365, R367). -/
def Translation.reached : Translation → Reach
  | .ok b o _ => .pointer b o
  | .fail _ => .fault
  | .noSuchByte => .noSuchByte

/-! ### The parts of the state that a context's cache is no part of -/

theorem genTest_withCtxs (s : State) (c : BitVec 32) : ∃ l, s.genTest c = s.withCtxs l := by
  unfold State.genTest State.revalidate
  split
  · split
    · exact ⟨s.ctxs, rfl⟩
    · split
      · exact ⟨s.ctxs, rfl⟩
      · exact ⟨_, rfl⟩
  · exact ⟨s.ctxs, rfl⟩

/-! ### Hits -/

/-- A hit on a cache that agrees with the page table is of a page that can be accessed in place (R361, R365). -/
theorem lookup_inPlace {s : State} {c : BitVec 32} {m : Handle} (h : s.coherent c m = true) {addr : Nat} (ha : addr < 2 ^ 32)
    {kind : Access} {slot : Slot} (hl : s.lookup c (pageOf addr) kind = some slot) :
    ∃ e, s.pte m (pageOf addr) = some e ∧ e.inPlace kind := by
  obtain ⟨hf, hhit⟩ := lookup_eq_some hl
  obtain ⟨e, he, -, -, hw⟩ := (slotCurrent_iff s m slot).1
    (mapAll_find (p := fun _ slot => s.slotCurrent m slot) ((coherent_iff s c m).1 h).2 hf)
  have hnat : (BitVec.ofNat 20 (pageOf addr)).toNat = pageOf addr := by
    rw [BitVec.toNat_ofNat]
    exact Nat.mod_eq_of_lt (pageOf_lt ha)
  cases kind with
  | read =>
    have hpage : slot.page = BitVec.ofNat 20 (pageOf addr) := by simpa [Slot.hits] using hhit
    rw [hpage, hnat] at he
    exact ⟨e, he, trivial⟩
  | write =>
    have hsome : slot.pageW = some (BitVec.ofNat 20 (pageOf addr)) := by simpa [Slot.hits] using hhit
    rw [hsome, Pte.pageW] at hw
    split at hw
    · next hflags =>
      rw [← Option.some.inj hw, hnat] at he
      exact ⟨e, he, by simpa [Pte.inPlace] using hflags⟩
    · cases hw

/-! ### Misses -/

/-- Filling the slot of a page whose entry may have changed, with the entry it has now, leaves a cache that agrees: no other slot
is of that page, since each stands under its own page's index (R47, R365). -/
theorem fill_coherent {s t : State} (hs : Sound s) {c : BitVec 32} {m : Handle} (h : s.coherent c m = true)
    (hc : t.ctxs = s.ctxs) (hp : t.params = s.params) {addr : Nat} (ha : addr < 2 ^ 32)
    (hother : ∀ q, q ≠ pageOf addr → t.pte m q = s.pte m q) {e : Pte} (he : t.pte m (pageOf addr) = some e) :
    (t.fill c (pageOf addr) (filledSlot (pageOf addr) addr e.blob (e.offset + addr % pageSize) e.flags)).coherent c m = true := by
  obtain ⟨hm, hslots⟩ := (coherent_iff s c m).1 h
  have htlb : t.tlb c = s.tlb c := by rw [State.tlb, State.tlb, State.ctx_congr hc]
  have hrising : keysRising (s.tlb c).slots = true := (hs.ctx c).rising
  refine (coherent_iff _ c m).2 ?_
  rw [State.fill, State.setTlb_tlb_same, htlb, hp]
  refine ⟨hm, (mapAll_iff (keysRising_put hrising _ _) _).2 fun i slot hf => ?_⟩
  rw [mapFind_put] at hf
  split at hf
  · cases hf
    exact filledSlot_current ha he
  · next hi =>
    obtain ⟨hidx, -⟩ := (slotOk_iff s i slot).1 ((hs.ctx c).slots i slot hf)
    have hpage : slot.page.toNat ≠ pageOf addr := fun hpage => hi (hidx.trans (by rw [hpage]))
    obtain ⟨e', he', hrest⟩ := (slotCurrent_iff s m slot).1
      (mapAll_find (p := fun _ slot => s.slotCurrent m slot) hslots hf)
    exact (slotCurrent_iff t m slot).2 ⟨e', (hother _ hpage).trans he', hrest⟩

/-! ### Either way -/

/-- Reaching an address through a cache that agrees with the page table ends as translating it does: only the contexts differ,
and the cache still agrees. -/
theorem reach_eq_translate {s : State} (hs : Sound s) {c : BitVec 32} {m : Handle} (h : s.coherent c m = true) {addr : Nat}
    (ha : addr < 2 ^ 32) (kind : Access) :
    ∃ l, s.reach c addr kind = ((s.translate m addr kind).1.reached, (s.translate m addr kind).2.withCtxs l) ∧
      ((s.translate m addr kind).2.withCtxs l).coherent c m = true := by
  obtain ⟨l, hl⟩ := genTest_withCtxs s c
  have hg := (genTest_steady h).coherent
  have hgs := hs.genTest c
  have ht := translate_withCtxs s l m addr kind
  have hanswers := translate_answers hs.tables m ha kind
  rw [← hl] at ht
  unfold State.reach
  simp only
  cases hlook : (s.genTest c).lookup c (pageOf addr) kind with
  | some slot =>
    obtain ⟨e, he, hk⟩ := lookup_inPlace hg ha hlook
    obtain ⟨hb, ho⟩ := lookup_current hg ha hlook he
    rw [hl] at he
    rw [translate_inPlace (s := s) he hk]
    refine ⟨l, ?_, hl ▸ hg⟩
    simp only [Pte.pointer, Translation.reached, hb, ho, hl]
  | none =>
    rw [((coherent_iff _ c m).1 hg).1]
    have hentry := (translate_tables hgs.tables m ha kind).2
    have hctxs := translate_sameRest (s.genTest c) m addr kind
    have hother : ∀ q, q ≠ pageOf addr → ((s.genTest c).translate m addr kind).2.pte m q = (s.genTest c).pte m q :=
      fun q hq => translate_pte_other hq kind
    simp only
    rw [ht] at hentry hctxs hother ⊢
    rcases hr : s.translate m addr kind with ⟨⟨b, o, f⟩ | f | _, u⟩ <;> rw [hr] at hentry hctxs hother hanswers
    · obtain ⟨e, he, hpointer⟩ := hentry b o f rfl
      cases hpointer
      exact ⟨_, rfl, fill_coherent hgs hg hctxs.2.1 hctxs.1 ha hother he⟩
    · have hmems : (u.withCtxs l).mems = (s.genTest c).mems := by
        rw [hl]
        exact (translate_sameStores_of_fail hr).1
      have htlb : (u.withCtxs l).tlb c = (s.genTest c).tlb c := by
        rw [State.tlb, State.tlb, State.ctx_congr hctxs.2.1]
      exact ⟨l, rfl, (coherent_congr htlb hmems m).trans hg⟩
    · exact absurd rfl hanswers

end Sys2Proof.Machine
end

section
/-! SUPPORT. An access within one page, on a cache that agrees with the page table, ends as the translation of its first address does
(spec/44_tlb.md R365–R367; spec/60_exceptions.md R466). -/

namespace Sys2Proof.Machine

/-! ### The translation -/

/-- `ASM.TRANSLATE` gives the translation's answer, in the state that the translation leaves (R331). -/
theorem exec_asmTranslate_next {s u : State} {m : BitVec 64} {addr : BitVec 32} {kind : Access}
    (h : exec (.asmTranslate m addr kind) s = .next u) :
    (∃ b o f t, s.translate m.toNat addr.toNat kind = (.ok b o f, t) ∧ u = t.ok (.pointer b o f)) ∨
      ∃ f t, s.translate m.toNat addr.toNat kind = (.fail f, t) ∧ u = t.fail f := by
  rcases ht : s.translate m.toNat addr.toNat kind with ⟨⟨b, o, f⟩ | f | _, t⟩
  · cases (exec_asmTranslate_ok ht).symm.trans h
    exact .inl ⟨b, o, f, t, rfl, rfl⟩
  · cases (exec_asmTranslate_fail ht).symm.trans h
    exact .inr ⟨f, t, rfl, rfl⟩
  · simp [exec, execAsmTranslate, ht] at h

/-- The pointer a translation answers has the rest of the page behind it (R41, R335). -/
theorem translate_ok_backed {s t : State} (h : Tables s) {m : Handle} {addr : Nat} (ha : addr < 2 ^ 32) {kind : Access}
    {b : Handle} {o : Nat} {f : BitVec 7} (ht : s.translate m addr kind = (.ok b o f, t)) :
    ∃ x, mapFind t.blobs b = some x ∧ o + (pageSize - addr % pageSize) ≤ x.len := by
  obtain ⟨htables, hentry⟩ := translate_tables h m ha kind
  rw [ht] at htables hentry
  obtain ⟨e, he, hpointer⟩ := hentry b o f rfl
  cases hpointer
  obtain ⟨x, hx, hl⟩ := htables.counted.backed m _ e he
  exact ⟨x, hx, by have := Nat.mod_lt addr (show 0 < pageSize by decide); omega⟩

/-! ### The access -/

/-- How an access asks for the addresses of its bytes (R362, R363, R439). -/
def Job.kind : Job → Access
  | .read _ _ => .read
  | .write _ => .write
  | .disp _ _ _ _ _ _ => .read

section
variable {s t : State} {c : BitVec 32} {addr : Nat}

theorem readRun_of_fault (h : s.reach c addr .read = (.fault, t)) (n : Nat) :
    s.readRun c (n + 1) { addr := addr, host := none } = .fault addr t := by
  simp only [State.readRun, State.readOne, State.locate, h, Served.andThen]

theorem writeRun_of_fault (h : s.reach c addr .write = (.fault, t)) (v : Byte) (rest : List Byte) :
    s.writeRun c (v :: rest) { addr := addr, host := none } = .fault addr t := by
  simp only [State.writeRun, State.writeOne, State.locate, h, Served.andThen]

/-- An access whose first lookup faults ends there, whatever its share of bytes (R367). -/
theorem advance_of_fault {job : Job} (h : s.reach c addr job.kind = (.fault, t))
    (hl : 0 < Transfer.left { place := { addr := addr, host := none }, job := job }) :
    ∃ k, s.advance c { place := { addr := addr, host := none }, job := job } = .next ((t.setClock k).pageFault c addr) := by
  obtain ⟨k, hk⟩ := s.slice_setClock (Transfer.left { place := { addr := addr, host := none }, job := job })
  obtain ⟨n, hn⟩ := Nat.exists_eq_add_one.2 (s.slice_pos hl)
  refine ⟨k, (advance_of_slice hk hn c).trans ?_⟩
  cases job with
  | read left got => rw [State.move, readRun_of_fault h]; rfl
  | write rest =>
    obtain ⟨v, more, rfl⟩ := List.exists_cons_of_length_pos hl
    simp only [State.move, List.take_succ_cons, writeRun_of_fault h]
    rfl
  | disp base index shift reg left got => rw [State.move, readRun_of_fault h]; rfl

end

section
variable {s w : State} (hs : Sound s) {c addr : BitVec 32} {m : Handle} (h : s.coherent c m = true)

include hs h

/-- An access whose first address has no translation is the page fault there, and the stores are as the translation leaves them. -/
theorem advance_of_untranslated {job : Job} {f : Failure} (ht : s.translate m addr.toNat job.kind = (.fail f, w))
    (hl : 0 < Transfer.left { place := .start addr, job := job }) :
    ∃ t, s.advance c { place := .start addr, job := job } = .next t ∧ t.mems = w.mems ∧ t.blobs = w.blobs ∧
      t.resp = some (.fault .pageFault addr) ∧ (t.cpu c).faultAddr = addr := by
  obtain ⟨l, hreach, -⟩ := reach_eq_translate hs h addr.isLt job.kind
  rw [ht] at hreach
  obtain ⟨k, he⟩ := advance_of_fault hreach hl
  exact ⟨_, he, rfl, rfl, by simp [State.pageFault], by simp [State.pageFault]⟩

variable (hm : (s.space m).isSome = true)

include hm

theorem exec_tlbRead_of_translated {n : BitVec 32} (hn : 0 < n.toNat) (hp : addr.toNat % pageSize + n.toNat ≤ pageSize)
    (hslice : (s.slice n.toNat).1 = n.toNat) {b : Handle} {o : Nat} {f : BitVec 7}
    (ht : s.translate m addr.toNat .read = (.ok b o f, w)) :
    ∃ x t, mapFind w.blobs b = some x ∧ exec (.tlbRead c addr n) s = .next t ∧ t.mems = w.mems ∧ t.blobs = w.blobs ∧
      t.resp = some (.ok (.bytes (readBytes x.cells o n.toNat))) := by
  obtain ⟨k, hk⟩ := s.slice_setClock n.toNat
  obtain ⟨l, hreach, -⟩ := reach_eq_translate hs h addr.isLt .read
  obtain ⟨x, hx, hlen⟩ := translate_ok_backed hs.tables addr.isLt ht
  rw [ht] at hreach
  obtain ⟨last, hrun, -⟩ := readRun_within (s := w.withCtxs l) c (hostBlob_of_live hx) (Int.natCast_nonneg o)
    (show (o : Int).toNat + n.toNat ≤ x.len by rw [Int.toNat_natCast]; omega) addr.isLt hp
  have hstart : s.readRun c n.toNat (.start addr) =
      (w.withCtxs l).readRun c n.toNat { addr := addr.toNat, host := some (b, (o : Int)) } := by
    obtain ⟨j, hj⟩ := Nat.exists_eq_add_one.2 hn
    rw [hj]
    exact readRun_of_locate (place := .start addr) (other := ⟨addr.toNat, some (b, (o : Int))⟩) hreach rfl j
  have hmove := move_of_readRun (left := n.toNat) (got := []) (hstart.trans hrun)
  have hb : addr.toNat + n.toNat ≤ 2 ^ 32 := by unfold pageSize at hp; have := addr.isLt; omega
  exact ⟨x, _, hx, (exec_tlbRead_advance (attached_of_coherent h hm) hb).trans (advance_whole hk hslice hmove), rfl, rfl, rfl⟩

theorem exec_tlbWrite_of_translated {data : List Byte} (hd : data ≠ []) (hp : addr.toNat % pageSize + data.length ≤ pageSize)
    (hslice : (s.slice data.length).1 = data.length) {b : Handle} {o : Nat} {f : BitVec 7}
    (ht : s.translate m addr.toNat .write = (.ok b o f, w)) :
    ∃ t, exec (.tlbWrite c addr data) s = .next t ∧ t.mems = w.mems ∧ t.resp = some (.ok .none) ∧
      (∀ k, k < data.length → t.byteAt b (o + k) = data[k]?) ∧
      ∀ x y, (∀ k, k < data.length → (x, y) ≠ (b, o + k)) → t.byteAt x y = w.byteAt x y := by
  obtain ⟨k, hk⟩ := s.slice_setClock data.length
  obtain ⟨l, hreach, -⟩ := reach_eq_translate hs h addr.isLt .write
  obtain ⟨x, hx, hlen⟩ := translate_ok_backed hs.tables addr.isLt ht
  rw [ht] at hreach
  obtain ⟨last, u, hrun, hst⟩ := writeRun_within (s := w.withCtxs l) c (hostBlob_of_live hx) (Int.natCast_nonneg o)
    (show (o : Int).toNat + data.length ≤ x.len by rw [Int.toNat_natCast]; omega) hp
  rw [Int.toNat_natCast] at hst
  have hstart : s.writeRun c data (.start addr) =
      (w.withCtxs l).writeRun c data { addr := addr.toNat, host := some (b, (o : Int)) } := by
    obtain ⟨v, rest, rfl⟩ := List.exists_cons_of_ne_nil hd
    exact writeRun_of_locate (place := .start addr) (other := ⟨addr.toNat, some (b, (o : Int))⟩) hreach rfl v rest
  have hmove := move_of_writeRun (k := data.length) (rest := data) (by rw [List.take_length, hstart, hrun])
  have hb : addr.toNat + data.length ≤ 2 ^ 32 := by unfold pageSize at hp; have := addr.isLt; omega
  have hlive : (mapFind w.blobs b).isSome = true := by rw [hx]; rfl
  refine ⟨_, (exec_tlbWrite_advance (attached_of_coherent h hm) hb).trans (advance_whole hk hslice hmove), hst.mems, rfl,
    hst.bytes hlive, fun a p hne => hst.others a p ?_⟩
  by_contra hcon
  simp only [not_or, not_lt, not_not] at hcon
  obtain ⟨rfl, ho, ho'⟩ := hcon
  exact hne (p - o) (by omega) (by rw [Nat.add_sub_cancel' ho])

end

/-- Settles O50: an empty cache agrees with the page table, and reaching the first address is translating it. -/
theorem missTranslates : Obligations.MissTranslates := by
  intro s u c addr n data m hinv hmem hm hslots
  have hs := (inv_iff_sound s).1 hinv
  have h : s.coherent c m.toNat = true := (coherent_iff s c m.toNat).2 ⟨hmem, by rw [hslots]; rfl⟩
  have ha := attached_of_coherent h hm
  have hlt := addr.isLt
  refine ⟨fun hn hp hslice he => ?read, fun hd hp hslice he => ?write⟩
  case read =>
    obtain ⟨b, o, f, w, ht, rfl⟩ | ⟨f, w, ht, rfl⟩ := exec_asmTranslate_next he
    · obtain ⟨x, t, hx, ht, hmems, hblobs, hresp⟩ := exec_tlbRead_of_translated hs h hm hn hp hslice ht
      refine ⟨t, ht, hmems, hblobs, fun b' o' f' hr => ?_, nofun⟩
      cases hr
      exact ⟨x, hx, hresp⟩
    · obtain ⟨t, ht, hmems, hblobs, hfault⟩ := advance_of_untranslated hs h (job := .read n.toNat []) ht hn
      exact ⟨t, (exec_tlbRead_advance ha (by omega)).trans ht, hmems, hblobs, nofun, fun _ _ => hfault⟩
  case write =>
    have hpos := List.length_pos_iff.2 hd
    obtain ⟨b, o, f, w, ht, rfl⟩ | ⟨f, w, ht, rfl⟩ := exec_asmTranslate_next he
    · obtain ⟨t, ht, hmems, hresp, hbytes, hothers⟩ := exec_tlbWrite_of_translated hs h hm hd hp hslice ht
      refine ⟨t, ht, hmems, fun b' o' f' hr => ?_, nofun⟩
      cases hr
      exact ⟨hresp, hbytes, hothers⟩
    · obtain ⟨t, ht, hmems, hblobs, hresp, hfault⟩ := advance_of_untranslated hs h (job := .write data) ht hpos
      exact ⟨t, (exec_tlbWrite_advance ha (by omega)).trans ht, hmems, nofun, fun _ _ => ⟨hresp, hfault, hblobs⟩⟩

end Sys2Proof.Machine
end

section
/-! SUPPORT. Two caches that agree with the page table serve an access alike (spec/44_tlb.md R371): the same responses, the same
stores, and the same place where the access is stopped. -/

namespace Sys2Proof.Machine

/-- Two states that differ in their contexts only, where a context has the same registers and access under way in both and a cache
that agrees with the page table in each. -/
structure Alike (c : BitVec 32) (m : Handle) (s t : State) : Prop where
  rest : ∃ l, t = s.withCtxs l
  cpu : t.cpu c = s.cpu c
  transfer : t.transfer c = s.transfer c
  sound : Sound s ∧ Sound t
  coherent : s.coherent c m = true ∧ t.coherent c m = true

/-- Two accesses end alike: with the same value, or at the same address, and in states that are related. -/
def Served.Alike {α : Type} (R : State → State → Prop) : Served α → Served α → Prop
  | .done v s, .done w t => v = w ∧ R s t
  | .fault a s, .fault b t => a = b ∧ R s t
  | .noSuchByte, .noSuchByte => True
  | _, _ => False

theorem Served.Alike.andThen {α β : Type} {R : State → State → Prop} {x y : Served α} {f : α → State → Served β}
    (h : x.Alike R y) (hf : ∀ v s t, x = .done v s → R s t → (f v s).Alike R (f v t)) :
    (x.andThen f).Alike R (y.andThen f) := by
  cases x <;> cases y <;> try exact h.elim
  case done.done v s w t =>
    obtain ⟨rfl, hR⟩ := h
    exact hf v s t rfl hR
  case fault.fault => exact h
  case noSuchByte.noSuchByte => trivial

section
variable {s t : State} {c : BitVec 32} {m : Handle}

/-! ### One byte -/

theorem reach_keeps (hs : Sound s) {addr : Nat} (ha : addr < 2 ^ 32) {kind : Access} {r : Reach}
    (h : s.reach c addr kind = (r, t)) : t.cpu c = s.cpu c ∧ t.transfer c = s.transfer c ∧ Sound t := by
  have hcache := reach_onlyCache s c addr kind
  have htransfer := reach_transfer s c addr kind
  have hsound := (reach_sound hs c ha kind).1
  rw [h] at hcache htransfer hsound
  exact ⟨hcache.2.2.2.1, htransfer, hsound⟩

/-- Through either cache an address ends as its translation does. -/
theorem Alike.reach (h : Alike c m s t) {addr : Nat} (ha : addr < 2 ^ 32) (kind : Access) :
    ∃ r s' t', s.reach c addr kind = (r, s') ∧ t.reach c addr kind = (r, t') ∧ Alike c m s' t' := by
  obtain ⟨l, rfl⟩ := h.rest
  obtain ⟨hss, hst⟩ := h.sound
  obtain ⟨ls, hs, hcs⟩ := reach_eq_translate hss h.coherent.1 ha kind
  obtain ⟨lt, ht, hct⟩ := reach_eq_translate hst h.coherent.2 ha kind
  rw [translate_withCtxs] at ht hct
  obtain ⟨hcpu, htransfer, hsound⟩ := reach_keeps hss ha hs
  obtain ⟨hcpu', htransfer', hsound'⟩ := reach_keeps hst ha ht
  exact ⟨_, _, _, hs, ht, ⟨lt, rfl⟩, hcpu'.trans (h.cpu.trans hcpu.symm), htransfer'.trans (h.transfer.trans htransfer.symm),
    ⟨hsound, hsound'⟩, hcs, hct⟩

theorem Alike.locate (h : Alike c m s t) {place : Place} (ha : place.addr < 2 ^ 32) (kind : Access) :
    ∃ r s' t', s.locate c place kind = (r, s') ∧ t.locate c place kind = (r, t') ∧ Alike c m s' t' := by
  unfold State.locate
  cases place.host with
  | some bo => exact ⟨_, s, t, rfl, rfl, h⟩
  | none => exact h.reach ha kind

/-- A store through one pointer succeeds in both states or in neither. -/
theorem Alike.storeHost (h : Alike c m s t) (b : Handle) (o : Int) (v : Byte) :
    (s.storeHost b o v = none ∧ t.storeHost b o v = none) ∨
      ∃ s' t', s.storeHost b o v = some s' ∧ t.storeHost b o v = some t' ∧ Alike c m s' t' := by
  obtain ⟨l, rfl⟩ := h.rest
  have ht := storeHost_withCtxs s l b o v
  cases hs : s.storeHost b o v with
  | none => exact .inl ⟨rfl, by rw [ht, hs]; rfl⟩
  | some s' =>
    rw [hs] at ht
    have hctx := State.ctx_congr (storeHost_sameRest hs).2.1 c
    have hctx' := State.ctx_congr (storeHost_sameRest ht).2.1 c
    refine .inr ⟨s', _, rfl, ht, ⟨l, rfl⟩, ?_, ?_, ⟨?_, ?_⟩, (storeHost_steady h.coherent.1 hs).coherent,
      (storeHost_steady h.coherent.2 ht).coherent⟩
    · rw [State.cpu, State.cpu, hctx, hctx']; exact h.cpu
    · rw [State.transfer, State.transfer, hctx, hctx']; exact h.transfer
    · exact h.sound.1.moved (storeHost_moved hs) (storeHost_tables h.sound.1.tables hs)
    · exact h.sound.2.moved (storeHost_moved ht) (storeHost_tables h.sound.2.tables ht)

theorem Alike.readOne (h : Alike c m s t) {place : Place} (ha : place.addr < 2 ^ 32) :
    (s.readOne c place).Alike (Alike c m) (t.readOne c place) := by
  obtain ⟨r, s', t', hs, ht, hst⟩ := h.locate ha .read
  unfold State.readOne
  rw [hs, ht]
  cases r with
  | pointer b o =>
    obtain ⟨l, rfl⟩ := hst.rest
    have hbyte : (s'.withCtxs l).hostByte b o = s'.hostByte b o := rfl
    simp only [hbyte]
    cases s'.hostByte b o with
    | none => trivial
    | some v => exact ⟨rfl, hst⟩
  | fault => exact ⟨rfl, hst⟩
  | noSuchByte => trivial

theorem Alike.writeOne (h : Alike c m s t) {place : Place} (ha : place.addr < 2 ^ 32) (v : Byte) :
    (s.writeOne c place v).Alike (Alike c m) (t.writeOne c place v) := by
  obtain ⟨r, s', t', hs, ht, hst⟩ := h.locate ha .write
  unfold State.writeOne
  rw [hs, ht]
  cases r with
  | pointer b o =>
    obtain ⟨hs', ht'⟩ | ⟨s'', t'', hs', ht', hst'⟩ := hst.storeHost b o v
    · simp only [hs', ht']
      trivial
    · simp only [hs', ht']
      exact ⟨rfl, hst'⟩
  | fault => exact ⟨rfl, hst⟩
  | noSuchByte => trivial

/-! ### Runs of bytes -/

theorem Alike.readRun (h : Alike c m s t) (n : Nat) {place : Place} (ha : place.addr < 2 ^ 32) :
    (s.readRun c n place).Alike (Alike c m) (t.readRun c n place) := by
  induction n generalizing s t place with
  | zero => exact ⟨rfl, h⟩
  | succ n ih =>
    refine (h.readOne ha).andThen fun one s' t' hone h' => ?_
    obtain ⟨b, o, hnext⟩ := readOne_done hone
    have hlt : one.2.addr < 2 ^ 32 := by rw [hnext]; exact Nat.mod_lt _ (by decide)
    exact (ih h' hlt).andThen fun _ _ _ _ h'' => ⟨rfl, h''⟩

theorem Alike.writeRun (h : Alike c m s t) (data : List Byte) {place : Place} (ha : place.addr < 2 ^ 32) :
    (s.writeRun c data place).Alike (Alike c m) (t.writeRun c data place) := by
  induction data generalizing s t place with
  | nil => exact ⟨rfl, h⟩
  | cons v rest ih =>
    refine (h.writeOne ha v).andThen fun next s' t' hone h' => ?_
    obtain ⟨b, o, rfl⟩ := writeOne_done hone
    exact ih h' (Nat.mod_lt _ (by decide))

theorem Alike.move (h : Alike c m s t) (k : Nat) {x : Transfer} (ha : x.place.addr < 2 ^ 32) :
    (s.move c k x).Alike (Alike c m) (t.move c k x) := by
  unfold State.move
  split
  · exact (h.readRun k ha).andThen fun _ _ _ _ h' => ⟨rfl, h'⟩
  · exact (h.writeRun _ ha).andThen fun _ _ _ _ h' => ⟨rfl, h'⟩
  · exact (h.readRun k ha).andThen fun _ _ _ _ h' => ⟨rfl, h'⟩

end

/-! ### Whole accesses -/

/-- What the cache may not show in: the response, the memory, the registers and the access under way. -/
def sameSeen (c : BitVec 32) (s t : State) : Prop :=
  s.resp = t.resp ∧ s.mems = t.mems ∧ s.blobs = t.blobs ∧ s.cpu c = t.cpu c ∧ s.transfer c = t.transfer c

/-- Accesses that have done their share alike go on alike. -/
theorem finish_alike {c : BitVec 32} {m : Handle} {x y : Served Transfer} (h : x.Alike (Alike c m) y) {t u : State}
    (ht : finish c x = .next t) (hu : finish c y = .next u) : sameSeen c t u := by
  cases x <;> cases y <;> try exact h.elim
  case done.done x s' y t' =>
    obtain ⟨rfl, hst⟩ := h
    have hcpu := hst.cpu.symm
    have htransfer := hst.transfer.symm
    obtain ⟨l, rfl⟩ := hst.rest
    by_cases hx : x.left = 0
    · cases ht.symm.trans (if_pos hx)
      cases hu.symm.trans (if_pos hx)
      exact ⟨rfl, rfl, rfl, hcpu, htransfer⟩
    · cases ht.symm.trans (if_neg hx)
      cases hu.symm.trans (if_neg hx)
      exact ⟨rfl, rfl, rfl, by simpa using hcpu, by simp⟩
  case fault.fault a s' b t' =>
    obtain ⟨rfl, hst⟩ := h
    have hcpu := hst.cpu.symm
    have htransfer := hst.transfer.symm
    obtain ⟨l, rfl⟩ := hst.rest
    cases ht
    cases hu
    exact ⟨rfl, rfl, rfl, by simp [State.pageFault, hcpu], by simpa [State.pageFault] using htransfer⟩
  case noSuchByte.noSuchByte => cases ht

theorem emptyTlb_coherent {s : State} {c : BitVec 32} {m : Handle} (h : s.coherent c m = true) (gen : Nat) :
    (s.emptyTlb c gen).coherent c m = true := by
  have hm := ((coherent_iff s c m).1 h).1
  exact (setTlb_steady (v := { s.tlb c with gen := gen, slots := [] }) hm hm rfl).coherent

theorem emptyTlb_alike {s : State} (hs : Sound s) {c : BitVec 32} {m : Handle} (h : s.coherent c m = true) (gen : Nat) :
    Alike c m s (s.emptyTlb c gen) where
  rest := ⟨_, rfl⟩
  cpu := State.setTlb_cpu_same s c _
  transfer := State.setTlb_transfer_same s c _
  sound := ⟨hs, hs.emptyTlb c gen⟩
  coherent := ⟨h, emptyTlb_coherent h gen⟩

section
variable {s t u : State} (hs : Sound s) {c : BitVec 32} {m : Handle} (h : s.coherent c m = true) {gen : Nat} {x : Transfer}
  (ha : x.place.addr < 2 ^ 32)

include hs h ha

/-- An access begun on an agreeing cache and one begun on that cache emptied go on alike. -/
theorem advance_sameSeen (ht : s.advance c x = .next t) (hu : (s.emptyTlb c gen).advance c x = .next u) : sameSeen c t u := by
  rw [advance_eq_finish] at ht hu
  rw [emptyTlb_slice] at hu
  have htlb : (s.slice x.left).2.tlb c = s.tlb c := by rw [State.tlb, State.tlb, State.slice_ctx]
  have hc : (s.slice x.left).2.coherent c m = true := (coherent_congr htlb (s.slice_mems _) m).trans h
  exact finish_alike ((emptyTlb_alike (hs.slice x.left) hc gen).move _ ha) ht hu

/-- The same for a command that is refused in place of the access: the attachment is the same. -/
theorem access_sameSeen {past : Bool}
    (ht : (if (s.attached c).isNone || past then .next (s.fail .illegalOperand) else s.advance c x) = .next t)
    (hu : (if ((s.emptyTlb c gen).attached c).isNone || past then .next ((s.emptyTlb c gen).fail .illegalOperand)
      else (s.emptyTlb c gen).advance c x) = .next u) : sameSeen c t u := by
  rw [emptyTlb_attached] at hu
  by_cases hr : ((s.attached c).isNone || past) = true
  · cases (if_pos hr).symm.trans ht
    cases (if_pos hr).symm.trans hu
    exact ⟨rfl, rfl, rfl, (State.setTlb_cpu_same s c _).symm, (State.setTlb_transfer_same s c _).symm⟩
  · rw [if_neg hr] at ht hu
    exact advance_sameSeen hs h ha ht hu

end

/-- Settles O49: an agreeing cache and an empty one serve every byte as the page table does. -/
theorem cacheIsInvisible : Obligations.CacheIsInvisible := by
  refine ⟨by decide, by decide, fun s t u c addr n data m i hinv h hi ht hu => ?_⟩
  have hs := (inv_iff_sound s).1 hinv
  obtain rfl | rfl := hi
  · exact access_sameSeen hs h (gen := (s.tlb c).gen) (x := { place := .start addr, job := .read n.toNat [] }) addr.isLt ht hu
  · exact access_sameSeen hs h (gen := (s.tlb c).gen) (x := { place := .start addr, job := .write data }) addr.isLt ht hu

end Sys2Proof.Machine
end

section
/-! SUPPORT. The flags word (spec/45_cpu_flags.md R404–R407, R411): the word that materialising writes, bit by bit, and the states
in which the word already holds every flag. -/

namespace Sys2Proof.Machine

/-! ### The word that materialising writes (R404) -/

theorem Cpu.flagWord_getLsbD (u : Cpu) (k : Nat) (hk : k < 32) :
    u.flagWord.getLsbD k =
      if k = 11 then u.ovf else if k = 0 then u.cf else if k = 4 then u.af else if k = 2 then u.pf else
      if k = 7 then u.sf else if k = 6 then u.zf else u.flags.getLsbD k := by
  simp only [Cpu.flagWord, setBit_getLsbD _ _ _ k hk]

theorem Cpu.flagWord_other_bit (u : Cpu) {k : Nat} (hk : k < 32) (h : k ∉ [0, 2, 4, 6, 7, 11]) :
    u.flagWord.getLsbD k = u.flags.getLsbD k := by
  simp only [List.mem_cons, List.not_mem_nil, or_false, not_or] at h
  obtain ⟨h0, h2, h4, h6, h7, h11⟩ := h
  rw [u.flagWord_getLsbD k hk, if_neg h11, if_neg h0, if_neg h4, if_neg h2, if_neg h7, if_neg h6]

theorem Cpu.selector_le_of_flag {u : Cpu} {sel : BitVec 3} {v : Bool} (h : u.flag sel = some v) : sel.toNat ≤ 5 :=
  Nat.le_of_not_lt fun hlt => by simp [u.flag_eq_none hlt] at h

theorem Cpu.flagWord_flagBit {u : Cpu} {sel : BitVec 3} {v : Bool} (h : u.flag sel = some v) :
    u.flagWord.getLsbD (flagBit sel) = v := by
  have bit := u.flagWord_getLsbD
  obtain rfl | rfl | rfl | rfl | rfl | rfl := selector_of_flag (Cpu.selector_le_of_flag h) <;>
    exact (bit _ (by decide)).trans (Option.some.inj h)

/-! ### A word that holds every flag -/

/-- No flag is deferred, and carry and overflow stand in the word too. -/
structure Cpu.WordHoldsFlags (u : Cpu) : Prop where
  defZ : u.defZ = false
  defS : u.defS = false
  defP : u.defP = false
  defA : u.defA = false
  carry : u.flags.getLsbD 0 = u.cf
  overflow : u.flags.getLsbD 11 = u.ovf

theorem Cpu.materialize_wordHoldsFlags (u : Cpu) : u.materialize.WordHoldsFlags :=
  ⟨rfl, rfl, rfl, rfl, u.flagWord_getLsbD 0 (by decide), u.flagWord_getLsbD 11 (by decide)⟩

theorem Cpu.expand_wordHoldsFlags (u : Cpu) : u.expand.WordHoldsFlags := ⟨rfl, rfl, rfl, rfl, rfl, rfl⟩

namespace Cpu.WordHoldsFlags
variable {u : Cpu} (h : u.WordHoldsFlags)
include h

/-- Each flag is its bit of the word. -/
theorem flag_eq_bit {sel : BitVec 3} (hsel : sel.toNat ≤ 5) : u.flag sel = some (u.flags.getLsbD (flagBit sel)) := by
  obtain rfl | rfl | rfl | rfl | rfl | rfl := selector_of_flag hsel
  · exact congrArg some h.carry.symm
  · exact congrArg some (by simp [Cpu.pf, h.defP, flagBit])
  · exact congrArg some (by simp [Cpu.af, h.defA, flagBit])
  · exact congrArg some (by simp [Cpu.zf, h.defZ, flagBit])
  · exact congrArg some (by simp [Cpu.sf, h.defS, flagBit])
  · exact congrArg some h.overflow.symm

/-- At the bit of a flag the materialised word has the flag, which is that bit already; every other bit is kept. -/
theorem flagWord_eq : u.flagWord = u.flags := by
  refine BitVec.eq_of_getLsbD_eq fun k hk => ?_
  by_cases hbit : k ∈ [0, 2, 4, 6, 7, 11]
  · have atFlag : ∀ sel : BitVec 3, sel.toNat ≤ 5 → u.flagWord.getLsbD (flagBit sel) = u.flags.getLsbD (flagBit sel) :=
      fun _ hsel => Cpu.flagWord_flagBit (h.flag_eq_bit hsel)
    simp only [List.mem_cons, List.not_mem_nil, or_false] at hbit
    obtain rfl | rfl | rfl | rfl | rfl | rfl := hbit
    · exact atFlag 0 (by decide)
    · exact atFlag 1 (by decide)
    · exact atFlag 2 (by decide)
    · exact atFlag 3 (by decide)
    · exact atFlag 4 (by decide)
    · exact atFlag 5 (by decide)
  · exact u.flagWord_other_bit hk hbit

theorem materialize_eq : u.materialize = u := by
  rw [Cpu.materialize, h.flagWord_eq]
  cases u
  obtain ⟨rfl, rfl, rfl, rfl, -, -⟩ := h
  rfl

end Cpu.WordHoldsFlags

/-- Materialising changes no flag's value (R411). -/
theorem Cpu.materialize_flag {u : Cpu} {sel : BitVec 3} {v : Bool} (h : u.flag sel = some v) :
    u.materialize.flag sel = some v := by
  rw [u.materialize_wordHoldsFlags.flag_eq_bit (Cpu.selector_le_of_flag h)]
  exact congrArg some (Cpu.flagWord_flagBit h)

/-! ### Commands one after the other -/

theorem State.setCpu_setCpu (s : State) (c : BitVec 32) (u w : Cpu) : (s.setCpu c u).setCpu c w = s.setCpu c w := by
  rw [State.setCpu, State.setCpu_ctx_same]
  exact setCtx_setCtx s c _ _

/-- The second write and its answer replace those of the first. -/
theorem State.setCpu_ok_setCpu_ok (s : State) (c : BitVec 32) (u w : Cpu) (r q : Results) :
    (((s.setCpu c u).ok r).setCpu c w).ok q = (s.setCpu c w).ok q := by
  change ((s.setCpu c u).setCpu c w).ok q = _
  rw [State.setCpu_setCpu]

theorem exec_cpuMaterialize_of_wordHoldsFlags (s : State) (c : BitVec 32) {w : Cpu} (h : w.WordHoldsFlags) :
    exec (.cpuMaterialize c) ((s.setCpu c w).ok .none) = .next ((s.setCpu c w).ok .none) := by
  have hcpu : ((s.setCpu c w).ok .none).cpu c = w := s.setCpu_cpu_same c w
  simp only [exec, execCpuMaterialize, hcpu, h.materialize_eq, State.setCpu_ok_setCpu_ok]

theorem exec_cpuGetEflags_of_flags {s : State} {c w : BitVec 32} (h : (s.cpu c).flags = w) :
    exec (.cpuGetEflags c) s = .next (s.ok (.u32 w)) := by
  rw [← h]
  rfl

/-- Settles O58: both conversions leave a word that holds every flag, and materialising such a word changes nothing. -/
theorem materializeAndExpand : Obligations.MaterializeAndExpand := by
  intro s c w u
  have frame : ∀ x, sameButCpu c s ((s.setCpu c x).ok .none) := fun x => s.setCpu_ok_sameButCpu c x .none
  have wrote : ∀ x, ((s.setCpu c x).ok .none).cpu c = x := fun x => s.setCpu_cpu_same c x
  refine ⟨⟨_, rfl, rfl, frame u.materialize, ?materialized⟩,
    ⟨_, rfl, rfl, frame u.expand, wrote _, exec_cpuMaterialize_of_wordHoldsFlags s c u.expand_wordHoldsFlags⟩, rfl,
    ⟨_, rfl, rfl, frame { u with flags := w }, wrote _, ?loaded⟩⟩
  case materialized =>
    rw [wrote]
    refine ⟨rfl, rfl, rfl, rfl, rfl, fun sel v hv => ?flags, fun k hk hbit => u.flagWord_other_bit hk hbit,
      exec_cpuMaterialize_of_wordHoldsFlags s c u.materialize_wordHoldsFlags⟩
    rw [exec_cpuGetFlag_iff] at hv ⊢
    rw [wrote]
    exact ⟨Cpu.materialize_flag hv, Cpu.flagWord_flagBit hv⟩
  case loaded =>
    generalize ht : (s.setCpu c { u with flags := w }).ok .none = t
    have hflags : (t.cpu c).flags = w := by rw [← ht, wrote]
    refine ⟨_, _, rfl, exec_cpuMaterialize_of_wordHoldsFlags t c (t.cpu c).expand_wordHoldsFlags, ?word⟩
    apply exec_cpuGetEflags_of_flags
    rw [State.ok_cpu, State.setCpu_cpu_same]
    exact hflags

end Sys2Proof.Machine
end

section
/-! SUPPORT. The effective address (spec/46_modrm_decoder.md R440): the value of a register field by its code, and what `DEC.EA`
answers by what the sum gives. -/

namespace Sys2Proof.Machine

/-! ### A base or index field -/

theorem Cpu.addrPart_eq_none (u : Cpu) {code : BitVec 4} (h : 8 < code.toNat) : u.addrPart code = none := by
  have hlt : ¬ code < 8#4 := by bv_omega
  have hne : code ≠ 8#4 := by bv_omega
  rw [Cpu.addrPart, if_neg hlt, if_neg hne]

/-- A code up to 8 gives a value: that of its register, or 0 for code 8. -/
theorem Cpu.addrPart_of_le (u : Cpu) {code : BitVec 4} (h : code.toNat ≤ 8) :
    u.addrPart code = some (if code = 8#4 then 0 else u.reg32 (code.setWidth 3)) := by
  unfold Cpu.addrPart
  by_cases h8 : code = 8#4
  · subst h8
    rfl
  · have hlt : code < 8#4 := by bv_omega
    rw [if_pos hlt, if_neg h8, BitVec.setWidth_eq_extractLsb' (by decide)]

/-! ### The sum -/

theorem Cpu.effectiveAddress_eq_none (u : Cpu) {base index : BitVec 4} (h : 8 < base.toNat ∨ 8 < index.toNat)
    (shift : BitVec 2) (disp : BitVec 32) : u.effectiveAddress (.mem base index shift disp) = none := by
  obtain h | h := h
  · simp only [Cpu.effectiveAddress, u.addrPart_eq_none h]
  · simp only [Cpu.effectiveAddress, u.addrPart_eq_none h]
    cases u.addrPart base <;> rfl

/-- The 32-bit sum of the three terms, of which code 8 leaves out the first or the second. -/
theorem Cpu.effectiveAddress_of_le (u : Cpu) {base index : BitVec 4} (hb : base.toNat ≤ 8) (hi : index.toNat ≤ 8)
    (shift : BitVec 2) (disp : BitVec 32) :
    u.effectiveAddress (.mem base index shift disp) =
      some ((if base = 8#4 then 0 else u.reg32 (base.setWidth 3)) +
        (if index = 8#4 then 0 else u.reg32 (index.setWidth 3) <<< shift.toNat) + disp) := by
  simp only [Cpu.effectiveAddress, u.addrPart_of_le hb, u.addrPart_of_le hi]
  by_cases h : index = 8#4
  · simp only [if_pos h]
  · simp only [if_neg h]

theorem toNat_ite_zero {p : Prop} [Decidable p] (x : BitVec 32) :
    (if p then 0 else x : BitVec 32).toNat = if p then 0 else x.toNat := apply_ite BitVec.toNat p 0 x

/-- Shifting and adding words is multiplying and adding numbers, modulo 2^32. -/
theorem toNat_addr_sum {p q : Prop} [Decidable p] [Decidable q] (b x disp : BitVec 32) (k : Nat) :
    ((if p then 0 else b) + (if q then 0 else x <<< k) + disp).toNat =
      ((if p then 0 else b.toNat) + (if q then 0 else x.toNat * 2 ^ k) + disp.toNat) % 2 ^ 32 := by
  simp only [BitVec.toNat_add, toNat_ite_zero, BitVec.toNat_shiftLeft, Nat.shiftLeft_eq]
  by_cases hq : q
  · simp only [if_pos hq, Nat.mod_add_mod]
  · simp only [if_neg hq, Nat.add_mod, Nat.mod_mod]

/-! ### The command -/

theorem exec_decEa_of_some {s : State} {c : BitVec 32} {desc : Desc} {ea : BitVec 32} (ha : (s.attached c).isSome = true)
    (h : (s.cpu c).effectiveAddress desc = some ea) : exec (.decEa c desc) s = .next (s.ok (.u32 ea)) := by
  simp [exec, execDecEa, Option.isSome_iff_ne_none.1 ha, h]

/-- Where the descriptor has no address the command is refused, whether the context is attached or not. -/
theorem exec_decEa_of_none {s : State} {c : BitVec 32} {desc : Desc} (h : (s.cpu c).effectiveAddress desc = none) :
    exec (.decEa c desc) s = .next (s.fail .illegalOperand) := by
  simp [exec, execDecEa, h]

/-- Settles O60: the descriptor has an address exactly where both codes are at most 8, and that is the sum as a number. -/
theorem effectiveAddress : Obligations.EffectiveAddress := by
  intro s c base index shift disp r
  refine ⟨rfl, exec_decEa_of_none rfl, fun ha => ?detached, fun h => ?above, fun ha hb hi => ?sum⟩
  case detached =>
    obtain ⟨-, -, -, -, -, hea⟩ := exec_refused_of_detached ha
    exact hea _
  case above => exact exec_decEa_of_none ((s.cpu c).effectiveAddress_eq_none h shift disp)
  case sum =>
    refine ⟨_, exec_decEa_of_some ha ((s.cpu c).effectiveAddress_of_le hb hi shift disp), ?_⟩
    have h8 : ∀ code : BitVec 4, code.toNat = 8 ↔ code = 8#4 := fun code => BitVec.toNat_inj (y := 8#4)
    simp only [toNat_addr_sum, h8]

end Sys2Proof.Machine
end

section
/-! SUPPORT. The complete decode table in the model's terms (spec/46_modrm_decoder.md R433–R438, R442): the form of addressing
bytes is that of the fields the decoder reads. -/

namespace Sys2Proof.Machine

/-! ### Byte fields (R115, R116) -/

theorem topField_toNat (b : Byte) : (topField b).toNat = b.toNat / 64 := by
  simp only [topField, BitVec.extractLsb'_toNat, Nat.shiftRight_eq_div_pow]
  omega

theorem midField_toNat (b : Byte) : (midField b).toNat = b.toNat / 8 % 8 := by
  simp only [midField, BitVec.extractLsb'_toNat, Nat.shiftRight_eq_div_pow]

theorem lowField_toNat (b : Byte) : (lowField b).toNat = b.toNat % 8 := by
  simp only [lowField, BitVec.extractLsb'_toNat, Nat.shiftRight_zero]

/-! ### The table -/

/-- Base, index and shift of a ModRM byte and the byte after it, which is a SIB byte where `rm` is 4. -/
def addressingOf (b sib : Byte) : Addressing :=
  if lowField b = 4#3 then addressingSib (topField b) sib else addressingPlain (topField b) (lowField b)

/-- How many bytes come before the displacement. -/
def headLength (b : Byte) : Nat := if lowField b = 4#3 then 2 else 1

theorem headLength_bounds (b : Byte) : 1 ≤ headLength b ∧ headLength b ≤ 2 := by
  unfold headLength
  split <;> decide

/-- How many bytes the displacement takes. -/
def dispLength (mod : BitVec 2) (disp32 : Bool) : Nat := if mod = 1#2 then 1 else if mod = 2#2 ∨ disp32 then 4 else 0

/-- The displacement, whose bytes are `d 0`, `d 1`, …. -/
def dispOf (mod : BitVec 2) (disp32 : Bool) (d : Nat → Byte) : BitVec 32 :=
  if mod = 1#2 then (d 0).signExtend 32
  else if mod = 2#2 ∨ disp32 then BitVec.ofNat 32 (leNat [d 0, d 1, d 2, d 3]) else 0#32

theorem addressingForm_of_reg {b : Nat → Byte} (h : topField (b 0) = 3#2) :
    addressingForm b = (.reg (lowField (b 0)), midField (b 0), 1) := by
  simp [addressingForm, ← topField_toNat, ← midField_toNat, ← lowField_toNat, h]

/-- Both tables give the same row, with a SIB byte, and without one by whether a 32-bit displacement replaces the base. -/
theorem addressingForm_of_mem {b : Nat → Byte} (h : topField (b 0) ≠ 3#2) :
    addressingForm b =
      let adr := addressingOf (b 0) (b 1)
      (.mem adr.base adr.index adr.shift (dispOf (topField (b 0)) adr.disp32 fun k => b (headLength (b 0) + k)),
        midField (b 0), headLength (b 0) + dispLength (topField (b 0)) adr.disp32) := by
  simp only [addressingForm, ← topField_toNat, ← midField_toNat, ← lowField_toNat, addressingOf, headLength, dispLength,
    dispOf]
  by_cases hsib : lowField (b 0) = 4#3
  · simp [BitVec.toNat_eq_nat, h, hsib, addressingSib, and_comm]
  · by_cases hnone : lowField (b 0) = 5#3 ∧ topField (b 0) = 0#2
    · simp [BitVec.toNat_eq_nat, hnone, addressingPlain]
    · simp [BitVec.toNat_eq_nat, h, hsib, hnone, addressingPlain, and_comm (a := topField (b 0) = 0#2)]

end Sys2Proof.Machine
end

section
/-! SUPPORT. Fetches of bytes that are mapped, on a cache that agrees with the page table (spec/46_modrm_decoder.md R432, R439):
each is served with the bytes that the page table gives, also over the top of the address space. -/

namespace Sys2Proof.Machine

/-- Only lookups have come between: the invariant holds, the cache agrees, and nothing but the cache and the response may
differ. -/
structure Looked (c : BitVec 32) (m : Handle) (s t : State) : Prop where
  sound : Sound t
  coherent : t.coherent c m = true
  cache : onlyCache c s t
  stores : sameStores s t
  draws : t.draws = s.draws
  transfer : t.transfer c = s.transfer c

/-- From `a` on, modulo 2^32, the page table gives the bytes `b 0`, …, `b (n - 1)`. -/
def State.holds (s : State) (m : Handle) (a : BitVec 32) (b : Nat → Byte) (n : Nat) : Prop :=
  ∀ k, k < n → s.byteOf m (a + BitVec.ofNat 32 k).toNat = some (b k)

theorem Looked.refl {s : State} (hs : Sound s) {c : BitVec 32} {m : Handle} (h : s.coherent c m = true) : Looked c m s s :=
  ⟨hs, h, .refl c s, .refl s, rfl, rfl⟩

theorem Looked.trans {c : BitVec 32} {m : Handle} {s t u : State} (h : Looked c m s t) (g : Looked c m t u) :
    Looked c m s u :=
  ⟨g.sound, g.coherent, h.cache.trans g.cache, h.stores.trans g.stores, g.draws.trans h.draws, g.transfer.trans h.transfer⟩

theorem State.holds.mono {m : Handle} {s : State} {a : BitVec 32} {b : Nat → Byte} {n k : Nat} (h : s.holds m a b n)
    (hk : k ≤ n) : s.holds m a b k := fun j hj => h j (lt_of_lt_of_le hj hk)

/-- The bytes from the `i`-th on are still there after lookups. -/
theorem State.holds.drop {c : BitVec 32} {m : Handle} {s t : State} {a : BitVec 32} {b : Nat → Byte} (i : Nat) {n : Nat}
    (h : s.holds m a b (i + n)) (hl : Looked c m s t) :
    t.holds m (a + BitVec.ofNat 32 i) (fun k => b (i + k)) n := by
  intro k hk
  rw [byteOf_congr hl.stores.1 hl.stores.2.1, BitVec.add_assoc, ← BitVec.ofNat_add]
  exact h (i + k) (Nat.add_lt_add_left hk i)

section
variable {s : State} (hs : Sound s) {c : BitVec 32} {m : Handle} (h : s.coherent c m = true)
include hs h

theorem readOne_looked {place : Place} {v : Byte} (ho : s.placeOk place) (hp : s.pointsAt m place)
    (hv : s.byteOf m place.addr = some v) :
    ∃ next t, s.readOne c place = .done (v, next) t ∧ Looked c m s t ∧ t.placeOk next ∧ t.pointsAt m next ∧
      next.addr = (place.addr + 1) % 2 ^ 32 := by
  obtain ⟨e, he, -⟩ := Option.bind_eq_some_iff.1 hv
  obtain ⟨⟨w, next⟩, t, hone, ht, hst, hbyte, hnext⟩ := readOne_coherent hs h ho.1 hp (Option.isSome_of_eq_some he)
  have hmoved := readOne_sound hs c ho
  have htransfer := readOne_ends (R := fun s t => t.transfer c = s.transfer c) (fun _ => rfl)
    (fun s a => reach_transfer s c a .read) s place
  rw [hone] at hmoved htransfer
  obtain ⟨hsound, hok, haddr⟩ := hmoved
  cases hv.symm.trans hbyte
  exact ⟨next, t, hone, ⟨hsound, ht.coherent, ht.cache, hst, ht.draws, htransfer⟩, hok, hnext, haddr⟩

theorem fetch8_looked {a : BitVec 32} {b : Nat → Byte} (hb : s.holds m a b 1) :
    ∃ t, s.fetch8 c a = .done (b 0) t ∧ Looked c m s t := by
  have hv : s.byteOf m a.toNat = some (b 0) := by simpa using hb 0 Nat.one_pos
  obtain ⟨next, t, hone, ht, -⟩ := readOne_looked hs h (placeOk_start s a) nofun hv
  exact ⟨t, by simp only [State.fetch8, hone, Served.andThen], ht⟩

theorem readRun_looked {n : Nat} {place : Place} {a : BitVec 32} {b : Nat → Byte} (ho : s.placeOk place)
    (hp : s.pointsAt m place) (ha : place.addr = a.toNat) (hb : s.holds m a b n) :
    ∃ next t, s.readRun c n place = .done ((List.range n).map b, next) t ∧ Looked c m s t ∧
      BitVec.ofNat 32 next.addr = a + BitVec.ofNat 32 n := by
  induction n generalizing s place a b with
  | zero => exact ⟨place, s, rfl, .refl hs h, by simp [ha]⟩
  | succ n ih =>
    have hv : s.byteOf m place.addr = some (b 0) := by simpa [ha] using hb 0 (Nat.succ_pos n)
    obtain ⟨mid, t, hone, ht, hok, hpoints, haddr⟩ := readOne_looked hs h ho hp hv
    have hmid : mid.addr = (a + 1#32).toNat := by rw [haddr, ha, BitVec.toNat_add]; rfl
    have htail : t.holds m (a + 1#32) (fun k => b (1 + k)) n := State.holds.drop 1 (by rwa [Nat.add_comm]) ht
    obtain ⟨next, u, hrest, hu, hlast⟩ := ih ht.sound ht.coherent hok hpoints hmid htail
    refine ⟨next, u, ?_, ht.trans hu, ?_⟩
    · simp only [State.readRun, hone, hrest, Served.andThen, List.range_succ_eq_map, List.map_cons, List.map_map,
        Function.comp_def, Nat.succ_eq_one_add]
    · rw [hlast, BitVec.add_assoc, ← BitVec.ofNat_add, Nat.add_comm]

end

end Sys2Proof.Machine
end

section
/-! SUPPORT. The decoder on bytes that are mapped (spec/46_modrm_decoder.md R431–R439, R442): it comes to the displacement with
the fields of the bytes before it, and the command answers the row of the complete decode table. -/

namespace Sys2Proof.Machine

/-! ### Answers -/

/-- The command answers `r`, and from `s` on nothing but the cache, which agrees, and the response differs. -/
def Decodes (c : BitVec 32) (m : Handle) (s : State) (r : Results) (out : Out) : Prop :=
  ∃ t, out = .next t ∧ t.resp = some (.ok r) ∧ sameButTlb c s t ∧ t.coherent c m = true

/-- After lookups, under clocks that leave the same draws, an answer changes nothing else. -/
theorem Looked.decodes {c : BitVec 32} {m : Handle} {s t : State} (h : Looked c m s t) {k0 k : Clock}
    (hd : (t.setClock k).draws = (s.setClock k0).draws) (r : Results) :
    Decodes c m (s.setClock k0) r (.next ((t.setClock k).ok r)) := by
  obtain ⟨hparams, hport, hctx, hcpu, hfpu, hrm, -⟩ := h.cache
  obtain ⟨hmems, hblobs, hgraves⟩ := h.stores
  exact ⟨_, rfl, rfl, ⟨⟨hparams, hmems, hblobs, hgraves, hport, hctx⟩, hd, hcpu, hfpu, hrm, h.transfer⟩, h.coherent⟩

/-- The scheduler's share of an addressing form of `len` bytes: a 32-bit displacement, which just the forms of five bytes or more
have, asks for one (log 15). -/
def State.dispShare (s : State) (len : Nat) : Nat × State := if 5 ≤ len then s.slice 4 else (4, s)

theorem Looked.decodes_short {c : BitVec 32} {m : Handle} {s t : State} (h : Looked c m s t) {len : Nat} (hl : ¬ 5 ≤ len)
    (r : Results) : Decodes c m (s.dispShare len).2 r (.next (t.ok r)) := by
  rw [State.dispShare, if_neg hl]
  exact h.decodes (k0 := ⟨s.resp, s.draws.sched, s.draws.turns⟩) (k := ⟨t.resp, t.draws.sched, t.draws.turns⟩) h.draws r

/-! ### The 32-bit displacement (R439) -/

theorem slice_draws_congr {s t : State} (h : t.draws = s.draws) (n : Nat) : (t.slice n).2.draws = (s.slice n).2.draws := by
  unfold State.slice State.drawSched
  rw [h]
  split
  · exact h
  · cases s.draws.sched <;> rfl

/-- A displacement that nothing comes between is fetched whole. -/
theorem advance_fetch32 {s : State} (hs : Sound s) {c : BitVec 32} {m : Handle} (h : s.coherent c m = true) {a : BitVec 32}
    {d : Nat → Byte} (hd : s.holds m a d 4) {k : Clock} (hk : (s.slice 4).2 = s.setClock k) (hall : (s.slice 4).1 = 4)
    (base index : BitVec 4) (shift : BitVec 2) (reg : BitVec 3) :
    ∃ t, Looked c m s t ∧ s.advance c (fetch32 base index shift reg a) =
      .next ((t.setClock k).ok (.modRm (.mem base index shift (BitVec.ofNat 32 (leNat [d 0, d 1, d 2, d 3]))) reg
        (a + 4#32))) := by
  obtain ⟨next, t, hrun, ht, hnext⟩ := readRun_looked hs h (placeOk_start s a) nofun rfl hd
  refine ⟨t, ht, (advance_whole (x := fetch32 base index shift reg a) hk hall (move_of_dispRun hrun)).trans ?_⟩
  rw [Transfer.results, hnext]
  rfl

/-- The share that the lookups before the displacement leave is the one there was before them. -/
theorem decodes_fetch32 {s t : State} {c : BitVec 32} {m : Handle} (h : Looked c m s t) {a : BitVec 32} {d : Nat → Byte}
    (hd : t.holds m a d 4) (hall : (s.slice 4).1 = 4) (base index : BitVec 4) (shift : BitVec 2) (reg : BitVec 3) :
    Decodes c m (s.slice 4).2 (.modRm (.mem base index shift (BitVec.ofNat 32 (leNat [d 0, d 1, d 2, d 3]))) reg (a + 4#32))
      (t.advance c (fetch32 base index shift reg a)) := by
  obtain ⟨k0, hk0⟩ := s.slice_setClock 4
  obtain ⟨k, hk⟩ := t.slice_setClock 4
  obtain ⟨u, hu, he⟩ := advance_fetch32 h.sound h.coherent hd hk ((slice_congr h.draws 4).trans hall) base index shift reg
  have hdraws : (u.setClock k).draws = (s.setClock k0).draws := by
    rw [setClock_draws hu.draws, ← hk, slice_draws_congr h.draws, hk0]
  rw [hk0, he]
  exact (h.trans hu).decodes hdraws _

/-! ### The command -/

/-- How `DEC.MODRM` ends, by what the bytes before a 32-bit displacement give. -/
def completeDecode (c : BitVec 32) : Served Decoded → Out
  | .done (.whole r) t => .next (t.ok r)
  | .done (.fetching x) t => t.advance c x
  | .fault a t => .next (t.pageFault c a)
  | .noSuchByte => .fault .noSuchByte

theorem exec_decModRm_eq {s : State} {c : BitVec 32} (ha : (s.attached c).isSome = true) (cursor : BitVec 32) :
    exec (.decModRm c cursor) s = completeDecode c (s.decodeModRm c cursor) :=
  if_neg (by simpa [Option.isSome_iff_ne_none] using ha)

/-- After `i` bytes, at the displacement: one byte, four bytes or none, by the same conditions as the table's. -/
theorem decodeMem_answers {s t : State} {c : BitVec 32} {m : Handle} (h : Looked c m s t) {i : Nat} (hi : 1 ≤ i ∧ i ≤ 2)
    {cursor : BitVec 32} {d : Nat → Byte} {mod : BitVec 2} {adr : Addressing}
    (hd : t.holds m (cursor + BitVec.ofNat 32 i) d (dispLength mod adr.disp32))
    (hall : (s.dispShare (i + dispLength mod adr.disp32)).1 = 4) (reg : BitVec 3) :
    Decodes c m (s.dispShare (i + dispLength mod adr.disp32)).2
      (.modRm (.mem adr.base adr.index adr.shift (dispOf mod adr.disp32 d)) reg
        (cursor + BitVec.ofNat 32 (i + dispLength mod adr.disp32)))
      (completeDecode c (t.decodeMem c (cursor + BitVec.ofNat 32 i) mod reg adr)) := by
  rw [BitVec.ofNat_add, ← BitVec.add_assoc]
  unfold State.decodeMem
  unfold dispLength at *
  unfold dispOf
  by_cases hbyte : mod = 1#2
  · simp only [if_pos hbyte] at *
    obtain ⟨u, hfetch, hu⟩ := fetch8_looked h.sound h.coherent hd
    rw [hfetch]
    exact (h.trans hu).decodes_short (by omega) _
  · by_cases hwide : mod = 2#2 ∨ adr.disp32 = true
    · simp only [if_neg hbyte, if_pos hwide, State.dispShare, if_pos (show 5 ≤ i + 4 by omega)] at *
      exact decodes_fetch32 h hd hall adr.base adr.index adr.shift reg
    · simp only [if_neg hbyte, if_neg hwide] at *
      rw [BitVec.add_zero]
      exact h.decodes_short (by omega) _

section
variable {s : State} (hs : Sound s) {c cursor : BitVec 32} {m : Handle} (h : s.coherent c m = true) {b : Nat → Byte}
include hs h

/-- A memory operand: the decoder comes to the displacement with the fields of one or two bytes. -/
theorem decodeModRm_of_mem (hmem : topField (b 0) ≠ 3#2) (hb : s.holds m cursor b (headLength (b 0))) :
    ∃ t, Looked c m s t ∧ s.decodeModRm c cursor =
      t.decodeMem c (cursor + BitVec.ofNat 32 (headLength (b 0))) (topField (b 0)) (midField (b 0))
        (addressingOf (b 0) (b 1)) := by
  obtain ⟨t, hfetch, ht⟩ := fetch8_looked hs h (hb.mono (headLength_bounds _).1)
  unfold headLength at *
  by_cases hsib : lowField (b 0) = 4#3
  · simp only [if_pos hsib] at *
    obtain ⟨u, hfetch', hu⟩ := fetch8_looked ht.sound ht.coherent (State.holds.drop 1 (n := 1) hb ht)
    refine ⟨u, ht.trans hu, ?_⟩
    simp only [State.decodeModRm, addressingOf, hfetch, hfetch', Served.andThen, if_neg hmem, if_pos hsib]
  · refine ⟨t, ht, ?_⟩
    simp only [State.decodeModRm, addressingOf, hfetch, Served.andThen, if_neg hmem, if_neg hsib]

theorem decodeModRm_answers (hb : s.holds m cursor b (addressingForm b).2.2)
    (hall : (s.dispShare (addressingForm b).2.2).1 = 4) :
    Decodes c m (s.dispShare (addressingForm b).2.2).2
      (.modRm (addressingForm b).1 (addressingForm b).2.1 (cursor + BitVec.ofNat 32 (addressingForm b).2.2))
      (completeDecode c (s.decodeModRm c cursor)) := by
  by_cases hreg : topField (b 0) = 3#2
  · rw [addressingForm_of_reg hreg] at *
    obtain ⟨t, hfetch, ht⟩ := fetch8_looked hs h hb
    simp only [State.decodeModRm, hfetch, Served.andThen, if_pos hreg]
    exact ht.decodes_short (by decide) _
  · rw [addressingForm_of_mem hreg] at *
    obtain ⟨t, ht, he⟩ := decodeModRm_of_mem hs h hreg (hb.mono (Nat.le_add_right _ _))
    rw [he]
    exact decodeMem_answers ht (headLength_bounds _) (hb.drop _ ht) hall (midField (b 0))

end

/-- Settles O59: the context is attached, and the decoder's answer is the table's row for the bytes there. -/
theorem decoderFollowsTable : Obligations.DecoderFollowsTable := by
  intro s c cursor m b hinv h hm hb u hall
  rw [exec_decModRm_eq (attached_of_coherent h hm)]
  exact decodeModRm_answers ((inv_iff_sound s).1 hinv) h hb hall

end Sys2Proof.Machine
end

section
/-! SUPPORT. How a command ends, said once for all 123: with results, with a status 2…7, with one of the three conditions, or
with its access left under way (spec/30_encoding.md R112, R113; spec/60_exceptions.md R461, R462, R472, R474). -/

namespace Sys2Proof.Machine

/-- The response of a command that takes `s` to `t`, with what that response says of `t`. -/
inductive Reply (i : Instr) (s t : State) : Option Response → Prop
  | ok (r : Results) : Reply i s t (some (.ok r))
  | fail (f : Failure) (ht : sameButDraws s t) : Reply i s t (some (.fail f))
  | divideError (hi : opcode i = 0x0112 ∨ opcode i = 0x0113) (ht : sameButResponse s t) :
      Reply i s t (some (.fault .divideError 0#32))
  | floatError (hi : unitOf i = 3) (ht : sameButFpu (contextOf i) s t) (hm : (s.fpu (contextOf i)).masks ≠ 0x3F#6) :
      Reply i s t (some (.fault .floatError 0#32))
  | pageFault (a : BitVec 32) (hi : opcode i ∈ [0x0500, 0x0501, 0x0700])
      (hcpu : t.cpu (contextOf i) = { s.cpu (contextOf i) with faultAddr := a })
      (hfpu : t.fpu (contextOf i) = s.fpu (contextOf i)) (hrm : t.rm (contextOf i) = s.rm (contextOf i)) :
      Reply i s t (some (.fault .pageFault a))
  | underWay (hi : opcode i ∈ [0x0500, 0x0501, 0x0700]) (ht : (t.transfer (contextOf i)).isSome = true) : Reply i s t none

/-- `t` is a next state of the command from `s` with the response that it gives. -/
def Replied (i : Instr) (s t : State) : Prop := Reply i s t t.resp

theorem replied_ok (i : Instr) (s t : State) (r : Results) : Replied i s (t.ok r) := .ok r

theorem replied_fail (i : Instr) {s t : State} (h : sameButDraws s t) (f : Failure) : Replied i s (t.fail f) := .fail f h

/-! ### Raising `FLOAT_ERROR` (R261) -/

/-- An operation on the FPU `f` that raises has found a mask bit that is 0. -/
def Fpu.RaisesUnmasked (f : Fpu) (r : Fpu × Bool) : Prop := r.2 = true → f.masks ≠ 0x3F#6

theorem Fpu.anyUnmasked_of_masked {f : Fpu} (h : f.masks = 0x3F#6) (fl : Flags6) : f.anyUnmasked fl = false := by
  simp [Fpu.anyUnmasked, h]

theorem Fpu.finish_raisesUnmasked {f g : Fpu} (h : f.Proceeds g) (fl : Flags6) (w : Fpu → Fpu) :
    f.RaisesUnmasked (g.finish fl w) := by
  intro hr hm
  rw [Fpu.finish_completes w ((Fpu.anyUnmasked_congr h.control fl).trans (Fpu.anyUnmasked_of_masked hm fl))] at hr
  cases hr

theorem Fpu.push_raisesUnmasked {f g : Fpu} (h : f.Proceeds g) (v : F80) (fl : Flags6) : f.RaisesUnmasked (g.push v fl) := by
  unfold Fpu.push
  split
  · exact Fpu.finish_raisesUnmasked (h.trans (g.stackFault_proceeds true)) _ _
  · exact Fpu.finish_raisesUnmasked h _ _

theorem Fpu.unary_raisesUnmasked (f : Fpu) (dst : BitVec 3) (op : F80 → F80 × Flags6) :
    f.RaisesUnmasked (f.unary dst op) :=
  Fpu.finish_raisesUnmasked (f.rd_proceeds dst) _ _

theorem Fpu.binary_raisesUnmasked (f : Fpu) (dst src : BitVec 3) (op : F80 → F80 → F80 × Flags6) :
    f.RaisesUnmasked (f.binary dst src op) :=
  Fpu.finish_raisesUnmasked ((f.rd_proceeds dst).trans (Fpu.rd_proceeds _ src)) _ _

theorem Fpu.store_raisesUnmasked (f : Fpu) (fl : F80 → Flags6) : f.RaisesUnmasked (f.store fl) :=
  Fpu.finish_raisesUnmasked (f.rd_proceeds 0#3) _ _

theorem fpuDone_replied {i : Instr} {s t : State} (ht : sameButDraws s t) {r : Fpu × Bool}
    (hr : (s.fpu (contextOf i)).RaisesUnmasked r) (results : Results) (hu : unitOf i = 3 := by simp [unitOf, opcode]) :
    Replied i s (t.fpuDone (contextOf i) r results) := by
  have hframe : sameButFpu (contextOf i) s (t.fpuDone (contextOf i) r results) := by
    rw [← ht]
    exact fpuDone_sameButFpu t _ r results
  unfold Replied
  rw [fpuDone_resp]
  split
  · next h => exact .floatError hu hframe (hr h)
  · exact .ok results

/-! ### The commands that are no access -/

theorem translate_sameButDraws_of_fail {s t : State} {m : Handle} {addr : Nat} {kind : Access} {f : Failure}
    (h : s.translate m addr kind = (.fail f, t)) : sameButDraws s t := by
  obtain ⟨hmems, hblobs, hgraves⟩ := translate_sameStores_of_fail h
  have hrest := translate_sameRest s m addr kind
  rw [h] at hrest
  obtain ⟨hparams, hctxs, hport⟩ := hrest
  unfold sameButDraws
  rw [hparams, hmems, hblobs, hgraves, hctxs, hport]

theorem asmTranslate_replied {s t : State} {m : BitVec 64} {addr : BitVec 32} {kind : Access}
    (he : exec (.asmTranslate m addr kind) s = .next t) : Replied (.asmTranslate m addr kind) s t := by
  obtain ⟨b, o, f, u, -, rfl⟩ | ⟨f, u, hu, rfl⟩ := exec_asmTranslate_next he
  · exact replied_ok _ s u _
  · exact replied_fail _ (translate_sameButDraws_of_fail hu) f

theorem cpuDone_replied (i : Instr) (s : State) (c : BitVec 32) (u : Option Cpu) : Replied i s (s.cpuDone c u) := by
  unfold State.cpuDone
  split
  · exact replied_ok i s _ _
  · exact replied_fail i (.refl s) _

theorem mapChecked_replied (i : Instr) (s : State) (m : Handle) (page count : Nat) (cells : Memory) (len : Nat)
    (flags : BitVec 7) : Replied i s (s.mapChecked m page count cells len flags) := by
  unfold State.mapChecked
  split
  · exact replied_fail i (drawOom_sameButDraws s) _
  · exact replied_ok i s _ _

/-- Every command but `ASM.TRANSLATE`, `TLB.READ`, `TLB.WRITE` and `DEC.MODRM` takes a next state from any state. -/
theorem exec_replied {i : Instr} (hi : opcode i ∉ [0x0409, 0x0500, 0x0501, 0x0700]) (s : State) :
    ∃ t, exec i s = .next t ∧ Replied i s t := by
  have refused : ∀ f, ∃ t, .next (s.fail f) = (.next t : Out) ∧ Replied i s t := fun f => ⟨_, rfl, replied_fail i (.refl s) f⟩
  have done : ∀ u r, ∃ t, .next (State.ok u r) = (.next t : Out) ∧ Replied i s t := fun u r => ⟨_, rfl, replied_ok i s u r⟩
  cases i
  case asmTranslate | tlbRead | tlbWrite | decModRm => exact absurd (by simp [opcode]) hi
  case wiFromU64 | wiFromS64 | wiToU64 | wiToS64 | wiUcmp | wiScmp | wiClz | wiNot | wiAnd | wiOr | wiUadd | wiSadd | wiUsub
      | wiSsub | wiUmul | wiSmul | wiNeg | feSetRm | feGetRm | feFromI64 | feToI64 | feFromF64 | feToF64 | feAdd | feSub
      | feMul | feDiv | feMod | feRem | feLog2 | feSqrt | feScale | feIsNan | feIsInf | feIsZero | feIsDenormal
      | feIsSupported | feCmp | feLt | feEq | feNeg | feAbs | fpuInit | fpuLdCw | fpuGetSt | fpuSetSt | fpuStCw | fpuStSw
      | cpuGetReg32 | cpuGetReg16 | cpuGetReg8 | cpuGetEip | cpuGetXmm | cpuGetEflags | cpuGetFaultAddr | cpuSetReg32
      | cpuSetReg16 | cpuSetReg8 | cpuSetEip | cpuSetXmm | cpuRecord | cpuMaterialize | cpuExpand | cpuSetEflags =>
    exact done _ _
  -- unit WI
  case wiShl | wiShr =>
    simp only [exec, execWiShl, execWiShr]
    split
    · exact done _ _
    · exact refused _
  case wiUdiv | wiSdiv =>
    simp only [exec, execWiUdiv, execWiSdiv]
    split
    · exact ⟨_, rfl, .divideError (by simp [opcode]) rfl⟩
    · exact done _ _
  -- unit FPU
  case fpuLd c n =>
    exact ⟨_, rfl, fpuDone_replied (i := .fpuLd c n) (.refl s) (Fpu.push_raisesUnmasked (Fpu.rd_proceeds _ n) _ _) _⟩
  case fpuSt | fpuPop => exact ⟨_, rfl, fpuDone_replied (.refl s) (Fpu.finish_raisesUnmasked (Fpu.rd_proceeds _ _) _ _) _⟩
  case fpuLdI16 | fpuLdI32 | fpuLdI64 | fpuLdF32 | fpuLdF64 | fpuLdF80 | fpuConst1 | fpuConstL2T | fpuConstL2E | fpuConstPi
      | fpuConstLg2 | fpuConstLn2 | fpuConstZ =>
    exact ⟨_, rfl, fpuDone_replied (.refl s) (Fpu.push_raisesUnmasked (.refl _) _ _) _⟩
  case fpuStI16 | fpuStI32 | fpuStI64 | fpuStF32 | fpuStF64 | fpuStF80 =>
    exact ⟨_, rfl, fpuDone_replied (.refl s) (Fpu.store_raisesUnmasked _ _) _⟩
  case fpuAdd | fpuSub | fpuMul | fpuDiv | fpuMod | fpuRem | fpuScale =>
    exact ⟨_, rfl, fpuDone_replied (drawNan_sameButDraws s) (Fpu.binary_raisesUnmasked _ _ _ _) _⟩
  case fpuNeg | fpuAbs => exact ⟨_, rfl, fpuDone_replied (.refl s) (Fpu.unary_raisesUnmasked _ _ _) _⟩
  case fpuSqrt | fpuLog2 => exact ⟨_, rfl, fpuDone_replied (drawNan_sameButDraws s) (Fpu.unary_raisesUnmasked _ _ _) _⟩
  case fpuCom c x y =>
    exact ⟨_, rfl, fpuDone_replied (i := .fpuCom c x y) (.refl s)
      (Fpu.finish_raisesUnmasked ((Fpu.rd_proceeds _ x).trans (Fpu.rd_proceeds _ y)) _ _) _⟩
  -- unit ASM
  case asmCreate =>
    simp only [exec, execAsmCreate]
    split
    · exact ⟨_, rfl, replied_fail _ (drawOom_sameButDraws s) _⟩
    · exact done _ _
  case asmRetain =>
    simp only [exec, execAsmRetain]
    split
    · exact refused _
    · exact done _ _
  case asmRelease =>
    simp only [exec, execAsmRelease]
    split
    · exact refused _
    · split <;> exact done _ _
  case asmMap =>
    simp only [exec, execAsmMap]
    split
    · exact refused _
    · split
      · exact refused _
      · split
        · exact refused _
        · exact ⟨_, rfl, mapChecked_replied ..⟩
  case asmMapAnon =>
    simp only [exec, execAsmMapAnon]
    split
    · exact refused _
    · exact ⟨_, rfl, mapChecked_replied ..⟩
  case asmUnmap | asmSetProt =>
    simp only [exec, execAsmUnmap, execAsmSetProt]
    split
    · exact refused _
    · split
      · exact refused _
      · exact done _ _
  case asmCow =>
    simp only [exec, execAsmCow]
    split
    · exact refused _
    · split
      · exact refused _
      · split
        · exact ⟨_, rfl, replied_fail _ (drawOom_sameButDraws s) _⟩
        · exact done _ _
  case asmFindHole =>
    simp only [exec, execAsmFindHole]
    split
    · exact refused _
    · split
      · exact refused _
      · exact done _ _
  -- units TLB, CPU and DEC
  case tlbFlush | tlbRevalidate | tlbAttach =>
    simp only [exec, execTlbFlush, execTlbRevalidate, execTlbAttach]
    split
    · exact refused _
    · exact done _ _
  case cpuGetSeg | cpuGetFlag =>
    simp only [exec, execCpuGetSeg, execCpuGetFlag]
    split
    · exact done _ _
    · exact refused _
  case cpuSetSeg | cpuSetFlag => exact ⟨_, rfl, cpuDone_replied ..⟩
  case decEa =>
    simp only [exec, execDecEa]
    split
    · exact refused _
    · split
      · exact done _ _
      · exact refused _

/-! ### Accesses -/

theorem accessEnds_replied {i : Instr} (hi : opcode i ∈ [0x0500, 0x0501, 0x0700]) {s u t : State}
    (hu : onlyCache (contextOf i) s u) (ht : accessEnds (contextOf i) u t) : Replied i s t := by
  obtain ⟨-, -, -, hcpu, hfpu, hrm, -⟩ := hu
  obtain ⟨r, rfl⟩ | ⟨a, rfl⟩ | ⟨y, rfl⟩ := ht
  · exact replied_ok i s u r
  · refine .pageFault _ hi ?_ ?_ ?_
    · rw [← hcpu]
      exact State.setCpu_cpu_same u _ _
    · exact (State.setCpu_fpu_same u _ _).trans hfpu
    · exact (State.setCpu_rm_same u _ _).trans hrm
  · exact .underWay hi (by rw [State.park_transfer]; rfl)

theorem advance_replied {i : Instr} (hi : opcode i ∈ [0x0500, 0x0501, 0x0700]) {s u t : State} {x : Transfer}
    (hu : onlyCache (contextOf i) s u) (he : u.advance (contextOf i) x = .next t) : Replied i s t := by
  obtain ⟨v, hv, hends⟩ := advance_cases he
  exact accessEnds_replied hi (hu.trans hv) (hends.imp_right (Or.imp_right fun ⟨y, hy, _⟩ => ⟨y, hy⟩))

theorem tlbRead_replied {s t : State} {c addr n : BitVec 32} (he : exec (.tlbRead c addr n) s = .next t) :
    Replied (.tlbRead c addr n) s t := by
  obtain hrefused | ⟨ha, hb⟩ := exec_tlbRead_cases s c addr n
  · cases hrefused.symm.trans he
    exact replied_fail _ (.refl s) _
  · rw [exec_tlbRead_advance ha hb] at he
    exact advance_replied (i := .tlbRead c addr n) (by simp [opcode]) (.refl c s) he

theorem tlbWrite_replied {s t : State} {c addr : BitVec 32} {data : List Byte}
    (he : exec (.tlbWrite c addr data) s = .next t) : Replied (.tlbWrite c addr data) s t := by
  obtain hrefused | ⟨ha, hb⟩ := exec_tlbWrite_cases s c addr data
  · cases hrefused.symm.trans he
    exact replied_fail _ (.refl s) _
  · rw [exec_tlbWrite_advance ha hb] at he
    exact advance_replied (i := .tlbWrite c addr data) (by simp [opcode]) (.refl c s) he

/-- A decode that is not refused is one of an attached context (R503). -/
theorem exec_decModRm_cases (s : State) (c cursor : BitVec 32) :
    exec (.decModRm c cursor) s = .next (s.fail .illegalOperand) ∨
      exec (.decModRm c cursor) s = completeDecode c (s.decodeModRm c cursor) := by
  cases ha : s.attached c with
  | none => exact .inl (if_pos (by rw [ha]; rfl))
  | some _ => exact .inr (exec_decModRm_eq (by rw [ha]; rfl) cursor)

theorem decModRm_replied {s t : State} {c cursor : BitVec 32} (he : exec (.decModRm c cursor) s = .next t) :
    Replied (.decModRm c cursor) s t := by
  have hi : opcode (.decModRm c cursor) ∈ [0x0500, 0x0501, 0x0700] := by simp [opcode]
  have hcache := decodeModRm_onlyCache s c cursor
  obtain h | h := exec_decModRm_cases s c cursor <;> rw [h] at he
  · cases he
    exact replied_fail _ (.refl s) _
  · rcases hd : s.decodeModRm c cursor with ⟨r | x, u⟩ | ⟨a, u⟩ | _ <;> rw [hd] at he hcache
    · cases he
      exact replied_ok _ s u r
    · exact advance_replied hi hcache he
    · cases he
      exact accessEnds_replied hi hcache (.inr (.inl ⟨a, rfl⟩))
    · cases he

/-! ### Every command -/

/-- The commands that do not take a next state from every state (log 14). -/
theorem stopping_command {i : Instr} (hi : opcode i ∈ [0x0409, 0x0500, 0x0501, 0x0700]) :
    (∃ m addr kind, i = .asmTranslate m addr kind) ∨ (∃ c addr n, i = .tlbRead c addr n) ∨
      (∃ c addr data, i = .tlbWrite c addr data) ∨ ∃ c cursor, i = .decModRm c cursor := by
  cases i <;> simp [opcode] at hi ⊢

theorem exec_reply {i : Instr} {s t : State} (he : exec i s = .next t) : Reply i s t t.resp := by
  by_cases hi : opcode i ∈ [0x0409, 0x0500, 0x0501, 0x0700]
  · obtain ⟨m, addr, kind, rfl⟩ | ⟨c, addr, n, rfl⟩ | ⟨c, addr, data, rfl⟩ | ⟨c, cursor, rfl⟩ := stopping_command hi
    · exact asmTranslate_replied he
    · exact tlbRead_replied he
    · exact tlbWrite_replied he
    · exact decModRm_replied he
  · obtain ⟨u, hu, hr⟩ := exec_replied hi s
    cases hu.symm.trans he
    exact hr

theorem Reply.of_fail {i : Instr} {s t : State} {f : Failure} (h : Reply i s t (some (.fail f))) : sameButDraws s t := by
  cases h with
  | fail _ ht => exact ht

theorem Reply.of_divideError {i : Instr} {s t : State} {info : BitVec 32}
    (h : Reply i s t (some (.fault .divideError info))) : sameButResponse s t := by
  cases h with
  | divideError _ ht => exact ht

theorem Reply.of_pageFault {i : Instr} {s t : State} {info : BitVec 32} (h : Reply i s t (some (.fault .pageFault info))) :
    ({ t.cpu (contextOf i) with faultAddr := (s.cpu (contextOf i)).faultAddr } : Cpu) = s.cpu (contextOf i) ∧
      t.fpu (contextOf i) = s.fpu (contextOf i) ∧ t.rm (contextOf i) = s.rm (contextOf i) := by
  cases h with
  | pageFault _ _ hcpu hfpu hrm => exact ⟨by rw [hcpu], hfpu, hrm⟩

theorem Reply.of_floatError {i : Instr} {s t : State} {info : BitVec 32} (h : Reply i s t (some (.fault .floatError info))) :
    sameButFpu (contextOf i) s t ∧ (s.fpu (contextOf i)).masks ≠ 0x3F#6 := by
  cases h with
  | floatError _ ht hm => exact ⟨ht, hm⟩

/-- Settles O11: the response says what the command has left. -/
theorem failingAndRaisingArePrecise : Obligations.FailingAndRaisingArePrecise :=
  ⟨fun _ _ _ _ he hr => Reply.of_fail (hr ▸ exec_reply he), fun _ _ _ _ he =>
    ⟨fun hr => Reply.of_divideError (hr ▸ exec_reply he), fun hr => Reply.of_pageFault (hr ▸ exec_reply he),
      fun hr => Reply.of_floatError (hr ▸ exec_reply he)⟩⟩

/-- Settles O12: of the ways to end, three raise, each one its own condition. -/
theorem conditionsRaised : Obligations.ConditionsRaised := by
  refine ⟨rfl, rfl, rfl, rfl, rfl, rfl, rfl, rfl, rfl, fun s t i cond info he hr => ?_⟩
  have hreply := exec_reply he
  rw [hr] at hreply
  cases hreply with
  | divideError hi _ => exact .inl ⟨rfl, rfl, hi⟩
  | pageFault _ hi hcpu _ _ => exact .inr (.inl ⟨rfl, by rw [hcpu], by simpa using hi⟩)
  | floatError hi _ _ => exact .inr (.inr ⟨rfl, rfl, hi⟩)

end Sys2Proof.Machine
end

section
/-! SUPPORT. From the invariant of the block on, nothing stops but a packet that is cut short (spec/60_exceptions.md R460, R470;
log 3, log 14, log 15). -/

namespace Sys2Proof.Machine

/-! ### The decoder (R431, R439) -/

theorem answers_fetch8 {s : State} (h : Sound s) (c a : BitVec 32) : (s.fetch8 c a).Answers :=
  (readOne_answers h c (placeOk_start s a)).andThen (readOne_sound h c (placeOk_start s a)) fun _ _ _ => trivial

theorem answers_decodeMem {s : State} (h : Sound s) (c a : BitVec 32) (mod : BitVec 2) (reg : BitVec 3) (adr : Addressing) :
    (s.decodeMem c a mod reg adr).Answers := by
  unfold State.decodeMem
  split
  · exact (answers_fetch8 h c a).andThen (fetch8_sound h c a) fun _ _ _ => trivial
  · split <;> trivial

theorem answers_decodeModRm {s : State} (h : Sound s) (c cursor : BitVec 32) : (s.decodeModRm c cursor).Answers := by
  refine (answers_fetch8 h c cursor).andThen (fetch8_sound h c cursor) fun b t ht => ?_
  split
  · trivial
  · split
    · exact (answers_fetch8 ht c _).andThen (fetch8_sound ht c _) fun _ _ hu => answers_decodeMem hu c _ _ _ _
    · exact answers_decodeMem ht c _ _ _ _

/-! ### Commands -/

theorem advance_next {s : State} (h : Sound s) (c : BitVec 32) {x : Transfer} (hx : x.Ready s) :
    ∃ t, s.advance c x = .next t := by
  obtain ⟨t, -, ht, -⟩ := advance_ends h c hx
  exact ⟨t, ht⟩

theorem asmTranslate_next {s : State} (h : Sound s) (m : BitVec 64) (addr : BitVec 32) (kind : Access) :
    ∃ t, exec (.asmTranslate m addr kind) s = .next t := by
  have hanswers := translate_answers h.tables m.toNat addr.isLt kind
  rcases ht : s.translate m.toNat addr.toNat kind with ⟨⟨b, o, f⟩ | f | _, t⟩
  · exact ⟨_, exec_asmTranslate_ok ht⟩
  · exact ⟨_, exec_asmTranslate_fail ht⟩
  · rw [ht] at hanswers
    exact absurd rfl hanswers

theorem tlbRead_next {s : State} (h : Sound s) (c addr n : BitVec 32) : ∃ t, exec (.tlbRead c addr n) s = .next t := by
  obtain hrefused | ⟨ha, hb⟩ := exec_tlbRead_cases s c addr n
  · exact ⟨_, hrefused⟩
  · rw [exec_tlbRead_advance ha hb]
    exact advance_next h c ⟨placeOk_start s addr, hb, n.isLt.le⟩

theorem tlbWrite_next {s : State} (h : Sound s) (c addr : BitVec 32) (data : List Byte) :
    ∃ t, exec (.tlbWrite c addr data) s = .next t := by
  obtain hrefused | ⟨ha, hb⟩ := exec_tlbWrite_cases s c addr data
  · exact ⟨_, hrefused⟩
  · rw [exec_tlbWrite_advance ha hb]
    exact advance_next h c ⟨placeOk_start s addr, hb, (Nat.le_add_left _ _).trans hb⟩

theorem decModRm_next {s : State} (h : Sound s) (c cursor : BitVec 32) : ∃ t, exec (.decModRm c cursor) s = .next t := by
  obtain hrefused | hdecode := exec_decModRm_cases s c cursor
  · exact ⟨_, hrefused⟩
  · have hanswers := answers_decodeModRm h c cursor
    have hsound := decodeModRm_sound h c cursor
    rw [hdecode]
    rcases hd : s.decodeModRm c cursor with ⟨r | x, u⟩ | ⟨a, u⟩ | _ <;> rw [hd] at hanswers hsound
    · exact ⟨_, rfl⟩
    · exact advance_next hsound.1 c (hsound.2 x rfl)
    · exact ⟨_, rfl⟩
    · exact hanswers.elim

/-- No command stops (R460). -/
theorem exec_next {s : State} (h : Sound s) (i : Instr) : ∃ t, exec i s = .next t := by
  by_cases hi : opcode i ∈ [0x0409, 0x0500, 0x0501, 0x0700]
  · obtain ⟨m, addr, kind, rfl⟩ | ⟨c, addr, n, rfl⟩ | ⟨c, addr, data, rfl⟩ | ⟨c, cursor, rfl⟩ := stopping_command hi
    · exact asmTranslate_next h m addr kind
    · exact tlbRead_next h c addr n
    · exact tlbWrite_next h c addr data
    · exact decModRm_next h c cursor
  · obtain ⟨t, ht, -⟩ := exec_replied hi s
    exact ⟨t, ht⟩

/-- A command has responded, or its access is under way. -/
theorem Reply.responded {i : Instr} {s t : State} {r : Option Response} (h : Reply i s t r) :
    r.isSome = true ∨
      r = none ∧ (t.transfer (contextOf i)).isSome = true ∧ opcode i ∈ [0x0500, 0x0501, 0x0700] := by
  cases h with
  | underWay hi ht => exact .inr ⟨rfl, ht, hi⟩
  | ok | fail | divideError | floatError | pageFault => exact .inl rfl

/-! ### Steps -/

theorem resume_next {s : State} (h : Sound s) (c : BitVec 32) : ∃ t, s.resume c = .next t := by
  cases hx : s.transfer c with
  | none => exact ⟨s, by simp [State.resume, hx]⟩
  | some x =>
    obtain ⟨t, ht, -⟩ := accessGoesOn s c x ((inv_iff_sound s).2 h) hx
    exact ⟨t, ht⟩

theorem step_next_or_truncated {s : State} (h : Sound s) :
    (∃ t, step s = .next t) ∨
      step s = .refused .truncatedCommand ∧
        ∃ packet later, s.port = packet :: later ∧ decode packet = .error .truncated := by
  rcases hturn : s.turn with ⟨_ | c, u⟩
  case some => exact .inl (step_of_resume hturn ▸ resume_next (h.core (turn_sameCore hturn []).1) c)
  case none =>
    cases hp : s.port with
    | nil => exact .inl ⟨u, step_of_idle hturn hp⟩
    | cons packet later =>
      cases hd : decode packet with
      | ok i => exact .inl (step_of_command hturn hp hd ▸ exec_next (h.core (turn_sameCore hturn later).2) i)
      | error r =>
        have hstep := step_of_reject hturn hp hd
        cases r with
        | illegalCommand => exact .inl ⟨_, hstep⟩
        | illegalOperand => exact .inl ⟨_, hstep⟩
        | truncated => exact .inr ⟨hstep, packet, later, rfl, hd⟩

/-- Settles O8: every command takes a next state, whose response is one of those that a command can give. -/
theorem everyCommandAnswers : Obligations.EveryCommandAnswers := by
  refine ⟨fun s i h => ?_, fun s h => step_next_or_truncated ((inv_iff_sound s).1 h)⟩
  obtain ⟨t, ht⟩ := exec_next ((inv_iff_sound s).1 h) i
  exact ⟨t, ht, (exec_reply ht).responded⟩

end Sys2Proof.Machine
end
